-- ==== Sys2Proof/Word.lean ====
section
/-! DEFINITION. The word types of the block (00_scope.md R11: NBITS = 32, CMDW = 64, samples and stream bytes of 8 bits). -/

namespace Sys2Proof

/-- One 8-bit sample or one byte of the stream. -/
abbrev Byte := BitVec 8

/-- One 32-bit operand, result or register word. -/
abbrev Word := BitVec 32

/-- One command word (30_encoding.md R90). -/
abbrev CmdWord := BitVec 64

/-- One response word (30_encoding.md R92). -/
abbrev RspWord := BitVec 64

end Sys2Proof
end

