-- ==== Sys2Proof/Config.lean ====
section
/-! DEFINITION. What an implementation fixes (00_scope.md R11) and the one free value of the model. -/

namespace Sys2Proof.Config

/-- The OPEN parameters of 00_scope.md R11 (decision D27). They stand in State, so that a claim about
every state is a claim about every implementation (log 2). -/
structure Params where
  maxW : Nat
  maxH : Nat
deriving DecidableEq, Repr

/-- The default of R11: MAX_W = MAX_H = 4096 (DESIGN CHOICE of the reset state only, log 2). -/
def Params.standard : Params := { maxW := 4096, maxH := 4096 }

/-- The range R11 gives the two parameters: 1 to 65535. -/
def Params.inRange (p : Params) : Bool :=
  decide (1 ≤ p.maxW ∧ p.maxW ≤ 65535 ∧ 1 ≤ p.maxH ∧ p.maxH ≤ 65535)

/-- AMPLITUDE of R11: the value range of the quantizer (decision D12). -/
def amplitude : Nat := 256

/-- RUN_MAX of R11: the largest run count the run-length coder holds (decision D11). -/
def runMax : Nat := 2147483647

/-- FREE VALUE (20_memory.md R62, 93_implementation_defined.md U1, log 3): what the n-th read of an unwritten
sample gives. It has no body, so a claim holds whatever the bytes are. -/
opaque freeSample : Nat → Byte

end Sys2Proof.Config
end

