-- ==== Sys2Proof/Syntax.lean ====
section
/-! DEFINITION. The 28 commands of 30_encoding.md R95, one constructor per row of spec/opcode_table.json. A constructor
holds the fields the row leaves free: a bit that the row's mask fixes to zero is no operand (PUTBIT and PXRD keep
one bit of A and of B, IPRED none of B). -/

namespace Sys2Proof

/-- A command with its operand fields (30_encoding.md R94, R95). -/
inductive Instr where
  /-- NOP (47_system.md R250) -/
  | nop
  /-- RESET (47_system.md R251) -/
  | reset
  /-- CSRR csr (47_system.md R252) -/
  | csrr (csr : BitVec 8)
  /-- CSRW csr, value (47_system.md R253) -/
  | csrw (csr : BitVec 8) (value : Word)
  /-- PXWR ch, row, col, sample (47_system.md R254) -/
  | pxwr (ch sample : BitVec 8) (row col : BitVec 16)
  /-- PXRD buf, ch, row, col (47_system.md R255) -/
  | pxrd (ch : BitVec 8) (buf : BitVec 1) (row col : BitVec 16)
  /-- CPREF (47_system.md R256) -/
  | cpref
  /-- BOPENW (40_bitio.md R125) -/
  | bopenw
  /-- BOPENR (40_bitio.md R126) -/
  | bopenr
  /-- BCLOSE (40_bitio.md R127) -/
  | bclose
  /-- PUTBIT bit (40_bitio.md R128) -/
  | putbit (bit : BitVec 1)
  /-- PUTBITS n, value (40_bitio.md R129) -/
  | putbits (n : BitVec 8) (value : Word)
  /-- GETBIT (40_bitio.md R130) -/
  | getbit
  /-- GETBITS n (40_bitio.md R131) -/
  | getbits (n : BitVec 8)
  /-- GENC n (41_golomb.md R143) -/
  | genc (n : Word)
  /-- GDEC (41_golomb.md R144) -/
  | gdec
  /-- RPUSH v (42_runlength.md R161) -/
  | rpush (v : Word)
  /-- RFLUSH (42_runlength.md R162) -/
  | rflush
  /-- RPOP (42_runlength.md R163) -/
  | rpop
  /-- QLEVEL ch, v (43_quantizer.md R174) -/
  | qlevel (ch : BitVec 8) (v : Word)
  /-- QVALUE ch, level (43_quantizer.md R175) -/
  | qvalue (ch : BitVec 8) (level : Word)
  /-- QUANT ch, v (43_quantizer.md R176) -/
  | quant (ch : BitVec 8) (v : Word)
  /-- IPRED ch, row, col (44_intra.md R186) -/
  | ipred (ch : BitVec 8) (row col : BitVec 16)
  /-- MATCH row, col (45_motion.md R204) -/
  | matchBlock (row col : BitVec 16)
  /-- WRHDR (46_container.md R225) -/
  | wrhdr
  /-- RDHDR (46_container.md R226) -/
  | rdhdr
  /-- ENCF (46_container.md R233) -/
  | encf
  /-- DECF (46_container.md R236) -/
  | decf
deriving DecidableEq, Repr

end Sys2Proof
end

