-- ==== Sys2Proof/Machine/Operands.lean ====
section
/-! DEFINITION. Operand assembly and the legal operand values of 30_encoding.md R94 and R97, and the CSR map of
10_state.md R23 (names, addresses, widths, access, lock). -/

namespace Sys2Proof.Machine

/-- The 25 control and status registers of 10_state.md R23. -/
inductive Csr where
  | id | status | cause | finfo | variant | hdrcfg | colorSpace | chroma | width | height | m | frameCount
  | blockSize | intraPeriod | searchRadius | qbitsY | qbitsU | qbitsV | meMetric | frameIdx | refIdx
  | runCount | lastValue | bitcnt | bitbuf
deriving DecidableEq, Repr

/-- The two frame buffers of 10_state.md R50. -/
inductive Buffer where
  | cur | ref
deriving DecidableEq, Repr

/-- 10_state.md R23: the register at an address; addresses 0x19 to 0xFF are unlisted. -/
def csrAt (a : BitVec 8) : Option Csr :=
  match a.toNat with
  | 0x00 => some .id
  | 0x01 => some .status
  | 0x02 => some .cause
  | 0x03 => some .finfo
  | 0x04 => some .variant
  | 0x05 => some .hdrcfg
  | 0x06 => some .colorSpace
  | 0x07 => some .chroma
  | 0x08 => some .width
  | 0x09 => some .height
  | 0x0A => some .m
  | 0x0B => some .frameCount
  | 0x0C => some .blockSize
  | 0x0D => some .intraPeriod
  | 0x0E => some .searchRadius
  | 0x0F => some .qbitsY
  | 0x10 => some .qbitsU
  | 0x11 => some .qbitsV
  | 0x12 => some .meMetric
  | 0x13 => some .frameIdx
  | 0x14 => some .refIdx
  | 0x15 => some .runCount
  | 0x16 => some .lastValue
  | 0x17 => some .bitcnt
  | 0x18 => some .bitbuf
  | _ => none

/-- 10_state.md R23, column "bits": the width of a register. -/
def csrWidth : Csr → Nat
  | .id => 32
  | .status => 6
  | .cause => 8
  | .finfo => 8
  | .variant => 2
  | .hdrcfg => 2
  | .colorSpace => 3
  | .chroma => 3
  | .width => 32
  | .height => 32
  | .m => 8
  | .frameCount => 32
  | .blockSize => 8
  | .intraPeriod => 8
  | .searchRadius => 8
  | .qbitsY => 8
  | .qbitsU => 8
  | .qbitsV => 8
  | .meMetric => 2
  | .frameIdx => 32
  | .refIdx => 32
  | .runCount => 32
  | .lastValue => 32
  | .bitcnt => 4
  | .bitbuf => 8

/-- 10_state.md R23, column "lock": the session parameters, addresses 0x04 to 0x11. -/
def csrLocked : Csr → Bool
  | .variant => true
  | .hdrcfg => true
  | .colorSpace => true
  | .chroma => true
  | .width => true
  | .height => true
  | .m => true
  | .frameCount => true
  | .blockSize => true
  | .intraPeriod => true
  | .searchRadius => true
  | .qbitsY => true
  | .qbitsU => true
  | .qbitsV => true
  | _ => false

/-- 10_state.md R23, column "access": the locked registers and ME_METRIC are RW, the others RO. -/
def csrWritable (c : Csr) : Bool :=
  csrLocked c || decide (c = .meMetric)

/-- 47_system.md R252: a CSRR address must be listed. -/
def legalCsrRead (a : BitVec 8) : Bool :=
  (csrAt a).isSome

/-- 10_state.md R32: WIDTH and HEIGHT take no value above MAX_W and MAX_H. -/
def withinLimit (p : Config.Params) (c : Csr) (v : Word) : Bool :=
  match c with
  | .width => decide (v.toNat ≤ p.maxW)
  | .height => decide (v.toNat ≤ p.maxH)
  | _ => true

/-- 47_system.md R253, its first three preconditions: a writable address, no one bit above the width, and MAX_W, MAX_H. -/
def legalCsrWrite (p : Config.Params) (a : BitVec 8) (v : Word) : Bool :=
  match csrAt a with
  | none => false
  | some c => csrWritable c && decide (v.toNat < 2 ^ csrWidth c) && withinLimit p c v

/-- 30_encoding.md R94: a channel operand is 0 to 2. -/
def legalChannel (ch : BitVec 8) : Bool :=
  decide (ch.toNat ≤ 2)

/-- 30_encoding.md R94: a bit count is 0 to 32. -/
def legalCount (n : BitVec 8) : Bool :=
  decide (n.toNat ≤ 32)

/-- 30_encoding.md R94: buffer select 0 is CUR and 1 is REF. -/
def bufferOf (b : BitVec 1) : Buffer :=
  if b = 0#1 then .cur else .ref

/-- 00_scope.md R16: `clamp8`. -/
def clamp8 (x : Int) : Byte :=
  if x < 0 then 0#8 else if 255 < x then 255#8 else BitVec.ofNat 8 x.toNat

/-- 00_scope.md R16: `tc_32`, the 32-bit two's complement pattern. -/
def tc32 (x : Int) : Word :=
  BitVec.ofInt 32 x

/-- 00_scope.md R16: `tc_16`, the 16-bit two's complement pattern. -/
def tc16 (x : Int) : BitVec 16 :=
  BitVec.ofInt 16 x

/-- 00_scope.md R16: `ilog2`, counted by halving; `fuel` is at least the value. -/
def ilog2Upto : Nat → Nat → Nat
  | 0, _ => 0
  | fuel + 1, v => if v < 2 then 0 else 1 + ilog2Upto fuel (v / 2)

/-- 00_scope.md R16: the position of the most significant one bit of `v >= 1`. -/
def ilog2 (v : Nat) : Nat :=
  ilog2Upto v v

end Sys2Proof.Machine
end

