-- ==== Sys2Proof/WellFormed.lean ====
section
/-! DEFINITION. The range limits of a command that its row's mask cannot express (30_encoding.md R94, R97, R99). The
block checks them at stage 2 of 60_exceptions.md R263; a command that breaks one faults with IllegalCommand. -/

namespace Sys2Proof

/-- A command is well formed when every operand has a legal value (30_encoding.md R94, R97). MAX_W and MAX_H are
parameters of the block, so they are an argument. -/
def Instr.wellFormed (p : Config.Params) : Instr → Bool
  | .nop => true
  | .reset => true
  | .csrr csr => Machine.legalCsrRead csr
  | .csrw csr value => Machine.legalCsrWrite p csr value
  | .pxwr ch _ _ _ => Machine.legalChannel ch
  | .pxrd ch _ _ _ => Machine.legalChannel ch
  | .cpref => true
  | .bopenw => true
  | .bopenr => true
  | .bclose => true
  | .putbit _ => true
  | .putbits n _ => Machine.legalCount n
  | .getbit => true
  | .getbits n => Machine.legalCount n
  | .genc _ => true
  | .gdec => true
  | .rpush _ => true
  | .rflush => true
  | .rpop => true
  | .qlevel ch _ => Machine.legalChannel ch
  | .qvalue ch _ => Machine.legalChannel ch
  | .quant ch _ => Machine.legalChannel ch
  | .ipred ch _ _ => Machine.legalChannel ch
  | .matchBlock _ _ => true
  | .wrhdr => true
  | .rdhdr => true
  | .encf => true
  | .decf => true

end Sys2Proof
end

