-- ==== Sys2Proof/Decode.lean ====
section
/-! DEFINITION. The command word of 30_encoding.md R90, row selection (R91, R95, R96, R99) and the encoder. Decoding
selects the row whose mask the word matches; the range limits a mask cannot express are `Instr.wellFormed`, checked at
stage 2 of every command (60_exceptions.md R263; log 13). -/

namespace Sys2Proof

/-- Why a command word selects no row. -/
inductive DecodeError where
  /-- OP is a reserved value (30_encoding.md R96) -/
  | reservedOpcode
  /-- a bit that the row fixes to zero is one (30_encoding.md R91, R97) -/
  | nonzeroUnused
deriving DecidableEq, Repr

/-- OP, bits 63:56. -/
def opField (w : CmdWord) : BitVec 8 := w.extractLsb' 56 8

/-- A, bits 55:48. -/
def aField (w : CmdWord) : BitVec 8 := w.extractLsb' 48 8

/-- B, bits 47:40. -/
def bField (w : CmdWord) : BitVec 8 := w.extractLsb' 40 8

/-- Z, bits 39:32. -/
def zField (w : CmdWord) : BitVec 8 := w.extractLsb' 32 8

/-- IMM, bits 31:0. -/
def immField (w : CmdWord) : Word := w.extractLsb' 0 32

/-- The row of a coordinate pair, IMM[31:16] (30_encoding.md R94). -/
def rowOf (imm : Word) : BitVec 16 := imm.extractLsb' 16 16

/-- The column of a coordinate pair, IMM[15:0] (30_encoding.md R94). -/
def colOf (imm : Word) : BitVec 16 := imm.extractLsb' 0 16

/-- 30_encoding.md R91: which of A, B and IMM a format lets be nonzero. Z is always zero. -/
def unusedZero (w : CmdWord) (usesA usesB usesImm : Bool) : Bool :=
  (usesA || decide (aField w = 0#8)) && (usesB || decide (bField w = 0#8)) &&
    decide (zField w = 0#8) && (usesImm || decide (immField w = 0#32))

/-- The command when its must-be-zero bits are zero. -/
def guardUnused (ok : Bool) (i : Instr) : Except DecodeError Instr :=
  if ok then .ok i else .error .nonzeroUnused

/-- 30_encoding.md R95, R96, R99: the row a command word selects, with its operand fields. Total on every word. -/
def decode (w : CmdWord) : Except DecodeError Instr :=
  let a := aField w
  let b := bField w
  let imm := immField w
  let row := rowOf imm
  let col := colOf imm
  let formatN := unusedZero w false false false
  let formatI := unusedZero w false false true
  let formatA := unusedZero w true false false
  let formatAI := unusedZero w true false true
  let formatP := unusedZero w true true true
  match (opField w).toNat with
  | 0x00 => guardUnused formatN .nop
  | 0x01 => guardUnused formatN .reset
  | 0x02 => guardUnused formatA (.csrr a)
  | 0x03 => guardUnused formatAI (.csrw a imm)
  | 0x08 => guardUnused formatP (.pxwr a b row col)
  | 0x09 => guardUnused (formatP && decide (b.extractLsb' 1 7 = 0#7)) (.pxrd a (b.extractLsb' 0 1) row col)
  | 0x0A => guardUnused formatN .cpref
  | 0x10 => guardUnused formatN .bopenw
  | 0x11 => guardUnused formatN .bopenr
  | 0x12 => guardUnused formatN .bclose
  | 0x13 => guardUnused (formatA && decide (a.extractLsb' 1 7 = 0#7)) (.putbit (a.extractLsb' 0 1))
  | 0x14 => guardUnused formatAI (.putbits a imm)
  | 0x15 => guardUnused formatN .getbit
  | 0x16 => guardUnused formatA (.getbits a)
  | 0x20 => guardUnused formatI (.genc imm)
  | 0x21 => guardUnused formatN .gdec
  | 0x28 => guardUnused formatI (.rpush imm)
  | 0x29 => guardUnused formatN .rflush
  | 0x2A => guardUnused formatN .rpop
  | 0x30 => guardUnused formatAI (.qlevel a imm)
  | 0x31 => guardUnused formatAI (.qvalue a imm)
  | 0x32 => guardUnused formatAI (.quant a imm)
  | 0x40 => guardUnused formatAI (.ipred a row col)
  | 0x48 => guardUnused formatI (.matchBlock row col)
  | 0x50 => guardUnused formatN .wrhdr
  | 0x51 => guardUnused formatN .rdhdr
  | 0x52 => guardUnused formatN .encf
  | 0x53 => guardUnused formatN .decf
  | _ => .error .reservedOpcode

/-- The host's question: the command read from a word whose bits are `w`, numbered as spec/opcode_table.json numbers
them (bit 0 least significant, one 64-bit word). -/
def decodeTableWord (nbits w : Nat) : Option Instr :=
  match decode (BitVec.ofNat 64 (w % 2 ^ nbits)) with
  | .ok i => some i
  | .error _ => none

/-- 30_encoding.md R90: a command word from its fields, Z zero. -/
def mkWord (op a b : BitVec 8) (imm : Word) : CmdWord :=
  op ++ a ++ b ++ 0#8 ++ imm

/-- 30_encoding.md R95, column OP. -/
def opcodeOf : Instr → BitVec 8
  | .nop => 0x00#8
  | .reset => 0x01#8
  | .csrr _ => 0x02#8
  | .csrw _ _ => 0x03#8
  | .pxwr _ _ _ _ => 0x08#8
  | .pxrd _ _ _ _ => 0x09#8
  | .cpref => 0x0A#8
  | .bopenw => 0x10#8
  | .bopenr => 0x11#8
  | .bclose => 0x12#8
  | .putbit _ => 0x13#8
  | .putbits _ _ => 0x14#8
  | .getbit => 0x15#8
  | .getbits _ => 0x16#8
  | .genc _ => 0x20#8
  | .gdec => 0x21#8
  | .rpush _ => 0x28#8
  | .rflush => 0x29#8
  | .rpop => 0x2A#8
  | .qlevel _ _ => 0x30#8
  | .qvalue _ _ => 0x31#8
  | .quant _ _ => 0x32#8
  | .ipred _ _ _ => 0x40#8
  | .matchBlock _ _ => 0x48#8
  | .wrhdr => 0x50#8
  | .rdhdr => 0x51#8
  | .encf => 0x52#8
  | .decf => 0x53#8

/-- 30_encoding.md R95, column A. -/
def aOperand : Instr → BitVec 8
  | .csrr csr => csr
  | .csrw csr _ => csr
  | .pxwr ch _ _ _ => ch
  | .pxrd ch _ _ _ => ch
  | .putbit bit => bit.zeroExtend 8
  | .putbits n _ => n
  | .getbits n => n
  | .qlevel ch _ => ch
  | .qvalue ch _ => ch
  | .quant ch _ => ch
  | .ipred ch _ _ => ch
  | _ => 0#8

/-- 30_encoding.md R95, column B. -/
def bOperand : Instr → BitVec 8
  | .pxwr _ sample _ _ => sample
  | .pxrd _ buf _ _ => buf.zeroExtend 8
  | _ => 0#8

/-- 30_encoding.md R95, column IMM. -/
def immOperand : Instr → Word
  | .csrw _ value => value
  | .pxwr _ _ row col => row ++ col
  | .pxrd _ _ row col => row ++ col
  | .putbits _ value => value
  | .genc n => n
  | .rpush v => v
  | .qlevel _ v => v
  | .qvalue _ level => level
  | .quant _ v => v
  | .ipred _ row col => row ++ col
  | .matchBlock row col => row ++ col
  | _ => 0#32

/-- The word of a command (30_encoding.md R90, R94, R95). -/
def encode (i : Instr) : CmdWord :=
  mkWord (opcodeOf i) (aOperand i) (bOperand i) (immOperand i)

end Sys2Proof
end

