-- ==== Sys2Proof/Machine/State.lean ====
section
/-! DEFINITION. The state of the block (10_state.md) as plain data, the environment's answers a step reads
(00_scope.md R14), and the state after reset (10_state.md R52). -/

namespace Sys2Proof.Machine

/-- STATUS.MODE of 10_state.md R25; the value 3 is never held (93_implementation_defined.md U14, log 10). -/
inductive Mode where
  | idle | write | read
deriving DecidableEq, Repr

/-- STATUS.SESS of 10_state.md R25; the value 3 is never held (93_implementation_defined.md U14, log 10). -/
inductive Sess where
  | uninit | headerDone | closed
deriving DecidableEq, Repr

/-- The seven fault causes of 60_exceptions.md R260. -/
inductive Cause where
  | ioError | endOfStream | invalidState | outOfBounds | invalidFormat | illegalCommand | overflow
deriving DecidableEq, Repr

/-- The control and status registers of 10_state.md R23, STATUS by its fields. ID is hard-wired and is no field. -/
structure Regs where
  mode : Mode
  sess : Sess
  err : Bool
  refValid : Bool
  cause : BitVec 8
  finfo : BitVec 8
  variant : BitVec 2
  hdrcfg : BitVec 2
  colorSpace : BitVec 3
  chroma : BitVec 3
  width : BitVec 32
  height : BitVec 32
  m : BitVec 8
  frameCount : BitVec 32
  blockSize : BitVec 8
  intraPeriod : BitVec 8
  searchRadius : BitVec 8
  qbitsY : BitVec 8
  qbitsU : BitVec 8
  qbitsV : BitVec 8
  meMetric : BitVec 2
  frameIdx : BitVec 32
  refIdx : BitVec 32
  runCount : BitVec 32
  lastValue : BitVec 32
  bitcnt : BitVec 4
  bitbuf : BitVec 8
deriving DecidableEq, Repr

/-- 10_state.md R23, column "reset", and R52. -/
def Regs.reset : Regs where
  mode := .idle
  sess := .uninit
  err := false
  refValid := false
  cause := 0#8
  finfo := 0#8
  variant := 0#2
  hdrcfg := 3#2
  colorSpace := 0#3
  chroma := 0#3
  width := 0#32
  height := 0#32
  m := 0#8
  frameCount := 0#32
  blockSize := 0#8
  intraPeriod := 0#8
  searchRadius := 0#8
  qbitsY := 0#8
  qbitsU := 0#8
  qbitsV := 0#8
  meMetric := 0#2
  frameIdx := 0#32
  refIdx := 0#32
  runCount := 0#32
  lastValue := 0#32
  bitcnt := 0#4
  bitbuf := 0#8

/-- A frame buffer: the written samples by key, keys strictly rising. An unlisted sample is unspecified
(20_memory.md R62): reading it gives no value, and the meanings draw a free value in its place (log 3). -/
abbrev Memory := List Host.Cell

/-- An answer to `EnvOpen` or `SinkPut` (00_scope.md R12, R14). -/
inductive IoAnswer where
  | ok | ioerr
deriving DecidableEq, Repr

/-- An answer to `SourceGet` (00_scope.md R12). -/
inductive SourceAnswer where
  | byte (b : BitVec 8)
  | eos
  | ioerr
deriving DecidableEq, Repr

/-- What the environment has received and what it will answer (00_scope.md R14, R51; log 5). A list that runs out
goes on as the test environment of R14: `ok` for `EnvOpen` and `SinkPut`, `eos` for `SourceGet`. -/
structure Env where
  /-- the bytes handed to SINK so far, the first one first -/
  sinkOut : List (BitVec 8)
  /-- the answers to the next `EnvOpen` requests -/
  openAnswers : List IoAnswer
  /-- the answers to the next `SinkPut` requests -/
  sinkAnswers : List IoAnswer
  /-- the answers to the next `SourceGet` requests of the present source -/
  source : List SourceAnswer
  /-- the sources that follow when the present one is dropped (40_bitio.md R127, 47_system.md R251; log 6) -/
  nextSources : List (List SourceAnswer)
deriving DecidableEq, Repr

/-- What the host presents: a command word on CMD, or the input `hard_reset` (00_scope.md R12; log 1). -/
inductive HostInput where
  /-- a command word that runs to its end -/
  | command (w : BitVec 64)
  /-- `hard_reset` between commands -/
  | hardReset
  /-- a command word whose execution `hard_reset` ends, once the environment has answered so many of its requests
  (70_reset_and_hazards.md R291, log 7) -/
  | hardResetDuring (w : BitVec 64) (answered : Nat)
deriving DecidableEq, Repr

/-- The whole machine: parameters, registers, frame buffers, the free-value counter, environment and host. -/
structure State where
  /-- MAX_W and MAX_H of 00_scope.md R11; no step changes them -/
  par : Config.Params
  /-- the registers of 10_state.md R23 -/
  regs : Regs
  /-- the frame buffer CUR of 10_state.md R50 -/
  cur : Memory
  /-- the frame buffer REF of 10_state.md R50 -/
  ref : Memory
  /-- how many free values have been drawn: the model's own counter (log 4) -/
  draws : Nat
  /-- the environment (00_scope.md R14) -/
  env : Env
  /-- the host's inputs not yet accepted, the next one first (00_scope.md R13) -/
  inputs : List HostInput
  /-- the response words delivered on RSP, the first one first (00_scope.md R12) -/
  responses : List (BitVec 64)
deriving DecidableEq, Repr

/-- The reasons a step could stop the machine: none. Every fault of 60_exceptions.md R260 is an effect of the block
(R265) and a next state of the model, so this type has no constructor; nothing raises it, and that is safe. -/
inductive Fault where
deriving DecidableEq, Repr

/-- The reasons a step could have no meaning. -/
inductive Refusal where
  /-- An instruction without a meaning, by its mnemonic. Only an arm of `exec` could answer it and none does: every
  command has its meaning. Safe: the machine would stop where the block goes on. -/
  | notModelled (mnemonic : String)
deriving DecidableEq, Repr

/-- An environment with nothing received and nothing prepared: the test environment of 00_scope.md R14 with an empty
source. -/
def Env.quiet : Env where
  sinkOut := []
  openAnswers := []
  sinkAnswers := []
  source := []
  nextSources := []

/-- The machine right after reset (10_state.md R52, 70_reset_and_hazards.md R290): every CSR at its reset value, every
sample unspecified, waiting for a command word. The parameters are the defaults of R11 (log 2). -/
def State.reset : State where
  par := Config.Params.standard
  regs := Regs.reset
  cur := []
  ref := []
  draws := 0
  env := Env.quiet
  inputs := []
  responses := []

end Sys2Proof.Machine
end

