-- ==== Sys2Proof/Machine/Flags.lean ====
section
/-! DEFINITION. The STATUS word by its fields (10_state.md R25), the fault codes (60_exceptions.md R260), and the two
range tests of the arithmetic (00_scope.md R16). The block has no arithmetic flags. -/

namespace Sys2Proof.Machine

/-- 10_state.md R25, field MODE. -/
def modeCode : Mode → Nat
  | .idle => 0
  | .write => 1
  | .read => 2

/-- 10_state.md R25, field SESS. -/
def sessCode : Sess → Nat
  | .uninit => 0
  | .headerDone => 1
  | .closed => 2

/-- 10_state.md R25: MODE in bits 1:0, SESS in 3:2, ERR in 4, REF_VALID in 5. -/
def statusWord (r : Regs) : Word :=
  BitVec.ofNat 32 (modeCode r.mode + 4 * sessCode r.sess + 16 * r.err.toNat + 32 * r.refValid.toNat)

/-- 60_exceptions.md R260, column "code". -/
def causeCode : Cause → BitVec 8
  | .ioError => 1#8
  | .endOfStream => 2#8
  | .invalidState => 3#8
  | .outOfBounds => 4#8
  | .invalidFormat => 5#8
  | .illegalCommand => 6#8
  | .overflow => 7#8

/-- 30_encoding.md R93, code 8: the response status of a refused command; never in CAUSE. -/
def faultedCode : BitVec 8 := 8#8

/-- A value that 32-bit two's complement holds (00_scope.md R16): -2^31 to 2^31 - 1. -/
def fits32 (x : Int) : Bool :=
  decide (-2147483648 ≤ x ∧ x ≤ 2147483647)

/-- 10_state.md R28: VARIANT bit 0. -/
def hybrid (r : Regs) : Bool := r.variant.getLsbD 0

/-- 10_state.md R28: VARIANT bit 1. -/
def lossy (r : Regs) : Bool := r.variant.getLsbD 1

/-- 10_state.md R29: HDRCFG bit 0. -/
def dim32 (r : Regs) : Bool := r.hdrcfg.getLsbD 0

/-- 10_state.md R29: HDRCFG bit 1. -/
def fc32 (r : Regs) : Bool := r.hdrcfg.getLsbD 1

/-- 10_state.md R36: the channel count C, 1 for GRAY and 3 for every other COLOR_SPACE. -/
def channels (r : Regs) : Nat :=
  if r.colorSpace = 2#3 then 1 else 3

/-- 20_memory.md R61: the coordinates of a legal sample access. -/
def inWindow (r : Regs) (row col ch : Nat) : Bool :=
  decide (row < r.height.toNat ∧ col < r.width.toNat ∧ ch < channels r)

end Sys2Proof.Machine
end

