-- ==== Sys2Proof/Machine/Ops.lean ====
section
/-! DEFINITION. The named operations over registers, frame buffers and environment; taking a fault and leaving the
fault state; and the stages of 60_exceptions.md R263 that every command shares. -/

namespace Sys2Proof.Machine

/-! ### Frame buffers (10_state.md R50) -/

/-- The key of a sample. The spec gives no linear layout (10_state.md R50): any map that keeps triples apart would do
(log 8). Columns are below 2^32 and channels below 2^8 in every use. -/
def sampleKey (row col ch : Nat) : Nat :=
  (row * 2 ^ 32 + col) * 2 ^ 8 + ch

/-- The byte listed at a key; `none` for a sample that nothing has written (20_memory.md R62). -/
def Memory.read : Memory → Nat → Option Byte
  | [], _ => none
  | (a, v) :: rest, k => if a = k then some v else Memory.read rest k

/-- Write one byte, keys kept strictly rising. -/
def Memory.store : Memory → Nat → Byte → Memory
  | [], k, v => [(k, v)]
  | (a, x) :: rest, k, v =>
    if k < a then (k, v) :: (a, x) :: rest
    else if k = a then (k, v) :: rest
    else (a, x) :: Memory.store rest k v

/-- The canonical form: keys strictly rising. -/
def Memory.wf : Memory → Bool
  | [] => true
  | [_] => true
  | (a, _) :: (b, v) :: rest => decide (a < b) && Memory.wf ((b, v) :: rest)

/-- The contents of a buffer. -/
def State.buffer (s : State) : Buffer → Memory
  | .cur => s.cur
  | .ref => s.ref

/-- One sample of a buffer, `none` where nothing has been written since reset: the model's read of one byte. -/
def State.sample (s : State) (b : Buffer) (row col ch : Nat) : Option Byte :=
  (s.buffer b).read (sampleKey row col ch)

/-- The state with one sample of a buffer written. -/
def State.setSample (s : State) (b : Buffer) (row col ch : Nat) (v : Byte) : State :=
  match b with
  | .cur => { s with cur := s.cur.store (sampleKey row col ch) v }
  | .ref => { s with ref := s.ref.store (sampleKey row col ch) v }

/-! ### Registers by address (10_state.md R22, R23) -/

/-- 10_state.md R22: the 32-bit word a register reads as, its bits low and zero above. -/
def csrValue (c : Csr) (r : Regs) : Word :=
  match c with
  | .id => 0x47454301#32
  | .status => statusWord r
  | .cause => r.cause.zeroExtend 32
  | .finfo => r.finfo.zeroExtend 32
  | .variant => r.variant.zeroExtend 32
  | .hdrcfg => r.hdrcfg.zeroExtend 32
  | .colorSpace => r.colorSpace.zeroExtend 32
  | .chroma => r.chroma.zeroExtend 32
  | .width => r.width
  | .height => r.height
  | .m => r.m.zeroExtend 32
  | .frameCount => r.frameCount
  | .blockSize => r.blockSize.zeroExtend 32
  | .intraPeriod => r.intraPeriod.zeroExtend 32
  | .searchRadius => r.searchRadius.zeroExtend 32
  | .qbitsY => r.qbitsY.zeroExtend 32
  | .qbitsU => r.qbitsU.zeroExtend 32
  | .qbitsV => r.qbitsV.zeroExtend 32
  | .meMetric => r.meMetric.zeroExtend 32
  | .frameIdx => r.frameIdx
  | .refIdx => r.refIdx
  | .runCount => r.runCount
  | .lastValue => r.lastValue
  | .bitcnt => r.bitcnt.zeroExtend 32
  | .bitbuf => r.bitbuf.zeroExtend 32

/-- The write of a register by CSRW. A read-only register is not written (10_state.md R22 makes such a command illegal
before it gets here). -/
def csrSet (c : Csr) (v : Word) (r : Regs) : Regs :=
  match c with
  | .variant => { r with variant := v.truncate 2 }
  | .hdrcfg => { r with hdrcfg := v.truncate 2 }
  | .colorSpace => { r with colorSpace := v.truncate 3 }
  | .chroma => { r with chroma := v.truncate 3 }
  | .width => { r with width := v }
  | .height => { r with height := v }
  | .m => { r with m := v.truncate 8 }
  | .frameCount => { r with frameCount := v }
  | .blockSize => { r with blockSize := v.truncate 8 }
  | .intraPeriod => { r with intraPeriod := v.truncate 8 }
  | .searchRadius => { r with searchRadius := v.truncate 8 }
  | .qbitsY => { r with qbitsY := v.truncate 8 }
  | .qbitsU => { r with qbitsU := v.truncate 8 }
  | .qbitsV => { r with qbitsV := v.truncate 8 }
  | .meMetric => { r with meMetric := v.truncate 2 }
  | .id | .status | .cause | .finfo | .frameIdx | .refIdx | .runCount | .lastValue | .bitcnt | .bitbuf => r

/-! ### Responses, faults, reset -/

/-- 30_encoding.md R92: a response word from its STATUS and RESULT. -/
def responseWord (status : BitVec 8) (result : Word) : RspWord :=
  status ++ 0#24 ++ result

/-- Deliver one response word (00_scope.md R12). -/
def State.respond (s : State) (status : BitVec 8) (result : Word) : State :=
  { s with responses := s.responses ++ [responseWord status result] }

/-- TAKING A FAULT, 60_exceptions.md R265: ERR is set, CAUSE holds the code, FINFO the opcode of the command word, and
the response carries the code. Nothing else is saved. -/
def takeFault (opcode : BitVec 8) (c : Cause) (s : State) : State :=
  State.respond { s with regs := { s.regs with err := true, cause := causeCode c, finfo := opcode } } (causeCode c) 0#32

/-- 60_exceptions.md R268: a refused command is answered Faulted and has no effect at all. -/
def refuseFaulted (s : State) : State :=
  s.respond faultedCode 0#32

/-- The present source is dropped and the environment's next one takes its place (log 6). -/
def Env.dropSource (e : Env) : Env :=
  match e.nextSources with
  | [] => { e with source := [] }
  | next :: rest => { e with source := next, nextSources := rest }

/-- LEAVING THE FAULT STATE, 60_exceptions.md R269: the common effect of RESET (47_system.md R251) and `hard_reset`
(70_reset_and_hazards.md R290, R291). Every CSR takes its reset value, every sample becomes unspecified, an open source
is dropped, nothing is flushed and the environment is not called. -/
def resetBlock (s : State) : State :=
  { s with
    regs := Regs.reset
    cur := []
    ref := []
    env := if s.regs.mode = .read then s.env.dropSource else s.env }

/-- What is left of a list of answers when only the first `n` of the requests were made that turned `old` into `new`. -/
def answersLeft {α : Type} (n : Nat) (old new : List α) : List α :=
  old.drop (min n (old.length - new.length))

/-- `hard_reset` in the middle of a command, 70_reset_and_hazards.md R291 (log 7). The command started in `s` and would
have ended in `u`; the environment answered `n` of its requests. What it handed to SINK and took from SOURCE so far
stands, there is no response, and the block is reset. DESIGN CHOICE (log 23): the reset is that of the MODE in `s`, so
within BOPENR a source whose `EnvOpen(read)` was answered is kept; R291 does not say whether it counts as open. -/
def cutShort (n : Nat) (s u : State) : State :=
  resetBlock { s with
    draws := u.draws
    env := { s.env with
      sinkOut := s.env.sinkOut ++ (u.env.sinkOut.drop s.env.sinkOut.length).take n
      openAnswers := answersLeft n s.env.openAnswers u.env.openAnswers
      sinkAnswers := answersLeft n s.env.sinkAnswers u.env.sinkAnswers
      source := answersLeft n s.env.source u.env.source } }

/-! ### The execution monad: pseudocode of 00_scope.md R17 -/

/-- Pseudocode: a value and a new state, or a `raise` with the state the executed statements produced
(60_exceptions.md R267). -/
abbrev Action := EStateM Cause State

/-- `raise <Cause>` (00_scope.md R17). -/
def raise {α : Type} (c : Cause) : Action α := fun s => .error c s

/-- A precondition: raise the cause where it fails. -/
def require (ok : Bool) (c : Cause) : Action Unit := fun s =>
  if ok then .ok () s else .error c s

/-- The registers as they are now. -/
def getRegs : Action Regs := fun s => .ok s.regs s

/-- Change registers. -/
def modifyRegs (f : Regs → Regs) : Action Unit := fun s => .ok () { s with regs := f s.regs }

/-- `if c: x` without an else. -/
def onlyIf (c : Bool) (x : Action Unit) : Action Unit :=
  if c then x else pure ()

/-- `for i in start .. start+count-1`, carrying a value (00_scope.md R18). -/
def foldFrom {α : Type} : (count start : Nat) → (Nat → α → Action α) → α → Action α
  | 0, _, _, a => pure a
  | n + 1, i, f, a => do
    let b ← f i a
    foldFrom n (i + 1) f b

/-- `for i in start .. start+count-1` (00_scope.md R18). -/
def forFrom (count start : Nat) (f : Nat → Action Unit) : Action Unit :=
  foldFrom count start (fun i _ => f i) ()

/-- `SinkPut(b)` (00_scope.md R17): the byte is handed over unless the environment answers `ioerr` (log 20). -/
def sinkPut (b : Byte) : Action Unit := fun s =>
  match s.env.sinkAnswers with
  | [] => .ok () { s with env := { s.env with sinkOut := s.env.sinkOut ++ [b] } }
  | .ok :: rest => .ok () { s with env := { s.env with sinkOut := s.env.sinkOut ++ [b], sinkAnswers := rest } }
  | .ioerr :: rest => .error .ioError { s with env := { s.env with sinkAnswers := rest } }

/-- `SourceGet()` (00_scope.md R17): a request consumes its answer (20_memory.md R72). -/
def sourceGet : Action Byte := fun s =>
  match s.env.source with
  | [] => .error .endOfStream s
  | .byte b :: rest => .ok b { s with env := { s.env with source := rest } }
  | .eos :: rest => .error .endOfStream { s with env := { s.env with source := rest } }
  | .ioerr :: rest => .error .ioError { s with env := { s.env with source := rest } }

/-- `EnvOpen(mode)` (00_scope.md R14) and the `raise IoError` of 40_bitio.md R125, R126. -/
def envOpen : Action Unit := fun s =>
  match s.env.openAnswers with
  | [] => .ok () s
  | .ok :: rest => .ok () { s with env := { s.env with openAnswers := rest } }
  | .ioerr :: rest => .error .ioError { s with env := { s.env with openAnswers := rest } }

/-- The block stops asking the present source (40_bitio.md R127, log 6). -/
def abandonSource : Action Unit := fun s => .ok () { s with env := s.env.dropSource }

/-- Read of one sample (00_scope.md R17). An unwritten one gives a free value, drawn anew at each read
(93_implementation_defined.md U1, log 3). -/
def readSample (b : Buffer) (row col ch : Nat) : Action Byte := fun s =>
  match s.sample b row col ch with
  | some v => .ok v s
  | none => .ok (Config.freeSample s.draws) { s with draws := s.draws + 1 }

/-- Write of one sample (00_scope.md R17). -/
def writeSample (b : Buffer) (row col ch : Nat) (v : Byte) : Action Unit := fun s =>
  .ok () (s.setSample b row col ch v)

/-- `MODE = m`, else InvalidState. -/
def requireMode (m : Mode) : Action Unit := fun s =>
  if s.regs.mode = m then .ok () s else .error .invalidState s

/-- `SESS = x`, else InvalidState. -/
def requireSess (x : Sess) : Action Unit := fun s =>
  if s.regs.sess = x then .ok () s else .error .invalidState s

/-- `CopyCurToRef(i)` of 46_container.md R235, which CPREF shares (47_system.md R256): the window of CUR is copied to
REF, REF_VALID set and REF_IDX written. An unwritten sample of CUR is read like any other (log 9). -/
def copyCurToRef (i : Word) : Action Unit := do
  let g ← getRegs
  forFrom g.height.toNat 0 fun r =>
    forFrom g.width.toNat 0 fun c =>
      forFrom (channels g) 0 fun ch => do
        let v ← readSample .cur r c ch
        writeSample .ref r c ch v
  modifyRegs fun g => { g with refValid := true, refIdx := i }

/-! ### The stages every command shares (60_exceptions.md R263) -/

/-- Stage 6 and its end: the pseudocode runs; its `raise` takes the fault, its end delivers the response. -/
def runBody (opcode : BitVec 8) (body : Action Word) (s : State) : State :=
  match body s with
  | .ok v t => t.respond 0#8 v
  | .error c t => takeFault opcode c t

/-- A command that executes only while ERR = 0: refusal (stage 1), IllegalCommand (stage 2), then the pseudocode with
its preconditions (stages 3 to 6). -/
def command (opcode : BitVec 8) (legal : Bool) (body : Action Word) (s : State) : Host.Outcome State Fault Refusal :=
  if s.regs.err then .next (refuseFaulted s)
  else if legal then .next (runBody opcode body s)
  else .next (takeFault opcode .illegalCommand s)

/-- NOP, CSRR and RESET: a legal one executes also while ERR = 1 (60_exceptions.md R263 stage 1). -/
def commandAlways (opcode : BitVec 8) (legal : Bool) (body : Action Word) (s : State) :
    Host.Outcome State Fault Refusal :=
  if legal then .next (runBody opcode body s)
  else if s.regs.err then .next (refuseFaulted s)
  else .next (takeFault opcode .illegalCommand s)

/-- A word that selects no row (30_encoding.md R96, R97): refused while ERR = 1, else IllegalCommand with FINFO the top
byte of the word. -/
def rejectWord (w : CmdWord) (s : State) : State :=
  if s.regs.err then refuseFaulted s else takeFault (opField w) .illegalCommand s

/-- 00_scope.md R13: accept the host's next input, if there is one. -/
def nextInput (s : State) : Option (HostInput × State) :=
  match s.inputs with
  | [] => none
  | x :: rest => some (x, { s with inputs := rest })

end Sys2Proof.Machine
end

