-- ==== Sys2Proof/Machine/Framer.lean ====
section
/-! DEFINITION. The four bit-level procedures of 40_bitio.md R121 to R124. -/

namespace Sys2Proof.Machine

/-- `v[i] <- b` on a byte. -/
def setBitTo (v : Byte) (i : Nat) (b : Bool) : Byte :=
  if b then v ||| (1#8 <<< i) else v &&& ~~~(1#8 <<< i)

/-- `PutBit(b)`, 40_bitio.md R121: the earliest bit goes to bit 7; the eighth hands the byte to SINK. -/
def putBit (b : Bool) : Action Unit := do
  let r ← getRegs
  let filled := setBitTo r.bitbuf (7 - r.bitcnt.toNat) b
  modifyRegs fun g => { g with bitbuf := filled, bitcnt := r.bitcnt + 1#4 }
  onlyIf (decide (r.bitcnt + 1#4 = 8#4)) do
    sinkPut filled
    modifyRegs fun g => { g with bitbuf := 0#8, bitcnt := 0#4 }

/-- `PutBits(v, n)`, 40_bitio.md R122: bits n-1 down to 0 of `v`. -/
def putBits (v : Nat) : Nat → Action Unit
  | 0 => pure ()
  | n + 1 => do
    putBit (v.testBit n)
    putBits v n

/-- `q` times `PutBit(1)` (41_golomb.md R141). -/
def putOnes : Nat → Action Unit
  | 0 => pure ()
  | q + 1 => do
    putBit true
    putOnes q

/-- The bit taken by `GetBit` from a buffer that holds one: BITBUF[7], then the buffer shifts up. -/
def takeBufferedBit : Action Bool := fun s =>
  .ok (s.regs.bitbuf.getLsbD 7)
    { s with regs := { s.regs with bitbuf := s.regs.bitbuf <<< 1, bitcnt := s.regs.bitcnt - 1#4 } }

/-- `GetBit()`, 40_bitio.md R123: an empty buffer asks SOURCE for a byte first. -/
def getBit : Action Bool := do
  let r ← getRegs
  onlyIf (decide (r.bitcnt = 0#4)) do
    let b ← sourceGet
    modifyRegs fun g => { g with bitbuf := b, bitcnt := 8#4 }
  takeBufferedBit

/-- `GetBits(n)` with the value read so far, 40_bitio.md R124. -/
def getBitsOnto : (n v : Nat) → Action Nat
  | 0, v => pure v
  | n + 1, v => do
    let b ← getBit
    getBitsOnto n (2 * v + b.toNat)

/-- `GetBits(n)`, 40_bitio.md R124. -/
def getBits (n : Nat) : Action Nat :=
  getBitsOnto n 0

end Sys2Proof.Machine
end

