-- ==== Sys2Proof/Machine/Coder.lean ====
section
/-! DEFINITION. The Golomb procedures of 41_golomb.md R141 and R142, and the flush of a pending run that RPUSH, RFLUSH
and BCLOSE share (42_runlength.md R161, R162; 40_bitio.md R127). -/

namespace Sys2Proof.Machine

/-- 41_golomb.md R140: `k = ilog2(m)`. -/
def golombK (m : Nat) : Nat := ilog2 m

/-- 41_golomb.md R140: `u = 2^(k+1) - m`. -/
def golombU (m : Nat) : Nat := 2 ^ (golombK m + 1) - m

/-- The part of `GolombEncode` after the check of `m`, 41_golomb.md R141. -/
def golombPut (m : Nat) (n : Int) : Action Unit := do
  let a := n.natAbs
  let q := a / m
  let r := a % m
  putOnes q
  putBit false
  if r < golombU m then putBits r (golombK m) else putBits (r + golombU m) (golombK m + 1)
  putBit (decide (n < 0))

/-- `GolombEncode(n)`, 41_golomb.md R141. -/
def golombEncode (n : Int) : Action Unit := do
  let g ← getRegs
  require (decide (g.m ≠ 0#8)) .invalidState
  golombPut g.m.toNat n

/-- `q <- 0; while GetBit() = 1: q <- q + 1`, 41_golomb.md R142. `fuel` bounds the number of bits that can still come;
`countOnes_fuel` in Laws/Framer.lean shows that `bitsLeft + 1` never runs out. -/
def countOnes : Nat → Action Nat
  | 0 => raise .endOfStream
  | fuel + 1 => do
    let b ← getBit
    if b then do
      let q ← countOnes fuel
      pure (q + 1)
    else pure 0

/-- The most bits that `GetBit` can still give: those in the buffer and those of the finite source. -/
def bitsLeft (s : State) : Nat :=
  s.regs.bitcnt.toNat + 8 * s.env.source.length

/-- The unary part of a codeword, 41_golomb.md R142. -/
def getUnary : Action Nat := fun s => countOnes (bitsLeft s + 1) s

/-- The truncated-binary remainder, 41_golomb.md R142. -/
def getRemainder (m : Nat) : Action Nat := do
  let v ← getBits (golombK m)
  if v < golombU m then pure v
  else do
    let b ← getBit
    pure (2 * v + b.toNat - golombU m)

/-- The part of `GolombDecode` after the check of `m`, 41_golomb.md R142. -/
def golombGet (m : Nat) : Action Int := do
  let q ← getUnary
  let r ← getRemainder m
  let s ← getBit
  let n : Int := if s then -((q * m + r : Nat) : Int) else ((q * m + r : Nat) : Int)
  require (fits32 n) .overflow
  pure n

/-- `GolombDecode()`, 41_golomb.md R142. -/
def golombDecode : Action Int := do
  let g ← getRegs
  require (decide (g.m ≠ 0#8)) .invalidState
  golombGet g.m.toNat

/-- Write the pending pair, count first, and empty the run (42_runlength.md R160, R161, R162). -/
def flushPair : Action Unit := do
  let g ← getRegs
  golombEncode (g.runCount.toNat : Int)
  golombEncode g.lastValue.toInt
  modifyRegs fun g => { g with runCount := 0#32 }

end Sys2Proof.Machine
end

