-- ==== Sys2Proof/Machine/BitIO.lean ====
section
/-! DEFINITION. The bitstream framer commands of 40_bitio.md: BOPENW, BOPENR, BCLOSE, PUTBIT, PUTBITS, GETBIT, GETBITS. -/

namespace Sys2Proof.Machine

/-- The registers a fresh session starts with, 40_bitio.md R125, R126. -/
def openedRegs (m : Mode) (g : Regs) : Regs :=
  { g with
    mode := m
    sess := .uninit
    refValid := false
    bitbuf := 0#8
    bitcnt := 0#4
    runCount := 0#32
    lastValue := 0#32
    frameIdx := 0#32
    refIdx := 0#32 }

/-- The registers after a stream is closed, 40_bitio.md R127. -/
def closedRegs (g : Regs) : Regs :=
  { g with
    mode := .idle
    sess := .closed
    bitbuf := 0#8
    bitcnt := 0#4
    runCount := 0#32
    lastValue := 0#32 }

/-- Opening a stream in one of its two modes, 40_bitio.md R125, R126. -/
def openStream (m : Mode) : Action Word := do
  requireMode .idle
  envOpen
  modifyRegs (openedRegs m)
  pure 0#32

/-- What BCLOSE does in WRITE mode before it closes: the pending run, then the pending bits (40_bitio.md R127). -/
def flushStream : Action Unit := do
  let g ← getRegs
  onlyIf (decide (g.runCount ≠ 0#32)) flushPair
  let h ← getRegs
  onlyIf (decide (h.bitcnt ≠ 0#4)) (sinkPut h.bitbuf)

/-- BOPENW, 40_bitio.md R125. -/
def bopenwBody : Action Word :=
  openStream .write

/-- The command BOPENW through the stages of 60_exceptions.md R263. -/
def execBopenw (s : State) : Host.Outcome State Fault Refusal :=
  command (opcodeOf .bopenw) true bopenwBody s

/-- BOPENR, 40_bitio.md R126. -/
def bopenrBody : Action Word :=
  openStream .read

/-- The command BOPENR through the stages of 60_exceptions.md R263. -/
def execBopenr (s : State) : Host.Outcome State Fault Refusal :=
  command (opcodeOf .bopenr) true bopenrBody s

/-- BCLOSE, 40_bitio.md R127: flush in WRITE mode, drop the rest of the source in READ mode, close. -/
def bcloseBody : Action Word := do
  let g ← getRegs
  require (decide (g.mode ≠ .idle)) .invalidState
  onlyIf (decide (g.mode = .write)) flushStream
  onlyIf (decide (g.mode = .read)) abandonSource
  modifyRegs closedRegs
  pure 0#32

/-- The command BCLOSE through the stages of 60_exceptions.md R263. -/
def execBclose (s : State) : Host.Outcome State Fault Refusal :=
  command (opcodeOf .bclose) true bcloseBody s

/-- PUTBIT, 40_bitio.md R128. -/
def putbitBody (bit : BitVec 1) : Action Word := do
  requireMode .write
  putBit (bit.getLsbD 0)
  pure 0#32

/-- The command PUTBIT through the stages of 60_exceptions.md R263. -/
def execPutbit (bit : BitVec 1) (s : State) : Host.Outcome State Fault Refusal :=
  command (opcodeOf (.putbit bit)) true (putbitBody bit) s

/-- PUTBITS, 40_bitio.md R129: the low `n` bits of the value, most significant first. -/
def putbitsBody (n : BitVec 8) (value : Word) : Action Word := do
  requireMode .write
  putBits value.toNat n.toNat
  pure 0#32

/-- The command PUTBITS through the stages of 60_exceptions.md R263. -/
def execPutbits (n : BitVec 8) (value : Word) (s : State) : Host.Outcome State Fault Refusal :=
  command (opcodeOf (.putbits n value)) (legalCount n) (putbitsBody n value) s

/-- GETBIT, 40_bitio.md R130. -/
def getbitBody : Action Word := do
  requireMode .read
  let b ← getBit
  pure (BitVec.ofNat 32 b.toNat)

/-- The command GETBIT through the stages of 60_exceptions.md R263. -/
def execGetbit (s : State) : Host.Outcome State Fault Refusal :=
  command (opcodeOf .getbit) true getbitBody s

/-- GETBITS, 40_bitio.md R131: the first bit read is the most significant. -/
def getbitsBody (n : BitVec 8) : Action Word := do
  requireMode .read
  let v ← getBits n.toNat
  pure (BitVec.ofNat 32 v)

/-- The command GETBITS through the stages of 60_exceptions.md R263. -/
def execGetbits (n : BitVec 8) (s : State) : Host.Outcome State Fault Refusal :=
  command (opcodeOf (.getbits n)) (legalCount n) (getbitsBody n) s

end Sys2Proof.Machine
end

