-- ==== Sys2Proof/Machine/Quantizer.lean ====
section
/-! DEFINITION. The scalar quantizer of 43_quantizer.md: its functions (R170 to R173) and QLEVEL, QVALUE, QUANT. -/

namespace Sys2Proof.Machine

/-- `num_bits(ch)`, 43_quantizer.md R170. -/
def numBits (g : Regs) (ch : Nat) : Nat :=
  if ch = 0 then g.qbitsY.toNat else if ch = 1 then g.qbitsU.toNat else g.qbitsV.toNat

/-- `step` for a bit depth of 1 or more, 43_quantizer.md R170: AMPLITUDE div (2^num_bits - 1). -/
def quantStep (nb : Nat) : Nat :=
  Config.amplitude / (2 ^ nb - 1)

/-- `QLevel`, 43_quantizer.md R172; `none` where the step is 0 (R171). -/
def levelOf (nb : Nat) (v : Int) : Option Int :=
  if nb = 0 then some v
  else if quantStep nb = 0 then none
  else
    let l : Nat := (v.natAbs + quantStep nb / 2) / quantStep nb
    some (if v < 0 then -(l : Int) else (l : Int))

/-- `QValue`, 43_quantizer.md R173; `none` where the step is 0 (R171). -/
def valueOf (nb : Nat) (l : Int) : Option Int :=
  if nb = 0 then some l
  else if quantStep nb = 0 then none
  else some (l * (quantStep nb : Int))

/-- A quantizer function's result, or the `raise InvalidState` of 43_quantizer.md R171. -/
def orInvalidState (x : Option Int) : Action Int :=
  match x with
  | some v => pure v
  | none => raise .invalidState

/-- `QLevel(ch, v)`, 43_quantizer.md R172. -/
def qLevel (ch : Nat) (v : Int) : Action Int := do
  let g ← getRegs
  orInvalidState (levelOf (numBits g ch) v)

/-- `QValue(ch, l)`, 43_quantizer.md R173. -/
def qValue (ch : Nat) (l : Int) : Action Int := do
  let g ← getRegs
  orInvalidState (valueOf (numBits g ch) l)

/-- QLEVEL, 43_quantizer.md R174. -/
def qlevelBody (ch : BitVec 8) (v : Word) : Action Word := do
  let l ← qLevel ch.toNat v.toInt
  pure (tc32 l)

/-- The command QLEVEL through the stages of 60_exceptions.md R263. -/
def execQlevel (ch : BitVec 8) (v : Word) (s : State) : Host.Outcome State Fault Refusal :=
  command (opcodeOf (.qlevel ch v)) (legalChannel ch) (qlevelBody ch v) s

/-- QVALUE, 43_quantizer.md R175. -/
def qvalueBody (ch : BitVec 8) (level : Word) : Action Word := do
  let x ← qValue ch.toNat level.toInt
  require (fits32 x) .overflow
  pure (tc32 x)

/-- The command QVALUE through the stages of 60_exceptions.md R263. -/
def execQvalue (ch : BitVec 8) (level : Word) (s : State) : Host.Outcome State Fault Refusal :=
  command (opcodeOf (.qvalue ch level)) (legalChannel ch) (qvalueBody ch level) s

/-- QUANT, 43_quantizer.md R176. -/
def quantBody (ch : BitVec 8) (v : Word) : Action Word := do
  let l ← qLevel ch.toNat v.toInt
  let x ← qValue ch.toNat l
  require (fits32 x) .overflow
  pure (tc32 x)

/-- The command QUANT through the stages of 60_exceptions.md R263. -/
def execQuant (ch : BitVec 8) (v : Word) (s : State) : Host.Outcome State Fault Refusal :=
  command (opcodeOf (.quant ch v)) (legalChannel ch) (quantBody ch v) s

end Sys2Proof.Machine
end

