-- ==== Sys2Proof/Machine/Intra.lean ====
section
/-! DEFINITION. The intra predictor of 44_intra.md: `MED` (R185), IPRED (R186), `EncodeIntra` (R188), `DecodeIntra`
(R189). -/

namespace Sys2Proof.Machine

/-- The median edge detector on left, top and top-left, 44_intra.md R185. -/
def med (a b cc : Int) : Int :=
  if max a b ≤ cc then min a b
  else if cc ≤ min a b then max a b
  else a + b - cc

/-- A neighbour sample of CUR, or 0 without an access where it lies outside the frame (44_intra.md R185). -/
def neighbour (inside : Bool) (row col ch : Nat) : Action Int :=
  if inside then do
    let v ← readSample .cur row col ch
    pure (v.toNat : Int)
  else pure 0

/-- `MED(r, c, ch)`, 44_intra.md R185. -/
def predict (r c ch : Nat) : Action Int := do
  let a ← neighbour (decide (0 < c)) r (c - 1) ch
  let b ← neighbour (decide (0 < r)) (r - 1) c ch
  let cc ← neighbour (decide (0 < r) && decide (0 < c)) (r - 1) (c - 1) ch
  pure (med a b cc)

/-- IPRED, 44_intra.md R186. -/
def ipredBody (ch : BitVec 8) (row col : BitVec 16) : Action Word := do
  let g ← getRegs
  require (inWindow g row.toNat col.toNat ch.toNat) .outOfBounds
  let p ← predict row.toNat col.toNat ch.toNat
  pure (tc32 p)

/-- The command IPRED through the stages of 60_exceptions.md R263. -/
def execIpred (ch : BitVec 8) (row col : BitVec 16) (s : State) : Host.Outcome State Fault Refusal :=
  command (opcodeOf (.ipred ch row col)) (legalChannel ch) (ipredBody ch row col) s

/-- Code the difference of one sample of CUR and its prediction, and store the reconstruction in a lossy variant: the
loop body that 44_intra.md R188 and 45_motion.md R207 share. -/
def encodeResidual (isLossy : Bool) (r c ch : Nat) (p : Int) : Action Unit := do
  let x ← readSample .cur r c ch
  let d : Int := (x.toNat : Int) - p
  if isLossy then do
    let l ← qLevel ch d
    golombEncode l
    let v ← qValue ch l
    writeSample .cur r c ch (clamp8 (p + v))
  else golombEncode d

/-- Store the sample that a decoded difference or level gives: the end of the loop body that 44_intra.md R189 and
45_motion.md R208 share. -/
def storeResidual (isLossy : Bool) (r c ch : Nat) (p l : Int) : Action Unit := do
  if isLossy then do
    let v ← qValue ch l
    writeSample .cur r c ch (clamp8 (p + v))
  else writeSample .cur r c ch (clamp8 (p + l))

/-- `EncodeIntra()`, 44_intra.md R188: raster order, channel innermost. -/
def encodeIntra : Action Unit := do
  let g ← getRegs
  forFrom g.height.toNat 0 fun r =>
    forFrom g.width.toNat 0 fun c =>
      forFrom (channels g) 0 fun ch => do
        let p ← predict r c ch
        encodeResidual (lossy g) r c ch p

/-- `DecodeIntra()`, 44_intra.md R189. -/
def decodeIntra : Action Unit := do
  let g ← getRegs
  forFrom g.height.toNat 0 fun r =>
    forFrom g.width.toNat 0 fun c =>
      forFrom (channels g) 0 fun ch => do
        let p ← predict r c ch
        let l ← golombDecode
        storeResidual (lossy g) r c ch p l

end Sys2Proof.Machine
end

