-- ==== Sys2Proof/Machine/Motion.lean ====
section
/-! DEFINITION. The motion estimator of 45_motion.md: cost (R201), window (R202), `Match` (R203), MATCH (R204),
`EncodePred` (R207), `DecodePred` (R208). -/

namespace Sys2Proof.Machine

/-- 45_motion.md R201: ME_METRIC 1 (MSE) and 2 (PSNR) use squared differences, 0 (MAD) and 3 (SAD) absolute ones. -/
def squaredMetric (g : Regs) : Bool :=
  decide (g.meMetric = 1#2) || decide (g.meMetric = 2#2)

/-- One term of the cost sums of 45_motion.md R201. -/
def costTerm (squared : Bool) (x y : Byte) : Nat :=
  let d := ((x.toNat : Int) - (y.toNat : Int)).natAbs
  if squared then d * d else d

/-- `Cost(r0, c0, r1, c1)`, 45_motion.md R201, an exact integer sum. -/
def blockCost (g : Regs) (r0 c0 r1 c1 : Nat) : Action Nat :=
  foldFrom g.blockSize.toNat 0 (fun i acc =>
    foldFrom g.blockSize.toNat 0 (fun j acc =>
      foldFrom (channels g) 0 (fun ch acc => do
        let x ← readSample .cur (r0 + i) (c0 + j) ch
        let y ← readSample .ref (r1 + i) (c1 + j) ch
        pure (acc + costTerm (squaredMetric g) x y)) acc) acc) 0

/-- The best candidate so far. -/
structure Candidate where
  row : Nat
  col : Nat
  cost : Nat
deriving DecidableEq, Repr

/-- A later candidate replaces the best one only with a strictly lower cost, 45_motion.md R203. -/
def better (best : Option Candidate) (k : Candidate) : Option Candidate :=
  match best with
  | none => some k
  | some b => if k.cost < b.cost then some k else some b

/-- The first row or column of the search window, 45_motion.md R202: max(0, x0 - R). -/
def windowLow (x0 radius : Nat) : Nat := x0 - radius

/-- The last row or column of the search window, 45_motion.md R202: min(extent - B, x0 + R). -/
def windowHigh (x0 radius extent block : Nat) : Nat := min (extent - block) (x0 + radius)

/-- How many rows or columns the window has. -/
def windowCount (x0 radius extent block : Nat) : Nat :=
  windowHigh x0 radius extent block + 1 - windowLow x0 radius

/-- The row-major scan of 45_motion.md R203, without the early exit. -/
def scanWindow (g : Regs) (r0 c0 : Nat) : Action (Option Candidate) :=
  let radius := g.searchRadius.toNat
  let block := g.blockSize.toNat
  foldFrom (windowCount r0 radius g.height.toNat block) (windowLow r0 radius) (fun r1 best =>
    foldFrom (windowCount c0 radius g.width.toNat block) (windowLow c0 radius) (fun c1 best => do
      let k ← blockCost g r0 c0 r1 c1
      pure (better best { row := r1, col := c1, cost := k })) best) none

/-- The displacement of a candidate; an empty window cannot occur (45_motion.md R202, log 12). -/
def displacement (r0 c0 : Nat) : Option Candidate → Int × Int
  | none => (0, 0)
  | some b => ((b.col : Int) - (c0 : Int), (b.row : Int) - (r0 : Int))

/-- `Match(r0, c0)`, 45_motion.md R203: early exit, else the first best of the scan. The result is (dx, dy). -/
def matchSearch (g : Regs) (r0 c0 : Nat) : Action (Int × Int) := do
  let k0 ← blockCost g r0 c0 r0 c0
  if k0 = 0 then pure (0, 0)
  else do
    let best ← scanWindow g r0 c0
    pure (displacement r0 c0 best)

/-- MATCH, 45_motion.md R204: RESULT[31:16] is dy and RESULT[15:0] is dx. -/
def matchBlockBody (row col : BitVec 16) : Action Word := do
  let g ← getRegs
  require g.refValid .invalidState
  require (decide (g.blockSize ≠ 0#8)) .invalidState
  require (decide (row.toNat + g.blockSize.toNat ≤ g.height.toNat ∧ col.toNat + g.blockSize.toNat ≤ g.width.toNat))
    .outOfBounds
  let v ← matchSearch g row.toNat col.toNat
  pure (tc16 v.2 ++ tc16 v.1)

/-- The command MATCH through the stages of 60_exceptions.md R263. -/
def execMatchBlock (row col : BitVec 16) (s : State) : Host.Outcome State Fault Refusal :=
  command (opcodeOf (.matchBlock row col)) true (matchBlockBody row col) s

/-- The reference coordinate of a displaced sample; inside the frame by 45_motion.md R203 and R208. -/
def displaced (x0 : Nat) (d : Int) : Nat := ((x0 : Int) + d).toNat

/-- One block of `EncodePred()`, 45_motion.md R207: the vector, then the residuals. -/
def encodeBlock (g : Regs) (r0 c0 : Nat) : Action Unit := do
  let v ← matchSearch g r0 c0
  golombEncode v.1
  golombEncode v.2
  forFrom g.blockSize.toNat 0 fun i =>
    forFrom g.blockSize.toNat 0 fun j =>
      forFrom (channels g) 0 fun ch => do
        let y ← readSample .ref (displaced r0 v.2 + i) (displaced c0 v.1 + j) ch
        encodeResidual (lossy g) (r0 + i) (c0 + j) ch (y.toNat : Int)

/-- The check of a decoded vector, 45_motion.md R208: the reference block lies inside the frame. -/
def vectorInside (g : Regs) (r0 c0 : Nat) (dx dy : Int) : Bool :=
  decide (0 ≤ (r0 : Int) + dy ∧ (r0 : Int) + dy ≤ (g.height.toNat : Int) - (g.blockSize.toNat : Int) ∧
    0 ≤ (c0 : Int) + dx ∧ (c0 : Int) + dx ≤ (g.width.toNat : Int) - (g.blockSize.toNat : Int))

/-- One block of `DecodePred()`, 45_motion.md R208. -/
def decodeBlock (g : Regs) (r0 c0 : Nat) : Action Unit := do
  let dx ← golombDecode
  let dy ← golombDecode
  require (vectorInside g r0 c0 dx dy) .outOfBounds
  forFrom g.blockSize.toNat 0 fun i =>
    forFrom g.blockSize.toNat 0 fun j =>
      forFrom (channels g) 0 fun ch => do
        let l ← golombDecode
        let y ← readSample .ref (displaced r0 dy + i) (displaced c0 dx + j) ch
        storeResidual (lossy g) (r0 + i) (c0 + j) ch (y.toNat : Int) l

/-- NBR and NBC of 45_motion.md R200: the full blocks along one side. -/
def blocksAlong (extent : BitVec 32) (block : BitVec 8) : Nat :=
  extent.toNat / block.toNat

/-- The blocks in frame-partition order, 45_motion.md R200. -/
def forBlocks (g : Regs) (f : Nat → Nat → Action Unit) : Action Unit :=
  forFrom (blocksAlong g.height g.blockSize) 0 fun br =>
    forFrom (blocksAlong g.width g.blockSize) 0 fun bc =>
      f (br * g.blockSize.toNat) (bc * g.blockSize.toNat)

/-- `EncodePred()`, 45_motion.md R207. -/
def encodePred : Action Unit := do
  let g ← getRegs
  forBlocks g (encodeBlock g)

/-- `DecodePred()`, 45_motion.md R208. -/
def decodePred : Action Unit := do
  let g ← getRegs
  forBlocks g (decodeBlock g)

end Sys2Proof.Machine
end

