-- ==== Sys2Proof/Machine/Container.lean ====
section
/-! DEFINITION. The header and frame commands of 46_container.md: WRHDR, RDHDR, ENCF, DECF. -/

namespace Sys2Proof.Machine

/-- The header fields of 46_container.md R221 as numbers. -/
structure Header where
  colorSpace : Nat
  chroma : Nat
  width : Nat
  height : Nat
  m : Nat
  frameCount : Nat
  blockSize : Nat
  intraPeriod : Nat
  searchRadius : Nat
  quantY : Nat
  quantU : Nat
  quantV : Nat
deriving DecidableEq, Repr

/-- The header that the session parameters describe (46_container.md R221, column "CSR"). -/
def headerOfRegs (g : Regs) : Header where
  colorSpace := g.colorSpace.toNat
  chroma := g.chroma.toNat
  width := g.width.toNat
  height := g.height.toNat
  m := g.m.toNat
  frameCount := g.frameCount.toNat
  blockSize := g.blockSize.toNat
  intraPeriod := g.intraPeriod.toNat
  searchRadius := g.searchRadius.toNat
  quantY := g.qbitsY.toNat
  quantU := g.qbitsU.toNat
  quantV := g.qbitsV.toNat

/-- The width in bits of the fields width and height, 46_container.md R221. -/
def dimWidth (g : Regs) : Nat := if dim32 g then 32 else 8

/-- The width in bits of the field frame_count, 46_container.md R221. -/
def countWidth (g : Regs) : Nat := if fc32 g then 32 else 8

/-- The twelve checks of 46_container.md R224 in their order, each with the fault of a failure. `writing` is WRHDR;
checks 6 and 7 are WRHDR's only. -/
def headerChecks (p : Config.Params) (g : Regs) (writing : Bool) (h : Header) : List (Bool × Cause) :=
  [ (decide (h.m = 0), if writing then .invalidState else .invalidFormat),
    (decide (2 < h.colorSpace), .invalidFormat),
    (decide (3 < h.chroma), .invalidFormat),
    (decide (h.width = 0 ∨ h.height = 0), .invalidFormat),
    (decide (p.maxW < h.width ∨ p.maxH < h.height), .invalidFormat),
    (writing && !dim32 g && decide (255 < h.width ∨ 255 < h.height), .invalidFormat),
    (writing && !fc32 g && decide (255 < h.frameCount), .invalidFormat),
    (decide (h.chroma = 2 ∧ h.width % 2 = 1), .invalidFormat),
    (decide (h.chroma = 3 ∧ (h.width % 2 = 1 ∨ h.height % 2 = 1)), .invalidFormat),
    (hybrid g && decide (h.blockSize = 0), .invalidFormat),
    (hybrid g && decide (h.intraPeriod = 0), .invalidFormat),
    (lossy g && decide (8 < h.quantY ∨ 8 < h.quantU ∨ 8 < h.quantV), .invalidFormat) ]

/-- `ValidateHeader`, 46_container.md R224: the fault of the first check that fails, if any. -/
def validateHeader (p : Config.Params) (g : Regs) (writing : Bool) (h : Header) : Option Cause :=
  ((headerChecks p g writing h).find? (fun c => c.1)).map (fun c => c.2)

/-- Raise the fault of a header that does not pass. -/
def checkHeader (writing : Bool) (h : Header) : Action Unit := fun s =>
  match validateHeader s.par s.regs writing h with
  | none => .ok () s
  | some c => .error c s

/-- The fields of the header in stream order, 46_container.md R221 and R225. -/
def putHeader (g : Regs) : Action Unit := do
  let h := headerOfRegs g
  putBits h.colorSpace 3
  putBits h.chroma 3
  putBits h.width (dimWidth g)
  putBits h.height (dimWidth g)
  putBits h.m 8
  putBits h.frameCount (countWidth g)
  onlyIf (hybrid g) do
    putBits h.blockSize 8
    putBits h.intraPeriod 8
    putBits h.searchRadius 8
  onlyIf (lossy g) do
    putBits h.quantY 8
    putBits h.quantU 8
    putBits h.quantV 8

/-- `GetBits(n)` for a field that is present, `x` for one that is not (46_container.md R226). -/
def getField (present : Bool) (x n : Nat) : Action Nat :=
  if present then getBits n else pure x

/-- The fields of the header read in stream order, 46_container.md R226. A field that the variant does not have keeps
the value of its register. -/
def getHeader (g : Regs) : Action Header := do
  let old := headerOfRegs g
  let cs ← getBits 3
  let cu ← getBits 3
  let w ← getBits (dimWidth g)
  let h ← getBits (dimWidth g)
  let m ← getBits 8
  let fc ← getBits (countWidth g)
  let bs ← getField (hybrid g) old.blockSize 8
  let ip ← getField (hybrid g) old.intraPeriod 8
  let sr ← getField (hybrid g) old.searchRadius 8
  let qy ← getField (lossy g) old.quantY 8
  let qu ← getField (lossy g) old.quantU 8
  let qv ← getField (lossy g) old.quantV 8
  pure
    { colorSpace := cs, chroma := cu, width := w, height := h, m := m, frameCount := fc, blockSize := bs,
      intraPeriod := ip, searchRadius := sr, quantY := qy, quantU := qu, quantV := qv }

/-- The session parameters loaded from a header, 46_container.md R226. -/
def loadHeader (h : Header) (g : Regs) : Regs :=
  { g with
    colorSpace := BitVec.ofNat 3 h.colorSpace
    chroma := BitVec.ofNat 3 h.chroma
    width := BitVec.ofNat 32 h.width
    height := BitVec.ofNat 32 h.height
    m := BitVec.ofNat 8 h.m
    frameCount := BitVec.ofNat 32 h.frameCount
    blockSize := BitVec.ofNat 8 h.blockSize
    intraPeriod := BitVec.ofNat 8 h.intraPeriod
    searchRadius := BitVec.ofNat 8 h.searchRadius
    qbitsY := BitVec.ofNat 8 h.quantY
    qbitsU := BitVec.ofNat 8 h.quantU
    qbitsV := BitVec.ofNat 8 h.quantV }

/-- `STATUS.SESS <- HEADER_DONE; FRAME_IDX <- 0` (46_container.md R225, R226). -/
def headerDoneRegs (g : Regs) : Regs :=
  { g with sess := .headerDone, frameIdx := 0#32 }

/-- WRHDR, 46_container.md R225: everything is checked before any bit is written. -/
def wrhdrBody : Action Word := do
  requireMode .write
  requireSess .uninit
  let g ← getRegs
  checkHeader true (headerOfRegs g)
  putHeader g
  modifyRegs headerDoneRegs
  pure 0#32

/-- The command WRHDR through the stages of 60_exceptions.md R263. -/
def execWrhdr (s : State) : Host.Outcome State Fault Refusal :=
  command (opcodeOf .wrhdr) true wrhdrBody s

/-- RDHDR, 46_container.md R226: every field is read before any is validated or stored. -/
def rdhdrBody : Action Word := do
  requireMode .read
  requireSess .uninit
  let g ← getRegs
  let h ← getHeader g
  checkHeader false h
  modifyRegs (loadHeader h)
  modifyRegs headerDoneRegs
  pure 0#32

/-- The command RDHDR through the stages of 60_exceptions.md R263. -/
def execRdhdr (s : State) : Host.Outcome State Fault Refusal :=
  command (opcodeOf .rdhdr) true rdhdrBody s

/-- `FrameType(FRAME_IDX) = Intra`, 46_container.md R232. -/
def frameIsIntra (g : Regs) : Bool :=
  !hybrid g || decide (g.frameIdx.toNat % g.intraPeriod.toNat = 0)

/-- The preconditions of a frame command after MODE, 46_container.md R233, R236. -/
def requireFrame : Action Unit := do
  requireSess .headerDone
  let g ← getRegs
  require (decide (g.frameIdx.toNat < g.frameCount.toNat)) .invalidState

/-- An intra frame by the given procedure, and its copy to REF in a hybrid variant (46_container.md R233, R235, R238);
RESULT 0. -/
def intraFrame (g : Regs) (coder : Action Unit) : Action Word := do
  coder
  onlyIf (hybrid g) (copyCurToRef g.frameIdx)
  pure 0#32

/-- A predicted frame by the given procedure; RESULT 1 (46_container.md R233, R236). -/
def predictedFrame (coder : Action Unit) : Action Word := do
  coder
  pure 1#32

/-- The frame by its type (46_container.md R232, R233, R236). -/
def typedFrame (g : Regs) (intra predicted : Action Unit) : Action Word :=
  if frameIsIntra g then intraFrame g intra else predictedFrame predicted

/-- `FRAME_IDX <- i + 1; respond(t)` around the coding of frame `i` (46_container.md R233, R236). -/
def codeFrame (intra predicted : Action Unit) : Action Word := do
  let g ← getRegs
  let t ← typedFrame g intra predicted
  modifyRegs fun x => { x with frameIdx := g.frameIdx + 1#32 }
  pure t

/-- ENCF, 46_container.md R233. -/
def encfBody : Action Word := do
  requireMode .write
  requireFrame
  codeFrame encodeIntra encodePred

/-- The command ENCF through the stages of 60_exceptions.md R263. -/
def execEncf (s : State) : Host.Outcome State Fault Refusal :=
  command (opcodeOf .encf) true encfBody s

/-- DECF, 46_container.md R236. -/
def decfBody : Action Word := do
  requireMode .read
  requireFrame
  codeFrame decodeIntra decodePred

/-- The command DECF through the stages of 60_exceptions.md R263. -/
def execDecf (s : State) : Host.Outcome State Fault Refusal :=
  command (opcodeOf .decf) true decfBody s

end Sys2Proof.Machine
end

