-- ==== Sys2Proof/Machine/Golomb.lean ====
section
/-! DEFINITION. The Golomb coder commands of 41_golomb.md: GENC, GDEC. -/

namespace Sys2Proof.Machine

/-- GENC, 41_golomb.md R143: the operand is the signed IMM. -/
def gencBody (n : Word) : Action Word := do
  requireMode .write
  golombEncode n.toInt
  pure 0#32

/-- The command GENC through the stages of 60_exceptions.md R263. -/
def execGenc (n : Word) (s : State) : Host.Outcome State Fault Refusal :=
  command (opcodeOf (.genc n)) true (gencBody n) s

/-- GDEC, 41_golomb.md R144. -/
def gdecBody : Action Word := do
  requireMode .read
  let n ← golombDecode
  pure (tc32 n)

/-- The command GDEC through the stages of 60_exceptions.md R263. -/
def execGdec (s : State) : Host.Outcome State Fault Refusal :=
  command (opcodeOf .gdec) true gdecBody s

end Sys2Proof.Machine
end

