-- ==== Sys2Proof/Machine/RunLength.lean ====
section
/-! DEFINITION. The run-length coder commands of 42_runlength.md: RPUSH, RFLUSH, RPOP. -/

namespace Sys2Proof.Machine

/-- 42_runlength.md R161: a push of `v` ends the pending run, because the value changes or the count is at RUN_MAX. -/
def pushEndsRun (g : Regs) (v : Word) : Bool :=
  decide (g.runCount ≠ 0#32) && (decide (v ≠ g.lastValue) || decide (g.runCount.toNat = Config.runMax))

/-- RPUSH, 42_runlength.md R161: M is checked even when no bit is written. -/
def rpushBody (v : Word) : Action Word := do
  requireMode .write
  let g ← getRegs
  require (decide (g.m ≠ 0#8)) .invalidState
  onlyIf (pushEndsRun g v) flushPair
  modifyRegs fun g => { g with runCount := g.runCount + 1#32, lastValue := v }
  pure 0#32

/-- The command RPUSH through the stages of 60_exceptions.md R263. -/
def execRpush (v : Word) (s : State) : Host.Outcome State Fault Refusal :=
  command (opcodeOf (.rpush v)) true (rpushBody v) s

/-- RFLUSH, 42_runlength.md R162: M matters only when a run is pending. -/
def rflushBody : Action Word := do
  requireMode .write
  let g ← getRegs
  onlyIf (decide (g.runCount ≠ 0#32)) flushPair
  pure 0#32

/-- The command RFLUSH through the stages of 60_exceptions.md R263. -/
def execRflush (s : State) : Host.Outcome State Fault Refusal :=
  command (opcodeOf .rflush) true rflushBody s

/-- A fresh pair, 42_runlength.md R163: both members are read before the count is checked. -/
def readPair : Action Unit := do
  let c ← golombDecode
  let x ← golombDecode
  require (decide (0 < c)) .invalidFormat
  modifyRegs fun g => { g with runCount := BitVec.ofInt 32 c, lastValue := tc32 x }

/-- RPOP, 42_runlength.md R163. -/
def rpopBody : Action Word := do
  requireMode .read
  let g ← getRegs
  require (decide (g.m ≠ 0#8)) .invalidState
  onlyIf (decide (g.runCount = 0#32)) readPair
  modifyRegs fun g => { g with runCount := g.runCount - 1#32 }
  let h ← getRegs
  pure h.lastValue

/-- The command RPOP through the stages of 60_exceptions.md R263. -/
def execRpop (s : State) : Host.Outcome State Fault Refusal :=
  command (opcodeOf .rpop) true rpopBody s

end Sys2Proof.Machine
end

