-- ==== Sys2Proof/Machine/System.lean ====
section
/-! DEFINITION. The system commands of 47_system.md: NOP, RESET, CSRR, CSRW, PXWR, PXRD, CPREF. -/

namespace Sys2Proof.Machine

/-- NOP, 47_system.md R250: nothing, in every state. -/
def nopBody : Action Word :=
  pure 0#32

/-- The command NOP through the stages of 60_exceptions.md R263. -/
def execNop (s : State) : Host.Outcome State Fault Refusal :=
  commandAlways (opcodeOf .nop) true nopBody s

/-- RESET, 47_system.md R251: soft reset, in every state; no flush and no call of the environment. -/
def resetBody : Action Word :=
  fun t => .ok 0#32 (resetBlock t)

/-- The command RESET through the stages of 60_exceptions.md R263. -/
def execReset (s : State) : Host.Outcome State Fault Refusal :=
  commandAlways (opcodeOf .reset) true resetBody s

/-- CSRR, 47_system.md R252: read a register, in every state, without side effect. -/
def csrrBody (csr : BitVec 8) : Action Word := do
  let g ← getRegs
  match csrAt csr with
  | some c => pure (csrValue c g)
  | none => raise .illegalCommand

/-- The command CSRR through the stages of 60_exceptions.md R263. -/
def execCsrr (csr : BitVec 8) (s : State) : Host.Outcome State Fault Refusal :=
  commandAlways (opcodeOf (.csrr csr)) (legalCsrRead csr) (csrrBody csr) s

/-- CSRW, 47_system.md R253: write a register; the session parameters are locked while SESS = HEADER_DONE
(10_state.md R43). -/
def csrwBody (csr : BitVec 8) (value : Word) : Action Word := do
  let g ← getRegs
  match csrAt csr with
  | some c => do
    require (!(csrLocked c && decide (g.sess = .headerDone))) .invalidState
    modifyRegs (csrSet c value)
    pure 0#32
  | none => raise .illegalCommand

/-- The command CSRW through the stages of 60_exceptions.md R263. -/
def execCsrw (csr : BitVec 8) (value : Word) (s : State) : Host.Outcome State Fault Refusal :=
  command (opcodeOf (.csrw csr value)) (legalCsrWrite s.par csr value) (csrwBody csr value) s

/-- PXWR, 47_system.md R254: write one sample of CUR. -/
def pxwrBody (ch sample : BitVec 8) (row col : BitVec 16) : Action Word := do
  let g ← getRegs
  require (inWindow g row.toNat col.toNat ch.toNat) .outOfBounds
  writeSample .cur row.toNat col.toNat ch.toNat sample
  pure 0#32

/-- The command PXWR through the stages of 60_exceptions.md R263. -/
def execPxwr (ch sample : BitVec 8) (row col : BitVec 16) (s : State) : Host.Outcome State Fault Refusal :=
  command (opcodeOf (.pxwr ch sample row col)) (legalChannel ch) (pxwrBody ch sample row col) s

/-- PXRD, 47_system.md R255: read one sample of CUR, or of REF when it holds a reference. -/
def pxrdBody (ch : BitVec 8) (buf : BitVec 1) (row col : BitVec 16) : Action Word := do
  let g ← getRegs
  require (decide (bufferOf buf = .cur) || g.refValid) .invalidState
  require (inWindow g row.toNat col.toNat ch.toNat) .outOfBounds
  let v ← readSample (bufferOf buf) row.toNat col.toNat ch.toNat
  pure (v.zeroExtend 32)

/-- The command PXRD through the stages of 60_exceptions.md R263. -/
def execPxrd (ch : BitVec 8) (buf : BitVec 1) (row col : BitVec 16) (s : State) : Host.Outcome State Fault Refusal :=
  command (opcodeOf (.pxrd ch buf row col)) (legalChannel ch) (pxrdBody ch buf row col) s

/-- CPREF, 47_system.md R256: make the frame in CUR the reference frame; refused inside a session. -/
def cprefBody : Action Word := do
  let g ← getRegs
  require (decide (g.sess ≠ .headerDone)) .invalidState
  copyCurToRef 0#32
  pure 0#32

/-- The command CPREF through the stages of 60_exceptions.md R263. -/
def execCpref (s : State) : Host.Outcome State Fault Refusal :=
  command (opcodeOf .cpref) true cprefBody s

end Sys2Proof.Machine
end

