-- ==== Sys2Proof/Machine/Dispatch.lean ====
section
/-! DEFINITION. One arm per command of 30_encoding.md R95. -/

namespace Sys2Proof.Machine

def exec (i : Instr) (s : State) : Host.Outcome State Fault Refusal :=
  match i with
  | .nop => Sys2Proof.Machine.execNop s
  | .reset => Sys2Proof.Machine.execReset s
  | .csrr csr => Sys2Proof.Machine.execCsrr csr s
  | .csrw csr value => Sys2Proof.Machine.execCsrw csr value s
  | .pxwr ch sample row col => Sys2Proof.Machine.execPxwr ch sample row col s
  | .pxrd ch buf row col => Sys2Proof.Machine.execPxrd ch buf row col s
  | .cpref => Sys2Proof.Machine.execCpref s
  | .bopenw => Sys2Proof.Machine.execBopenw s
  | .bopenr => Sys2Proof.Machine.execBopenr s
  | .bclose => Sys2Proof.Machine.execBclose s
  | .putbit bit => Sys2Proof.Machine.execPutbit bit s
  | .putbits n value => Sys2Proof.Machine.execPutbits n value s
  | .getbit => Sys2Proof.Machine.execGetbit s
  | .getbits n => Sys2Proof.Machine.execGetbits n s
  | .genc n => Sys2Proof.Machine.execGenc n s
  | .gdec => Sys2Proof.Machine.execGdec s
  | .rpush v => Sys2Proof.Machine.execRpush v s
  | .rflush => Sys2Proof.Machine.execRflush s
  | .rpop => Sys2Proof.Machine.execRpop s
  | .qlevel ch v => Sys2Proof.Machine.execQlevel ch v s
  | .qvalue ch level => Sys2Proof.Machine.execQvalue ch level s
  | .quant ch v => Sys2Proof.Machine.execQuant ch v s
  | .ipred ch row col => Sys2Proof.Machine.execIpred ch row col s
  | .matchBlock row col => Sys2Proof.Machine.execMatchBlock row col s
  | .wrhdr => Sys2Proof.Machine.execWrhdr s
  | .rdhdr => Sys2Proof.Machine.execRdhdr s
  | .encf => Sys2Proof.Machine.execEncf s
  | .decf => Sys2Proof.Machine.execDecf s

end Sys2Proof.Machine
end

