-- ==== Sys2Proof/Machine/Step.lean ====
section
/-! DEFINITION. One step: the block accepts the host's next input (00_scope.md R13) and carries it out whole. -/

namespace Sys2Proof.Machine

/-- A command word goes through the stages of 60_exceptions.md R263: decoding here, the rest in `exec`. -/
def runWord (w : CmdWord) (s : State) : Host.Outcome State Fault Refusal :=
  match decode w with
  | .ok i => exec i s
  | .error _ => .next (rejectWord w s)

/-- With no input the block waits (70_reset_and_hazards.md R290, log 14). `hard_reset` resets the block without a
response, between commands or within one (R291, log 7). -/
def step (s : State) : Host.Outcome State Fault Refusal :=
  match nextInput s with
  | none => .next s
  | some (.hardReset, t) => .next (resetBlock t)
  | some (.command w, t) => runWord w t
  | some (.hardResetDuring w n, t) =>
    match runWord w t with
    | .next u => .next (cutShort n t u)
    | .fault r => .fault r
    | .refused r => .refused r

/-- The host's placing of a command: the word stands first among the inputs, so the next step accepts it (log 1). -/
def State.withFetchWord (s : State) (nbits w : Nat) : State :=
  { s with inputs := .command (BitVec.ofNat 64 (w % 2 ^ nbits)) :: s.inputs }

end Sys2Proof.Machine
end

