-- ==== Sys2Proof/Machine/View.lean ====
section
/-! DEFINITION. Views of the state in which claims are stated: the bit stream as a list of bits, codewords and headers
as bit lists, a fully written frame, and what a command that writes or reads bits leaves alone. No meaning uses them. -/

namespace Sys2Proof.Machine

/-! ### The encoding tables restated (10_state.md R23, 30_encoding.md R99) -/

/-- Mask and match of every row of spec/opcode_table.json, in its order (30_encoding.md R99). -/
def commandRows : List (CmdWord × CmdWord) :=
  [
    (0xFFFFFFFFFFFFFFFF#64, 0x0000000000000000#64),
    (0xFFFFFFFFFFFFFFFF#64, 0x0100000000000000#64),
    (0xFF00FFFFFFFFFFFF#64, 0x0200000000000000#64),
    (0xFF00FFFF00000000#64, 0x0300000000000000#64),
    (0xFF0000FF00000000#64, 0x0800000000000000#64),
    (0xFF00FEFF00000000#64, 0x0900000000000000#64),
    (0xFFFFFFFFFFFFFFFF#64, 0x0A00000000000000#64),
    (0xFFFFFFFFFFFFFFFF#64, 0x1000000000000000#64),
    (0xFFFFFFFFFFFFFFFF#64, 0x1100000000000000#64),
    (0xFFFFFFFFFFFFFFFF#64, 0x1200000000000000#64),
    (0xFFFEFFFFFFFFFFFF#64, 0x1300000000000000#64),
    (0xFF00FFFF00000000#64, 0x1400000000000000#64),
    (0xFFFFFFFFFFFFFFFF#64, 0x1500000000000000#64),
    (0xFF00FFFFFFFFFFFF#64, 0x1600000000000000#64),
    (0xFFFFFFFF00000000#64, 0x2000000000000000#64),
    (0xFFFFFFFFFFFFFFFF#64, 0x2100000000000000#64),
    (0xFFFFFFFF00000000#64, 0x2800000000000000#64),
    (0xFFFFFFFFFFFFFFFF#64, 0x2900000000000000#64),
    (0xFFFFFFFFFFFFFFFF#64, 0x2A00000000000000#64),
    (0xFF00FFFF00000000#64, 0x3000000000000000#64),
    (0xFF00FFFF00000000#64, 0x3100000000000000#64),
    (0xFF00FFFF00000000#64, 0x3200000000000000#64),
    (0xFF00FFFF00000000#64, 0x4000000000000000#64),
    (0xFFFFFFFF00000000#64, 0x4800000000000000#64),
    (0xFFFFFFFFFFFFFFFF#64, 0x5000000000000000#64),
    (0xFFFFFFFFFFFFFFFF#64, 0x5100000000000000#64),
    (0xFFFFFFFFFFFFFFFF#64, 0x5200000000000000#64),
    (0xFFFFFFFFFFFFFFFF#64, 0x5300000000000000#64)
  ]

/-- The registers in the order of their addresses 0x00 to 0x18 (10_state.md R23). -/
def csrOrder : List Csr :=
  [.id, .status, .cause, .finfo, .variant, .hdrcfg, .colorSpace, .chroma, .width, .height, .m, .frameCount,
    .blockSize, .intraPeriod, .searchRadius, .qbitsY, .qbitsU, .qbitsV, .meMetric, .frameIdx, .refIdx,
    .runCount, .lastValue, .bitcnt, .bitbuf]

/-- The legal operands of CSRW by address and value, from the table of 10_state.md R23 and 47_system.md R253. -/
def CsrwLegal (p : Config.Params) (addr value : Nat) : Prop :=
  0x04 ≤ addr ∧ addr ≤ 0x12 ∧
  ((addr = 0x04 ∨ addr = 0x05 ∨ addr = 0x12) → value < 4) ∧
  ((addr = 0x06 ∨ addr = 0x07) → value < 8) ∧
  ((addr = 0x0A ∨ (0x0C ≤ addr ∧ addr ≤ 0x11)) → value < 256) ∧
  (addr = 0x08 → value ≤ p.maxW) ∧
  (addr = 0x09 → value ≤ p.maxH)

/-! ### The bit stream (20_memory.md R64, R65) -/

/-- The low `n` bits of `v`, most significant first (20_memory.md R64). -/
def bitsOf (v : Nat) : Nat → List Bool
  | 0 => []
  | n + 1 => v.testBit n :: bitsOf v n

/-- The number that a list of bits is, first bit most significant (40_bitio.md R124). -/
def ofBits (bs : List Bool) : Nat :=
  bs.foldl (fun v b => 2 * v + b.toNat) 0

/-- The bits of a byte in stream order: bit 7 first (20_memory.md R65). -/
def byteBits (b : Byte) : List Bool := bitsOf b.toNat 8

/-- The bits of a list of bytes in stream order. -/
def bytesBits (bs : List Byte) : List Bool := bs.flatMap byteBits

/-- The bits that sit in BITBUF[7] down to BITBUF[8 - BITCNT] (10_state.md R42). -/
def bufferedBits (g : Regs) : List Bool := (byteBits g.bitbuf).take g.bitcnt.toNat

/-- Every bit written so far: those of the bytes at SINK, then those pending (20_memory.md R78). -/
def writtenBits (s : State) : List Bool := bytesBits s.env.sinkOut ++ bufferedBits s.regs

/-- The bytes that the source still gives before it ends or fails. -/
def sourceBytes : List SourceAnswer → List Byte
  | .byte b :: rest => b :: sourceBytes rest
  | _ => []

/-- Every bit that can still be read: those in the buffer, then those of the source's bytes. -/
def unreadBits (s : State) : List Bool := bufferedBits s.regs ++ bytesBits (sourceBytes s.env.source)

/-- The source ends; it does not fail (00_scope.md R14). -/
def sourceEnds : List SourceAnswer → Bool
  | [] => true
  | .byte _ :: rest => sourceEnds rest
  | .eos :: _ => true
  | .ioerr :: _ => false

/-- Every `SinkPut` to come is answered `ok`. -/
def sinkReady (s : State) : Bool := s.env.sinkAnswers.all (fun a => decide (a = .ok))

/-- 10_state.md R42: at most `most` bits in the buffer, and its other bits are 0. -/
def bufferHolds (g : Regs) (most : Nat) : Bool :=
  decide (g.bitcnt.toNat ≤ most ∧ g.bitbuf.toNat % 2 ^ (8 - g.bitcnt.toNat) = 0)

/-- The state `t` is `s` after the bits `bs` were written: they follow the bits written before, up to 7 of them stay in
the buffer, the full bytes went to SINK, and nothing else changed. -/
def AppendsBits (s t : State) (bs : List Bool) : Prop :=
  writtenBits t = writtenBits s ++ bs ∧ bufferHolds t.regs 7 = true ∧
  ∃ out, t.env.sinkOut = s.env.sinkOut ++ out ∧
    t = { s with
      regs := { s.regs with bitcnt := t.regs.bitcnt, bitbuf := t.regs.bitbuf }
      env := { s.env with sinkOut := t.env.sinkOut, sinkAnswers := s.env.sinkAnswers.drop out.length } }

/-- The state `t` is `s` after the bits `bs` were read: they were the first of the unread ones, and nothing else but the
buffer and the source changed. -/
def ConsumesBits (s t : State) (bs : List Bool) : Prop :=
  unreadBits s = bs ++ unreadBits t ∧ bufferHolds t.regs 8 = true ∧
  t = { s with
    regs := { s.regs with bitcnt := t.regs.bitcnt, bitbuf := t.regs.bitbuf }
    env := { s.env with source := t.env.source } }

/-! ### Codewords and headers as bit lists -/

/-- The truncated-binary remainder, 41_golomb.md R140 part 2. -/
def remainderBits (m r : Nat) : List Bool :=
  if r < golombU m then bitsOf r (golombK m) else bitsOf (r + golombU m) (golombK m + 1)

/-- The three parts of a codeword, 41_golomb.md R140: unary quotient, truncated-binary remainder, sign. -/
def codewordParts (m q r : Nat) (sign : Bool) : List Bool :=
  List.replicate q true ++ false :: (remainderBits m r ++ [sign])

/-- The codeword of `n` under the divisor `m`, 41_golomb.md R140. -/
def codeword (m : Nat) (n : Int) : List Bool :=
  codewordParts m (n.natAbs / m) (n.natAbs % m) (decide (n < 0))

/-- The number that the parts of a codeword stand for, 41_golomb.md R142. -/
def codedNumber (m q r : Nat) (sign : Bool) : Int :=
  if sign then -((q * m + r : Nat) : Int) else ((q * m + r : Nat) : Int)

/-- The codewords of a list of numbers, one after the other. -/
def codewords (m : Nat) (ns : List Int) : List Bool := ns.flatMap (codeword m)

/-- The header that the session parameters describe, 46_container.md R221. -/
def headerBits (g : Regs) : List Bool :=
  bitsOf g.colorSpace.toNat 3 ++ bitsOf g.chroma.toNat 3 ++
  bitsOf g.width.toNat (dimWidth g) ++ bitsOf g.height.toNat (dimWidth g) ++
  bitsOf g.m.toNat 8 ++ bitsOf g.frameCount.toNat (countWidth g) ++
  (if hybrid g then bitsOf g.blockSize.toNat 8 ++ bitsOf g.intraPeriod.toNat 8 ++ bitsOf g.searchRadius.toNat 8 else []) ++
  (if lossy g then bitsOf g.qbitsY.toNat 8 ++ bitsOf g.qbitsU.toNat 8 ++ bitsOf g.qbitsV.toNat 8 else [])

/-- The pair of a pending run, count first; nothing when no run is pending (42_runlength.md R162). -/
def pendingPair (g : Regs) : List Bool :=
  if g.runCount = 0#32 then []
  else codeword g.m.toNat (g.runCount.toNat : Int) ++ codeword g.m.toNat g.lastValue.toInt

/-! ### Frames -/

/-- Every sample of the window of a buffer has been written since reset. -/
def WindowWritten (s : State) (b : Buffer) : Prop :=
  ∀ r c ch, inWindow s.regs r c ch = true → ∃ v, s.sample b r c ch = some v

/-- A sample of a buffer as a number; the value is used only where the sample is written. -/
def sampleNat (s : State) (b : Buffer) (r c ch : Nat) : Nat :=
  match s.sample b r c ch with
  | some v => v.toNat
  | none => 0

/-- The prediction for a sample of a frame `f`, 44_intra.md R185: neighbours outside the frame are 0. -/
def framePrediction (f : Nat → Nat → Nat → Byte) (r c ch : Nat) : Int :=
  med (if 0 < c then ((f r (c - 1) ch).toNat : Int) else 0)
    (if 0 < r then ((f (r - 1) c ch).toNat : Int) else 0)
    (if 0 < r ∧ 0 < c then ((f (r - 1) (c - 1) ch).toNat : Int) else 0)

/-- The coordinates of a window in raster order, channel innermost (44_intra.md R188). -/
def raster (height width chans : Nat) : List (Nat × Nat × Nat) :=
  (List.range height).flatMap fun r =>
    (List.range width).flatMap fun c =>
      (List.range chans).map fun ch => (r, c, ch)

/-- The differences of a frame in coding order, lossless (44_intra.md R188). -/
def frameDifferences (g : Regs) (f : Nat → Nat → Nat → Byte) : List Int :=
  (raster g.height.toNat g.width.toNat (channels g)).map fun x =>
    ((f x.1 x.2.1 x.2.2).toNat : Int) - framePrediction f x.1 x.2.1 x.2.2

/-- The cost of a candidate on written frames, 45_motion.md R201, as a sum over the block. -/
def frameCost (s : State) (r0 c0 r1 c1 : Nat) : Nat :=
  ∑ i ∈ Finset.range s.regs.blockSize.toNat, ∑ j ∈ Finset.range s.regs.blockSize.toNat,
    ∑ ch ∈ Finset.range (channels s.regs),
      (if squaredMetric s.regs then
        (((sampleNat s .cur (r0 + i) (c0 + j) ch : Int) - (sampleNat s .ref (r1 + i) (c1 + j) ch : Int)) ^ 2).natAbs
      else
        ((sampleNat s .cur (r0 + i) (c0 + j) ch : Int) - (sampleNat s .ref (r1 + i) (c1 + j) ch : Int)).natAbs)

/-- A position lies in the search window of 45_motion.md R202. -/
def inSearchWindow (g : Regs) (r0 c0 r1 c1 : Nat) : Prop :=
  max 0 ((r0 : Int) - (g.searchRadius.toNat : Int)) ≤ (r1 : Int) ∧
  (r1 : Int) ≤ min ((g.height.toNat : Int) - (g.blockSize.toNat : Int)) ((r0 : Int) + (g.searchRadius.toNat : Int)) ∧
  max 0 ((c0 : Int) - (g.searchRadius.toNat : Int)) ≤ (c1 : Int) ∧
  (c1 : Int) ≤ min ((g.width.toNat : Int) - (g.blockSize.toNat : Int)) ((c0 : Int) + (g.searchRadius.toNat : Int))

/-- The vector `(r1, c1)` is what the search of 45_motion.md R203 picks for the block at `(r0, c0)`: no motion when the
co-located cost is 0, else the first position of the row-major scan that has the least cost. -/
def FirstBest (s : State) (r0 c0 r1 c1 : Nat) : Prop :=
  (frameCost s r0 c0 r0 c0 = 0 → r1 = r0 ∧ c1 = c0) ∧
  (frameCost s r0 c0 r0 c0 ≠ 0 →
    inSearchWindow s.regs r0 c0 r1 c1 ∧
    ∀ r c, inSearchWindow s.regs r0 c0 r c →
      frameCost s r0 c0 r1 c1 ≤ frameCost s r0 c0 r c ∧
      (frameCost s r0 c0 r1 c1 = frameCost s r0 c0 r c → r1 < r ∨ (r1 = r ∧ c1 ≤ c)))

/-- The number that stands in the stream for the difference `d` of a sample of channel `ch`: `d` itself, or in a lossy
variant its level `QLevel(ch, d)` (43_quantizer.md R172, R178; 44_intra.md R188, 45_motion.md R207). -/
def transmitted (g : Regs) (ch : Nat) (d : Int) : Int :=
  let step := 256 / (2 ^ numBits g ch - 1)
  if lossy g = true ∧ numBits g ch ≠ 0 then d.sign * ((d.natAbs + step / 2) / step : Nat) else d

/-- The sample stored for a prediction `p` and a transmitted number `l`: `clamp8(p + x)` with `x` the number itself, or
in a lossy variant its dequantized value (44_intra.md R189, 45_motion.md R208, 43_quantizer.md R173). -/
def reconstruct (g : Regs) (ch : Nat) (p l : Int) : Byte :=
  clamp8 (p + if lossy g = true ∧ numBits g ch ≠ 0 then l * ((256 / (2 ^ numBits g ch - 1) : Nat) : Int) else l)

/-- A sample as a byte; the value is used only where the sample is written. -/
def sampleByte (s : State) (b : Buffer) (r c ch : Nat) : Byte := (s.sample b r c ch).getD 0#8

/-- The sample lies in a block of the partition, 45_motion.md R200. -/
def inBlocks (g : Regs) (r c ch : Nat) : Prop :=
  r < g.height.toNat / g.blockSize.toNat * g.blockSize.toNat ∧
  c < g.width.toNat / g.blockSize.toNat * g.blockSize.toNat ∧ ch < channels g

/-- The next frame is an intra frame, 46_container.md R232. -/
def intraNext (g : Regs) : Bool :=
  decide (hybrid g = true → g.frameIdx.toNat % g.intraPeriod.toNat = 0)

/-- The samples the next frame command codes: the window for an intra frame, the blocks for a predicted one. -/
def codedSample (g : Regs) (r c ch : Nat) : Prop :=
  if intraNext g then inWindow g r c ch = true else inBlocks g r c ch

/-- What 46_container.md R224 grants a session: a divisor, legal bit depths, and in a hybrid variant a block size and an
intra period. -/
def CodingReady (g : Regs) : Prop :=
  g.m ≠ 0#8 ∧
  (lossy g = true → g.qbitsY.toNat ≤ 8 ∧ g.qbitsU.toNat ≤ 8 ∧ g.qbitsV.toNat ≤ 8) ∧
  (hybrid g = true → g.blockSize ≠ 0#8 ∧ g.intraPeriod ≠ 0#8)

/-- A frame command changed only what 46_container.md R233 and R236 name: the bit buffer, FRAME_IDX, the reference
registers, the buffers inside the coded samples and the window, the environment, and the free-value counter. -/
def FrameFrame (s t : State) : Prop :=
  t.regs = { s.regs with
    bitcnt := t.regs.bitcnt
    bitbuf := t.regs.bitbuf
    frameIdx := s.regs.frameIdx + 1#32
    refValid := if hybrid s.regs && intraNext s.regs then true else s.regs.refValid
    refIdx := if hybrid s.regs && intraNext s.regs then s.regs.frameIdx else s.regs.refIdx } ∧
  t.par = s.par ∧ t.inputs = s.inputs ∧ t.env.openAnswers = s.env.openAnswers ∧
  t.env.nextSources = s.env.nextSources ∧
  (∀ r c ch, c < 2 ^ 32 → ch < 2 ^ 8 → ¬ codedSample s.regs r c ch → t.sample .cur r c ch = s.sample .cur r c ch) ∧
  (hybrid s.regs = true → intraNext s.regs = true →
    (∀ r c ch, inWindow s.regs r c ch = true → ∀ v, t.sample .cur r c ch = some v → t.sample .ref r c ch = some v) ∧
    (∀ r c ch, c < 2 ^ 32 → ch < 2 ^ 8 → inWindow s.regs r c ch = false →
      t.sample .ref r c ch = s.sample .ref r c ch)) ∧
  ((hybrid s.regs = false ∨ intraNext s.regs = false) → t.ref = s.ref)

/-- The block numbers of a frame in frame-partition order, 45_motion.md R200. -/
def blockOrder (g : Regs) : List (Nat × Nat) :=
  (List.range (g.height.toNat / g.blockSize.toNat)).flatMap fun br =>
    (List.range (g.width.toNat / g.blockSize.toNat)).map fun bc => (br, bc)

/-- The block that the vector `v` names in REF for the block `b` of the partition lies inside the frame
(45_motion.md R208). -/
def ReferenceInside (g : Regs) (b : Nat × Nat) (v : Int × Int) : Prop :=
  0 ≤ ((b.1 * g.blockSize.toNat : Nat) : Int) + v.2 ∧
  ((b.1 * g.blockSize.toNat : Nat) : Int) + v.2 + g.blockSize.toNat ≤ g.height.toNat ∧
  0 ≤ ((b.2 * g.blockSize.toNat : Nat) : Int) + v.1 ∧
  ((b.2 * g.blockSize.toNat : Nat) : Int) + v.1 + g.blockSize.toNat ≤ g.width.toNat

/-- What a decoder accepts for the block `b`: a vector that stays inside the frame and as many residuals as the block has
samples, all of 32 bits (45_motion.md R208). -/
def BlockFine (g : Regs) (vec : Nat → Nat → Int × Int) (res : Nat → Nat → List Int) (b : Nat × Nat) : Prop :=
  ReferenceInside g b (vec b.1 b.2) ∧
  fits32 (vec b.1 b.2).1 = true ∧ fits32 (vec b.1 b.2).2 = true ∧
  (res b.1 b.2).length = g.blockSize.toNat * g.blockSize.toNat * channels g ∧ ∀ l ∈ res b.1 b.2, fits32 l = true

/-- The block `b` of CUR in `t` is decoded from REF in `s`: each sample is the clamped sum of the sample that the vector `v`
names and the block's transmitted number (45_motion.md R208). A sample of REF that nothing wrote is not its subject. -/
def BlockDecoded (s t : State) (b : Nat × Nat) (v : Int × Int) (numbers : List Int) : Prop :=
  ∀ i j ch l y, i < s.regs.blockSize.toNat → j < s.regs.blockSize.toNat → ch < channels s.regs →
    numbers[(i * s.regs.blockSize.toNat + j) * channels s.regs + ch]? = some l →
    s.sample .ref (displaced (b.1 * s.regs.blockSize.toNat) v.2 + i)
      (displaced (b.2 * s.regs.blockSize.toNat) v.1 + j) ch = some y →
    t.sample .cur (b.1 * s.regs.blockSize.toNat + i) (b.2 * s.regs.blockSize.toNat + j) ch =
      some (reconstruct s.regs ch (y.toNat : Int) l)

/-- The numbers of a list of blocks in stream order: for each its vector, then its residuals (45_motion.md R207). -/
def blockNumbers (vec : Nat → Nat → Int × Int) (res : Nat → Nat → List Int) (bs : List (Nat × Nat)) : List Int :=
  bs.flatMap fun b => (vec b.1 b.2).1 :: (vec b.1 b.2).2 :: res b.1 b.2

/-- The numbers of a predicted frame in stream order (45_motion.md R207). -/
def predictedNumbers (g : Regs) (vec : Nat → Nat → Int × Int) (res : Nat → Nat → List Int) : List Int :=
  blockNumbers vec res (blockOrder g)

/-- The residuals of one block in coding order, lossless (45_motion.md R207). -/
def blockResiduals (s : State) (r0 c0 : Nat) (v : Int × Int) : List Int :=
  (raster s.regs.blockSize.toNat s.regs.blockSize.toNat (channels s.regs)).map fun x =>
    (sampleNat s .cur (r0 + x.1) (c0 + x.2.1) x.2.2 : Int) -
      (sampleNat s .ref (displaced r0 v.2 + x.1) (displaced c0 v.1 + x.2.1) x.2.2 : Int)

/-! ### Sequences of commands -/

/-- Run commands one after the other (00_scope.md R13). -/
def execAll : List Instr → State → Host.Outcome State Fault Refusal
  | [], s => .next s
  | i :: rest, s =>
    match exec i s with
    | .next t => execAll rest t
    | .fault r => .fault r
    | .refused r => .refused r

end Sys2Proof.Machine
end

