-- ==== Sys2Proof/Safety.lean ====
section
/-! DEFINITION. What holds of the block in every state a run reaches: the invariants that claims name. -/

namespace Sys2Proof.Machine

/-- Both frame buffers keep their canonical form. -/
def MemoryOk (s : State) : Prop :=
  s.cur.wf = true ∧ s.ref.wf = true

/-- 10_state.md R32: WIDTH and HEIGHT stay within MAX_W and MAX_H. -/
def DimsOk (s : State) : Prop :=
  s.regs.width.toNat ≤ s.par.maxW ∧ s.regs.height.toNat ≤ s.par.maxH

/-- 10_state.md R26, 60_exceptions.md R260: CAUSE is 0 while no fault is recorded and a code from 1 to 7 while one is. -/
def FaultOk (s : State) : Prop :=
  (s.regs.err = false → s.regs.cause = 0#8) ∧
  (s.regs.err = true → 1 ≤ s.regs.cause.toNat ∧ s.regs.cause.toNat ≤ 7)

/-- 10_state.md R42: the bit buffer by mode. BITCNT reaches 8 in WRITE mode only where a fault stopped `PutBit`. -/
def BufferOk (s : State) : Prop :=
  bufferHolds s.regs 8 = true ∧
  (s.regs.mode = .idle → s.regs.bitcnt = 0#4 ∧ s.regs.bitbuf = 0#8) ∧
  (s.regs.mode = .write → s.regs.err = false → s.regs.bitcnt.toNat ≤ 7)

/-- 10_state.md R41: the run count stays within RUN_MAX, and no run is held while no stream is open. -/
def RunOk (s : State) : Prop :=
  s.regs.runCount.toNat ≤ Config.runMax ∧
  (s.regs.mode = .idle → s.regs.runCount = 0#32 ∧ s.regs.lastValue = 0#32)

/-- The checks of 46_container.md R224 that WRHDR and RDHDR share, on the registers as header fields. -/
def HeaderAccepted (p : Config.Params) (g : Regs) : Prop :=
  g.m ≠ 0#8 ∧ g.colorSpace.toNat ≤ 2 ∧ g.chroma.toNat ≤ 3 ∧
  1 ≤ g.width.toNat ∧ g.width.toNat ≤ p.maxW ∧ 1 ≤ g.height.toNat ∧ g.height.toNat ≤ p.maxH ∧
  (g.chroma = 2#3 → g.width.toNat % 2 = 0) ∧
  (g.chroma = 3#3 → g.width.toNat % 2 = 0 ∧ g.height.toNat % 2 = 0) ∧
  (hybrid g = true → g.blockSize ≠ 0#8 ∧ g.intraPeriod ≠ 0#8) ∧
  (lossy g = true → g.qbitsY.toNat ≤ 8 ∧ g.qbitsU.toNat ≤ 8 ∧ g.qbitsV.toNat ≤ 8)

/-- Checks 6 and 7 of 46_container.md R224: the fields hold the values. -/
def FieldsFit (g : Regs) : Prop :=
  (dim32 g = false → g.width.toNat ≤ 255 ∧ g.height.toNat ≤ 255) ∧
  (fc32 g = false → g.frameCount.toNat ≤ 255)

/-- The frame index of the last intra frame before frame `i` (46_container.md R232, R235). -/
def lastIntraBefore (g : Regs) (i : Nat) : Nat :=
  (i - 1) - (i - 1) % g.intraPeriod.toNat

/-- The session state machine of 46_container.md R230 with R232 and R235: a header in force is valid and belongs to an
open stream, frames are counted up to FRAME_COUNT, and in a hybrid session REF holds the last intra frame. -/
def SessionOk (s : State) : Prop :=
  (s.regs.sess = .closed → s.regs.mode = .idle) ∧
  (s.regs.sess = .uninit → s.regs.frameIdx = 0#32) ∧
  (s.regs.refValid = false → s.regs.refIdx = 0#32) ∧
  (s.regs.sess = .headerDone →
    s.regs.mode ≠ .idle ∧ HeaderAccepted s.par s.regs ∧ FieldsFit s.regs ∧ s.regs.frameIdx.toNat ≤ s.regs.frameCount.toNat ∧
    (hybrid s.regs = true → 0 < s.regs.frameIdx.toNat →
      s.regs.refValid = true ∧ s.regs.refIdx.toNat = lastIntraBefore s.regs s.regs.frameIdx.toNat))

/-- All of them. -/
def Inv (s : State) : Prop :=
  MemoryOk s ∧ DimsOk s ∧ FaultOk s ∧ BufferOk s ∧ RunOk s ∧ SessionOk s

/-- The session parameters of 10_state.md R43, addresses 0x04 to 0x11, as they read. -/
def sessionParameters (g : Regs) : List Word :=
  [csrValue .variant g, csrValue .hdrcfg g, csrValue .colorSpace g, csrValue .chroma g, csrValue .width g,
    csrValue .height g, csrValue .m g, csrValue .frameCount g, csrValue .blockSize g, csrValue .intraPeriod g,
    csrValue .searchRadius g, csrValue .qbitsY g, csrValue .qbitsU g, csrValue .qbitsV g]

/-- The MODE a command needs, for the commands of 40_bitio.md, 41_golomb.md, 42_runlength.md and 46_container.md that
write or read bits. -/
def neededMode : Instr → Option Mode
  | .putbit _ => some .write
  | .putbits _ _ => some .write
  | .genc _ => some .write
  | .rpush _ => some .write
  | .rflush => some .write
  | .wrhdr => some .write
  | .encf => some .write
  | .getbit => some .read
  | .getbits _ => some .read
  | .gdec => some .read
  | .rpop => some .read
  | .rdhdr => some .read
  | .decf => some .read
  | _ => none

/-- The states in which 46_container.md R230 lets a session command go on; the other commands are not its subject. -/
def SessionAllows (g : Regs) : Instr → Prop
  | .bopenw => g.mode = .idle
  | .bopenr => g.mode = .idle
  | .bclose => g.mode ≠ .idle
  | .wrhdr => g.mode = .write ∧ g.sess = .uninit
  | .rdhdr => g.mode = .read ∧ g.sess = .uninit
  | .encf => g.mode = .write ∧ g.sess = .headerDone ∧ g.frameIdx.toNat < g.frameCount.toNat
  | .decf => g.mode = .read ∧ g.sess = .headerDone ∧ g.frameIdx.toNat < g.frameCount.toNat
  | _ => True

/-- MODE and SESS after a command that completes, 46_container.md R230. -/
def sessionAfter (g : Regs) : Instr → Mode × Sess
  | .bopenw => (.write, .uninit)
  | .bopenr => (.read, .uninit)
  | .bclose => (.idle, .closed)
  | .wrhdr => (.write, .headerDone)
  | .rdhdr => (.read, .headerDone)
  | .reset => (.idle, .uninit)
  | _ => (g.mode, g.sess)

/-- The faults a command can raise: the table of 60_exceptions.md R261, IllegalCommand apart. -/
def faultsOf : Instr → List Cause
  | .nop => []
  | .reset => []
  | .csrr _ => []
  | .csrw _ _ => [.invalidState]
  | .pxwr _ _ _ _ => [.outOfBounds]
  | .pxrd _ _ _ _ => [.invalidState, .outOfBounds]
  | .cpref => [.invalidState]
  | .bopenw => [.invalidState, .ioError]
  | .bopenr => [.invalidState, .ioError]
  | .bclose => [.invalidState, .ioError]
  | .putbit _ => [.invalidState, .ioError]
  | .putbits _ _ => [.invalidState, .ioError]
  | .getbit => [.invalidState, .ioError, .endOfStream]
  | .getbits _ => [.invalidState, .ioError, .endOfStream]
  | .genc _ => [.invalidState, .ioError]
  | .gdec => [.invalidState, .ioError, .endOfStream, .overflow]
  | .rpush _ => [.invalidState, .ioError]
  | .rflush => [.invalidState, .ioError]
  | .rpop => [.invalidState, .invalidFormat, .ioError, .endOfStream, .overflow]
  | .qlevel _ _ => [.invalidState]
  | .qvalue _ _ => [.invalidState, .overflow]
  | .quant _ _ => [.invalidState, .overflow]
  | .ipred _ _ _ => [.outOfBounds]
  | .matchBlock _ _ => [.invalidState, .outOfBounds]
  | .wrhdr => [.invalidState, .invalidFormat, .ioError]
  | .rdhdr => [.invalidState, .invalidFormat, .ioError, .endOfStream]
  | .encf => [.invalidState, .ioError]
  | .decf => [.invalidState, .outOfBounds, .ioError, .endOfStream, .overflow]

end Sys2Proof.Machine
end

