-- ==== Sys2Proof/Certificates/Slice0/Obligations.lean ====
section
/-! DEFINITION. The statements for the provers. Each docstring names the rules of spec/ that a statement formalises. In
all of them a command that completes answers a next state whose last response has status OK. -/

open Sys2Proof Sys2Proof.Machine

/-! ### Encoding (30_encoding.md) -/

/-- R90, R94, R95: decoding a command's word gives the command back, with every operand at every value. -/
def Obligations.DecodeOfEncode : Prop :=
  ∀ i : Instr, decode (encode i) = .ok i

/-- R90, R91, R95: a word that decodes is the word of the command it decodes to, so no bit of it is dropped. -/
def Obligations.EncodeOfDecode : Prop :=
  ∀ (w : CmdWord) (i : Instr), decode w = .ok i → encode i = w

/-- R99: a word selects a command exactly when it matches a row of the opcode table, and it matches at most one. -/
def Obligations.DecodeSelectsOneRow : Prop :=
  ∀ w : CmdWord,
    ((∃ i, decode w = .ok i) ↔ ∃ r ∈ commandRows, w &&& r.1 = r.2) ∧
    (∀ r ∈ commandRows, ∀ q ∈ commandRows, w &&& r.1 = r.2 → w &&& q.1 = q.2 → r = q)

/-- Eight words that rules write out decode to their commands: NOP, RESET, CSRR STATUS, CSRW M, PXWR and PXRD
(47_system.md R250 to R255; PXRD also in R101), IPRED (44_intra.md R186) and MATCH (45_motion.md R204). Two words are
refused: one built here from R97, CPREF's word with a bit of its unused IMM set, and 0x0400000000000000, a reserved OP
(R96; the word stands in 95_test_vectors.md 2.10). -/
def Obligations.SampleWordsDecode : Prop :=
  decode 0x0000000000000000#64 = .ok .nop ∧
  decode 0x0100000000000000#64 = .ok .reset ∧
  decode 0x0201000000000000#64 = .ok (.csrr 0x01#8) ∧
  decode 0x030A000000000004#64 = .ok (.csrw 0x0A#8 4#32) ∧
  decode 0x0800100000010001#64 = .ok (.pxwr 0#8 16#8 1#16 1#16) ∧
  decode 0x0900010000010002#64 = .ok (.pxrd 0#8 1#1 1#16 2#16) ∧
  decode 0x4000000000010001#64 = .ok (.ipred 0#8 1#16 1#16) ∧
  decode 0x4800000000000002#64 = .ok (.matchBlock 0#16 2#16) ∧
  decode 0x0A00000000000001#64 = .error .nonzeroUnused ∧
  decode 0x0400000000000000#64 = .error .reservedOpcode

/-- R96, with 60_exceptions.md R263: a word with a reserved OP is no no-op, it faults with IllegalCommand (or is refused
when a fault is recorded already). -/
def Obligations.ReservedOpcodesFault : Prop :=
  ∀ (s : State) (w : CmdWord) (rest : List HostInput), s.inputs = .command w :: rest →
    ((0x04 ≤ (w.extractLsb' 56 8).toNat ∧ (w.extractLsb' 56 8).toNat ≤ 0x07) ∨
      (0x0B ≤ (w.extractLsb' 56 8).toNat ∧ (w.extractLsb' 56 8).toNat ≤ 0x0F) ∨
      (0x17 ≤ (w.extractLsb' 56 8).toNat ∧ (w.extractLsb' 56 8).toNat ≤ 0x1F) ∨
      (0x22 ≤ (w.extractLsb' 56 8).toNat ∧ (w.extractLsb' 56 8).toNat ≤ 0x27) ∨
      (0x2B ≤ (w.extractLsb' 56 8).toNat ∧ (w.extractLsb' 56 8).toNat ≤ 0x2F) ∨
      (0x33 ≤ (w.extractLsb' 56 8).toNat ∧ (w.extractLsb' 56 8).toNat ≤ 0x3F) ∨
      (0x41 ≤ (w.extractLsb' 56 8).toNat ∧ (w.extractLsb' 56 8).toNat ≤ 0x47) ∨
      (0x49 ≤ (w.extractLsb' 56 8).toNat ∧ (w.extractLsb' 56 8).toNat ≤ 0x4F) ∨
      0x54 ≤ (w.extractLsb' 56 8).toNat) →
    step s = .next
      (if s.regs.err then State.respond { s with inputs := rest } 8#8 0#32
      else takeFault (w.extractLsb' 56 8) .illegalCommand { s with inputs := rest })

/-- R97, with 60_exceptions.md R263: an operand outside its legal values faults with IllegalCommand before anything else
is looked at (or the command is refused when a fault is recorded already). -/
def Obligations.IllegalOperandsFault : Prop :=
  ∀ (i : Instr) (s : State), i.wellFormed s.par = false →
    exec i s = .next (if s.regs.err then s.respond 8#8 0#32 else takeFault (opcodeOf i) .illegalCommand s)

/-! ### The step, responses and faults (00_scope.md R12, R13; 30_encoding.md R92; 60_exceptions.md) -/

/-- 00_scope.md R13, 30_encoding.md R99, 60_exceptions.md R263: a step accepts the next command word; a word that selects
a command runs it, any other word is refused or faults with IllegalCommand. That the words stand in a list is the
model's own (log 1). -/
def Obligations.StepRunsDecodedCommand : Prop :=
  ∀ (s : State) (w : CmdWord) (rest : List HostInput), s.inputs = .command w :: rest →
    (∀ i, decode w = .ok i → step s = exec i { s with inputs := rest }) ∧
    (∀ e, decode w = .error e → step s = .next
      (if s.regs.err then State.respond { s with inputs := rest } 8#8 0#32
      else takeFault (w.extractLsb' 56 8) .illegalCommand { s with inputs := rest }))

/-- 70_reset_and_hazards.md R290, R291: `hard_reset` has no response, calls nothing and resets every register and sample.
Within a command it leaves at SINK the bytes of the command's first requests, as many as were answered (log 7). With no
input the block waits (log 14: it stays as it is). -/
def Obligations.HardResetAndWaiting : Prop :=
  ∀ s : State,
    (s.inputs = [] → step s = .next s) ∧
    (∀ rest, s.inputs = .hardReset :: rest → ∃ t, step s = .next t ∧
      t.regs = Regs.reset ∧ t.cur = [] ∧ t.ref = [] ∧ t.responses = s.responses ∧ t.inputs = rest ∧
      t.env.sinkOut = s.env.sinkOut ∧ t.env.sinkAnswers = s.env.sinkAnswers ∧
      t.env.openAnswers = s.env.openAnswers ∧ (s.regs.mode ≠ .read → t.env = s.env)) ∧
    (∀ w n rest, s.inputs = .hardResetDuring w n :: rest → ∃ t u out, step s = .next t ∧
      step { s with inputs := .command w :: rest } = .next u ∧
      t.regs = Regs.reset ∧ t.cur = [] ∧ t.ref = [] ∧ t.responses = s.responses ∧ t.inputs = rest ∧
      u.env.sinkOut = s.env.sinkOut ++ out ∧ t.env.sinkOut = s.env.sinkOut ++ out.take n)

/-- 00_scope.md R12, 30_encoding.md R92, R93: every command is answered by exactly one response word of the stated form,
whatever the state. -/
def Obligations.EveryCommandIsAnswered : Prop :=
  ∀ (i : Instr) (s : State), ∃ (t : State) (w : RspWord),
    exec i s = .next t ∧ t.responses = s.responses ++ [w] ∧ t.inputs = s.inputs ∧ t.par = s.par ∧
    w.extractLsb' 32 24 = 0#24 ∧ (w.extractLsb' 56 8).toNat ≤ 8 ∧
    (w.extractLsb' 56 8 ≠ 0#8 → w.extractLsb' 0 32 = 0#32)

/-- 60_exceptions.md R268: while a fault is recorded, a word that is not a legal NOP, CSRR or RESET is answered with
status 8 and has no effect at all. -/
def Obligations.RefusedWhileFaulted : Prop :=
  ∀ (s : State) (w : CmdWord) (rest : List HostInput),
    s.inputs = .command w :: rest → s.regs.err = true →
    (¬ ∃ i, decode w = .ok i ∧ i.wellFormed s.par = true ∧ (i = .nop ∨ i = .reset ∨ ∃ a, i = .csrr a)) →
    step s = .next { s with inputs := rest, responses := s.responses ++ [0x0800000000000000#64] }

/-- 60_exceptions.md R265, R260: a command that raises a fault sets ERR, records a code from 1 to 7 and its own opcode, and
answers with that code and result 0; one that raises none answers with status 0. -/
def Obligations.FaultEntryRecordsCause : Prop :=
  ∀ (i : Instr) (s t : State), s.regs.err = false → exec i s = .next t →
    (t.regs.err = true → 1 ≤ t.regs.cause.toNat ∧ t.regs.cause.toNat ≤ 7 ∧ t.regs.finfo = opcodeOf i ∧
      t.responses = s.responses ++ [t.regs.cause ++ 0#56]) ∧
    (t.regs.err = false → ∃ v : Word, t.responses = s.responses ++ [0#32 ++ v])

/-- 60_exceptions.md R261: while no fault is recorded, a command raises IllegalCommand exactly when it is ill formed (an
ill-formed one always faults, and with that cause alone), and a well-formed one raises only faults that its row of the
table has. -/
def Obligations.CommandsRaiseOnlyTheirFaults : Prop :=
  ∀ (i : Instr) (s t : State), s.regs.err = false → exec i s = .next t →
    (i.wellFormed s.par = false → t.regs.err = true ∧ t.regs.cause = 6#8) ∧
    (t.regs.err = true →
      (i.wellFormed s.par = false ∧ t.regs.cause = 6#8) ∨
      (i.wellFormed s.par = true ∧ ∃ c ∈ faultsOf i, t.regs.cause = causeCode c))

/-- 60_exceptions.md R266, R269: in the fault state a step changes no register, no sample and nothing of the environment,
unless it is RESET or `hard_reset`, which leave that state. -/
def Obligations.OnlyResetLeavesFaultState : Prop :=
  ∀ s t : State, s.regs.err = true → step s = .next t →
    (t.regs = s.regs ∧ t.cur = s.cur ∧ t.ref = s.ref ∧ t.env = s.env ∧ t.draws = s.draws) ∨
    ((∃ rest, s.inputs = .hardReset :: rest ∨ (∃ w n, s.inputs = .hardResetDuring w n :: rest) ∨
        ∃ w, s.inputs = .command w :: rest ∧ decode w = .ok .reset) ∧
      t.regs = Regs.reset)

/-! ### Reset and the system commands (10_state.md, 47_system.md) -/

/-- 10_state.md R52: after `hard_reset`, after RESET and at power-on every register holds the reset value of R23 and no
sample has a value. -/
def Obligations.ResetValues : Prop :=
  ∀ t : State,
    (t = State.reset ∨ (∃ s, exec .reset s = .next t) ∨ (∃ s rest, s.inputs = .hardReset :: rest ∧ step s = .next t) ∨
      (∃ s rest w n, s.inputs = .hardResetDuring w n :: rest ∧ step s = .next t)) →
    (∀ c : Csr, csrValue c t.regs = if c = .id then 0x47454301#32 else if c = .hdrcfg then 3#32 else 0#32) ∧
    (∀ b r c ch, t.sample b r c ch = none)

/-- 47_system.md R251: RESET completes in every state, resets every register and sample, and calls nothing; a source that
is open is dropped. That another source of the environment then stands ready is the model's own (log 6). -/
def Obligations.ResetCompletes : Prop :=
  ∀ s : State, exec .reset s = .next
    (State.respond { s with
      regs := Regs.reset
      cur := []
      ref := []
      env := if s.regs.mode = .read then
          { s.env with source := s.env.nextSources.headD [], nextSources := s.env.nextSources.tail }
        else s.env } 0#8 0#32)

/-- 10_state.md R24: the register ID reads 0x47454301 in every state, and no write reaches it. -/
def Obligations.IdReadsConstant : Prop :=
  ∀ (s : State) (v : Word),
    exec (.csrr 0x00#8) s = .next (s.respond 0#8 0x47454301#32) ∧
    (s.regs.err = false → exec (.csrw 0x00#8 v) s = .next (takeFault 0x03#8 .illegalCommand s))

/-- 47_system.md R250, R252 and 10_state.md R22, R25: NOP and CSRR complete in every state and change nothing; a register
reads with zeros above its width, and STATUS by its fields: MODE 0 IDLE, 1 WRITE, 2 READ; SESS 0 UNINIT, 1 HEADER_DONE,
2 CLOSED; ERR; REF_VALID. -/
def Obligations.NopAndCsrrComplete : Prop :=
  ∀ s : State,
    exec .nop s = .next (s.respond 0#8 0#32) ∧
    (∀ (a : BitVec 8) (c : Csr), csrOrder[a.toNat]? = some c →
      exec (.csrr a) s = .next (s.respond 0#8 (csrValue c s.regs)) ∧
      (csrValue c s.regs).toNat < 2 ^ csrWidth c) ∧
    (csrValue .status s.regs).extractLsb' 0 2 = (match s.regs.mode with
      | .idle => 0#2
      | .write => 1#2
      | .read => 2#2) ∧
    (csrValue .status s.regs).extractLsb' 2 2 = (match s.regs.sess with
      | .uninit => 0#2
      | .headerDone => 1#2
      | .closed => 2#2) ∧
    (csrValue .status s.regs).getLsbD 4 = s.regs.err ∧
    (csrValue .status s.regs).getLsbD 5 = s.regs.refValid

/-- 47_system.md R253: a legal CSRW outside the lock writes the addressed register and no other state; an illegal one
faults with IllegalCommand and writes nothing. -/
def Obligations.CsrwWritesRegister : Prop :=
  ∀ (s : State) (a : BitVec 8) (v : Word), s.regs.err = false →
    (∀ c, csrOrder[a.toNat]? = some c → CsrwLegal s.par a.toNat v.toNat →
      (a.toNat ≤ 0x11 → s.regs.sess ≠ .headerDone) →
      ∃ t, exec (.csrw a v) s = .next t ∧ csrValue c t.regs = v ∧
        (∀ d, d ≠ c → csrValue d t.regs = csrValue d s.regs) ∧
        t = { s with regs := t.regs, responses := s.responses ++ [0#64] }) ∧
    (¬ CsrwLegal s.par a.toNat v.toNat → exec (.csrw a v) s = .next (takeFault 0x03#8 .illegalCommand s))

/-- 10_state.md R43: while SESS = HEADER_DONE a write to a session parameter faults with InvalidState and writes nothing;
in every other session state it is written. -/
def Obligations.SessionParametersAreLocked : Prop :=
  ∀ (s : State) (a : BitVec 8) (v : Word), s.regs.err = false → CsrwLegal s.par a.toNat v.toNat → a.toNat ≤ 0x11 →
    (s.regs.sess = .headerDone → exec (.csrw a v) s = .next (takeFault 0x03#8 .invalidState s)) ∧
    (s.regs.sess ≠ .headerDone → ∃ t c, exec (.csrw a v) s = .next t ∧ csrOrder[a.toNat]? = some c ∧
      csrValue c t.regs = v)

/-- 10_state.md R33, R43: no step changes a session parameter while a header is and stays in force. -/
def Obligations.SessionParametersImmutable : Prop :=
  ∀ s t : State, step s = .next t → s.regs.sess = .headerDone → t.regs.sess = .headerDone →
    sessionParameters t.regs = sessionParameters s.regs

/-- 47_system.md R254: PXWR inside the window writes the one sample and changes no other sample of either buffer and no
other state. -/
def Obligations.PxwrWritesSample : Prop :=
  ∀ (s : State) (ch v : BitVec 8) (row col : BitVec 16), s.regs.err = false → ch.toNat ≤ 2 →
    inWindow s.regs row.toNat col.toNat ch.toNat = true →
    ∃ t, exec (.pxwr ch v row col) s = .next t ∧
      t.sample .cur row.toNat col.toNat ch.toNat = some v ∧
      (∀ r c k, c < 2 ^ 32 → k < 2 ^ 8 → (r, c, k) ≠ (row.toNat, col.toNat, ch.toNat) →
        t.sample .cur r c k = s.sample .cur r c k) ∧
      t = { s with cur := t.cur, responses := s.responses ++ [0#64] }

/-- 20_memory.md R61, 47_system.md R254, R255, 44_intra.md R186: coordinates outside the window fault with OutOfBounds
and nothing is accessed; REF without a reference faults with InvalidState first. -/
def Obligations.PixelOutOfBounds : Prop :=
  ∀ (s : State) (ch v : BitVec 8) (row col : BitVec 16), s.regs.err = false → ch.toNat ≤ 2 →
    (inWindow s.regs row.toNat col.toNat ch.toNat = false →
      exec (.pxwr ch v row col) s = .next (takeFault 0x08#8 .outOfBounds s) ∧
      exec (.ipred ch row col) s = .next (takeFault 0x40#8 .outOfBounds s) ∧
      exec (.pxrd ch 0#1 row col) s = .next (takeFault 0x09#8 .outOfBounds s) ∧
      (s.regs.refValid = true → exec (.pxrd ch 1#1 row col) s = .next (takeFault 0x09#8 .outOfBounds s))) ∧
    (s.regs.refValid = false → exec (.pxrd ch 1#1 row col) s = .next (takeFault 0x09#8 .invalidState s))

/-- 47_system.md R255, 20_memory.md R62: PXRD answers a written sample of the selected buffer zero-extended; for an
unwritten one it answers some byte and changes nothing but the model's counter of free values (log 3). -/
def Obligations.PxrdReadsSample : Prop :=
  ∀ (s : State) (ch : BitVec 8) (buf : BitVec 1) (row col : BitVec 16), s.regs.err = false → ch.toNat ≤ 2 →
    inWindow s.regs row.toNat col.toNat ch.toNat = true → (buf = 1#1 → s.regs.refValid = true) →
    (∀ v, s.sample (if buf = 1#1 then .ref else .cur) row.toNat col.toNat ch.toNat = some v →
      exec (.pxrd ch buf row col) s = .next (s.respond 0#8 (BitVec.ofNat 32 v.toNat))) ∧
    (s.sample (if buf = 1#1 then .ref else .cur) row.toNat col.toNat ch.toNat = none →
      ∃ v : Byte, exec (.pxrd ch buf row col) s =
        .next (State.respond { s with draws := s.draws + 1 } 0#8 (BitVec.ofNat 32 v.toNat)))

/-- 47_system.md R256: CPREF outside a session copies the window of CUR to REF, sets REF_VALID and clears REF_IDX, and
changes nothing else; inside a session it faults with InvalidState. -/
def Obligations.CprefCopiesWindow : Prop :=
  ∀ s : State, s.regs.err = false →
    (s.regs.sess ≠ .headerDone → ∃ t, exec .cpref s = .next t ∧
      (∀ r c ch v, inWindow s.regs r c ch = true → s.sample .cur r c ch = some v → t.sample .ref r c ch = some v) ∧
      (∀ r c ch, c < 2 ^ 32 → ch < 2 ^ 8 → inWindow s.regs r c ch = false →
        t.sample .ref r c ch = s.sample .ref r c ch) ∧
      t = { s with
        regs := { s.regs with refValid := true, refIdx := 0#32 }
        ref := t.ref
        draws := t.draws
        responses := s.responses ++ [0#64] }) ∧
    (s.regs.sess = .headerDone → exec .cpref s = .next (takeFault 0x0A#8 .invalidState s))

/-- 20_memory.md R60, R72, 46_container.md R233 to R236: only PXWR, ENCF, DECF and RESET change CUR, and only CPREF, ENCF,
DECF and RESET change REF. -/
def Obligations.BuffersChangeOnlyByTheirCommands : Prop :=
  ∀ (i : Instr) (s t : State), exec i s = .next t →
    (t.cur = s.cur ∨ i = .encf ∨ i = .decf ∨ i = .reset ∨ ∃ ch v row col, i = .pxwr ch v row col) ∧
    (t.ref = s.ref ∨ i = .encf ∨ i = .decf ∨ i = .reset ∨ i = .cpref)

/-! ### The bit stream (40_bitio.md, 20_memory.md) -/

/-- 40_bitio.md R125, R126: opening a stream from IDLE starts a new session and changes only the named registers; a
refusal of the environment is IoError before any register changes, and an open stream is InvalidState. -/
def Obligations.OpenStream : Prop :=
  ∀ s : State, s.regs.err = false →
    (s.regs.mode = .idle → s.env.openAnswers.head? ≠ some .ioerr →
      exec .bopenw s = .next (State.respond { s with
        regs := { s.regs with
          mode := .write
          sess := .uninit
          refValid := false
          bitbuf := 0#8
          bitcnt := 0#4
          runCount := 0#32
          lastValue := 0#32
          frameIdx := 0#32
          refIdx := 0#32 }
        env := { s.env with openAnswers := s.env.openAnswers.tail } } 0#8 0#32) ∧
      exec .bopenr s = .next (State.respond { s with
        regs := { s.regs with
          mode := .read
          sess := .uninit
          refValid := false
          bitbuf := 0#8
          bitcnt := 0#4
          runCount := 0#32
          lastValue := 0#32
          frameIdx := 0#32
          refIdx := 0#32 }
        env := { s.env with openAnswers := s.env.openAnswers.tail } } 0#8 0#32)) ∧
    (s.regs.mode = .idle → s.env.openAnswers.head? = some .ioerr →
      exec .bopenw s = .next
        (takeFault 0x10#8 .ioError { s with env := { s.env with openAnswers := s.env.openAnswers.tail } }) ∧
      exec .bopenr s = .next
        (takeFault 0x11#8 .ioError { s with env := { s.env with openAnswers := s.env.openAnswers.tail } })) ∧
    (s.regs.mode ≠ .idle →
      exec .bopenw s = .next (takeFault 0x10#8 .invalidState s) ∧
      exec .bopenr s = .next (takeFault 0x11#8 .invalidState s))

/-- 40_bitio.md R128, R129: PUTBIT and PUTBITS append their bits, most significant first, and change nothing but the bit
buffer and SINK. -/
def Obligations.PutBitsAppend : Prop :=
  ∀ s : State, s.regs.err = false → s.regs.mode = .write → sinkReady s = true → bufferHolds s.regs 7 = true →
    (∀ b : BitVec 1, ∃ t, exec (.putbit b) s = .next (t.respond 0#8 0#32) ∧ AppendsBits s t [b.getLsbD 0]) ∧
    (∀ (n : BitVec 8) (v : Word), n.toNat ≤ 32 →
      ∃ t, exec (.putbits n v) s = .next (t.respond 0#8 0#32) ∧ AppendsBits s t (bitsOf v.toNat n.toNat))

/-- 40_bitio.md R130, R131: GETBIT and GETBITS answer the next bits, the first one most significant, and change nothing
but the bit buffer and the source. Zero bits may be read even at the end. -/
def Obligations.GetBitsConsume : Prop :=
  ∀ (s : State) (bs rest : List Bool), s.regs.err = false → s.regs.mode = .read → bufferHolds s.regs 8 = true →
    unreadBits s = bs ++ rest →
    (bs.length = 1 → ∃ t, exec .getbit s = .next (t.respond 0#8 (BitVec.ofNat 32 (ofBits bs))) ∧ ConsumesBits s t bs) ∧
    (∀ n : BitVec 8, n.toNat ≤ 32 → bs.length = n.toNat →
      ∃ t, exec (.getbits n) s = .next (t.respond 0#8 (BitVec.ofNat 32 (ofBits bs))) ∧ ConsumesBits s t bs)

/-- 40_bitio.md R123, R124, 41_golomb.md R142, 42_runlength.md R163, 46_container.md R226, R236, 60_exceptions.md R260,
R267, R270: when the source ends within the bits, the codeword, the pair, the header or the frame that a command reads,
the fault is EndOfStream, and when it answers `ioerr` there, IoError; either way every bit there was has been consumed,
and nothing else changed but, under DECF, CUR and the model's counter of free values (log 3). -/
def Obligations.ReadPastEndFaults : Prop :=
  ∀ (s t : State) (c : Cause), s.regs.err = false → s.regs.mode = .read → bufferHolds s.regs 8 = true →
    c = (if sourceEnds s.env.source = true then .endOfStream else .ioError) →
    t = { s with
      regs := { s.regs with bitcnt := 0#4, bitbuf := 0#8 }
      env := { s.env with source := s.env.source.drop ((sourceBytes s.env.source).length + 1) } } →
    (unreadBits s = [] → exec .getbit s = .next (takeFault 0x15#8 c t)) ∧
    (∀ n : BitVec 8, n.toNat ≤ 32 → (unreadBits s).length < n.toNat →
      exec (.getbits n) s = .next (takeFault 0x16#8 c t)) ∧
    (s.regs.m ≠ 0#8 → ∀ (q r : Nat) (sign : Bool) (missing : List Bool), r < s.regs.m.toNat → missing ≠ [] →
      unreadBits s ++ missing = codewordParts s.regs.m.toNat q r sign →
      exec .gdec s = .next (takeFault 0x21#8 c t)) ∧
    (s.regs.m ≠ 0#8 → s.regs.runCount = 0#32 → ∀ (k x : Word) (missing : List Bool), missing ≠ [] →
      unreadBits s ++ missing = codeword s.regs.m.toNat k.toInt ++ codeword s.regs.m.toNat x.toInt →
      exec .rpop s = .next (takeFault 0x2A#8 c t)) ∧
    (s.regs.sess = .uninit → (unreadBits s).length < (headerBits s.regs).length →
      exec .rdhdr s = .next (takeFault 0x51#8 c t)) ∧
    (s.regs.sess = .headerDone → s.regs.frameIdx.toNat < s.regs.frameCount.toNat → CodingReady s.regs →
      (intraNext s.regs = true → ∀ (ls : List Int) (missing : List Bool), missing ≠ [] →
        ls.length = s.regs.height.toNat * s.regs.width.toNat * channels s.regs → (∀ l ∈ ls, fits32 l = true) →
        unreadBits s ++ missing = codewords s.regs.m.toNat ls →
        ∃ a n, exec .decf s = .next (takeFault 0x53#8 c { t with cur := a, draws := n })) ∧
      (intraNext s.regs = false →
        ∀ (vec : Nat → Nat → Int × Int) (res : Nat → Nat → List Int) (missing : List Bool), missing ≠ [] →
        (∀ b ∈ blockOrder s.regs, BlockFine s.regs vec res b) →
        unreadBits s ++ missing = codewords s.regs.m.toNat (predictedNumbers s.regs vec res) →
        ∃ a n, exec .decf s = .next (takeFault 0x53#8 c { t with cur := a, draws := n })))

/-- 40_bitio.md R128 to R131, 41_golomb.md R143, R144, 42_runlength.md R161 to R163, 46_container.md R225 to R236: a well
formed command that writes or reads bits faults with InvalidState, without effect, in any other MODE. -/
def Obligations.WrongModeFaults : Prop :=
  ∀ (i : Instr) (s : State) (m : Mode), s.regs.err = false → i.wellFormed s.par = true → neededMode i = some m →
    s.regs.mode ≠ m → exec i s = .next (takeFault (opcodeOf i) .invalidState s)

/-- 40_bitio.md R127, 20_memory.md R67: in WRITE mode BCLOSE hands SINK every bit written, the pending pair, and 0 to 7
zero bits; in READ mode it leaves the rest of the source behind; it closes the stream and keeps the other registers and
the buffers; in IDLE mode it faults. That in READ mode the environment's next source takes the place of the one left
behind is no rule of the spec but the model's own choice (log 6). -/
def Obligations.BcloseClosesStream : Prop :=
  ∀ s : State, s.regs.err = false →
    (s.regs.mode = .write → sinkReady s = true → bufferHolds s.regs 7 = true →
      (s.regs.runCount = 0#32 ∨ s.regs.m ≠ 0#8) →
      ∃ t pad, exec .bclose s = .next t ∧ pad < 8 ∧
        bytesBits t.env.sinkOut = writtenBits s ++ pendingPair s.regs ++ List.replicate pad false ∧
        (s.regs.bitcnt = 0#4 → s.regs.runCount = 0#32 → t.env.sinkOut = s.env.sinkOut) ∧
        t = { s with
          regs := { s.regs with
            mode := .idle
            sess := .closed
            bitbuf := 0#8
            bitcnt := 0#4
            runCount := 0#32
            lastValue := 0#32 }
          env := { s.env with
            sinkOut := t.env.sinkOut
            sinkAnswers := s.env.sinkAnswers.drop (t.env.sinkOut.length - s.env.sinkOut.length) }
          responses := s.responses ++ [0#64] }) ∧
    (s.regs.mode = .read → exec .bclose s = .next (State.respond { s with
      regs := { s.regs with
        mode := .idle
        sess := .closed
        bitbuf := 0#8
        bitcnt := 0#4
        runCount := 0#32
        lastValue := 0#32 }
      env := { s.env with source := s.env.nextSources.headD [], nextSources := s.env.nextSources.tail } } 0#8 0#32)) ∧
    (s.regs.mode = .idle → exec .bclose s = .next (takeFault 0x12#8 .invalidState s))

/-- 40_bitio.md R121, 60_exceptions.md R260, R267: IoError of the output side. Clause one: when SINK refuses the byte that
PUTBIT completes, the fault is IoError and the eighth bit stands in the buffer. Clause two, for every command that writes
bits and for BCLOSE: where the command completes on a SINK that takes all its bytes `out`, but SINK takes `k` of them and
refuses the next, it faults with IoError, the `k` bytes delivered and the answer used up. That the refused byte is not
among the delivered ones is the model's choice (log 20). -/
def Obligations.SinkFailureFaults : Prop :=
  (∀ (s : State) (b : BitVec 1) (more : List IoAnswer), s.regs.err = false → s.regs.mode = .write →
    s.regs.bitcnt = 7#4 → s.env.sinkAnswers = .ioerr :: more →
    exec (.putbit b) s = .next (takeFault 0x13#8 .ioError
      { s with
        regs := { s.regs with
          bitcnt := 8#4
          bitbuf := if b = 1#1 then s.regs.bitbuf ||| 1#8 else s.regs.bitbuf &&& 0xFE#8 }
        env := { s.env with sinkAnswers := more } })) ∧
  ∀ (i : Instr) (s t : State) (out : List Byte) (k : Nat) (more : List IoAnswer),
    neededMode i = some .write ∨ i = .bclose → s.regs.err = false →
    exec i { s with env := { s.env with sinkAnswers := [] } } = .next t → t.regs.err = false →
    t.env.sinkOut = s.env.sinkOut ++ out → k < out.length →
    s.env.sinkAnswers = List.replicate k .ok ++ .ioerr :: more →
    ∃ u, exec i s = .next (takeFault (opcodeOf i) .ioError u) ∧ u.env.sinkOut = s.env.sinkOut ++ out.take k ∧
      u.env.sinkAnswers = more

/-- 20_memory.md R63, R72: the stream is sequential; a command only appends to SINK, and only takes the next answers of
SOURCE, BCLOSE and RESET apart, which may drop a source (log 6). -/
def Obligations.StreamIsSequential : Prop :=
  ∀ (i : Instr) (s t : State), exec i s = .next t →
    (∃ out, t.env.sinkOut = s.env.sinkOut ++ out) ∧
    (i = .bclose ∨ i = .reset ∨
      (t.env.nextSources = s.env.nextSources ∧ ∃ k, t.env.source = s.env.source.drop k))

/-- 40_bitio.md R132: the fields that a session writes with PUTBITS are what a session reading its bytes gets with
GETBITS, followed by 0 to 7 zero bits and the end. -/
def Obligations.BitStreamRoundTrip : Prop :=
  ∀ (fields : List (BitVec 8 × Word)) (s : State), (∀ f ∈ fields, f.1.toNat ≤ 32) →
    s.regs.err = false → s.regs.mode = .idle → s.env.openAnswers = [] → sinkReady s = true → s.env.sinkOut = [] →
    ∃ t, execAll (.bopenw :: fields.map (fun f => .putbits f.1 f.2) ++ [.bclose]) s = .next t ∧
      ∀ u : State, u.regs.err = false → u.regs.mode = .idle → u.env.openAnswers = [] →
        u.env.source = t.env.sinkOut.map .byte →
        ∃ v pad, execAll (.bopenr :: fields.map (fun f => .getbits f.1)) u = .next v ∧
          v.responses = u.responses ++ 0#64 :: fields.map (fun f =>
            responseWord 0#8 (BitVec.ofNat 32 (f.2.toNat % 2 ^ f.1.toNat))) ∧
          pad < 8 ∧ unreadBits v = List.replicate pad false ∧ sourceEnds v.env.source = true

/-! ### The Golomb coder (41_golomb.md) -/

/-- R140, R141, R143: GENC appends the codeword of its operand and changes nothing but the bit buffer and SINK. -/
def Obligations.GencWritesCodeword : Prop :=
  ∀ (s : State) (n : Word), s.regs.err = false → s.regs.mode = .write → s.regs.m ≠ 0#8 → sinkReady s = true →
    bufferHolds s.regs 7 = true →
    ∃ t, exec (.genc n) s = .next (t.respond 0#8 0#32) ∧ AppendsBits s t (codeword s.regs.m.toNat n.toInt)

/-- R142, R144: GDEC reads any codeword, negative zero and codewords of numbers beyond 32 bits too; the number is the
result, or Overflow once every bit was read. -/
def Obligations.GdecReadsCodeword : Prop :=
  ∀ (s : State) (q r : Nat) (sign : Bool) (rest : List Bool), s.regs.err = false → s.regs.mode = .read →
    s.regs.m ≠ 0#8 → bufferHolds s.regs 8 = true → r < s.regs.m.toNat →
    unreadBits s = codewordParts s.regs.m.toNat q r sign ++ rest →
    ∃ t, ConsumesBits s t (codewordParts s.regs.m.toNat q r sign) ∧
      (fits32 (codedNumber s.regs.m.toNat q r sign) = true →
        exec .gdec s = .next (t.respond 0#8 (BitVec.ofInt 32 (codedNumber s.regs.m.toNat q r sign)))) ∧
      (fits32 (codedNumber s.regs.m.toNat q r sign) = false → exec .gdec s = .next (takeFault 0x21#8 .overflow t))

/-- R149: for every number and every divisor, the bits that GENC writes, read by GDEC under the same divisor, return the
number and are consumed exactly. -/
def Obligations.GolombRoundTrip : Prop :=
  ∀ (s : State) (n : Word), s.regs.err = false → s.regs.mode = .write → s.regs.m ≠ 0#8 → sinkReady s = true →
    bufferHolds s.regs 7 = true →
    ∃ t bs, exec (.genc n) s = .next t ∧ writtenBits t = writtenBits s ++ bs ∧
      ∀ (u : State) (rest : List Bool), u.regs.err = false → u.regs.mode = .read → u.regs.m = s.regs.m →
        bufferHolds u.regs 8 = true → unreadBits u = bs ++ rest →
        ∃ v, exec .gdec u = .next v ∧ v.responses = u.responses ++ [responseWord 0#8 n] ∧ unreadBits v = rest

/-- R141 to R144, 42_runlength.md R161 to R163, 40_bitio.md R127: with the divisor unset, every command that would code a
number faults with InvalidState before any bit is written or read. -/
def Obligations.UnsetDivisorFaults : Prop :=
  ∀ s : State, s.regs.err = false → s.regs.m = 0#8 →
    (s.regs.mode = .write →
      (∀ n, exec (.genc n) s = .next (takeFault 0x20#8 .invalidState s)) ∧
      (∀ v, exec (.rpush v) s = .next (takeFault 0x28#8 .invalidState s)) ∧
      (s.regs.runCount ≠ 0#32 → exec .rflush s = .next (takeFault 0x29#8 .invalidState s)) ∧
      (s.regs.runCount ≠ 0#32 → exec .bclose s = .next (takeFault 0x12#8 .invalidState s))) ∧
    (s.regs.mode = .read →
      exec .gdec s = .next (takeFault 0x21#8 .invalidState s) ∧
      exec .rpop s = .next (takeFault 0x2A#8 .invalidState s))

/-! ### The run-length coder (42_runlength.md) -/

/-- R161: RPUSH counts a value that continues the run without writing a bit, and writes the pair of a run that ends. -/
def Obligations.RpushCollectsRuns : Prop :=
  ∀ (s : State) (v : Word), s.regs.err = false → s.regs.mode = .write → s.regs.m ≠ 0#8 →
    (s.regs.runCount = 0#32 ∨ (v = s.regs.lastValue ∧ s.regs.runCount.toNat ≠ 2147483647) →
      exec (.rpush v) s = .next (State.respond
        { s with regs := { s.regs with runCount := s.regs.runCount + 1#32, lastValue := v } } 0#8 0#32)) ∧
    (s.regs.runCount ≠ 0#32 → (v ≠ s.regs.lastValue ∨ s.regs.runCount.toNat = 2147483647) →
      sinkReady s = true → bufferHolds s.regs 7 = true →
      ∃ t, AppendsBits s t (codeword s.regs.m.toNat (s.regs.runCount.toNat : Int) ++
          codeword s.regs.m.toNat s.regs.lastValue.toInt) ∧
        exec (.rpush v) s = .next (State.respond
          { t with regs := { t.regs with runCount := 1#32, lastValue := v } } 0#8 0#32))

/-- R162: RFLUSH writes the pair of the run, count first, and keeps LAST_VALUE; with no run it does nothing, even with the
divisor unset. -/
def Obligations.RflushWritesRun : Prop :=
  ∀ s : State, s.regs.err = false → s.regs.mode = .write →
    (s.regs.runCount = 0#32 → exec .rflush s = .next (s.respond 0#8 0#32)) ∧
    (s.regs.runCount ≠ 0#32 → s.regs.m ≠ 0#8 → sinkReady s = true → bufferHolds s.regs 7 = true →
      ∃ t, AppendsBits s t (codeword s.regs.m.toNat (s.regs.runCount.toNat : Int) ++
          codeword s.regs.m.toNat s.regs.lastValue.toInt) ∧
        exec .rflush s = .next (State.respond { t with regs := { t.regs with runCount := 0#32 } } 0#8 0#32))

/-- R163: RPOP replays a run without reading a bit; with none it reads a pair, and a count below 1 is InvalidFormat once
both numbers were read. -/
def Obligations.RpopReplaysRuns : Prop :=
  ∀ s : State, s.regs.err = false → s.regs.mode = .read → s.regs.m ≠ 0#8 →
    (s.regs.runCount ≠ 0#32 → exec .rpop s = .next (State.respond
      { s with regs := { s.regs with runCount := s.regs.runCount - 1#32 } } 0#8 s.regs.lastValue)) ∧
    (∀ (c x : Word) (rest : List Bool), s.regs.runCount = 0#32 → bufferHolds s.regs 8 = true →
      unreadBits s = codeword s.regs.m.toNat c.toInt ++ codeword s.regs.m.toNat x.toInt ++ rest →
      ∃ t, ConsumesBits s t (codeword s.regs.m.toNat c.toInt ++ codeword s.regs.m.toNat x.toInt) ∧
        (1 ≤ c.toInt → exec .rpop s = .next (State.respond
          { t with regs := { t.regs with runCount := c - 1#32, lastValue := x } } 0#8 x)) ∧
        (c.toInt ≤ 0 → exec .rpop s = .next (takeFault 0x2A#8 .invalidFormat t)))

/-- R164: the values pushed, with any RFLUSH in between (`none` stands for one) and one at the end, are the values popped,
in order, and exactly their bits are read. -/
def Obligations.RunLengthRoundTrip : Prop :=
  ∀ (pushes : List (Option Word)) (s : State), s.regs.err = false → s.regs.mode = .write → s.regs.m ≠ 0#8 →
    s.regs.runCount = 0#32 → sinkReady s = true → bufferHolds s.regs 7 = true →
    ∃ t bs, execAll (pushes.map (fun p => match p with
        | some v => .rpush v
        | none => .rflush) ++ [.rflush]) s = .next t ∧
      writtenBits t = writtenBits s ++ bs ∧
      ∀ (u : State) (rest : List Bool), u.regs.err = false → u.regs.mode = .read → u.regs.m = s.regs.m →
        u.regs.runCount = 0#32 → bufferHolds u.regs 8 = true → unreadBits u = bs ++ rest →
        ∃ v, execAll (List.replicate (pushes.filterMap id).length .rpop) u = .next v ∧
          v.responses = u.responses ++ (pushes.filterMap id).map (responseWord 0#8) ∧
          unreadBits v = rest ∧ v.regs.runCount = 0#32

/-! ### The quantizer (43_quantizer.md) -/

/-- R170 to R176: QLEVEL, QVALUE and QUANT at every bit depth: identity at 0, the rounding formula at 1 to 8, InvalidState
above; a value beyond 32 bits is Overflow. They change nothing. -/
def Obligations.QuantizerResults : Prop :=
  ∀ (s : State) (ch : BitVec 8) (v : Word) (nb step l : Nat), s.regs.err = false → ch.toNat ≤ 2 →
    nb = (if ch = 0#8 then s.regs.qbitsY else if ch = 1#8 then s.regs.qbitsU else s.regs.qbitsV).toNat →
    step = 256 / (2 ^ nb - 1) → l = (v.toInt.natAbs + step / 2) / step →
    (nb = 0 →
      exec (.qlevel ch v) s = .next (s.respond 0#8 v) ∧
      exec (.qvalue ch v) s = .next (s.respond 0#8 v) ∧
      exec (.quant ch v) s = .next (s.respond 0#8 v)) ∧
    (1 ≤ nb → nb ≤ 8 →
      l ≤ v.toInt.natAbs ∧
      exec (.qlevel ch v) s = .next (s.respond 0#8 (BitVec.ofInt 32 (v.toInt.sign * l))) ∧
      (fits32 (v.toInt * step) = true → exec (.qvalue ch v) s = .next (s.respond 0#8 (BitVec.ofInt 32 (v.toInt * step)))) ∧
      (fits32 (v.toInt * step) = false → exec (.qvalue ch v) s = .next (takeFault 0x31#8 .overflow s)) ∧
      (fits32 (v.toInt.sign * l * step) = true →
        exec (.quant ch v) s = .next (s.respond 0#8 (BitVec.ofInt 32 (v.toInt.sign * l * step)))) ∧
      (fits32 (v.toInt.sign * l * step) = false → exec (.quant ch v) s = .next (takeFault 0x32#8 .overflow s))) ∧
    (9 ≤ nb →
      exec (.qlevel ch v) s = .next (takeFault 0x30#8 .invalidState s) ∧
      exec (.qvalue ch v) s = .next (takeFault 0x31#8 .invalidState s) ∧
      exec (.quant ch v) s = .next (takeFault 0x32#8 .invalidState s))

/-- R177: quantizing a quantized value gives it again. -/
def Obligations.QuantIsIdempotent : Prop :=
  ∀ (s : State) (ch : BitVec 8) (v w : Word), s.regs.err = false →
    exec (.quant ch v) s = .next (s.respond 0#8 w) → exec (.quant ch w) s = .next (s.respond 0#8 w)

/-! ### The intra predictor (44_intra.md) -/

/-- R185, R186: IPRED inside the window answers the median edge detector of the written neighbours, 0 for those outside
the frame, and changes nothing; whatever the neighbours, it answers a number from 0 to 255 and changes at most the
model's counter of free values (log 3). -/
def Obligations.IpredPredicts : Prop :=
  ∀ (s : State) (ch : BitVec 8) (row col : BitVec 16) (a b cc : Nat), s.regs.err = false → ch.toNat ≤ 2 →
    inWindow s.regs row.toNat col.toNat ch.toNat = true →
    (∃ (t : State) (v : Word), exec (.ipred ch row col) s = .next (t.respond 0#8 v) ∧ v.toNat ≤ 255 ∧ t = { s with draws := t.draws }) ∧
    (a = (if 0 < col.toNat then sampleNat s .cur row.toNat (col.toNat - 1) ch.toNat else 0) →
      b = (if 0 < row.toNat then sampleNat s .cur (row.toNat - 1) col.toNat ch.toNat else 0) →
      cc = (if 0 < row.toNat ∧ 0 < col.toNat then
        sampleNat s .cur (row.toNat - 1) (col.toNat - 1) ch.toNat else 0) →
      (0 < col.toNat → (s.sample .cur row.toNat (col.toNat - 1) ch.toNat).isSome = true) →
      (0 < row.toNat → (s.sample .cur (row.toNat - 1) col.toNat ch.toNat).isSome = true) →
      (0 < row.toNat → 0 < col.toNat → (s.sample .cur (row.toNat - 1) (col.toNat - 1) ch.toNat).isSome = true) →
      exec (.ipred ch row col) s = .next (s.respond 0#8 (BitVec.ofNat 32
        (if max a b ≤ cc then min a b else if cc ≤ min a b then max a b else a + b - cc))))

/-- R187: at (0, 0) the prediction is 0; in the first row it is the left neighbour, in the first column the top one. -/
def Obligations.IpredBoundary : Prop :=
  ∀ (s : State) (ch : BitVec 8) (row col : BitVec 16), s.regs.err = false → ch.toNat ≤ 2 →
    inWindow s.regs row.toNat col.toNat ch.toNat = true →
    (row = 0#16 → col = 0#16 → exec (.ipred ch row col) s = .next (s.respond 0#8 0#32)) ∧
    (∀ v, row = 0#16 → col ≠ 0#16 → s.sample .cur 0 (col.toNat - 1) ch.toNat = some v →
      exec (.ipred ch row col) s = .next (s.respond 0#8 (BitVec.ofNat 32 v.toNat))) ∧
    (∀ v, row ≠ 0#16 → col = 0#16 → s.sample .cur (row.toNat - 1) 0 ch.toNat = some v →
      exec (.ipred ch row col) s = .next (s.respond 0#8 (BitVec.ofNat 32 v.toNat)))

/-! ### The motion estimator (45_motion.md) -/

/-- R201 to R206: on written frames MATCH answers the displacement of the first best candidate of the window, no motion
when the blocks are equal, and changes nothing. -/
def Obligations.MatchFindsFirstBest : Prop :=
  ∀ (s : State) (row col : BitVec 16), s.regs.err = false → s.regs.refValid = true → s.regs.blockSize ≠ 0#8 →
    row.toNat + s.regs.blockSize.toNat ≤ s.regs.height.toNat →
    col.toNat + s.regs.blockSize.toNat ≤ s.regs.width.toNat →
    WindowWritten s .cur → WindowWritten s .ref →
    ∃ r1 c1, FirstBest s row.toNat col.toNat r1 c1 ∧
      exec (.matchBlock row col) s = .next (s.respond 0#8
        (BitVec.ofInt 16 ((r1 : Int) - row.toNat) ++ BitVec.ofInt 16 ((c1 : Int) - col.toNat)))

/-- R204, R205: the preconditions of MATCH in their order; past them it always answers, changing at most the model's
counter of free values (log 3), and with SEARCH_RADIUS 0 the answer is no motion. -/
def Obligations.MatchPreconditions : Prop :=
  ∀ (s : State) (row col : BitVec 16), s.regs.err = false →
    (s.regs.refValid = false ∨ s.regs.blockSize = 0#8 →
      exec (.matchBlock row col) s = .next (takeFault 0x48#8 .invalidState s)) ∧
    (s.regs.refValid = true → s.regs.blockSize ≠ 0#8 →
      (s.regs.height.toNat < row.toNat + s.regs.blockSize.toNat ∨
        s.regs.width.toNat < col.toNat + s.regs.blockSize.toNat) →
      exec (.matchBlock row col) s = .next (takeFault 0x48#8 .outOfBounds s)) ∧
    (s.regs.refValid = true → s.regs.blockSize ≠ 0#8 →
      row.toNat + s.regs.blockSize.toNat ≤ s.regs.height.toNat →
      col.toNat + s.regs.blockSize.toNat ≤ s.regs.width.toNat →
      ∃ (t : State) (v : Word), exec (.matchBlock row col) s = .next (t.respond 0#8 v) ∧ t = { s with draws := t.draws } ∧
        (s.regs.searchRadius = 0#8 → v = 0#32))

/-! ### Headers, sessions and frames (46_container.md) -/

/-- R221, R224, R225: WRHDR with acceptable session parameters appends the header, puts it in force and clears FRAME_IDX,
and changes nothing else but the bit buffer and SINK; with the divisor unset it faults with InvalidState, with any other
unacceptable parameter with InvalidFormat, both before any effect. -/
def Obligations.WrhdrWritesHeader : Prop :=
  ∀ s : State, s.regs.err = false → s.regs.mode = .write → s.regs.sess = .uninit →
    (HeaderAccepted s.par s.regs → FieldsFit s.regs → sinkReady s = true → bufferHolds s.regs 7 = true →
      ∃ t, AppendsBits s t (headerBits s.regs) ∧ exec .wrhdr s = .next (State.respond
        { t with regs := { t.regs with sess := .headerDone, frameIdx := 0#32 } } 0#8 0#32)) ∧
    (s.regs.m = 0#8 → exec .wrhdr s = .next (takeFault 0x50#8 .invalidState s)) ∧
    (s.regs.m ≠ 0#8 → ¬ (HeaderAccepted s.par s.regs ∧ FieldsFit s.regs) →
      exec .wrhdr s = .next (takeFault 0x50#8 .invalidFormat s))

/-- R222: the length of the header by VARIANT and HDRCFG, the sixteen entries of the table. -/
def Obligations.HeaderLength : Prop :=
  ∀ (g : Regs) (n : Nat),
    (g.hdrcfg, g.variant, n) ∈
      [(0#2, 0#2, 38), (0#2, 1#2, 62), (0#2, 2#2, 62), (0#2, 3#2, 86),
        (2#2, 0#2, 62), (2#2, 1#2, 86), (2#2, 2#2, 86), (2#2, 3#2, 110),
        (1#2, 0#2, 86), (1#2, 1#2, 110), (1#2, 2#2, 110), (1#2, 3#2, 134),
        (3#2, 0#2, 110), (3#2, 1#2, 134), (3#2, 2#2, 134), (3#2, 3#2, 158)] →
    (headerBits g).length = n

/-- R221, R224, R226: RDHDR reads any header that stands in the stream: an acceptable one is loaded into the registers of
the fields it has and put in force; for any other the fault is InvalidFormat, once every bit was read, and no session
parameter is written. The registers `g` stand for the header's fields. -/
def Obligations.RdhdrLoadsHeader : Prop :=
  ∀ (s : State) (g : Regs) (rest : List Bool), s.regs.err = false → s.regs.mode = .read → s.regs.sess = .uninit →
    bufferHolds s.regs 8 = true → g.variant = s.regs.variant → g.hdrcfg = s.regs.hdrcfg → FieldsFit g →
    unreadBits s = headerBits g ++ rest →
    ∃ t, ConsumesBits s t (headerBits g) ∧
      (HeaderAccepted s.par g → exec .rdhdr s = .next (State.respond { t with
        regs := { t.regs with
          colorSpace := g.colorSpace
          chroma := g.chroma
          width := g.width
          height := g.height
          m := g.m
          frameCount := g.frameCount
          blockSize := if hybrid g then g.blockSize else s.regs.blockSize
          intraPeriod := if hybrid g then g.intraPeriod else s.regs.intraPeriod
          searchRadius := if hybrid g then g.searchRadius else s.regs.searchRadius
          qbitsY := if lossy g then g.qbitsY else s.regs.qbitsY
          qbitsU := if lossy g then g.qbitsU else s.regs.qbitsU
          qbitsV := if lossy g then g.qbitsV else s.regs.qbitsV
          sess := .headerDone
          frameIdx := 0#32 } } 0#8 0#32)) ∧
      (¬ HeaderAccepted s.par g → exec .rdhdr s = .next (takeFault 0x51#8 .invalidFormat t))

/-- R230, R231: the session commands go on only in the states of the table and then lead where it says; in any other state
they fault with InvalidState and change nothing. No other command moves MODE or SESS. -/
def Obligations.SessionStateMachine : Prop :=
  ∀ (i : Instr) (s t : State), s.regs.err = false → exec i s = .next t →
    (¬ SessionAllows s.regs i → t = takeFault (opcodeOf i) .invalidState s) ∧
    (t.regs.err = false → (t.regs.mode, t.regs.sess) = sessionAfter s.regs i) ∧
    (t.regs.err = true → (t.regs.mode, t.regs.sess) = (s.regs.mode, s.regs.sess))

/-- R232, R233, R235, R222: ENCF inside a session with parameters that R224 grants completes on every frame, written or
not: its bits follow those written before, its result is the frame type, FRAME_IDX advances, and nothing changes that
R233 does not name. In a lossless variant CUR keeps its samples. -/
def Obligations.EncfCompletes : Prop :=
  ∀ s : State, s.regs.err = false → s.regs.mode = .write → s.regs.sess = .headerDone →
    s.regs.frameIdx.toNat < s.regs.frameCount.toNat → CodingReady s.regs → sinkReady s = true →
    bufferHolds s.regs 7 = true →
    ∃ t bs, exec .encf s = .next t ∧
      t.responses = s.responses ++ [responseWord 0#8 (if intraNext s.regs then 0#32 else 1#32)] ∧
      writtenBits t = writtenBits s ++ bs ∧ bufferHolds t.regs 7 = true ∧ t.env.source = s.env.source ∧
      t.env.sinkAnswers = s.env.sinkAnswers.drop (t.env.sinkOut.length - s.env.sinkOut.length) ∧
      FrameFrame s t ∧ (lossy s.regs = false → t.cur = s.cur)

/-- 44_intra.md R188, 45_motion.md R203, R207, 43_quantizer.md R172, R178, R179: what ENCF writes and stores on written
frames, in every variant. The payload is one codeword per sample in raster order, or for each block its first best vector
and then its residuals. Each number is the difference of the sample and its prediction from the reconstructed frame, or in
a lossy variant the level of that; the sample becomes the clamped sum of prediction and dequantized number. In a lossless
variant the numbers are thus the differences of the frame as it was. -/
def Obligations.EncfPayload : Prop :=
  ∀ s : State, s.regs.err = false → s.regs.mode = .write → s.regs.sess = .headerDone →
    s.regs.frameIdx.toNat < s.regs.frameCount.toNat → CodingReady s.regs → sinkReady s = true →
    bufferHolds s.regs 7 = true → WindowWritten s .cur →
    (intraNext s.regs = true → ∃ (t : State) (ls : List Int), exec .encf s = .next t ∧
      writtenBits t = writtenBits s ++ codewords s.regs.m.toNat ls ∧
      ls.length = s.regs.height.toNat * s.regs.width.toNat * channels s.regs ∧
      (∀ r c ch l, inWindow s.regs r c ch = true → ls[(r * s.regs.width.toNat + c) * channels s.regs + ch]? = some l →
        l = transmitted s.regs ch ((sampleNat s .cur r c ch : Int) - framePrediction (sampleByte t .cur) r c ch) ∧
        t.sample .cur r c ch = some (reconstruct s.regs ch (framePrediction (sampleByte t .cur) r c ch) l)) ∧
      (lossy s.regs = false → ls = frameDifferences s.regs (sampleByte s .cur))) ∧
    (intraNext s.regs = false → WindowWritten s .ref → ∃ (t : State) (pos : Nat → Nat → Nat × Nat)
        (vec : Nat → Nat → Int × Int) (res : Nat → Nat → List Int), exec .encf s = .next t ∧
      writtenBits t = writtenBits s ++ codewords s.regs.m.toNat (predictedNumbers s.regs vec res) ∧
      ∀ b ∈ blockOrder s.regs,
        FirstBest s (b.1 * s.regs.blockSize.toNat) (b.2 * s.regs.blockSize.toNat) (pos b.1 b.2).1 (pos b.1 b.2).2 ∧
        (vec b.1 b.2).1 = ((pos b.1 b.2).2 : Int) - (b.2 * s.regs.blockSize.toNat : Nat) ∧
        (vec b.1 b.2).2 = ((pos b.1 b.2).1 : Int) - (b.1 * s.regs.blockSize.toNat : Nat) ∧
        (res b.1 b.2).length = s.regs.blockSize.toNat * s.regs.blockSize.toNat * channels s.regs ∧
        (∀ i j ch l, i < s.regs.blockSize.toNat → j < s.regs.blockSize.toNat → ch < channels s.regs →
          (res b.1 b.2)[(i * s.regs.blockSize.toNat + j) * channels s.regs + ch]? = some l →
          l = transmitted s.regs ch
            ((sampleNat s .cur (b.1 * s.regs.blockSize.toNat + i) (b.2 * s.regs.blockSize.toNat + j) ch : Int) -
              (sampleNat s .ref ((pos b.1 b.2).1 + i) ((pos b.1 b.2).2 + j) ch : Int)) ∧
          t.sample .cur (b.1 * s.regs.blockSize.toNat + i) (b.2 * s.regs.blockSize.toNat + j) ch =
            some (reconstruct s.regs ch (sampleNat s .ref ((pos b.1 b.2).1 + i) ((pos b.1 b.2).2 + j) ch : Int) l)) ∧
        (lossy s.regs = false → res b.1 b.2 =
          blockResiduals s (b.1 * s.regs.blockSize.toNat) (b.2 * s.regs.blockSize.toNat) (vec b.1 b.2)))

/-- R236, 44_intra.md R189, R191: DECF on an intra frame completes for any numbers in the stream: each sample becomes the
clamped sum of its prediction from the frame decoded so far and the transmitted number, dequantized in a lossy variant. -/
def Obligations.DecfIntraDecodes : Prop :=
  ∀ (s : State) (ls : List Int) (rest : List Bool), s.regs.err = false → s.regs.mode = .read →
    s.regs.sess = .headerDone → s.regs.frameIdx.toNat < s.regs.frameCount.toNat → CodingReady s.regs →
    bufferHolds s.regs 8 = true → intraNext s.regs = true →
    ls.length = s.regs.height.toNat * s.regs.width.toNat * channels s.regs → (∀ l ∈ ls, fits32 l = true) →
    unreadBits s = codewords s.regs.m.toNat ls ++ rest →
    ∃ t, exec .decf s = .next t ∧ t.responses = s.responses ++ [0#64] ∧ unreadBits t = rest ∧
      bufferHolds t.regs 8 = true ∧ t.env.sinkOut = s.env.sinkOut ∧ t.env.sinkAnswers = s.env.sinkAnswers ∧
      FrameFrame s t ∧
      ∀ r c ch l, inWindow s.regs r c ch = true → ls[(r * s.regs.width.toNat + c) * channels s.regs + ch]? = some l →
        t.sample .cur r c ch = some (reconstruct s.regs ch (framePrediction (sampleByte t .cur) r c ch) l)

/-- R236, 45_motion.md R208, R211, 20_memory.md R61, 60_exceptions.md R267: DECF on a predicted frame completes for any
residuals and any vectors that stay inside the frame: each covered sample becomes the clamped sum of the displaced
reference sample and the transmitted number. The first vector that leaves the frame raises OutOfBounds once its two
numbers are read: the blocks before it stay decoded, and no other sample has changed. -/
def Obligations.DecfPredictedDecodes : Prop :=
  ∀ (s : State) (vec : Nat → Nat → Int × Int) (res : Nat → Nat → List Int) (rest : List Bool),
    s.regs.err = false → s.regs.mode = .read → s.regs.sess = .headerDone →
    s.regs.frameIdx.toNat < s.regs.frameCount.toNat → CodingReady s.regs → bufferHolds s.regs 8 = true →
    intraNext s.regs = false →
    ((∀ b ∈ blockOrder s.regs, BlockFine s.regs vec res b) →
      unreadBits s = codewords s.regs.m.toNat (predictedNumbers s.regs vec res) ++ rest →
      ∃ t, exec .decf s = .next t ∧ t.responses = s.responses ++ [responseWord 0#8 1#32] ∧ unreadBits t = rest ∧
        bufferHolds t.regs 8 = true ∧ t.env.sinkOut = s.env.sinkOut ∧ t.env.sinkAnswers = s.env.sinkAnswers ∧
        FrameFrame s t ∧ ∀ b ∈ blockOrder s.regs, BlockDecoded s t b (vec b.1 b.2) (res b.1 b.2)) ∧
    (∀ (good more : List (Nat × Nat)) (b : Nat × Nat), blockOrder s.regs = good ++ b :: more →
      (∀ d ∈ good, BlockFine s.regs vec res d) → ¬ ReferenceInside s.regs b (vec b.1 b.2) →
      fits32 (vec b.1 b.2).1 = true → fits32 (vec b.1 b.2).2 = true →
      unreadBits s =
        codewords s.regs.m.toNat (blockNumbers vec res good ++ [(vec b.1 b.2).1, (vec b.1 b.2).2]) ++ rest →
      ∃ t, exec .decf s = .next (takeFault 0x53#8 .outOfBounds t) ∧ unreadBits t = rest ∧
        t = { s with
          regs := { s.regs with bitcnt := t.regs.bitcnt, bitbuf := t.regs.bitbuf }
          env := { s.env with source := t.env.source }
          cur := t.cur
          draws := t.draws } ∧
        (∀ d ∈ good, BlockDecoded s t d (vec d.1 d.2) (res d.1 d.2)) ∧
        (∀ r c ch, c < 2 ^ 32 → ch < 2 ^ 8 →
          (r / s.regs.blockSize.toNat, c / s.regs.blockSize.toNat) ∉ good ∨ channels s.regs ≤ ch →
          t.sample .cur r c ch = s.sample .cur r c ch))

/-- R238, R239, 44_intra.md R190, 45_motion.md R210: for every variant and frame type, DECF reading the bits that ENCF
wrote reads exactly them and gives every coded sample the value it has in the encoder's CUR after ENCF, which in a
lossless variant is the sample the host loaded. The decoder holds the same session parameters and an equal reference. -/
def Obligations.FrameRoundTrip : Prop :=
  ∀ s : State, s.regs.err = false → s.regs.mode = .write → s.regs.sess = .headerDone →
    s.regs.frameIdx.toNat < s.regs.frameCount.toNat → CodingReady s.regs → sinkReady s = true →
    bufferHolds s.regs 7 = true → WindowWritten s .cur → (intraNext s.regs = false → WindowWritten s .ref) →
    ∃ t bs, exec .encf s = .next t ∧ writtenBits t = writtenBits s ++ bs ∧
      (lossy s.regs = false → t.cur = s.cur) ∧
      ∀ (u : State) (rest : List Bool), u.regs.err = false → u.regs.mode = .read → u.regs.sess = .headerDone →
        u.regs.frameIdx = s.regs.frameIdx → sessionParameters u.regs = sessionParameters s.regs →
        bufferHolds u.regs 8 = true → unreadBits u = bs ++ rest →
        (intraNext s.regs = false → ∀ r c ch, inWindow s.regs r c ch = true →
          u.sample .ref r c ch = s.sample .ref r c ch) →
        ∃ v, exec .decf u = .next v ∧ unreadBits v = rest ∧
          v.responses = u.responses ++ [responseWord 0#8 (if intraNext s.regs then 0#32 else 1#32)] ∧
          (∀ r c ch, codedSample s.regs r c ch → v.sample .cur r c ch = t.sample .cur r c ch) ∧
          (∀ r c ch, hybrid s.regs = true → inWindow s.regs r c ch = true →
            v.sample .ref r c ch = t.sample .ref r c ch)

/-! ### Invariants -/

/-- The machine after reset meets the invariants of Sys2Proof/Safety.lean. -/
def Obligations.InvAtReset : Prop :=
  Sys2Proof.Machine.Inv State.reset

/-- Every step keeps the canonical form of both frame buffers (the model's own representation, log 8). -/
def Obligations.StepKeepsMemoryForm : Prop :=
  ∀ s t : State, MemoryOk s → step s = .next t → MemoryOk t

/-- 10_state.md R26, R32, R41, R42, 46_container.md R224, R230, R232, R235: every step keeps the dimensions within MAX_W
and MAX_H, CAUSE in step with ERR, the bit buffer and the run count in their ranges, and the session consistent: a header
in force is acceptable, frames are counted up to FRAME_COUNT, and REF holds the last intra frame. -/
def Obligations.StepKeepsInvariant : Prop :=
  ∀ s t : State, Sys2Proof.Machine.Inv s → step s = .next t → Sys2Proof.Machine.Inv t
end

