-- ==== Sys2Proof/Laws/State.lean ====
section
/-! SUPPORT. What each named update of the state does to each field, true by definition. -/

namespace Sys2Proof.Machine

section Respond
variable (s : State) (st : BitVec 8) (v : Word)

@[simp] theorem respond_par : (s.respond st v).par = s.par := rfl
@[simp] theorem respond_regs : (s.respond st v).regs = s.regs := rfl
@[simp] theorem respond_cur : (s.respond st v).cur = s.cur := rfl
@[simp] theorem respond_ref : (s.respond st v).ref = s.ref := rfl
@[simp] theorem respond_draws : (s.respond st v).draws = s.draws := rfl
@[simp] theorem respond_env : (s.respond st v).env = s.env := rfl
@[simp] theorem respond_inputs : (s.respond st v).inputs = s.inputs := rfl
@[simp] theorem respond_responses : (s.respond st v).responses = s.responses ++ [responseWord st v] := rfl
@[simp] theorem respond_buffer (b : Buffer) : (s.respond st v).buffer b = s.buffer b := by cases b <;> rfl
@[simp] theorem respond_sample (b : Buffer) (r c ch : Nat) : (s.respond st v).sample b r c ch = s.sample b r c ch := by
  cases b <;> rfl

end Respond

section TakeFault
variable (op : BitVec 8) (c : Cause) (s : State)

@[simp] theorem takeFault_par : (takeFault op c s).par = s.par := rfl
@[simp] theorem takeFault_regs :
    (takeFault op c s).regs = { s.regs with err := true, cause := causeCode c, finfo := op } := rfl
@[simp] theorem takeFault_cur : (takeFault op c s).cur = s.cur := rfl
@[simp] theorem takeFault_ref : (takeFault op c s).ref = s.ref := rfl
@[simp] theorem takeFault_draws : (takeFault op c s).draws = s.draws := rfl
@[simp] theorem takeFault_env : (takeFault op c s).env = s.env := rfl
@[simp] theorem takeFault_inputs : (takeFault op c s).inputs = s.inputs := rfl
@[simp] theorem takeFault_responses :
    (takeFault op c s).responses = s.responses ++ [responseWord (causeCode c) 0#32] := rfl

end TakeFault

section RefuseFaulted
variable (s : State)

@[simp] theorem refuseFaulted_par : (refuseFaulted s).par = s.par := rfl
@[simp] theorem refuseFaulted_regs : (refuseFaulted s).regs = s.regs := rfl
@[simp] theorem refuseFaulted_cur : (refuseFaulted s).cur = s.cur := rfl
@[simp] theorem refuseFaulted_ref : (refuseFaulted s).ref = s.ref := rfl
@[simp] theorem refuseFaulted_draws : (refuseFaulted s).draws = s.draws := rfl
@[simp] theorem refuseFaulted_env : (refuseFaulted s).env = s.env := rfl
@[simp] theorem refuseFaulted_inputs : (refuseFaulted s).inputs = s.inputs := rfl
@[simp] theorem refuseFaulted_responses :
    (refuseFaulted s).responses = s.responses ++ [responseWord faultedCode 0#32] := rfl

end RefuseFaulted

section ResetBlock
variable (s : State)

@[simp] theorem resetBlock_par : (resetBlock s).par = s.par := rfl
@[simp] theorem resetBlock_regs : (resetBlock s).regs = Regs.reset := rfl
@[simp] theorem resetBlock_cur : (resetBlock s).cur = [] := rfl
@[simp] theorem resetBlock_ref : (resetBlock s).ref = [] := rfl
@[simp] theorem resetBlock_draws : (resetBlock s).draws = s.draws := rfl
@[simp] theorem resetBlock_inputs : (resetBlock s).inputs = s.inputs := rfl
@[simp] theorem resetBlock_responses : (resetBlock s).responses = s.responses := rfl
@[simp] theorem dropSource_sinkOut (e : Env) : e.dropSource.sinkOut = e.sinkOut := by
  unfold Env.dropSource; split <;> rfl
@[simp] theorem dropSource_sinkAnswers (e : Env) : e.dropSource.sinkAnswers = e.sinkAnswers := by
  unfold Env.dropSource; split <;> rfl
@[simp] theorem dropSource_openAnswers (e : Env) : e.dropSource.openAnswers = e.openAnswers := by
  unfold Env.dropSource; split <;> rfl
@[simp] theorem resetBlock_sinkOut : (resetBlock s).env.sinkOut = s.env.sinkOut := by
  unfold resetBlock; dsimp; split <;> simp

end ResetBlock

section SetSample
variable (s : State) (b : Buffer) (r c ch : Nat) (v : Byte)

@[simp] theorem setSample_par : (s.setSample b r c ch v).par = s.par := by cases b <;> rfl
@[simp] theorem setSample_regs : (s.setSample b r c ch v).regs = s.regs := by cases b <;> rfl
@[simp] theorem setSample_draws : (s.setSample b r c ch v).draws = s.draws := by cases b <;> rfl
@[simp] theorem setSample_env : (s.setSample b r c ch v).env = s.env := by cases b <;> rfl
@[simp] theorem setSample_inputs : (s.setSample b r c ch v).inputs = s.inputs := by cases b <;> rfl
@[simp] theorem setSample_responses : (s.setSample b r c ch v).responses = s.responses := by cases b <;> rfl
@[simp] theorem setSample_cur_ref : (s.setSample .cur r c ch v).ref = s.ref := rfl
@[simp] theorem setSample_ref_cur : (s.setSample .ref r c ch v).cur = s.cur := rfl

end SetSample

end Sys2Proof.Machine
end

