-- ==== Sys2Proof/Laws/Action.lean ====
section
/-! SUPPORT. How pseudocode actions compose: evaluation of each primitive, what a sequence can do, and relations that
every action of a kind keeps. -/

namespace Sys2Proof.Machine

variable {α β : Type}

@[simp] theorem pure_apply (a : α) (s : State) : (pure a : Action α) s = .ok a s := rfl

@[simp] theorem raise_apply (c : Cause) (s : State) : (raise c : Action α) s = .error c s := rfl

@[simp] theorem getRegs_apply (s : State) : getRegs s = .ok s.regs s := rfl

@[simp] theorem modifyRegs_apply (f : Regs → Regs) (s : State) :
    modifyRegs f s = .ok () { s with regs := f s.regs } := rfl

@[simp] theorem abandonSource_apply (s : State) :
    abandonSource s = .ok () { s with env := s.env.dropSource } := rfl

@[simp] theorem writeSample_apply (b : Buffer) (r c ch : Nat) (v : Byte) (s : State) :
    writeSample b r c ch v s = .ok () (s.setSample b r c ch v) := rfl

@[simp] theorem onlyIf_true (x : Action Unit) : onlyIf true x = x := rfl

@[simp] theorem onlyIf_false (x : Action Unit) : onlyIf false x = pure () := rfl

@[simp] theorem require_true (c : Cause) (s : State) : require true c s = .ok () s := rfl

@[simp] theorem require_false (c : Cause) (s : State) : require false c s = .error c s := rfl

theorem requireMode_of_eq {m : Mode} {s : State} (h : s.regs.mode = m) : requireMode m s = .ok () s := by
  simp [requireMode, h]

theorem requireMode_of_ne {m : Mode} {s : State} (h : s.regs.mode ≠ m) : requireMode m s = .error .invalidState s := by
  simp [requireMode, h]

theorem requireSess_of_eq {x : Sess} {s : State} (h : s.regs.sess = x) : requireSess x s = .ok () s := by
  simp [requireSess, h]

theorem requireSess_of_ne {x : Sess} {s : State} (h : s.regs.sess ≠ x) : requireSess x s = .error .invalidState s := by
  simp [requireSess, h]

/-- A sequence runs its second part where the first one ends. -/
theorem bind_of_ok {x : Action α} {f : α → Action β} {s t : State} {a : α} (h : x s = .ok a t) :
    (x >>= f) s = f a t := by
  simp [bind, EStateM.bind, h]

/-- A sequence stops where its first part raises. -/
theorem bind_of_error {x : Action α} {f : α → Action β} {s t : State} {c : Cause} (h : x s = .error c t) :
    (x >>= f) s = .error c t := by
  simp [bind, EStateM.bind, h]

/-- A sequence ends normally exactly when both parts do. -/
theorem bind_ok_iff {x : Action α} {f : α → Action β} {s u : State} {b : β} :
    (x >>= f) s = .ok b u ↔ ∃ a t, x s = .ok a t ∧ f a t = .ok b u := by
  cases h : x s with
  | ok a t => simp [bind_of_ok h]
  | error c t => simp [bind_of_error h]

/-- A sequence raises exactly when its first part does, or the second part after it. -/
theorem bind_error_iff {x : Action α} {f : α → Action β} {s u : State} {c : Cause} :
    (x >>= f) s = .error c u ↔ x s = .error c u ∨ ∃ a t, x s = .ok a t ∧ f a t = .error c u := by
  cases h : x s with
  | ok a t => simp [bind_of_ok h]
  | error c t => simp [bind_of_error h]

/-! Sequences that begin with a primitive -/

@[simp] theorem bind_pure_apply (a : α) (f : α → Action β) (s : State) : (pure a >>= f) s = f a s := rfl

@[simp] theorem bind_getRegs_apply (f : Regs → Action β) (s : State) : (getRegs >>= f) s = f s.regs s := rfl

@[simp] theorem bind_modifyRegs_apply (g : Regs → Regs) (f : Unit → Action β) (s : State) :
    (modifyRegs g >>= f) s = f () { s with regs := g s.regs } := rfl

@[simp] theorem bind_writeSample_apply (b : Buffer) (r c ch : Nat) (v : Byte) (f : Unit → Action β) (s : State) :
    (writeSample b r c ch v >>= f) s = f () (s.setSample b r c ch v) := rfl

@[simp] theorem bind_raise_apply (c : Cause) (f : α → Action β) (s : State) :
    ((raise c : Action α) >>= f) s = .error c s := rfl

@[simp] theorem bind_require_apply (b : Bool) (c : Cause) (f : Unit → Action β) (s : State) :
    (require b c >>= f) s = if b = true then f () s else .error c s := by
  cases b <;> rfl

@[simp] theorem bind_requireMode_apply (m : Mode) (f : Unit → Action β) (s : State) :
    (requireMode m >>= f) s = if s.regs.mode = m then f () s else .error .invalidState s := by
  by_cases h : s.regs.mode = m
  · rw [if_pos h]; exact bind_of_ok (requireMode_of_eq h)
  · rw [if_neg h]; exact bind_of_error (requireMode_of_ne h)

@[simp] theorem bind_requireSess_apply (x : Sess) (f : Unit → Action β) (s : State) :
    (requireSess x >>= f) s = if s.regs.sess = x then f () s else .error .invalidState s := by
  by_cases h : s.regs.sess = x
  · rw [if_pos h]; exact bind_of_ok (requireSess_of_eq h)
  · rw [if_neg h]; exact bind_of_error (requireSess_of_ne h)

/-- The state in which an action ends, normally or by a `raise`. -/
def endState : EStateM.Result Cause State α → State
  | .ok _ t => t
  | .error _ t => t

/-- A relation between the state before and the state after, however the action ends. -/
def Keeps (R : State → State → Prop) (x : Action α) : Prop :=
  ∀ s, R s (endState (x s))

section Keeps
variable {R : State → State → Prop}

theorem keeps_ok {x : Action α} (h : Keeps R x) {s t : State} {a : α} (e : x s = .ok a t) : R s t := by
  have := h s; rw [e] at this; exact this

theorem keeps_error {x : Action α} (h : Keeps R x) {s t : State} {c : Cause} (e : x s = .error c t) : R s t := by
  have := h s; rw [e] at this; exact this

variable (hrefl : ∀ s, R s s) (htrans : ∀ s t u, R s t → R t u → R s u)
include hrefl

theorem keeps_pure (a : α) : Keeps R (pure a : Action α) := fun s => hrefl s

theorem keeps_raise (c : Cause) : Keeps R (raise c : Action α) := fun s => hrefl s

theorem keeps_require (b : Bool) (c : Cause) : Keeps R (require b c) := fun s => by
  cases b <;> exact hrefl s

theorem keeps_requireMode (m : Mode) : Keeps R (requireMode m) := fun s => by
  unfold requireMode; split <;> exact hrefl s

theorem keeps_requireSess (x : Sess) : Keeps R (requireSess x) := fun s => by
  unfold requireSess; split <;> exact hrefl s

theorem keeps_getRegs : Keeps R getRegs := fun s => hrefl s

theorem keeps_onlyIf (b : Bool) {x : Action Unit} (h : Keeps R x) : Keeps R (onlyIf b x) := by
  cases b
  · exact fun s => hrefl s
  · exact h

theorem keeps_onlyIf_of {b : Bool} {x : Action Unit} (h : b = true → Keeps R x) : Keeps R (onlyIf b x) := by
  cases b
  · exact fun s => hrefl s
  · exact h rfl

omit hrefl in
include htrans in
theorem keeps_bind {x : Action α} {f : α → Action β} (hx : Keeps R x) (hf : ∀ a, Keeps R (f a)) :
    Keeps R (x >>= f) := by
  intro s
  cases h : x s with
  | error c t => rw [bind_of_error h]; exact keeps_error hx h
  | ok a t =>
    rw [bind_of_ok h]
    exact htrans _ _ _ (keeps_ok hx h) (hf a t)

include htrans in
theorem keeps_foldFrom {f : Nat → α → Action α} (hf : ∀ i a, Keeps R (f i a)) :
    ∀ (n i : Nat) (a : α), Keeps R (foldFrom n i f a)
  | 0, _, a => keeps_pure hrefl a
  | n + 1, i, a => keeps_bind htrans (hf i a) (fun b => keeps_foldFrom hf n (i + 1) b)

include htrans in
theorem keeps_forFrom {f : Nat → Action Unit} (hf : ∀ i, Keeps R (f i)) (n i : Nat) : Keeps R (forFrom n i f) :=
  keeps_foldFrom hrefl htrans (fun i _ => hf i) n i ()

end Keeps

/-- What a command that waits for ERR = 0 can do, said once (60_exceptions.md R263). -/
theorem command_cases (op : BitVec 8) (legal : Bool) (body : Action Word) (s : State) :
    (s.regs.err = true ∧ command op legal body s = .next (refuseFaulted s)) ∨
    (s.regs.err = false ∧ legal = false ∧ command op legal body s = .next (takeFault op .illegalCommand s)) ∨
    (s.regs.err = false ∧ legal = true ∧ command op legal body s = .next (runBody op body s)) := by
  unfold command
  cases s.regs.err <;> cases legal <;> simp

/-- What NOP, CSRR and RESET can do, said once (60_exceptions.md R263). -/
theorem commandAlways_cases (op : BitVec 8) (legal : Bool) (body : Action Word) (s : State) :
    (legal = true ∧ commandAlways op legal body s = .next (runBody op body s)) ∨
    (legal = false ∧ s.regs.err = true ∧ commandAlways op legal body s = .next (refuseFaulted s)) ∨
    (legal = false ∧ s.regs.err = false ∧
      commandAlways op legal body s = .next (takeFault op .illegalCommand s)) := by
  unfold commandAlways
  cases s.regs.err <;> cases legal <;> simp

/-- A legal command whose body completes answers its result. -/
theorem command_ok {op : BitVec 8} {legal : Bool} {body : Action Word} {s t : State} {v : Word}
    (he : s.regs.err = false) (hl : legal = true) (h : body s = .ok v t) :
    command op legal body s = .next (t.respond 0#8 v) := by
  simp [command, runBody, he, hl, h]

/-- A legal command whose body raises takes that fault. -/
theorem command_raise {op : BitVec 8} {legal : Bool} {body : Action Word} {s t : State} {c : Cause}
    (he : s.regs.err = false) (hl : legal = true) (h : body s = .error c t) :
    command op legal body s = .next (takeFault op c t) := by
  simp [command, runBody, he, hl, h]

/-- A command with an operand outside its legal values faults with IllegalCommand, or is refused. -/
theorem command_illegal {op : BitVec 8} {legal : Bool} {body : Action Word} {s : State} (hl : legal = false) :
    command op legal body s =
      .next (if s.regs.err then refuseFaulted s else takeFault op .illegalCommand s) := by
  cases h : s.regs.err <;> simp [command, hl, h]

/-- How a body ends (60_exceptions.md R265, R267). -/
theorem runBody_cases (op : BitVec 8) (body : Action Word) (s : State) :
    (∃ v t, body s = .ok v t ∧ runBody op body s = t.respond 0#8 v) ∨
    (∃ c t, body s = .error c t ∧ runBody op body s = takeFault op c t) := by
  unfold runBody
  cases h : body s with
  | ok v t => exact .inl ⟨v, t, rfl, rfl⟩
  | error c t => exact .inr ⟨c, t, rfl, rfl⟩

end Sys2Proof.Machine
end

