-- ==== Sys2Proof/Laws/Decode.lean ====
section
/-! SUPPORT. The fields of a command word: what `mkWord` puts in each and that a word is made of its fields
(30_encoding.md R90, R94). -/

namespace Sys2Proof

/-- The bits of a concatenation. -/
theorem getLsbD_concat {m n : Nat} (x : BitVec m) (y : BitVec n) (i : Nat) :
    BitVec.getLsbD (x ++ y : BitVec (m + n)) i = if i < n then y.getLsbD i else x.getLsbD (i - n) := by
  rw [BitVec.getLsbD_append]

/-- The bits of a command word by field. -/
theorem mkWord_getLsbD (op a b : BitVec 8) (imm : Word) (i : Nat) :
    (mkWord op a b imm).getLsbD i =
      if i < 32 then imm.getLsbD i else if i < 40 then false else if i < 48 then b.getLsbD (i - 40)
      else if i < 56 then a.getLsbD (i - 48) else op.getLsbD (i - 56) := by
  have h : (mkWord op a b imm).getLsbD i = BitVec.getLsbD (op ++ a ++ b ++ 0#8 ++ imm : BitVec (8 + 8 + 8 + 8 + 32)) i := rfl
  rw [h]
  simp only [getLsbD_concat]
  rcases Nat.lt_or_ge i 32 with h1 | h1
  · simp only [h1, if_true]
  rcases Nat.lt_or_ge i 40 with h2 | h2
  · simp [show ¬ i < 32 by omega, h2, show i - 32 < 8 by omega]
  rcases Nat.lt_or_ge i 48 with h3 | h3
  · simp [show ¬ i < 32 by omega, show ¬ i < 40 by omega, h3, show ¬ i - 32 < 8 by omega,
      show i - 40 < 8 by omega, show i - 32 - 8 = i - 40 by omega]
  rcases Nat.lt_or_ge i 56 with h4 | h4
  · simp only [show ¬ i < 32 by omega, show ¬ i < 40 by omega, show ¬ i < 48 by omega, h4, show ¬ i - 32 < 8 by omega,
      show ¬ i - 32 - 8 < 8 by omega, show i - 48 < 8 by omega, show i - 32 - 8 - 8 = i - 48 by omega,
      if_true, if_false]
  · simp only [show ¬ i < 32 by omega, show ¬ i < 40 by omega, show ¬ i < 48 by omega, show ¬ i < 56 by omega,
      show ¬ i - 32 < 8 by omega, show ¬ i - 32 - 8 < 8 by omega, show ¬ i - 32 - 8 - 8 < 8 by omega,
      show i - 32 - 8 - 8 - 8 = i - 56 by omega, if_false]

section Fields
variable (op a b : BitVec 8) (imm : Word)

@[simp] theorem opField_mkWord : opField (mkWord op a b imm) = op := by
  unfold opField; apply BitVec.eq_of_getLsbD_eq; intro i hi
  rw [BitVec.getLsbD_extractLsb', mkWord_getLsbD]
  simp [hi, show ¬ 56 + i < 32 by omega, show ¬ 56 + i < 40 by omega, show ¬ 56 + i < 48 by omega]

@[simp] theorem aField_mkWord : aField (mkWord op a b imm) = a := by
  unfold aField; apply BitVec.eq_of_getLsbD_eq; intro i hi
  rw [BitVec.getLsbD_extractLsb', mkWord_getLsbD]
  simp [hi, show ¬ 48 + i < 32 by omega, show ¬ 48 + i < 40 by omega, show 48 + i < 56 by omega]

@[simp] theorem bField_mkWord : bField (mkWord op a b imm) = b := by
  unfold bField; apply BitVec.eq_of_getLsbD_eq; intro i hi
  rw [BitVec.getLsbD_extractLsb', mkWord_getLsbD]
  simp [hi, show ¬ 40 + i < 32 by omega, show 40 + i < 48 by omega]

@[simp] theorem zField_mkWord : zField (mkWord op a b imm) = 0#8 := by
  unfold zField; apply BitVec.eq_of_getLsbD_eq; intro i hi
  rw [BitVec.getLsbD_extractLsb', mkWord_getLsbD]
  simp [hi, show ¬ 32 + i < 32 by omega, show 32 + i < 40 by omega]

@[simp] theorem immField_mkWord : immField (mkWord op a b imm) = imm := by
  unfold immField; apply BitVec.eq_of_getLsbD_eq; intro i hi
  rw [BitVec.getLsbD_extractLsb', mkWord_getLsbD]
  simp [hi]

end Fields

@[simp] theorem rowOf_append (r c : BitVec 16) : rowOf (r ++ c) = r := by
  unfold rowOf; apply BitVec.eq_of_getLsbD_eq; intro i hi
  rw [BitVec.getLsbD_extractLsb']
  have h : (r ++ c : Word).getLsbD (16 + i) = BitVec.getLsbD (r ++ c : BitVec (16 + 16)) (16 + i) := rfl
  rw [h, getLsbD_concat]; simp [hi]

@[simp] theorem colOf_append (r c : BitVec 16) : colOf (r ++ c) = c := by
  unfold colOf; apply BitVec.eq_of_getLsbD_eq; intro i hi
  rw [BitVec.getLsbD_extractLsb']
  have h : (r ++ c : Word).getLsbD (0 + i) = BitVec.getLsbD (r ++ c : BitVec (16 + 16)) (0 + i) := rfl
  rw [h, getLsbD_concat]; simp [hi]

/-- A coordinate pair is made of its row and its column. -/
theorem rowOf_append_colOf (imm : Word) : (rowOf imm ++ colOf imm : Word) = imm := by
  apply BitVec.eq_of_getLsbD_eq; intro i hi
  have h : (rowOf imm ++ colOf imm : Word).getLsbD i =
    BitVec.getLsbD (rowOf imm ++ colOf imm : BitVec (16 + 16)) i := rfl
  rw [h, getLsbD_concat]
  unfold rowOf colOf
  split
  · rw [BitVec.getLsbD_extractLsb']; simp [*]
  · rw [BitVec.getLsbD_extractLsb']
    simp [show i - 16 < 16 by omega, show 16 + (i - 16) = i by omega]

/-- A word with Z zero is made of its fields. -/
theorem mkWord_fields {w : CmdWord} (hz : zField w = 0#8) :
    mkWord (opField w) (aField w) (bField w) (immField w) = w := by
  apply BitVec.eq_of_getLsbD_eq; intro i hi
  have hz' : ∀ j, j < 8 → w.getLsbD (32 + j) = false := fun j hj => by
    have := congrArg (fun v : BitVec 8 => v.getLsbD j) hz
    simpa [zField, BitVec.getLsbD_extractLsb', hj] using this
  rw [mkWord_getLsbD]
  unfold opField aField bField immField
  simp only [BitVec.getLsbD_extractLsb']
  rcases Nat.lt_or_ge i 32 with h1 | h1
  · simp [h1]
  rcases Nat.lt_or_ge i 40 with h2 | h2
  · have := hz' (i - 32) (by omega)
    rw [show 32 + (i - 32) = i by omega] at this
    simp [show ¬ i < 32 by omega, h2, this]
  rcases Nat.lt_or_ge i 48 with h3 | h3
  · simp [show ¬ i < 32 by omega, show ¬ i < 40 by omega, h3, show i - 40 < 8 by omega, show 40 + (i - 40) = i by omega]
  rcases Nat.lt_or_ge i 56 with h4 | h4
  · simp [show ¬ i < 32 by omega, show ¬ i < 40 by omega, show ¬ i < 48 by omega, h4, show i - 48 < 8 by omega,
      show 48 + (i - 48) = i by omega]
  · simp [show ¬ i < 32 by omega, show ¬ i < 40 by omega, show ¬ i < 48 by omega, show ¬ i < 56 by omega,
      show i - 56 < 8 by omega, show 56 + (i - 56) = i by omega]

/-- A bit operand fills its byte with zeros above it, and is read back from it. -/
theorem bit_of_zeroExtend (b : BitVec 1) :
    (b.zeroExtend 8).extractLsb' 0 1 = b ∧ (b.zeroExtend 8).extractLsb' 1 7 = 0#7 := by
  revert b; decide

/-- A byte whose upper seven bits are zero is its bit. -/
theorem zeroExtend_of_bit (a : BitVec 8) (h : a.extractLsb' 1 7 = 0#7) : (a.extractLsb' 0 1).zeroExtend 8 = a := by
  revert a; decide

/-- A guarded command is the command, and its must-be-zero bits are zero. -/
theorem guardUnused_ok {ok : Bool} {i j : Instr} (h : guardUnused ok i = .ok j) : ok = true ∧ i = j := by
  cases ok with
  | true => exact ⟨rfl, by simpa [guardUnused] using h⟩
  | false => simp [guardUnused] at h

/-- The must-be-zero fields of a format are zero (30_encoding.md R91). -/
theorem unusedZero_spec {w : CmdWord} {a b i : Bool} (h : unusedZero w a b i = true) :
    zField w = 0#8 ∧ (a = false → aField w = 0#8) ∧ (b = false → bField w = 0#8) ∧ (i = false → immField w = 0#32) := by
  cases a <;> cases b <;> cases i <;> simp [unusedZero] at h <;> simp [h]

/-- A word with the fields of a command is the command's word. -/
theorem encode_of_fields {w : CmdWord} {i : Instr} (hz : zField w = 0#8) (hop : opField w = opcodeOf i)
    (ha : aField w = aOperand i) (hb : bField w = bOperand i) (hi : immField w = immOperand i) : encode i = w := by
  unfold encode
  rw [← hop, ← ha, ← hb, ← hi]
  exact mkWord_fields hz

end Sys2Proof
end

