-- ==== Sys2Proof/Laws/Exec.lean ====
section
/-! SUPPORT. Every command as its body inside the stages of 60_exceptions.md R263: what `exec` can answer, said once. -/

namespace Sys2Proof.Machine

/-- The pseudocode of each command. -/
def bodyOf : Instr → Action Word
  | .nop => nopBody
  | .reset => resetBody
  | .csrr csr => csrrBody csr
  | .csrw csr value => csrwBody csr value
  | .pxwr ch sample row col => pxwrBody ch sample row col
  | .pxrd ch buf row col => pxrdBody ch buf row col
  | .cpref => cprefBody
  | .bopenw => bopenwBody
  | .bopenr => bopenrBody
  | .bclose => bcloseBody
  | .putbit bit => putbitBody bit
  | .putbits n value => putbitsBody n value
  | .getbit => getbitBody
  | .getbits n => getbitsBody n
  | .genc n => gencBody n
  | .gdec => gdecBody
  | .rpush v => rpushBody v
  | .rflush => rflushBody
  | .rpop => rpopBody
  | .qlevel ch v => qlevelBody ch v
  | .qvalue ch level => qvalueBody ch level
  | .quant ch v => quantBody ch v
  | .ipred ch row col => ipredBody ch row col
  | .matchBlock row col => matchBlockBody row col
  | .wrhdr => wrhdrBody
  | .rdhdr => rdhdrBody
  | .encf => encfBody
  | .decf => decfBody

/-- The commands that execute while ERR = 1, 60_exceptions.md R263 stage 1. -/
def runsAlways : Instr → Bool
  | .nop => true
  | .reset => true
  | .csrr _ => true
  | _ => false

/-- Every command is its body inside the stages it shares with the others. -/
theorem exec_eq (i : Instr) (s : State) :
    exec i s = if runsAlways i then commandAlways (opcodeOf i) (i.wellFormed s.par) (bodyOf i) s
      else command (opcodeOf i) (i.wellFormed s.par) (bodyOf i) s := by
  cases i <;> rfl

/-- What a command can answer, said once (60_exceptions.md R263): it is refused, it is illegal, or its body runs. -/
theorem exec_cases (i : Instr) (s : State) :
    (s.regs.err = true ∧ (runsAlways i = false ∨ i.wellFormed s.par = false) ∧ exec i s = .next (refuseFaulted s)) ∨
    (s.regs.err = false ∧ i.wellFormed s.par = false ∧ exec i s = .next (takeFault (opcodeOf i) .illegalCommand s)) ∨
    ((s.regs.err = false ∨ runsAlways i = true) ∧ i.wellFormed s.par = true ∧
      exec i s = .next (runBody (opcodeOf i) (bodyOf i) s)) := by
  rw [exec_eq]
  cases hr : runsAlways i
  · rcases command_cases (opcodeOf i) (i.wellFormed s.par) (bodyOf i) s with ⟨h1, h2⟩ | ⟨h1, h2, h3⟩ | ⟨h1, h2, h3⟩
    · exact .inl ⟨h1, .inl rfl, h2⟩
    · exact .inr (.inl ⟨h1, h2, h3⟩)
    · exact .inr (.inr ⟨.inl h1, h2, h3⟩)
  · rcases commandAlways_cases (opcodeOf i) (i.wellFormed s.par) (bodyOf i) s with ⟨h1, h2⟩ | ⟨h1, h2, h3⟩ | ⟨h1, h2, h3⟩
    · exact .inr (.inr ⟨.inr rfl, h1, h2⟩)
    · exact .inl ⟨h2, .inr h1, h3⟩
    · exact .inr (.inl ⟨h2, h1, h3⟩)

/-- A well-formed command whose body completes answers its result. -/
theorem exec_ok {i : Instr} {s t : State} {v : Word} (he : s.regs.err = false) (hl : i.wellFormed s.par = true)
    (h : bodyOf i s = .ok v t) : exec i s = .next (t.respond 0#8 v) := by
  rw [exec_eq]
  cases runsAlways i
  · exact command_ok he hl h
  · simp [commandAlways, runBody, hl, h]

/-- A well-formed command whose body raises takes that fault. -/
theorem exec_raise {i : Instr} {s t : State} {c : Cause} (he : s.regs.err = false) (hl : i.wellFormed s.par = true)
    (h : bodyOf i s = .error c t) : exec i s = .next (takeFault (opcodeOf i) c t) := by
  rw [exec_eq]
  cases runsAlways i
  · exact command_raise he hl h
  · simp [commandAlways, runBody, hl, h]

/-- A relation that responses and fault records respect, and that every body keeps, is kept by every command. -/
theorem exec_keeps {R : State → State → Prop} {i : Instr}
    (hresp : ∀ s t st v, R s t → R s (t.respond st v)) (hfault : ∀ s t op c, R s t → R s (takeFault op c t))
    (hrefl : ∀ s, R s s) (hbody : Keeps R (bodyOf i)) {s t : State} (h : exec i s = .next t) : R s t := by
  rcases exec_cases i s with ⟨-, -, e⟩ | ⟨-, -, e⟩ | ⟨-, -, e⟩ <;> rw [e] at h <;> injection h with h <;> subst h
  · exact hresp _ _ _ _ (hrefl s)
  · exact hfault _ _ _ _ (hrefl s)
  · rcases runBody_cases (opcodeOf i) (bodyOf i) s with ⟨v, u, hb, hu⟩ | ⟨c, u, hb, hu⟩ <;> rw [hu]
    · exact hresp _ _ _ _ (keeps_ok hbody hb)
    · exact hfault _ _ _ _ (keeps_error hbody hb)

end Sys2Proof.Machine
end

