-- ==== Sys2Proof/Laws/Memory.lean ====
section
/-! SUPPORT. Frame buffers: read after write, other samples unchanged, the canonical form kept; keys keep triples apart. -/

namespace Sys2Proof.Machine

theorem Memory.read_store_same (m : Memory) (k : Nat) (v : Byte) : (m.store k v).read k = some v := by
  induction m with
  | nil => simp [Memory.store, Memory.read]
  | cons x rest ih =>
    obtain ⟨a, y⟩ := x
    unfold Memory.store
    split
    · simp [Memory.read]
    · split
      · simp [Memory.read]
      · have : a ≠ k := fun h => by simp_all
        simp [Memory.read, this, ih]

theorem Memory.read_store_other (m : Memory) {k j : Nat} (v : Byte) (h : j ≠ k) :
    (m.store k v).read j = m.read j := by
  induction m with
  | nil => simp [Memory.store, Memory.read, Ne.symm h]
  | cons x rest ih =>
    obtain ⟨a, y⟩ := x
    unfold Memory.store
    split
    · simp [Memory.read, Ne.symm h]
    · split
      · rename_i hka; subst hka; simp [Memory.read, Ne.symm h]
      · simp [Memory.read, ih]

/-- Storing keeps every key at or above a lower bound. -/
theorem Memory.wf_cons_store {a k : Nat} {x v : Byte} {m : Memory} (h : Memory.wf ((a, x) :: m) = true) (hk : a < k) :
    Memory.wf ((a, x) :: m.store k v) = true := by
  induction m generalizing a x with
  | nil => simp [Memory.store, Memory.wf, hk]
  | cons y rest ih =>
    obtain ⟨b, z⟩ := y
    simp only [Memory.wf, Bool.and_eq_true, decide_eq_true_eq] at h
    unfold Memory.store
    split
    · rename_i hkb; simp [Memory.wf, hk, hkb, h.2]
    · split
      · rename_i hkb; subst hkb
        cases rest with
        | nil => simp [Memory.wf, hk]
        | cons w r => simpa [Memory.wf, hk] using h.2
      · have hb : b < k := by omega
        simp only [Memory.wf, h.1, decide_true, Bool.true_and]
        exact ih h.2 hb

/-- The canonical form is kept by a write. -/
theorem Memory.wf_store {m : Memory} (h : m.wf = true) (k : Nat) (v : Byte) : (m.store k v).wf = true := by
  cases m with
  | nil => rfl
  | cons x rest =>
    obtain ⟨a, y⟩ := x
    unfold Memory.store
    split
    · rename_i hka; simp [Memory.wf, hka, h]
    · split
      · rename_i hka; subst hka
        cases rest with
        | nil => rfl
        | cons w r => simpa [Memory.wf] using h
      · exact Memory.wf_cons_store h (by omega)

/-- Triples with columns below 2^32 and channels below 2^8 have keys of their own. -/
theorem sampleKey_inj {r c ch r' c' ch' : Nat} (hc : c < 2 ^ 32) (hc' : c' < 2 ^ 32) (hch : ch < 2 ^ 8)
    (hch' : ch' < 2 ^ 8) : sampleKey r c ch = sampleKey r' c' ch' ↔ r = r' ∧ c = c' ∧ ch = ch' := by
  unfold sampleKey
  norm_num at *
  omega

theorem sample_setSample_same (s : State) (b : Buffer) (r c ch : Nat) (v : Byte) :
    (s.setSample b r c ch v).sample b r c ch = some v := by
  cases b <;> exact Memory.read_store_same _ _ _

theorem sample_setSample_other (s : State) (b : Buffer) {r c ch r' c' ch' : Nat} (v : Byte)
    (h : sampleKey r' c' ch' ≠ sampleKey r c ch) :
    (s.setSample b r c ch v).sample b r' c' ch' = s.sample b r' c' ch' := by
  cases b <;> exact Memory.read_store_other _ _ h

theorem sample_setSample_otherBuffer (s : State) {b b' : Buffer} (hb : b' ≠ b) (r c ch r' c' ch' : Nat) (v : Byte) :
    (s.setSample b r c ch v).sample b' r' c' ch' = s.sample b' r' c' ch' := by
  cases b <;> cases b' <;> first | rfl | exact absurd rfl hb

/-- A read of a written sample gives it and changes nothing. -/
theorem readSample_written {s : State} {b : Buffer} {r c ch : Nat} {v : Byte} (h : s.sample b r c ch = some v) :
    readSample b r c ch s = .ok v s := by
  simp [readSample, h]

/-- A read of an unwritten sample gives a free value and advances the counter of free values only. -/
theorem readSample_unwritten {s : State} {b : Buffer} {r c ch : Nat} (h : s.sample b r c ch = none) :
    readSample b r c ch s = .ok (Config.freeSample s.draws) { s with draws := s.draws + 1 } := by
  simp [readSample, h]

/-- Everything a sample read can do. -/
theorem readSample_cases (b : Buffer) (r c ch : Nat) (s : State) :
    ∃ v n, readSample b r c ch s = .ok v { s with draws := n } ∧ (∀ w, s.sample b r c ch = some w → v = w ∧ n = s.draws) := by
  cases h : s.sample b r c ch with
  | some v => exact ⟨v, s.draws, readSample_written h, fun w hw => ⟨by simpa using hw, rfl⟩⟩
  | none => exact ⟨_, _, readSample_unwritten h, fun w hw => by simp at hw⟩

/-- Both buffers keep their canonical form. -/
def KeepsMemory (s t : State) : Prop :=
  (s.cur.wf = true → t.cur.wf = true) ∧ (s.ref.wf = true → t.ref.wf = true)

theorem keepsMemory_refl (s : State) : KeepsMemory s s := ⟨id, id⟩

theorem keepsMemory_trans (s t u : State) (h : KeepsMemory s t) (h' : KeepsMemory t u) : KeepsMemory s u :=
  ⟨fun x => h'.1 (h.1 x), fun x => h'.2 (h.2 x)⟩

theorem setSample_keepsMemory (s : State) (b : Buffer) (r c ch : Nat) (v : Byte) :
    KeepsMemory s (s.setSample b r c ch v) := by
  cases b
  · exact ⟨fun h => Memory.wf_store h _ _, id⟩
  · exact ⟨id, fun h => Memory.wf_store h _ _⟩

theorem writeSample_keepsMemory (b : Buffer) (r c ch : Nat) (v : Byte) :
    Keeps KeepsMemory (writeSample b r c ch v) :=
  fun s => setSample_keepsMemory s b r c ch v

theorem readSample_keepsMemory (b : Buffer) (r c ch : Nat) : Keeps KeepsMemory (readSample b r c ch) := by
  intro s
  obtain ⟨v, n, h, -⟩ := readSample_cases b r c ch s
  rw [h]; exact keepsMemory_refl s

end Sys2Proof.Machine
end

