-- ==== Sys2Proof/Laws/Procedures.lean ====
section
/-! SUPPORT. What the shared procedures can change, said once: bits, the run, the environment's answers, samples and the
counter of free values. A relation that these changes respect is kept by every procedure, however it ends. -/

namespace Sys2Proof.Machine

/-- A relation that holds across every change a procedure can make. The last two fields say which buffers it writes. -/
structure Respects (R : State → State → Prop) : Prop where
  refl : ∀ s, R s s
  trans : ∀ s t u, R s t → R t u → R s u
  bits : ∀ (s : State) cnt buf, R s { s with regs := { s.regs with bitcnt := cnt, bitbuf := buf } }
  sink : ∀ (s : State) out more,
    R s { s with env := { s.env with sinkOut := s.env.sinkOut ++ out, sinkAnswers := more } }
  source : ∀ (s : State) k, R s { s with env := { s.env with source := s.env.source.drop k } }
  draw : ∀ (s : State) n, R s { s with draws := n }

variable {R : State → State → Prop}

theorem respects_sinkPut (h : Respects R) (b : Byte) : Keeps R (sinkPut b) := by
  intro s
  unfold sinkPut
  cases hs : s.env.sinkAnswers with
  | nil => simpa [endState, hs] using h.sink s [b] s.env.sinkAnswers
  | cons x rest =>
    cases x
    · exact h.sink s [b] rest
    · simpa [endState] using h.sink s [] rest

theorem respects_sourceGet (h : Respects R) : Keeps R sourceGet := by
  intro s
  unfold sourceGet
  cases hs : s.env.source with
  | nil => exact h.refl s
  | cons x rest =>
    have := h.source s 1
    rw [hs] at this
    cases x <;> exact this

theorem respects_readSample (h : Respects R) (b : Buffer) (r c ch : Nat) : Keeps R (readSample b r c ch) := by
  intro s
  obtain ⟨v, n, e, -⟩ := readSample_cases b r c ch s
  rw [e]; exact h.draw s n

/-- A change of the bit buffer alone. -/
theorem respects_modifyBits (h : Respects R) (f : Regs → Regs)
    (hf : ∀ g, f g = { g with bitcnt := (f g).bitcnt, bitbuf := (f g).bitbuf }) : Keeps R (modifyRegs f) := by
  intro s
  have := h.bits s (f s.regs).bitcnt (f s.regs).bitbuf
  rw [← hf] at this; exact this

theorem respects_putBit (h : Respects R) (b : Bool) : Keeps R (putBit b) := by
  intro s
  unfold putBit
  rw [bind_of_ok (getRegs_apply s), bind_of_ok (modifyRegs_apply _ s)]
  refine h.trans _ _ _ (h.bits s (s.regs.bitcnt + 1#4) _) (keeps_onlyIf h.refl _ ?_ _)
  exact keeps_bind h.trans (respects_sinkPut h _) (fun _ => respects_modifyBits h _ (fun _ => rfl))

theorem respects_putBits (h : Respects R) (v : Nat) : ∀ n, Keeps R (putBits v n)
  | 0 => keeps_pure h.refl _
  | n + 1 => keeps_bind h.trans (respects_putBit h _) (fun _ => respects_putBits h v n)

theorem respects_putOnes (h : Respects R) : ∀ q, Keeps R (putOnes q)
  | 0 => keeps_pure h.refl _
  | q + 1 => keeps_bind h.trans (respects_putBit h _) (fun _ => respects_putOnes h q)

theorem respects_takeBufferedBit (h : Respects R) : Keeps R takeBufferedBit := fun s => h.bits s _ _

theorem respects_getBit (h : Respects R) : Keeps R getBit := by
  unfold getBit
  refine keeps_bind h.trans (keeps_getRegs h.refl) (fun r => keeps_bind h.trans (keeps_onlyIf h.refl _ ?_)
    (fun _ => respects_takeBufferedBit h))
  exact keeps_bind h.trans (respects_sourceGet h) (fun _ => respects_modifyBits h _ (fun _ => rfl))

theorem respects_getBitsOnto (h : Respects R) : ∀ n v, Keeps R (getBitsOnto n v)
  | 0, _ => keeps_pure h.refl _
  | n + 1, _ => keeps_bind h.trans (respects_getBit h) (fun _ => respects_getBitsOnto h n _)

theorem respects_getBits (h : Respects R) (n : Nat) : Keeps R (getBits n) := respects_getBitsOnto h n 0

theorem respects_golombPut (h : Respects R) (m : Nat) (n : Int) : Keeps R (golombPut m n) := by
  unfold golombPut
  refine keeps_bind h.trans (respects_putOnes h _) (fun _ => keeps_bind h.trans (respects_putBit h _) (fun _ => ?_))
  split <;> exact keeps_bind h.trans (respects_putBits h _ _) (fun _ => respects_putBit h _)

theorem respects_golombEncode (h : Respects R) (n : Int) : Keeps R (golombEncode n) :=
  keeps_bind h.trans (keeps_getRegs h.refl) (fun _ =>
    keeps_bind h.trans (keeps_require h.refl _ _) (fun _ => respects_golombPut h _ n))

theorem respects_countOnes (h : Respects R) : ∀ fuel, Keeps R (countOnes fuel)
  | 0 => keeps_raise h.refl _
  | fuel + 1 => by
    refine keeps_bind h.trans (respects_getBit h) (fun b => ?_)
    split
    · exact keeps_bind h.trans (respects_countOnes h fuel) (fun _ => keeps_pure h.refl _)
    · exact keeps_pure h.refl _

theorem respects_getUnary (h : Respects R) : Keeps R getUnary := fun s => respects_countOnes h _ s

theorem respects_getRemainder (h : Respects R) (m : Nat) : Keeps R (getRemainder m) := by
  refine keeps_bind h.trans (respects_getBits h _) (fun v => ?_)
  split
  · exact keeps_pure h.refl _
  · exact keeps_bind h.trans (respects_getBit h) (fun _ => keeps_pure h.refl _)

theorem respects_golombDecode (h : Respects R) : Keeps R golombDecode :=
  keeps_bind h.trans (keeps_getRegs h.refl) (fun _ => keeps_bind h.trans (keeps_require h.refl _ _) (fun _ =>
    keeps_bind h.trans (respects_getUnary h) (fun _ => keeps_bind h.trans (respects_getRemainder h _) (fun _ =>
      keeps_bind h.trans (respects_getBit h) (fun _ =>
        keeps_bind h.trans (keeps_require h.refl _ _) (fun _ => keeps_pure h.refl _))))))

/-- The relation holds across a flush of the run, if it does across clearing the count. -/
theorem respects_flushPair (h : Respects R) (hrun : ∀ s : State, R s { s with regs := { s.regs with runCount := 0#32 } }) :
    Keeps R flushPair :=
  keeps_bind h.trans (keeps_getRegs h.refl) (fun _ => keeps_bind h.trans (respects_golombEncode h _) (fun _ =>
    keeps_bind h.trans (respects_golombEncode h _) (fun _ => fun s => hrun s)))

theorem respects_orInvalidState (h : Respects R) (x : Option Int) : Keeps R (orInvalidState x) := by
  cases x
  · exact keeps_raise h.refl _
  · exact keeps_pure h.refl _

theorem respects_qLevel (h : Respects R) (ch : Nat) (v : Int) : Keeps R (qLevel ch v) :=
  keeps_bind h.trans (keeps_getRegs h.refl) (fun _ => respects_orInvalidState h _)

theorem respects_qValue (h : Respects R) (ch : Nat) (l : Int) : Keeps R (qValue ch l) :=
  keeps_bind h.trans (keeps_getRegs h.refl) (fun _ => respects_orInvalidState h _)

theorem respects_neighbour (h : Respects R) (b : Bool) (r c ch : Nat) : Keeps R (neighbour b r c ch) := by
  cases b
  · exact keeps_pure h.refl _
  · exact keeps_bind h.trans (respects_readSample h _ _ _ _) (fun _ => keeps_pure h.refl _)

theorem respects_predict (h : Respects R) (r c ch : Nat) : Keeps R (predict r c ch) :=
  keeps_bind h.trans (respects_neighbour h _ _ _ _) (fun _ => keeps_bind h.trans (respects_neighbour h _ _ _ _) (fun _ =>
    keeps_bind h.trans (respects_neighbour h _ _ _ _) (fun _ => keeps_pure h.refl _)))

theorem respects_blockCost (h : Respects R) (g : Regs) (r0 c0 r1 c1 : Nat) : Keeps R (blockCost g r0 c0 r1 c1) :=
  keeps_foldFrom h.refl h.trans (fun _ _ => keeps_foldFrom h.refl h.trans (fun _ _ =>
    keeps_foldFrom h.refl h.trans (fun _ _ => keeps_bind h.trans (respects_readSample h _ _ _ _) (fun _ =>
      keeps_bind h.trans (respects_readSample h _ _ _ _) (fun _ => keeps_pure h.refl _))) _ _ _) _ _ _) _ _ _

theorem respects_scanWindow (h : Respects R) (g : Regs) (r0 c0 : Nat) : Keeps R (scanWindow g r0 c0) :=
  keeps_foldFrom h.refl h.trans (fun _ _ => keeps_foldFrom h.refl h.trans (fun _ _ =>
    keeps_bind h.trans (respects_blockCost h _ _ _ _ _) (fun _ => keeps_pure h.refl _)) _ _ _) _ _ _

theorem respects_matchSearch (h : Respects R) (g : Regs) (r0 c0 : Nat) : Keeps R (matchSearch g r0 c0) := by
  refine keeps_bind h.trans (respects_blockCost h _ _ _ _ _) (fun k => ?_)
  split
  · exact keeps_pure h.refl _
  · exact keeps_bind h.trans (respects_scanWindow h _ _ _) (fun _ => keeps_pure h.refl _)

theorem respects_putHeader (h : Respects R) (g : Regs) : Keeps R (putHeader g) := by
  have hp := fun v n => respects_putBits h v n
  refine keeps_bind h.trans (hp _ _) (fun _ => keeps_bind h.trans (hp _ _) (fun _ => keeps_bind h.trans (hp _ _) (fun _ =>
    keeps_bind h.trans (hp _ _) (fun _ => keeps_bind h.trans (hp _ _) (fun _ => keeps_bind h.trans (hp _ _) (fun _ =>
    keeps_bind h.trans (keeps_onlyIf h.refl _ ?_) (fun _ => keeps_onlyIf h.refl _ ?_)))))))
  all_goals exact keeps_bind h.trans (hp _ _) (fun _ => keeps_bind h.trans (hp _ _) (fun _ => hp _ _))

theorem respects_getField (h : Respects R) (b : Bool) (x n : Nat) : Keeps R (getField b x n) := by
  cases b
  · exact keeps_pure h.refl _
  · exact respects_getBits h n

theorem respects_getHeader (h : Respects R) (g : Regs) : Keeps R (getHeader g) := by
  have hg := fun n => respects_getBits h n
  have hf := fun b x n => respects_getField h b x n
  exact keeps_bind h.trans (hg _) (fun _ => keeps_bind h.trans (hg _) (fun _ => keeps_bind h.trans (hg _) (fun _ =>
    keeps_bind h.trans (hg _) (fun _ => keeps_bind h.trans (hg _) (fun _ => keeps_bind h.trans (hg _) (fun _ =>
    keeps_bind h.trans (hf _ _ _) (fun _ => keeps_bind h.trans (hf _ _ _) (fun _ => keeps_bind h.trans (hf _ _ _) (fun _ =>
    keeps_bind h.trans (hf _ _ _) (fun _ => keeps_bind h.trans (hf _ _ _) (fun _ => keeps_bind h.trans (hf _ _ _) (fun _ =>
      keeps_pure h.refl _))))))))))))

theorem keeps_checkHeader (hrefl : ∀ s, R s s) (w : Bool) (x : Header) : Keeps R (checkHeader w x) := by
  intro s
  unfold checkHeader
  cases validateHeader s.par s.regs w x <;> exact hrefl s

/-! ### Procedures that write samples -/

section Samples
variable (h : Respects R) (hcur : ∀ s r c ch v, R s (State.setSample s .cur r c ch v))
include h hcur

theorem respects_encodeResidual (l : Bool) (r c ch : Nat) (p : Int) : Keeps R (encodeResidual l r c ch p) := by
  refine keeps_bind h.trans (respects_readSample h _ _ _ _) (fun x => ?_)
  dsimp only
  split
  · exact keeps_bind h.trans (respects_qLevel h _ _) (fun _ => keeps_bind h.trans (respects_golombEncode h _) (fun _ =>
      keeps_bind h.trans (respects_qValue h _ _) (fun _ => fun s => hcur s _ _ _ _)))
  · exact respects_golombEncode h _

theorem respects_storeResidual (l : Bool) (r c ch : Nat) (p x : Int) : Keeps R (storeResidual l r c ch p x) := by
  unfold storeResidual
  split
  · exact keeps_bind h.trans (respects_qValue h _ _) (fun _ => fun s => hcur s _ _ _ _)
  · exact fun s => hcur s _ _ _ _

theorem respects_encodeIntra : Keeps R encodeIntra :=
  keeps_bind h.trans (keeps_getRegs h.refl) (fun _ => keeps_forFrom h.refl h.trans (fun _ =>
    keeps_forFrom h.refl h.trans (fun _ => keeps_forFrom h.refl h.trans (fun _ =>
      keeps_bind h.trans (respects_predict h _ _ _) (fun _ => respects_encodeResidual h hcur _ _ _ _ _)) _ _) _ _) _ _)

theorem respects_decodeIntra : Keeps R decodeIntra :=
  keeps_bind h.trans (keeps_getRegs h.refl) (fun _ => keeps_forFrom h.refl h.trans (fun _ =>
    keeps_forFrom h.refl h.trans (fun _ => keeps_forFrom h.refl h.trans (fun _ =>
      keeps_bind h.trans (respects_predict h _ _ _) (fun _ => keeps_bind h.trans (respects_golombDecode h) (fun _ =>
        respects_storeResidual h hcur _ _ _ _ _ _))) _ _) _ _) _ _)

theorem respects_encodeBlock (g : Regs) (r0 c0 : Nat) : Keeps R (encodeBlock g r0 c0) :=
  keeps_bind h.trans (respects_matchSearch h _ _ _) (fun _ => keeps_bind h.trans (respects_golombEncode h _) (fun _ =>
    keeps_bind h.trans (respects_golombEncode h _) (fun _ => keeps_forFrom h.refl h.trans (fun _ =>
      keeps_forFrom h.refl h.trans (fun _ => keeps_forFrom h.refl h.trans (fun _ =>
        keeps_bind h.trans (respects_readSample h _ _ _ _) (fun _ => respects_encodeResidual h hcur _ _ _ _ _))
        _ _) _ _) _ _)))

theorem respects_decodeBlock (g : Regs) (r0 c0 : Nat) : Keeps R (decodeBlock g r0 c0) :=
  keeps_bind h.trans (respects_golombDecode h) (fun _ => keeps_bind h.trans (respects_golombDecode h) (fun _ =>
    keeps_bind h.trans (keeps_require h.refl _ _) (fun _ => keeps_forFrom h.refl h.trans (fun _ =>
      keeps_forFrom h.refl h.trans (fun _ => keeps_forFrom h.refl h.trans (fun _ =>
        keeps_bind h.trans (respects_golombDecode h) (fun _ => keeps_bind h.trans (respects_readSample h _ _ _ _) (fun _ =>
          respects_storeResidual h hcur _ _ _ _ _ _))) _ _) _ _) _ _)))

theorem respects_encodePred : Keeps R encodePred :=
  keeps_bind h.trans (keeps_getRegs h.refl) (fun _ => keeps_forFrom h.refl h.trans (fun _ =>
    keeps_forFrom h.refl h.trans (fun _ => respects_encodeBlock h hcur _ _ _) _ _) _ _)

theorem respects_decodePred : Keeps R decodePred :=
  keeps_bind h.trans (keeps_getRegs h.refl) (fun _ => keeps_forFrom h.refl h.trans (fun _ =>
    keeps_forFrom h.refl h.trans (fun _ => respects_decodeBlock h hcur _ _ _) _ _) _ _)

end Samples

/-- The relation holds across a copy of CUR to REF, if it does across writes of REF and of the reference registers. -/
theorem respects_copyCurToRef (h : Respects R) (href : ∀ s r c ch v, R s (State.setSample s .ref r c ch v)) (i : Word)
    (hreg : ∀ s : State, R s { s with regs := { s.regs with refValid := true, refIdx := i } }) :
    Keeps R (copyCurToRef i) := by
  refine keeps_bind h.trans (keeps_getRegs h.refl) (fun g => keeps_bind h.trans ?_ (fun _ => fun s => hreg s))
  refine keeps_forFrom h.refl h.trans (fun r => keeps_forFrom h.refl h.trans (fun c =>
    keeps_forFrom h.refl h.trans (fun ch => ?_) _ _) _ _) _ _
  exact keeps_bind h.trans (respects_readSample h _ _ _ _) (fun v => fun s => href s r c ch v)

end Sys2Proof.Machine
end

