-- ==== Sys2Proof/Laws/Bodies.lean ====
section
/-! SUPPORT. What the body of each command can change: one lemma per command. A relation that holds across the changes a
body makes holds between the state before it and the state in which it ends, normally or by a fault. -/

namespace Sys2Proof.Machine

variable {R : State → State → Prop}

theorem keeps_nopBody (h : Respects R) : Keeps R nopBody := keeps_pure h.refl _

theorem keeps_resetBody (hreset : ∀ s, R s (resetBlock s)) : Keeps R resetBody := hreset

theorem keeps_csrrBody (h : Respects R) (csr : BitVec 8) : Keeps R (csrrBody csr) := by
  refine keeps_bind h.trans (keeps_getRegs h.refl) (fun g => ?_)
  split
  · exact keeps_pure h.refl _
  · exact keeps_raise h.refl _

/-- What CSRR does at a listed address (47_system.md R252). -/
theorem csrrBody_listed {csr : BitVec 8} {c : Csr} (hc : csrAt csr = some c) (s : State) :
    csrrBody csr s = .ok (csrValue c s.regs) s := by
  unfold csrrBody
  rw [bind_of_ok (getRegs_apply s)]
  simp only [hc, pure_apply]

/-- What CSRW does at a listed address (47_system.md R253). -/
theorem csrwBody_listed {csr : BitVec 8} {c : Csr} (hc : csrAt csr = some c) (v : Word) (s : State) :
    csrwBody csr v s =
      if csrLocked c = true ∧ s.regs.sess = .headerDone then .error .invalidState s
      else .ok 0#32 { s with regs := csrSet c v s.regs } := by
  unfold csrwBody
  rw [bind_of_ok (getRegs_apply s)]
  simp only [hc]
  by_cases hl : csrLocked c = true ∧ s.regs.sess = .headerDone
  · have : (!(csrLocked c && decide (s.regs.sess = .headerDone))) = false := by simp [hl]
    rw [if_pos hl, this]; exact bind_of_error (require_false _ s)
  · have : (!(csrLocked c && decide (s.regs.sess = .headerDone))) = true := by
      cases h : csrLocked c <;> simp_all
    rw [if_neg hl, this, bind_of_ok (require_true _ s)]; rfl

/-- What CSRW does at an address that is not listed: nothing (such a command is illegal before it gets here). -/
theorem csrwBody_unlisted {csr : BitVec 8} (hc : csrAt csr = none) (v : Word) (s : State) :
    csrwBody csr v s = .error .illegalCommand s := by
  unfold csrwBody
  rw [bind_of_ok (getRegs_apply s)]
  simp only [hc, raise_apply]

theorem keeps_csrwBody (h : Respects R) (csr : BitVec 8) (v : Word)
    (hset : ∀ (s : State) c, csrAt csr = some c → (csrLocked c = true → s.regs.sess ≠ .headerDone) →
      R s { s with regs := csrSet c v s.regs }) : Keeps R (csrwBody csr v) := by
  intro s
  cases hc : csrAt csr with
  | none => rw [csrwBody_unlisted hc]; exact h.refl s
  | some c =>
    rw [csrwBody_listed hc]
    split
    · exact h.refl s
    · exact hset s c hc (by simp_all)

theorem keeps_pxwrBody (h : Respects R) (ch v : BitVec 8) (row col : BitVec 16)
    (hcur : ∀ s r c k x, R s (State.setSample s .cur r c k x)) : Keeps R (pxwrBody ch v row col) :=
  keeps_bind h.trans (keeps_getRegs h.refl) (fun _ => keeps_bind h.trans (keeps_require h.refl _ _) (fun _ =>
    keeps_bind h.trans (fun s => hcur s _ _ _ _) (fun _ => keeps_pure h.refl _)))

theorem keeps_pxrdBody (h : Respects R) (ch : BitVec 8) (buf : BitVec 1) (row col : BitVec 16) :
    Keeps R (pxrdBody ch buf row col) :=
  keeps_bind h.trans (keeps_getRegs h.refl) (fun _ => keeps_bind h.trans (keeps_require h.refl _ _) (fun _ =>
    keeps_bind h.trans (keeps_require h.refl _ _) (fun _ => keeps_bind h.trans (respects_readSample h _ _ _ _) (fun _ =>
      keeps_pure h.refl _))))

theorem keeps_cprefBody (h : Respects R) (href : ∀ s r c ch v, R s (State.setSample s .ref r c ch v))
    (hreg : ∀ (s : State) i, R s { s with regs := { s.regs with refValid := true, refIdx := i } }) :
    Keeps R cprefBody :=
  keeps_bind h.trans (keeps_getRegs h.refl) (fun _ => keeps_bind h.trans (keeps_require h.refl _ _) (fun _ =>
    keeps_bind h.trans (respects_copyCurToRef h href _ (fun s => hreg s _)) (fun _ => keeps_pure h.refl _)))

theorem keeps_envOpen (hrefl : ∀ s, R s s)
    (hopen : ∀ (s : State) more, R s { s with env := { s.env with openAnswers := more } }) : Keeps R envOpen := by
  intro s
  unfold envOpen
  cases hs : s.env.openAnswers with
  | nil => exact hrefl s
  | cons x rest => cases x <;> exact hopen s rest

theorem keeps_openStream (h : Respects R) (m : Mode)
    (hopen : ∀ (s : State) more, R s { s with env := { s.env with openAnswers := more } })
    (hregs : ∀ s : State, R s { s with regs := openedRegs m s.regs }) : Keeps R (openStream m) :=
  keeps_bind h.trans (keeps_requireMode h.refl _) (fun _ => keeps_bind h.trans (keeps_envOpen h.refl hopen) (fun _ =>
    keeps_bind h.trans (fun s => hregs s) (fun _ => keeps_pure h.refl _)))

theorem keeps_flushStream (h : Respects R)
    (hrun : ∀ s : State, R s { s with regs := { s.regs with runCount := 0#32 } }) : Keeps R flushStream :=
  keeps_bind h.trans (keeps_getRegs h.refl) (fun _ =>
    keeps_bind h.trans (keeps_onlyIf h.refl _ (respects_flushPair h hrun)) (fun _ =>
      keeps_bind h.trans (keeps_getRegs h.refl) (fun _ => keeps_onlyIf h.refl _ (respects_sinkPut h _))))

theorem keeps_bcloseBody (h : Respects R)
    (hrun : ∀ s : State, R s { s with regs := { s.regs with runCount := 0#32 } })
    (hdrop : ∀ s : State, R s { s with env := s.env.dropSource })
    (hregs : ∀ s : State, R s { s with regs := closedRegs s.regs }) : Keeps R bcloseBody :=
  keeps_bind h.trans (keeps_getRegs h.refl) (fun _ => keeps_bind h.trans (keeps_require h.refl _ _) (fun _ =>
    keeps_bind h.trans (keeps_onlyIf h.refl _ (keeps_flushStream h hrun)) (fun _ =>
      keeps_bind h.trans (keeps_onlyIf h.refl _ (fun s => hdrop s)) (fun _ =>
        keeps_bind h.trans (fun s => hregs s) (fun _ => keeps_pure h.refl _)))))

theorem keeps_putbitBody (h : Respects R) (b : BitVec 1) : Keeps R (putbitBody b) :=
  keeps_bind h.trans (keeps_requireMode h.refl _) (fun _ =>
    keeps_bind h.trans (respects_putBit h _) (fun _ => keeps_pure h.refl _))

theorem keeps_putbitsBody (h : Respects R) (n : BitVec 8) (v : Word) : Keeps R (putbitsBody n v) :=
  keeps_bind h.trans (keeps_requireMode h.refl _) (fun _ =>
    keeps_bind h.trans (respects_putBits h _ _) (fun _ => keeps_pure h.refl _))

theorem keeps_getbitBody (h : Respects R) : Keeps R getbitBody :=
  keeps_bind h.trans (keeps_requireMode h.refl _) (fun _ =>
    keeps_bind h.trans (respects_getBit h) (fun _ => keeps_pure h.refl _))

theorem keeps_getbitsBody (h : Respects R) (n : BitVec 8) : Keeps R (getbitsBody n) :=
  keeps_bind h.trans (keeps_requireMode h.refl _) (fun _ =>
    keeps_bind h.trans (respects_getBits h _) (fun _ => keeps_pure h.refl _))

theorem keeps_gencBody (h : Respects R) (n : Word) : Keeps R (gencBody n) :=
  keeps_bind h.trans (keeps_requireMode h.refl _) (fun _ =>
    keeps_bind h.trans (respects_golombEncode h _) (fun _ => keeps_pure h.refl _))

theorem keeps_gdecBody (h : Respects R) : Keeps R gdecBody :=
  keeps_bind h.trans (keeps_requireMode h.refl _) (fun _ =>
    keeps_bind h.trans (respects_golombDecode h) (fun _ => keeps_pure h.refl _))

theorem keeps_rpushBody (h : Respects R) (v : Word)
    (hrun : ∀ (s : State) n x, R s { s with regs := { s.regs with runCount := n, lastValue := x } }) :
    Keeps R (rpushBody v) := by
  refine keeps_bind h.trans (keeps_requireMode h.refl _) (fun _ => keeps_bind h.trans (keeps_getRegs h.refl) (fun g =>
    keeps_bind h.trans (keeps_require h.refl _ _) (fun _ => keeps_bind h.trans (keeps_onlyIf h.refl _
      (respects_flushPair h (fun s => hrun s 0#32 s.regs.lastValue))) (fun _ => keeps_bind h.trans
        (fun s => hrun s (s.regs.runCount + 1#32) v) (fun _ => keeps_pure h.refl _)))))

theorem keeps_rflushBody (h : Respects R)
    (hrun : ∀ (s : State) n x, R s { s with regs := { s.regs with runCount := n, lastValue := x } }) :
    Keeps R rflushBody :=
  keeps_bind h.trans (keeps_requireMode h.refl _) (fun _ => keeps_bind h.trans (keeps_getRegs h.refl) (fun _ =>
    keeps_bind h.trans (keeps_onlyIf h.refl _ (respects_flushPair h (fun s => hrun s 0#32 s.regs.lastValue)))
      (fun _ => keeps_pure h.refl _)))

theorem keeps_readPair (h : Respects R)
    (hrun : ∀ (s : State) n x, R s { s with regs := { s.regs with runCount := n, lastValue := x } }) :
    Keeps R readPair :=
  keeps_bind h.trans (respects_golombDecode h) (fun c => keeps_bind h.trans (respects_golombDecode h) (fun x =>
    keeps_bind h.trans (keeps_require h.refl _ _) (fun _ => fun s => hrun s (BitVec.ofInt 32 c) (tc32 x))))

theorem keeps_rpopBody (h : Respects R)
    (hrun : ∀ (s : State) n x, R s { s with regs := { s.regs with runCount := n, lastValue := x } }) :
    Keeps R rpopBody :=
  keeps_bind h.trans (keeps_requireMode h.refl _) (fun _ => keeps_bind h.trans (keeps_getRegs h.refl) (fun _ =>
    keeps_bind h.trans (keeps_require h.refl _ _) (fun _ =>
      keeps_bind h.trans (keeps_onlyIf h.refl _ (keeps_readPair h hrun)) (fun _ =>
        keeps_bind h.trans (fun s => hrun s (s.regs.runCount - 1#32) s.regs.lastValue) (fun _ =>
          keeps_bind h.trans (keeps_getRegs h.refl) (fun _ => keeps_pure h.refl _))))))

theorem keeps_qlevelBody (h : Respects R) (ch : BitVec 8) (v : Word) : Keeps R (qlevelBody ch v) :=
  keeps_bind h.trans (respects_qLevel h _ _) (fun _ => keeps_pure h.refl _)

theorem keeps_qvalueBody (h : Respects R) (ch : BitVec 8) (l : Word) : Keeps R (qvalueBody ch l) :=
  keeps_bind h.trans (respects_qValue h _ _) (fun _ =>
    keeps_bind h.trans (keeps_require h.refl _ _) (fun _ => keeps_pure h.refl _))

theorem keeps_quantBody (h : Respects R) (ch : BitVec 8) (v : Word) : Keeps R (quantBody ch v) :=
  keeps_bind h.trans (respects_qLevel h _ _) (fun _ => keeps_bind h.trans (respects_qValue h _ _) (fun _ =>
    keeps_bind h.trans (keeps_require h.refl _ _) (fun _ => keeps_pure h.refl _)))

theorem keeps_ipredBody (h : Respects R) (ch : BitVec 8) (row col : BitVec 16) : Keeps R (ipredBody ch row col) :=
  keeps_bind h.trans (keeps_getRegs h.refl) (fun _ => keeps_bind h.trans (keeps_require h.refl _ _) (fun _ =>
    keeps_bind h.trans (respects_predict h _ _ _) (fun _ => keeps_pure h.refl _)))

theorem keeps_matchBlockBody (h : Respects R) (row col : BitVec 16) : Keeps R (matchBlockBody row col) :=
  keeps_bind h.trans (keeps_getRegs h.refl) (fun _ => keeps_bind h.trans (keeps_require h.refl _ _) (fun _ =>
    keeps_bind h.trans (keeps_require h.refl _ _) (fun _ => keeps_bind h.trans (keeps_require h.refl _ _) (fun _ =>
      keeps_bind h.trans (respects_matchSearch h _ _ _) (fun _ => keeps_pure h.refl _)))))

theorem keeps_wrhdrBody (h : Respects R) (hregs : ∀ s : State, R s { s with regs := headerDoneRegs s.regs }) :
    Keeps R wrhdrBody :=
  keeps_bind h.trans (keeps_requireMode h.refl _) (fun _ => keeps_bind h.trans (keeps_requireSess h.refl _) (fun _ =>
    keeps_bind h.trans (keeps_getRegs h.refl) (fun _ => keeps_bind h.trans (keeps_checkHeader h.refl _ _) (fun _ =>
      keeps_bind h.trans (respects_putHeader h _) (fun _ => keeps_bind h.trans (fun s => hregs s) (fun _ =>
        keeps_pure h.refl _))))))

theorem keeps_rdhdrBody (h : Respects R) (hload : ∀ (s : State) x, R s { s with regs := loadHeader x s.regs })
    (hregs : ∀ s : State, R s { s with regs := headerDoneRegs s.regs }) : Keeps R rdhdrBody :=
  keeps_bind h.trans (keeps_requireMode h.refl _) (fun _ => keeps_bind h.trans (keeps_requireSess h.refl _) (fun _ =>
    keeps_bind h.trans (keeps_getRegs h.refl) (fun _ => keeps_bind h.trans (respects_getHeader h _) (fun x =>
      keeps_bind h.trans (keeps_checkHeader h.refl _ _) (fun _ => keeps_bind h.trans (fun s => hload s x) (fun _ =>
        keeps_bind h.trans (fun s => hregs s) (fun _ => keeps_pure h.refl _)))))))

theorem keeps_requireFrame (h : Respects R) : Keeps R requireFrame :=
  keeps_bind h.trans (keeps_requireSess h.refl _) (fun _ => keeps_bind h.trans (keeps_getRegs h.refl) (fun _ =>
    keeps_require h.refl _ _))

/-- What the coding of a frame changes, given what its two procedures change. -/
theorem keeps_codeFrame (h : Respects R) {intra predicted : Action Unit} (hi : Keeps R intra) (hp : Keeps R predicted)
    (href : ∀ s r c ch v, R s (State.setSample s .ref r c ch v))
    (hreg : ∀ (s : State) i, R s { s with regs := { s.regs with refValid := true, refIdx := i } })
    (hidx : ∀ (s : State) i, R s { s with regs := { s.regs with frameIdx := i } }) :
    Keeps R (codeFrame intra predicted) := by
  refine keeps_bind h.trans (keeps_getRegs h.refl) (fun g => keeps_bind h.trans ?_ (fun t =>
    keeps_bind h.trans ?_ (fun _ => keeps_pure h.refl _)))
  rotate_left
  · exact fun s => hidx s (g.frameIdx + 1#32)
  unfold typedFrame
  split
  · exact keeps_bind h.trans hi (fun _ => keeps_bind h.trans
      (keeps_onlyIf h.refl _ (respects_copyCurToRef h href _ (fun s => hreg s _))) (fun _ => keeps_pure h.refl _))
  · exact keeps_bind h.trans hp (fun _ => keeps_pure h.refl _)

theorem keeps_encfBody (h : Respects R) (hcur : ∀ s r c ch v, R s (State.setSample s .cur r c ch v))
    (href : ∀ s r c ch v, R s (State.setSample s .ref r c ch v))
    (hreg : ∀ (s : State) i, R s { s with regs := { s.regs with refValid := true, refIdx := i } })
    (hidx : ∀ (s : State) i, R s { s with regs := { s.regs with frameIdx := i } }) : Keeps R encfBody :=
  keeps_bind h.trans (keeps_requireMode h.refl _) (fun _ => keeps_bind h.trans (keeps_requireFrame h) (fun _ =>
    keeps_codeFrame h (respects_encodeIntra h hcur) (respects_encodePred h hcur) href hreg hidx))

theorem keeps_decfBody (h : Respects R) (hcur : ∀ s r c ch v, R s (State.setSample s .cur r c ch v))
    (href : ∀ s r c ch v, R s (State.setSample s .ref r c ch v))
    (hreg : ∀ (s : State) i, R s { s with regs := { s.regs with refValid := true, refIdx := i } })
    (hidx : ∀ (s : State) i, R s { s with regs := { s.regs with frameIdx := i } }) : Keeps R decfBody :=
  keeps_bind h.trans (keeps_requireMode h.refl _) (fun _ => keeps_bind h.trans (keeps_requireFrame h) (fun _ =>
    keeps_codeFrame h (respects_decodeIntra h hcur) (respects_decodePred h hcur) href hreg hidx))

/-- A relation that holds across every change any command makes. -/
structure RespectsAll (R : State → State → Prop) : Prop extends Respects R where
  cur : ∀ s r c ch v, R s (State.setSample s .cur r c ch v)
  ref : ∀ s r c ch v, R s (State.setSample s .ref r c ch v)
  run : ∀ (s : State) n x, R s { s with regs := { s.regs with runCount := n, lastValue := x } }
  reference : ∀ (s : State) i, R s { s with regs := { s.regs with refValid := true, refIdx := i } }
  frame : ∀ (s : State) i, R s { s with regs := { s.regs with frameIdx := i } }
  answers : ∀ (s : State) more, R s { s with env := { s.env with openAnswers := more } }
  drop : ∀ s : State, R s { s with env := s.env.dropSource }
  opened : ∀ (s : State) m, R s { s with regs := openedRegs m s.regs }
  closed : ∀ s : State, R s { s with regs := closedRegs s.regs }
  headerDone : ∀ s : State, R s { s with regs := headerDoneRegs s.regs }
  load : ∀ (s : State) x, R s { s with regs := loadHeader x s.regs }
  set : ∀ (s : State) a c v, csrAt a = some c → (csrLocked c = true → s.regs.sess ≠ .headerDone) →
    R s { s with regs := csrSet c v s.regs }
  reset : ∀ s, R s (resetBlock s)

/-- Such a relation is kept by the body of every command. -/
theorem bodyOf_keeps (h : RespectsAll R) (i : Instr) : Keeps R (bodyOf i) := by
  have hb := h.toRespects
  cases i with
  | nop => exact keeps_nopBody hb
  | reset => exact keeps_resetBody h.reset
  | csrr csr => exact keeps_csrrBody hb csr
  | csrw csr v => exact keeps_csrwBody hb csr v (fun s c hc hl => h.set s csr c v hc hl)
  | pxwr ch v row col => exact keeps_pxwrBody hb ch v row col h.cur
  | pxrd ch buf row col => exact keeps_pxrdBody hb ch buf row col
  | cpref => exact keeps_cprefBody hb h.ref h.reference
  | bopenw => exact keeps_openStream hb _ h.answers (fun s => h.opened s _)
  | bopenr => exact keeps_openStream hb _ h.answers (fun s => h.opened s _)
  | bclose => exact keeps_bcloseBody hb (fun s => h.run s 0#32 s.regs.lastValue) h.drop h.closed
  | putbit b => exact keeps_putbitBody hb b
  | putbits n v => exact keeps_putbitsBody hb n v
  | getbit => exact keeps_getbitBody hb
  | getbits n => exact keeps_getbitsBody hb n
  | genc n => exact keeps_gencBody hb n
  | gdec => exact keeps_gdecBody hb
  | rpush v => exact keeps_rpushBody hb v h.run
  | rflush => exact keeps_rflushBody hb h.run
  | rpop => exact keeps_rpopBody hb h.run
  | qlevel ch v => exact keeps_qlevelBody hb ch v
  | qvalue ch l => exact keeps_qvalueBody hb ch l
  | quant ch v => exact keeps_quantBody hb ch v
  | ipred ch row col => exact keeps_ipredBody hb ch row col
  | matchBlock row col => exact keeps_matchBlockBody hb row col
  | wrhdr => exact keeps_wrhdrBody hb h.headerDone
  | rdhdr => exact keeps_rdhdrBody hb h.load h.headerDone
  | encf => exact keeps_encfBody hb h.cur h.ref h.reference h.frame
  | decf => exact keeps_decfBody hb h.cur h.ref h.reference h.frame

end Sys2Proof.Machine
end

