-- ==== Sys2Proof/Laws/Framer.lean ====
section
/-! SUPPORT. The bit-level procedures on the bit-list views: what `putBit`, `putBits`, `getBit` and `getBits` do, said
once; the fuel of the unary loop; bit lists and numbers. -/

namespace Sys2Proof.Machine

/-! ### One bit of the buffer -/

/-- The claim of `fill_bit` for every buffer, count and bit, as one Bool. -/
def fillCheck : Bool :=
  (List.range 8).all fun cnt => (List.range 256).all fun buf => [false, true].all fun b =>
    buf % 2 ^ (8 - cnt) != 0 ||
      ((bitsOf (setBitTo (BitVec.ofNat 8 buf) (7 - cnt) b).toNat 8).take (cnt + 1) ==
          (bitsOf buf 8).take cnt ++ [b] &&
        (setBitTo (BitVec.ofNat 8 buf) (7 - cnt) b).toNat % 2 ^ (8 - (cnt + 1)) == 0)

theorem fillCheck_true : fillCheck = true := by decide +kernel

/-- Filling the next bit of a buffer with fewer than 8 bits appends it (40_bitio.md R121). -/
theorem fill_bit {cnt buf : Nat} (hc : cnt < 8) (hv : buf < 256) (b : Bool) (hz : buf % 2 ^ (8 - cnt) = 0) :
    (bitsOf (setBitTo (BitVec.ofNat 8 buf) (7 - cnt) b).toNat 8).take (cnt + 1) = (bitsOf buf 8).take cnt ++ [b] ∧
      (setBitTo (BitVec.ofNat 8 buf) (7 - cnt) b).toNat % 2 ^ (8 - (cnt + 1)) = 0 := by
  have h := fillCheck_true
  simp only [fillCheck, List.all_eq_true, List.mem_range] at h
  have := h cnt hc buf hv b (by cases b <;> simp)
  simpa [hz] using this

/-- The claim of `take_bit` for every buffer and count, as one Bool. -/
def takeCheck : Bool :=
  (List.range 9).all fun cnt => (List.range 256).all fun buf =>
    cnt == 0 || buf % 2 ^ (8 - cnt) != 0 ||
      ((bitsOf buf 8).take cnt ==
          (BitVec.ofNat 8 buf).getLsbD 7 :: (bitsOf ((BitVec.ofNat 8 buf) <<< 1).toNat 8).take (cnt - 1) &&
        ((BitVec.ofNat 8 buf) <<< 1).toNat % 2 ^ (8 - (cnt - 1)) == 0)

theorem takeCheck_true : takeCheck = true := by decide +kernel

/-- Taking the top bit of a buffer that holds bits leaves the others (40_bitio.md R123). -/
theorem take_bit {cnt buf : Nat} (hc : cnt < 9) (hv : buf < 256) (h0 : cnt ≠ 0) (hz : buf % 2 ^ (8 - cnt) = 0) :
    (bitsOf buf 8).take cnt =
        (BitVec.ofNat 8 buf).getLsbD 7 :: (bitsOf ((BitVec.ofNat 8 buf) <<< 1).toNat 8).take (cnt - 1) ∧
      ((BitVec.ofNat 8 buf) <<< 1).toNat % 2 ^ (8 - (cnt - 1)) = 0 := by
  have h := takeCheck_true
  simp only [takeCheck, List.all_eq_true, List.mem_range] at h
  have := h cnt hc buf hv
  simpa only [hz, h0, Bool.or_eq_true, beq_iff_eq, bne_iff_ne, ne_eq, not_true_eq_false, false_or, Bool.and_eq_true]
    using this

theorem bitsOf_length (v n : Nat) : (bitsOf v n).length = n := by
  induction n with
  | zero => rfl
  | succ n ih => simp [bitsOf, ih]

@[simp] theorem byteBits_length (b : Byte) : (byteBits b).length = 8 := bitsOf_length _ _

@[simp] theorem bytesBits_append (x y : List Byte) : bytesBits (x ++ y) = bytesBits x ++ bytesBits y := by
  simp [bytesBits]

@[simp] theorem bytesBits_nil : bytesBits [] = [] := rfl

@[simp] theorem bytesBits_cons (b : Byte) (y : List Byte) : bytesBits (b :: y) = byteBits b ++ bytesBits y := by
  simp [bytesBits]

theorem bufferHolds_iff {g : Regs} {most : Nat} :
    bufferHolds g most = true ↔ g.bitcnt.toNat ≤ most ∧ g.bitbuf.toNat % 2 ^ (8 - g.bitcnt.toNat) = 0 := by
  simp [bufferHolds]

theorem bufferHolds_mono {g : Regs} {a b : Nat} (h : a ≤ b) (hg : bufferHolds g a = true) : bufferHolds g b = true := by
  rw [bufferHolds_iff] at *; exact ⟨by omega, hg.2⟩

/-! ### Writing bits -/

theorem appendsBits_refl {s : State} (h : bufferHolds s.regs 7 = true) : AppendsBits s s [] :=
  ⟨by simp, h, [], by simp, by simp⟩

theorem appendsBits_sinkReady {s t : State} {bs : List Bool} (h : AppendsBits s t bs) (hs : sinkReady s = true) :
    sinkReady t = true := by
  obtain ⟨-, -, out, -, ht⟩ := h
  rw [ht]
  simp only [sinkReady, List.all_eq_true] at *
  exact fun x hx => hs x (List.mem_of_mem_drop hx)

theorem appendsBits_trans {s t u : State} {bs cs : List Bool} (h : AppendsBits s t bs) (h' : AppendsBits t u cs) :
    AppendsBits s u (bs ++ cs) := by
  obtain ⟨w, -, out, ho, ht⟩ := h
  obtain ⟨w', b', out', ho', hu⟩ := h'
  refine ⟨by rw [w', w, List.append_assoc], b', out ++ out', by rw [ho', ho, List.append_assoc], ?_⟩
  rw [hu, ht]
  simp [ho', ho]

/-- `sinkPut` on a ready sink. -/
theorem sinkPut_ready {s : State} (h : sinkReady s = true) (b : Byte) :
    sinkPut b s = .ok ()
      { s with env := { s.env with sinkOut := s.env.sinkOut ++ [b], sinkAnswers := s.env.sinkAnswers.drop 1 } } := by
  unfold sinkPut
  simp only [sinkReady, List.all_eq_true] at h
  cases hs : s.env.sinkAnswers with
  | nil =>
    obtain ⟨p, r, c, f, d, e, i, q⟩ := s
    obtain ⟨e1, e2, e3, e4, e5⟩ := e
    simp_all
  | cons x rest =>
    have := h x (by simp [hs])
    simp only [decide_eq_true_eq] at this
    subst this; simp

/-- `PutBit` with room in the buffer and a ready sink appends the bit (40_bitio.md R121). -/
theorem putBit_appends {s : State} (hr : sinkReady s = true) (hb : bufferHolds s.regs 7 = true) (b : Bool) :
    ∃ t, putBit b s = .ok () t ∧ AppendsBits s t [b] := by
  obtain ⟨hc, hz⟩ := bufferHolds_iff.mp hb
  have hbuf : s.regs.bitbuf.toNat < 256 := s.regs.bitbuf.isLt
  have key := fill_bit (by omega) hbuf b hz
  simp only [BitVec.ofNat_toNat, BitVec.setWidth_eq] at key
  by_cases h7 : s.regs.bitcnt.toNat = 7
  · have hcnt : s.regs.bitcnt = 7#4 := BitVec.eq_of_toNat_eq (by simpa using h7)
    let u : State := { s with
      regs := { s.regs with bitbuf := 0#8, bitcnt := 0#4 }
      env := { s.env with
        sinkOut := s.env.sinkOut ++ [setBitTo s.regs.bitbuf 0 b]
        sinkAnswers := s.env.sinkAnswers.drop 1 } }
    refine ⟨u, ?_, ?_, bufferHolds_iff.mpr ⟨by simp [u], by simp [u]⟩, [setBitTo s.regs.bitbuf 0 b], rfl, by simp [u]⟩
    · unfold putBit
      simp only [bind_of_ok (getRegs_apply s), bind_of_ok (modifyRegs_apply _ s), hcnt]
      have e : decide (7#4 + 1#4 = 8#4) = true := by decide
      rw [e, onlyIf_true]
      let s' : State := { s with
        regs := { s.regs with bitbuf := setBitTo s.regs.bitbuf (7 - (7#4).toNat) b, bitcnt := 7#4 + 1#4 } }
      have hr' : sinkReady s' = true := hr
      exact bind_of_ok (sinkPut_ready hr' _)
    · have k := key.1
      rw [h7] at k
      have : (bitsOf (setBitTo s.regs.bitbuf 0 b).toNat 8).take 8 = bitsOf (setBitTo s.regs.bitbuf 0 b).toNat 8 :=
        List.take_of_length_le (by rw [bitsOf_length])
      simp only [Nat.sub_self, Nat.reduceAdd, this] at k
      simp only [u, writtenBits, bytesBits_append, bytesBits_cons, bytesBits_nil, List.append_nil, byteBits, bufferedBits, k,
        h7]
      simp
  · have hlt : s.regs.bitcnt.toNat < 7 := by omega
    have hadd : (s.regs.bitcnt + 1#4).toNat = s.regs.bitcnt.toNat + 1 := by
      simp [BitVec.toNat_add]; omega
    have hne : decide (s.regs.bitcnt + 1#4 = 8#4) = false := by
      simp only [decide_eq_false_iff_not]
      intro h
      have := congrArg BitVec.toNat h
      rw [hadd] at this
      simp at this; omega
    let u : State := { s with
      regs := { s.regs with
        bitbuf := setBitTo s.regs.bitbuf (7 - s.regs.bitcnt.toNat) b
        bitcnt := s.regs.bitcnt + 1#4 } }
    refine ⟨u, ?_, ?_, ?_, [], by simp [u], by simp [u]⟩
    · unfold putBit
      simp only [bind_of_ok (getRegs_apply s), bind_of_ok (modifyRegs_apply _ s), hne, onlyIf_false]
      rfl
    · simp only [u, writtenBits, bufferedBits, hadd, byteBits, key.1, List.append_assoc]
    · rw [bufferHolds_iff]
      simp only [u, hadd]
      exact ⟨by omega, key.2⟩

/-- Two appending actions in a row. -/
theorem bind_appends {α : Type} {x : Action Unit} {f : Unit → Action α} {s t : State} {bs : List Bool}
    (hx : x s = .ok () t) (hst : AppendsBits s t bs) {cs : List Bool} {a : α}
    (hf : ∃ u, f () t = .ok a u ∧ AppendsBits t u cs) :
    ∃ u, (x >>= f) s = .ok a u ∧ AppendsBits s u (bs ++ cs) := by
  obtain ⟨u, hu, htu⟩ := hf
  exact ⟨u, by rw [bind_of_ok hx]; exact hu, appendsBits_trans hst htu⟩

/-- `PutBits(v, n)` appends the low `n` bits of `v`, most significant first (40_bitio.md R122). -/
theorem putBits_appends (v : Nat) : ∀ (n : Nat) {s : State}, sinkReady s = true → bufferHolds s.regs 7 = true →
    ∃ t, putBits v n s = .ok () t ∧ AppendsBits s t (bitsOf v n)
  | 0, s, _, hb => ⟨s, rfl, appendsBits_refl hb⟩
  | n + 1, s, hr, hb => by
    obtain ⟨t, ht, hst⟩ := putBit_appends hr hb (v.testBit n)
    exact bind_appends ht hst (putBits_appends v n (appendsBits_sinkReady hst hr) hst.2.1)

/-- `q` one bits. -/
theorem putOnes_appends : ∀ (q : Nat) {s : State}, sinkReady s = true → bufferHolds s.regs 7 = true →
    ∃ t, putOnes q s = .ok () t ∧ AppendsBits s t (List.replicate q true)
  | 0, s, _, hb => ⟨s, rfl, appendsBits_refl hb⟩
  | q + 1, s, hr, hb => by
    obtain ⟨t, ht, hst⟩ := putBit_appends hr hb true
    exact bind_appends ht hst (putOnes_appends q (appendsBits_sinkReady hst hr) hst.2.1)

/-! ### Reading bits -/

theorem consumesBits_refl {s : State} (h : bufferHolds s.regs 8 = true) : ConsumesBits s s [] :=
  ⟨rfl, h, rfl⟩

theorem consumesBits_trans {s t u : State} {bs cs : List Bool} (h : ConsumesBits s t bs) (h' : ConsumesBits t u cs) :
    ConsumesBits s u (bs ++ cs) := by
  obtain ⟨w, -, ht⟩ := h
  obtain ⟨w', b', hu⟩ := h'
  refine ⟨by rw [w, w', List.append_assoc], b', ?_⟩
  rw [hu, ht]

/-- The bit taken from a buffer that holds one. -/
theorem takeBufferedBit_consumes {s : State} (hb : bufferHolds s.regs 8 = true) (hne : s.regs.bitcnt ≠ 0#4) :
    ∃ b t, takeBufferedBit s = .ok b t ∧ ConsumesBits s t [b] := by
  obtain ⟨hc, hz⟩ := bufferHolds_iff.mp hb
  have h0 : s.regs.bitcnt.toNat ≠ 0 := fun h => hne (BitVec.eq_of_toNat_eq (by simpa using h))
  have key := take_bit (by omega) s.regs.bitbuf.isLt h0 hz
  simp only [BitVec.ofNat_toNat, BitVec.setWidth_eq] at key
  have hsub : (s.regs.bitcnt - 1#4).toNat = s.regs.bitcnt.toNat - 1 := by
    have := s.regs.bitcnt.isLt
    simp [BitVec.toNat_sub]; omega
  refine ⟨_, _, rfl, ?_, ?_, rfl⟩
  · simp only [unreadBits, bufferedBits, byteBits, hsub]
    rw [key.1]; rfl
  · rw [bufferHolds_iff]
    simp only [hsub]
    exact ⟨by omega, key.2⟩

/-- `GetBit` with a bit to read takes it (40_bitio.md R123). -/
theorem getBit_consumes {s : State} (hb : bufferHolds s.regs 8 = true) {b : Bool} {rest : List Bool}
    (h : unreadBits s = b :: rest) : ∃ t, getBit s = .ok b t ∧ ConsumesBits s t [b] := by
  by_cases h0 : s.regs.bitcnt = 0#4
  · have hbuf : bufferedBits s.regs = [] := by simp [bufferedBits, h0]
    rw [unreadBits, hbuf, List.nil_append] at h
    cases hs : s.env.source with
    | nil => simp [hs, sourceBytes] at h
    | cons x more =>
      cases x with
      | eos => simp [hs, sourceBytes] at h
      | ioerr => simp [hs, sourceBytes] at h
      | byte y =>
        let s' : State := { s with
          env := { s.env with source := more }
          regs := { s.regs with bitbuf := y, bitcnt := 8#4 } }
        have hb' : bufferHolds s'.regs 8 = true := by
          rw [bufferHolds_iff]; simp [s', Nat.mod_one]
        obtain ⟨c, t, ht, hst⟩ := takeBufferedBit_consumes hb' (by simp [s'])
        have hun : unreadBits s' = unreadBits s := by
          have : (byteBits y).take 8 = byteBits y := List.take_of_length_le (by simp)
          simp [s', unreadBits, bufferedBits, h0, hs, sourceBytes, this]
        have hcb : c = b := by
          have := hst.1
          rw [hun, unreadBits, hbuf, List.nil_append, h] at this
          simpa using (List.cons.inj this).1.symm
        subst hcb
        refine ⟨t, ?_, ?_, hst.2.1, ?_⟩
        · unfold getBit
          rw [bind_of_ok (getRegs_apply s)]
          simp only [h0, decide_true, onlyIf_true]
          have hsg : sourceGet s = .ok y { s with env := { s.env with source := more } } := by
            simp [sourceGet, hs]
          have hl : (sourceGet >>= fun b => modifyRegs fun g => { g with bitbuf := b, bitcnt := 8#4 }) s = .ok () s' := by
            rw [bind_of_ok hsg]; rfl
          rw [bind_of_ok hl]; exact ht
        · rw [← hun]; exact hst.1
        · rw [hst.2.2]
  · obtain ⟨c, t, ht, hst⟩ := takeBufferedBit_consumes hb h0
    have hcb : c = b := by
      have := hst.1
      rw [h] at this
      simpa using (List.cons.inj this).1.symm
    subst hcb
    refine ⟨t, ?_, hst⟩
    unfold getBit
    rw [bind_of_ok (getRegs_apply s)]
    simp only [h0, decide_false, onlyIf_false]
    rw [bind_of_ok (pure_apply () s)]; exact ht

/-- With nothing to read and a source that ends, `GetBit` faults with EndOfStream (40_bitio.md R123). -/
theorem getBit_endOfStream {s : State} (hb : bufferHolds s.regs 8 = true) (h : unreadBits s = [])
    (he : sourceEnds s.env.source = true) :
    getBit s = .error .endOfStream { s with env := { s.env with source := s.env.source.drop 1 } } ∧
      s.regs.bitcnt = 0#4 := by
  have h0 : s.regs.bitcnt = 0#4 := by
    by_contra hne
    obtain ⟨c, t, -, hst⟩ := takeBufferedBit_consumes hb hne
    have := hst.1
    rw [h] at this; simp at this
  refine ⟨?_, h0⟩
  unfold getBit
  rw [bind_of_ok (getRegs_apply s)]
  simp only [h0, decide_true, onlyIf_true]
  refine bind_of_error (bind_of_error ?_)
  rw [unreadBits] at h
  have hs := (List.append_eq_nil_iff.mp h).2
  obtain ⟨p, r, c, f, d, e, i, q⟩ := s
  obtain ⟨e1, e2, e3, src, e5⟩ := e
  cases src with
  | nil => rfl
  | cons x more =>
    cases x with
    | eos => rfl
    | ioerr => simp [sourceEnds] at he
    | byte y =>
      simp only [sourceBytes, bytesBits_cons] at hs
      have := congrArg List.length hs
      simp at this

/-- Reading a list of bits onto a value. -/
theorem getBitsOnto_consumes : ∀ (bs : List Bool) (v : Nat) {s : State} {rest : List Bool},
    bufferHolds s.regs 8 = true → unreadBits s = bs ++ rest →
    ∃ t, getBitsOnto bs.length v s = .ok (bs.foldl (fun v b => 2 * v + b.toNat) v) t ∧ ConsumesBits s t bs
  | [], v, s, _, hb, _ => ⟨s, rfl, consumesBits_refl hb⟩
  | b :: bs, v, s, rest, hb, h => by
    obtain ⟨t, ht, hst⟩ := getBit_consumes hb h
    have hun : unreadBits t = bs ++ rest := by
      have := hst.1
      rw [h] at this
      simpa using (List.cons.inj this).2.symm
    obtain ⟨u, hu, htu⟩ := getBitsOnto_consumes bs (2 * v + b.toNat) hst.2.1 hun
    refine ⟨u, ?_, by simpa using consumesBits_trans hst htu⟩
    show (getBit >>= fun b => getBitsOnto bs.length (2 * v + b.toNat)) s = _
    rw [bind_of_ok ht]; exact hu

/-- `GetBits(n)` with `n` bits to read gives their number (40_bitio.md R124). -/
theorem getBits_consumes {bs : List Bool} {s : State} {rest : List Bool} (hb : bufferHolds s.regs 8 = true)
    (h : unreadBits s = bs ++ rest) : ∃ t, getBits bs.length s = .ok (ofBits bs) t ∧ ConsumesBits s t bs :=
  getBitsOnto_consumes bs 0 hb h

/-! ### Numbers and their bits -/

theorem foldl_bitsOf (v : Nat) : ∀ (n a : Nat),
    (bitsOf v n).foldl (fun v b => 2 * v + b.toNat) a = a * 2 ^ n + v % 2 ^ n
  | 0, a => by simp [bitsOf, Nat.mod_one]
  | n + 1, a => by
    simp only [bitsOf, List.foldl_cons, foldl_bitsOf v n]
    have h1 : (v.testBit n).toNat = v / 2 ^ n % 2 := Nat.toNat_testBit v n
    rw [h1]
    have h2 : v % 2 ^ (n + 1) = v % 2 ^ n + 2 ^ n * (v / 2 ^ n % 2) := Nat.mod_mul
    rw [h2, pow_succ]; ring

/-- Reading back the low `n` bits of a number gives it modulo 2^n. -/
theorem ofBits_bitsOf (v n : Nat) : ofBits (bitsOf v n) = v % 2 ^ n := by
  simpa [ofBits] using foldl_bitsOf v n 0

/-- A list of `n` bits is a number below 2^n. -/
theorem ofBits_lt (bs : List Bool) : ofBits bs < 2 ^ bs.length := by
  have : ∀ (bs : List Bool) (a : Nat), bs.foldl (fun v b => 2 * v + b.toNat) a < (a + 1) * 2 ^ bs.length := by
    intro bs
    induction bs with
    | nil => intro a; simp
    | cons b bs ih =>
      intro a
      simp only [List.foldl_cons, List.length_cons, pow_succ]
      have := ih (2 * a + b.toNat)
      have hb : b.toNat ≤ 1 := Bool.toNat_le b
      nlinarith [Nat.two_pow_pos bs.length]
  simpa [ofBits] using this bs 0

/-! ### The fuel of the unary loop -/

theorem bufferedBits_length {g : Regs} (h : bufferHolds g 8 = true) : (bufferedBits g).length = g.bitcnt.toNat := by
  have := (bufferHolds_iff.mp h).1
  simp [bufferedBits, this]

theorem sourceBytes_length (l : List SourceAnswer) : (sourceBytes l).length ≤ l.length := by
  induction l with
  | nil => simp [sourceBytes]
  | cons x rest ih => cases x <;> simp [sourceBytes, ih]

theorem bytesBits_length (l : List Byte) : (bytesBits l).length = 8 * l.length := by
  induction l with
  | nil => rfl
  | cons b rest ih => simp [ih]; omega

/-- `bitsLeft` bounds the unread bits, so `bitsLeft + 1` rounds of the loop of 41_golomb.md R142 are enough. -/
theorem unreadBits_length_le {s : State} (h : bufferHolds s.regs 8 = true) : (unreadBits s).length ≤ bitsLeft s := by
  have := sourceBytes_length s.env.source
  simp only [unreadBits, List.length_append, bufferedBits_length h, bytesBits_length, bitsLeft]
  omega

/-- With enough fuel the unary loop reads `q` one bits and the zero after them. -/
theorem countOnes_consumes (q : Nat) : ∀ (fuel : Nat) {s : State} {rest : List Bool}, q < fuel →
    bufferHolds s.regs 8 = true → unreadBits s = List.replicate q true ++ false :: rest →
    ∃ t, countOnes fuel s = .ok q t ∧ ConsumesBits s t (List.replicate q true ++ [false]) := by
  induction q with
  | zero =>
    intro fuel s rest hf hb h
    obtain ⟨fuel, rfl⟩ := Nat.exists_eq_succ_of_ne_zero (Nat.ne_of_gt hf)
    obtain ⟨t, ht, hst⟩ := getBit_consumes hb h
    refine ⟨t, ?_, hst⟩
    unfold countOnes
    rw [bind_of_ok ht]; rfl
  | succ q ih =>
    intro fuel s rest hf hb h
    obtain ⟨fuel, rfl⟩ := Nat.exists_eq_succ_of_ne_zero (Nat.ne_of_gt (Nat.zero_lt_of_lt hf))
    rw [List.replicate_succ, List.cons_append] at h
    obtain ⟨t, ht, hst⟩ := getBit_consumes hb h
    have hun : unreadBits t = List.replicate q true ++ false :: rest := by
      have := hst.1
      rw [h] at this
      simpa using this.symm
    obtain ⟨u, hu, htu⟩ := ih fuel (Nat.lt_of_succ_lt_succ hf) hst.2.1 hun
    refine ⟨u, ?_, ?_⟩
    · unfold countOnes
      rw [bind_of_ok ht]
      simp only [if_true]
      rw [bind_of_ok hu]; rfl
    · have := consumesBits_trans hst htu
      rwa [List.replicate_succ, List.cons_append]

/-- The fuel of `getUnary` never runs out: the unary part is read whole (41_golomb.md R142). -/
theorem getUnary_consumes {q : Nat} {s : State} {rest : List Bool} (hb : bufferHolds s.regs 8 = true)
    (h : unreadBits s = List.replicate q true ++ false :: rest) :
    ∃ t, getUnary s = .ok q t ∧ ConsumesBits s t (List.replicate q true ++ [false]) := by
  refine countOnes_consumes q _ ?_ hb h
  have := unreadBits_length_le hb
  rw [h] at this
  simp at this; omega

/-- A source that ends still ends after a bit was read. -/
theorem getBit_sourceEnds {s t : State} {b : Bool} (h : getBit s = .ok b t) (he : sourceEnds s.env.source = true) :
    sourceEnds t.env.source = true := by
  unfold getBit at h
  rw [bind_of_ok (getRegs_apply s)] at h
  obtain ⟨_, u, hu, ht⟩ := bind_ok_iff.mp h
  have hut : t.env = u.env := by
    simp only [takeBufferedBit, EStateM.Result.ok.injEq] at ht
    rw [← ht.2]
  rw [hut]
  by_cases h0 : s.regs.bitcnt = 0#4
  · simp only [h0, decide_true, onlyIf_true] at hu
    obtain ⟨y, v, hv, hvu⟩ := bind_ok_iff.mp hu
    simp only [modifyRegs_apply, EStateM.Result.ok.injEq, true_and] at hvu
    rw [← hvu]
    cases hs : s.env.source with
    | nil => simp [sourceGet, hs] at hv
    | cons x more =>
      cases x with
      | eos => simp [sourceGet, hs] at hv
      | ioerr => simp [sourceGet, hs] at hv
      | byte z =>
        simp only [sourceGet, hs, EStateM.Result.ok.injEq] at hv
        rw [← hv.2]
        simpa [hs, sourceEnds] using he
  · simp only [h0, decide_false, onlyIf_false, pure_apply, EStateM.Result.ok.injEq, true_and] at hu
    rw [← hu]; exact he

/-- On a source of one bits that ends, the unary part faults with EndOfStream after every bit was consumed, for any fuel
above the number of bits: the fuel is not what ends the loop (70_reset_and_hazards.md R304). -/
theorem countOnes_fuel (q : Nat) : ∀ (fuel : Nat) {s : State}, q < fuel → bufferHolds s.regs 8 = true →
    unreadBits s = List.replicate q true → sourceEnds s.env.source = true →
    ∃ t, countOnes fuel s = .error .endOfStream t ∧ t.regs.bitcnt = 0#4 := by
  induction q with
  | zero =>
    intro fuel s hf hb h he
    obtain ⟨fuel, rfl⟩ := Nat.exists_eq_succ_of_ne_zero (Nat.ne_of_gt hf)
    obtain ⟨hg, h0⟩ := getBit_endOfStream hb h he
    refine ⟨{ s with env := { s.env with source := s.env.source.drop 1 } }, ?_, h0⟩
    unfold countOnes
    exact bind_of_error hg
  | succ q ih =>
    intro fuel s hf hb h he
    obtain ⟨fuel, rfl⟩ := Nat.exists_eq_succ_of_ne_zero (Nat.ne_of_gt (Nat.zero_lt_of_lt hf))
    rw [List.replicate_succ] at h
    obtain ⟨t, ht, hst⟩ := getBit_consumes hb h
    have hun : unreadBits t = List.replicate q true := by
      have := hst.1
      rw [h] at this
      simpa using this.symm
    obtain ⟨u, hu, hu0⟩ := ih fuel (Nat.lt_of_succ_lt_succ hf) hst.2.1 hun (getBit_sourceEnds ht he)
    refine ⟨u, ?_, hu0⟩
    unfold countOnes
    rw [bind_of_ok ht]
    simp only [if_true]
    exact bind_of_error hu

/-- What is left to read after a prefix was read. -/
theorem consumesBits_rest {s t : State} {bs rest : List Bool} (h : ConsumesBits s t bs)
    (hs : unreadBits s = bs ++ rest) : unreadBits t = rest :=
  (List.append_cancel_left (hs.symm.trans h.1)).symm

/-- Where the source stands after a bit was read: it gave no byte, or one. -/
theorem getBit_source {s t : State} {b : Bool} (h : getBit s = .ok b t) :
    t.env.source = s.env.source ∨ ∃ x, s.env.source = .byte x :: t.env.source := by
  unfold getBit at h
  rw [bind_getRegs_apply] at h
  by_cases h0 : s.regs.bitcnt = 0#4
  · simp only [h0, decide_true, onlyIf_true] at h
    obtain ⟨_, u, hu, ht⟩ := bind_ok_iff.mp h
    obtain ⟨x, w, hx, hw⟩ := bind_ok_iff.mp hu
    unfold sourceGet at hx
    cases hs : s.env.source with
    | nil => rw [hs] at hx; cases hx
    | cons y rest =>
      rw [hs] at hx
      cases y with
      | byte c => 
        simp only [EStateM.Result.ok.injEq] at hx
        obtain ⟨-, rfl⟩ := hx
        cases hw; cases ht
        exact .inr ⟨c, rfl⟩
      | eos => cases hx
      | ioerr => cases hx
  · simp only [h0, decide_false, onlyIf_false] at h
    cases h
    exact .inl rfl

/-- The state in which a read past the end leaves the stream: every bit consumed, and the end of the source with them. -/
def pastEnd (s : State) : State :=
  { s with
    regs := { s.regs with bitcnt := 0#4, bitbuf := 0#8 }
    env := { s.env with source := s.env.source.drop ((sourceBytes s.env.source).length + 1) } }

theorem pastEnd_getBit {s t : State} {b : Bool} (h : getBit s = .ok b t) (hc : ConsumesBits s t [b]) : pastEnd t = pastEnd s := by
  have e := hc.2.2
  unfold pastEnd
  rcases getBit_source h with h1 | ⟨x, h1⟩
  · rw [h1]; rw [e]
  · rw [h1]; simp only [sourceBytes, List.length_cons, List.drop_succ_cons]; rw [e]

/-- Reading more bits than there are ends in EndOfStream, with all of them consumed (40_bitio.md R123, R124). -/
theorem getBitsOnto_pastEnd : ∀ (n v : Nat) {s : State}, bufferHolds s.regs 8 = true →
    sourceEnds s.env.source = true → (unreadBits s).length < n →
    getBitsOnto n v s = .error .endOfStream (pastEnd s)
  | 0, v, s, _, _, h => absurd h (by omega)
  | n + 1, v, s, hb, hs, h => by
    cases hu : unreadBits s with
    | nil =>
      obtain ⟨e, h0⟩ := getBit_endOfStream hb hu hs
      refine (bind_of_error e).trans ?_
      congr 1
      unfold pastEnd
      have hz : s.regs.bitbuf = 0#8 := by
        have := (bufferHolds_iff.mp hb).2
        rw [h0] at this
        apply BitVec.eq_of_toNat_eq
        have := s.regs.bitbuf.isLt
        simp at *; omega
      have hn : sourceBytes s.env.source = [] := by
        simp only [unreadBits, List.append_eq_nil_iff] at hu
        cases hq : sourceBytes s.env.source with
        | nil => rfl
        | cons x r =>
          have := congrArg List.length hu.2
          rw [hq, bytesBits_length] at this
          simp at this
      rw [hn]
      conv_rhs => rw [← h0, ← hz]
      rfl
    | cons b rest =>
      obtain ⟨t, e, hc⟩ := getBit_consumes hb hu
      have ih := getBitsOnto_pastEnd n (2 * v + b.toNat) hc.2.1 (getBit_sourceEnds e hs) (by
        have := consumesBits_rest hc (rest := rest) (by rw [hu]; rfl)
        rw [this]; rw [hu] at h; simp at h; omega)
      rw [pastEnd_getBit e hc] at ih
      exact (bind_of_ok e).trans ih

/-- The last byte of a stream: its pending bits and zeros (20_memory.md R67). -/
theorem byteBits_padded {g : Regs} (h : bufferHolds g 8 = true) :
    byteBits g.bitbuf = bufferedBits g ++ List.replicate (8 - g.bitcnt.toNat) false := by
  have key : ∀ (c : BitVec 4) (v : BitVec 8), c.toNat ≤ 8 → v.toNat % 2 ^ (8 - c.toNat) = 0 →
      byteBits v = (byteBits v).take c.toNat ++ List.replicate (8 - c.toNat) false := by decide +kernel
  exact key g.bitcnt g.bitbuf (bufferHolds_iff.mp h).1 (bufferHolds_iff.mp h).2

end Sys2Proof.Machine
end

