-- ==== Sys2Proof/Laws/Buffer.lean ====
section
/-! SUPPORT. The bit buffer through every procedure (10_state.md R42): what holds of it where a procedure completes and
where it raises. Writing needs room for a bit; a `raise` out of `PutBit` may leave the buffer full. -/

namespace Sys2Proof.Machine

variable {α β : Type} {P Q : State → Prop}

/-- From a state with `P` the action completes with `P` or raises with `Q`. -/
def Safe (P Q : State → Prop) (x : Action α) : Prop :=
  ∀ s, P s → match x s with
    | .ok _ t => P t
    | .error _ t => Q t

theorem safe_ok {x : Action α} (h : Safe P Q x) {s t : State} {a : α} (hs : P s) (e : x s = .ok a t) : P t := by
  have := h s hs; rw [e] at this; exact this

theorem safe_error {x : Action α} (h : Safe P Q x) {s t : State} {c : Cause} (hs : P s) (e : x s = .error c t) : Q t := by
  have := h s hs; rw [e] at this; exact this

theorem safe_bind {x : Action α} {f : α → Action β} (hx : Safe P Q x) (hf : ∀ a, Safe P Q (f a)) :
    Safe P Q (x >>= f) := fun s hs => by
  cases e : x s with
  | ok a t => rw [bind_of_ok e]; exact hf a t (safe_ok hx hs e)
  | error c t => rw [bind_of_error e]; exact safe_error hx hs e

theorem safe_foldFrom {f : Nat → α → Action α} (hf : ∀ i a, Safe P Q (f i a)) :
    ∀ n i a, Safe P Q (foldFrom n i f a)
  | 0, _, _ => fun _ hs => hs
  | n + 1, i, a => safe_bind (hf i a) (fun b => safe_foldFrom hf n (i + 1) b)

theorem safe_forFrom {f : Nat → Action Unit} (hf : ∀ i, Safe P Q (f i)) (n i : Nat) : Safe P Q (forFrom n i f) :=
  safe_foldFrom (fun i _ => hf i) n i ()

theorem safe_onlyIf (b : Bool) {x : Action Unit} (h : Safe P Q x) : Safe P Q (onlyIf b x) := by
  cases b
  · exact fun _ hs => hs
  · exact h

/-- An action that leaves the bit buffer alone is safe for every condition on it. -/
theorem safe_of_keeps {x : Action α} (hPQ : ∀ s, P s → Q s)
    (hP : ∀ s t : State, t.regs.bitcnt = s.regs.bitcnt → t.regs.bitbuf = s.regs.bitbuf → P s → P t)
    (h : Keeps (fun s t : State => t.regs.bitcnt = s.regs.bitcnt ∧ t.regs.bitbuf = s.regs.bitbuf) x) : Safe P Q x :=
  fun s hs => by
  cases e : x s with
  | ok a t => have := keeps_ok h e; exact hP s t this.1 this.2 hs
  | error c t => have := keeps_error h e; exact hPQ t (hP s t this.1 this.2 hs)

/-- The bit buffer is as before. -/
def SameBits (s t : State) : Prop := t.regs.bitcnt = s.regs.bitcnt ∧ t.regs.bitbuf = s.regs.bitbuf

theorem sameBits_refl (s : State) : SameBits s s := ⟨rfl, rfl⟩

theorem sameBits_trans (s t u : State) (h : SameBits s t) (h' : SameBits t u) : SameBits s u :=
  ⟨h'.1.trans h.1, h'.2.trans h.2⟩

theorem sameBits_setSample (s : State) (b : Buffer) (r c ch : Nat) (v : Byte) : SameBits s (s.setSample b r c ch v) := by
  cases b <;> exact ⟨rfl, rfl⟩

theorem sameBits_writeSample (b : Buffer) (r c ch : Nat) (v : Byte) : Keeps SameBits (writeSample b r c ch v) :=
  fun s => by
  show SameBits s (s.setSample b r c ch v)
  exact sameBits_setSample s b r c ch v

theorem sameBits_readSample (b : Buffer) (r c ch : Nat) : Keeps SameBits (readSample b r c ch) := fun s => by
  obtain ⟨v, n, e, -⟩ := readSample_cases b r c ch s
  rw [e]; exact ⟨rfl, rfl⟩

theorem sameBits_neighbour (b : Bool) (r c ch : Nat) : Keeps SameBits (neighbour b r c ch) := by
  cases b
  · exact keeps_pure sameBits_refl _
  · exact keeps_bind sameBits_trans (sameBits_readSample _ _ _ _) (fun _ => keeps_pure sameBits_refl _)

theorem sameBits_predict (r c ch : Nat) : Keeps SameBits (predict r c ch) :=
  keeps_bind sameBits_trans (sameBits_neighbour _ _ _ _) (fun _ => keeps_bind sameBits_trans (sameBits_neighbour _ _ _ _)
    (fun _ => keeps_bind sameBits_trans (sameBits_neighbour _ _ _ _) (fun _ => keeps_pure sameBits_refl _)))

theorem sameBits_orInvalidState (x : Option Int) : Keeps SameBits (orInvalidState x) := by
  cases x
  · exact keeps_raise sameBits_refl _
  · exact keeps_pure sameBits_refl _

theorem sameBits_qLevel (ch : Nat) (v : Int) : Keeps SameBits (qLevel ch v) :=
  keeps_bind sameBits_trans (keeps_getRegs sameBits_refl) (fun _ => sameBits_orInvalidState _)

theorem sameBits_qValue (ch : Nat) (v : Int) : Keeps SameBits (qValue ch v) :=
  keeps_bind sameBits_trans (keeps_getRegs sameBits_refl) (fun _ => sameBits_orInvalidState _)

theorem sameBits_blockCost (g : Regs) (r0 c0 r1 c1 : Nat) : Keeps SameBits (blockCost g r0 c0 r1 c1) :=
  keeps_foldFrom sameBits_refl sameBits_trans (fun _ _ => keeps_foldFrom sameBits_refl sameBits_trans (fun _ _ =>
    keeps_foldFrom sameBits_refl sameBits_trans (fun _ _ => keeps_bind sameBits_trans (sameBits_readSample _ _ _ _)
      (fun _ => keeps_bind sameBits_trans (sameBits_readSample _ _ _ _) (fun _ => keeps_pure sameBits_refl _)))
      _ _ _) _ _ _) _ _ _

theorem sameBits_scanWindow (g : Regs) (r0 c0 : Nat) : Keeps SameBits (scanWindow g r0 c0) :=
  keeps_foldFrom sameBits_refl sameBits_trans (fun _ _ => keeps_foldFrom sameBits_refl sameBits_trans (fun _ _ =>
    keeps_bind sameBits_trans (sameBits_blockCost _ _ _ _ _) (fun _ => keeps_pure sameBits_refl _)) _ _ _) _ _ _

theorem sameBits_matchSearch (g : Regs) (r0 c0 : Nat) : Keeps SameBits (matchSearch g r0 c0) := by
  refine keeps_bind sameBits_trans (sameBits_blockCost _ _ _ _ _) (fun k => ?_)
  split
  · exact keeps_pure sameBits_refl _
  · exact keeps_bind sameBits_trans (sameBits_scanWindow _ _ _) (fun _ => keeps_pure sameBits_refl _)

theorem sameBits_copyCurToRef (i : Word) : Keeps SameBits (copyCurToRef i) :=
  keeps_bind sameBits_trans (keeps_getRegs sameBits_refl) (fun _ => keeps_bind sameBits_trans
    (keeps_forFrom sameBits_refl sameBits_trans (fun _ => keeps_forFrom sameBits_refl sameBits_trans (fun _ =>
      keeps_forFrom sameBits_refl sameBits_trans (fun _ => keeps_bind sameBits_trans (sameBits_readSample _ _ _ _)
        (fun _ => sameBits_writeSample _ _ _ _ _)) _ _) _ _) _ _)
    (fun _ _ => ⟨rfl, rfl⟩))

/-! ### Writing -/

/-- There is room for a bit. -/
def Room (s : State) : Prop := bufferHolds s.regs 7 = true

/-- The buffer is in its range. -/
def InRange (s : State) : Prop := bufferHolds s.regs 8 = true

theorem room_inRange (s : State) (h : Room s) : InRange s := bufferHolds_mono (by omega) h

theorem room_same (s t : State) (h1 : t.regs.bitcnt = s.regs.bitcnt) (h2 : t.regs.bitbuf = s.regs.bitbuf) (h : Room s) :
    Room t := by
  unfold Room bufferHolds at *; rw [h1, h2]; exact h

theorem inRange_same (s t : State) (h1 : t.regs.bitcnt = s.regs.bitcnt) (h2 : t.regs.bitbuf = s.regs.bitbuf)
    (h : InRange s) : InRange t := by
  unfold InRange bufferHolds at *; rw [h1, h2]; exact h

theorem safe_write {x : Action α} (h : Keeps SameBits x) : Safe Room InRange x :=
  safe_of_keeps room_inRange room_same h

theorem safe_read {x : Action α} (h : Keeps SameBits x) : Safe InRange InRange x :=
  safe_of_keeps (fun _ h => h) inRange_same h

/-- `PutBit` with room for a bit leaves room for a bit, or raises with a buffer in its range. -/
theorem safe_putBit (b : Bool) : Safe Room InRange (putBit b) := fun s hs => by
  obtain ⟨hc, hz⟩ := bufferHolds_iff.mp hs
  have hbuf : s.regs.bitbuf.toNat < 256 := s.regs.bitbuf.isLt
  have key := (fill_bit (by omega) hbuf b hz).2
  simp only [BitVec.ofNat_toNat, BitVec.setWidth_eq] at key
  have hadd : (s.regs.bitcnt + 1#4).toNat = s.regs.bitcnt.toNat + 1 := by
    simp [BitVec.toNat_add]; omega
  unfold putBit
  rw [bind_getRegs_apply, bind_modifyRegs_apply]
  by_cases h8 : s.regs.bitcnt + 1#4 = 8#4
  · rw [decide_eq_true h8, onlyIf_true]
    have h7 : s.regs.bitcnt.toNat = 7 := by
      have := congrArg BitVec.toNat h8
      rw [hadd] at this; simp at this; omega
    cases e : sinkPut (setBitTo s.regs.bitbuf (7 - s.regs.bitcnt.toNat) b)
        { s with regs := { s.regs with
          bitbuf := setBitTo s.regs.bitbuf (7 - s.regs.bitcnt.toNat) b, bitcnt := s.regs.bitcnt + 1#4 } } with
    | ok a t =>
      rw [bind_of_ok e]
      show bufferHolds _ 7 = true
      exact bufferHolds_iff.mpr ⟨by simp, by simp⟩
    | error c t =>
      rw [bind_of_error e]
      show bufferHolds t.regs 8 = true
      have ht : t.regs = { s.regs with
          bitbuf := setBitTo s.regs.bitbuf (7 - s.regs.bitcnt.toNat) b, bitcnt := s.regs.bitcnt + 1#4 } := by
        unfold sinkPut at e
        split at e <;> cases e
        rfl
      rw [ht]
      refine bufferHolds_iff.mpr ⟨?_, ?_⟩
      · show (s.regs.bitcnt + 1#4).toNat ≤ 8
        omega
      · show _ % 2 ^ (8 - (s.regs.bitcnt + 1#4).toNat) = 0
        rw [hadd]; exact key
  · rw [decide_eq_false h8, onlyIf_false]
    show bufferHolds _ 7 = true
    refine bufferHolds_iff.mpr ⟨?_, ?_⟩
    · show (s.regs.bitcnt + 1#4).toNat ≤ 7
      rcases Nat.lt_or_ge s.regs.bitcnt.toNat 7 with h | h
      · omega
      · exact absurd (BitVec.eq_of_toNat_eq (by rw [hadd]; simp; omega)) h8
    · show _ % 2 ^ (8 - (s.regs.bitcnt + 1#4).toNat) = 0
      rw [hadd]; exact key

theorem safe_putBits (v : Nat) : ∀ n, Safe Room InRange (putBits v n)
  | 0 => fun _ hs => hs
  | n + 1 => safe_bind (safe_putBit _) (fun _ => safe_putBits v n)

theorem safe_putOnes : ∀ q, Safe Room InRange (putOnes q)
  | 0 => fun _ hs => hs
  | q + 1 => safe_bind (safe_putBit _) (fun _ => safe_putOnes q)

theorem safe_golombEncode (n : Int) : Safe Room InRange (golombEncode n) := by
  refine safe_bind (safe_write (keeps_getRegs sameBits_refl)) (fun g =>
    safe_bind (safe_write (keeps_require sameBits_refl _ _)) (fun _ => ?_))
  refine safe_bind (safe_putOnes _) (fun _ => safe_bind (safe_putBit _) (fun _ => ?_))
  dsimp only
  split
  · exact safe_bind (safe_putBits _ _) (fun _ => safe_putBit _)
  · exact safe_bind (safe_putBits _ _) (fun _ => safe_putBit _)

theorem safe_flushPair : Safe Room InRange flushPair :=
  safe_bind (safe_write (keeps_getRegs sameBits_refl)) (fun _ => safe_bind (safe_golombEncode _) (fun _ =>
    safe_bind (safe_golombEncode _) (fun _ => safe_write (fun _ => ⟨rfl, rfl⟩))))

theorem safe_putHeader (g : Regs) : Safe Room InRange (putHeader g) :=
  safe_bind (safe_putBits _ _) (fun _ => safe_bind (safe_putBits _ _) (fun _ => safe_bind (safe_putBits _ _) (fun _ =>
    safe_bind (safe_putBits _ _) (fun _ => safe_bind (safe_putBits _ _) (fun _ => safe_bind (safe_putBits _ _) (fun _ =>
      safe_bind (safe_onlyIf _ (safe_bind (safe_putBits _ _) (fun _ => safe_bind (safe_putBits _ _) (fun _ =>
        safe_putBits _ _)))) (fun _ => safe_onlyIf _ (safe_bind (safe_putBits _ _) (fun _ =>
          safe_bind (safe_putBits _ _) (fun _ => safe_putBits _ _))))))))))

theorem safe_encodeResidual (l : Bool) (r c ch : Nat) (p : Int) : Safe Room InRange (encodeResidual l r c ch p) := by
  refine safe_bind (safe_write (sameBits_readSample _ _ _ _)) (fun x => ?_)
  cases l
  · exact safe_golombEncode _
  · exact safe_bind (safe_write (sameBits_qLevel _ _)) (fun _ => safe_bind (safe_golombEncode _) (fun _ =>
      safe_bind (safe_write (sameBits_qValue _ _)) (fun _ => safe_write (sameBits_writeSample _ _ _ _ _))))

theorem safe_encodeIntra : Safe Room InRange encodeIntra :=
  safe_bind (safe_write (keeps_getRegs sameBits_refl)) (fun _ => safe_forFrom (fun _ => safe_forFrom (fun _ =>
    safe_forFrom (fun _ => safe_bind (safe_write (sameBits_predict _ _ _)) (fun _ => safe_encodeResidual _ _ _ _ _))
      _ _) _ _) _ _)

theorem safe_encodePred : Safe Room InRange encodePred :=
  safe_bind (safe_write (keeps_getRegs sameBits_refl)) (fun _ => safe_forFrom (fun _ => safe_forFrom (fun _ =>
    safe_bind (safe_write (sameBits_matchSearch _ _ _)) (fun _ => safe_bind (safe_golombEncode _) (fun _ =>
      safe_bind (safe_golombEncode _) (fun _ => safe_forFrom (fun _ => safe_forFrom (fun _ => safe_forFrom (fun _ =>
        safe_bind (safe_write (sameBits_readSample _ _ _ _)) (fun _ => safe_encodeResidual _ _ _ _ _))
          _ _) _ _) _ _)))) _ _) _ _)

/-! ### Reading -/

/-- `GetBit` keeps the buffer in its range, also where it raises. -/
theorem safe_getBit : Safe InRange InRange getBit := fun s hs => by
  unfold getBit
  rw [bind_getRegs_apply]
  have take : ∀ t : State, InRange t → t.regs.bitcnt ≠ 0#4 → match takeBufferedBit t with
      | .ok _ u => InRange u
      | .error _ u => InRange u := fun t ht hne => by
    obtain ⟨b, u, e, hu⟩ := takeBufferedBit_consumes ht hne
    have k := hu.2.1
    cases e; exact k
  by_cases h0 : s.regs.bitcnt = 0#4
  · rw [decide_eq_true h0, onlyIf_true]
    cases e : sourceGet s with
    | ok b t =>
      have ht : t.regs = s.regs := by unfold sourceGet at e; split at e <;> cases e; rfl
      rw [bind_of_ok (a := ()) (t := { t with regs := { t.regs with bitbuf := b, bitcnt := 8#4 } }) (by
        rw [bind_of_ok e]; rfl)]
      exact take _ (bufferHolds_iff.mpr ⟨by simp, by simp [Nat.mod_one]⟩) (by simp)
    | error c t =>
      have ht : t.regs = s.regs := by unfold sourceGet at e; split at e <;> cases e <;> rfl
      rw [bind_of_error (bind_of_error e)]
      show bufferHolds t.regs 8 = true
      rw [ht]; exact hs
  · rw [decide_eq_false h0, onlyIf_false]
    exact take s hs h0

theorem safe_getBitsOnto : ∀ n v, Safe InRange InRange (getBitsOnto n v)
  | 0, _ => fun _ hs => hs
  | n + 1, _ => safe_bind safe_getBit (fun _ => safe_getBitsOnto n _)

theorem safe_getBits (n : Nat) : Safe InRange InRange (getBits n) := safe_getBitsOnto n 0

theorem safe_countOnes : ∀ fuel, Safe InRange InRange (countOnes fuel)
  | 0 => fun _ hs => hs
  | fuel + 1 => safe_bind safe_getBit (fun b => by
    cases b
    · exact safe_read (keeps_pure sameBits_refl _)
    · exact safe_bind (safe_countOnes fuel) (fun _ => safe_read (keeps_pure sameBits_refl _)))

theorem safe_golombDecode : Safe InRange InRange golombDecode := by
  refine safe_bind (safe_read (keeps_getRegs sameBits_refl)) (fun g =>
    safe_bind (safe_read (keeps_require sameBits_refl _ _)) (fun _ => ?_))
  refine safe_bind (fun s hs => safe_countOnes _ s hs) (fun _ => safe_bind (safe_bind (safe_getBits _) (fun v => ?_))
    (fun _ => safe_bind safe_getBit (fun _ => safe_bind (safe_read (keeps_require sameBits_refl _ _)) (fun _ =>
      safe_read (keeps_pure sameBits_refl _)))))
  split
  · exact safe_read (keeps_pure sameBits_refl _)
  · exact safe_bind safe_getBit (fun _ => safe_read (keeps_pure sameBits_refl _))

theorem safe_getField (b : Bool) (x n : Nat) : Safe InRange InRange (getField b x n) := by
  cases b
  · exact safe_read (keeps_pure sameBits_refl _)
  · exact safe_getBits _

theorem safe_getHeader (g : Regs) : Safe InRange InRange (getHeader g) :=
  safe_bind (safe_getBits _) (fun _ => safe_bind (safe_getBits _) (fun _ => safe_bind (safe_getBits _) (fun _ =>
    safe_bind (safe_getBits _) (fun _ => safe_bind (safe_getBits _) (fun _ => safe_bind (safe_getBits _) (fun _ =>
      safe_bind (safe_getField _ _ _) (fun _ => safe_bind (safe_getField _ _ _) (fun _ => safe_bind (safe_getField _ _ _)
        (fun _ => safe_bind (safe_getField _ _ _) (fun _ => safe_bind (safe_getField _ _ _) (fun _ =>
          safe_bind (safe_getField _ _ _) (fun _ => safe_read (keeps_pure sameBits_refl _)))))))))))))

theorem sameBits_storeResidual (l : Bool) (r c ch : Nat) (p x : Int) : Keeps SameBits (storeResidual l r c ch p x) := by
  cases l
  · exact sameBits_writeSample _ _ _ _ _
  · exact keeps_bind sameBits_trans (sameBits_qValue _ _) (fun _ => sameBits_writeSample _ _ _ _ _)

theorem safe_decodeIntra : Safe InRange InRange decodeIntra :=
  safe_bind (safe_read (keeps_getRegs sameBits_refl)) (fun _ => safe_forFrom (fun _ => safe_forFrom (fun _ =>
    safe_forFrom (fun _ => safe_bind (safe_read (sameBits_predict _ _ _)) (fun _ => safe_bind safe_golombDecode (fun _ =>
      safe_read (sameBits_storeResidual _ _ _ _ _ _)))) _ _) _ _) _ _)

theorem safe_decodePred : Safe InRange InRange decodePred :=
  safe_bind (safe_read (keeps_getRegs sameBits_refl)) (fun _ => safe_forFrom (fun _ => safe_forFrom (fun _ =>
    safe_bind safe_golombDecode (fun _ => safe_bind safe_golombDecode (fun _ =>
      safe_bind (safe_read (keeps_require sameBits_refl _ _)) (fun _ => safe_forFrom (fun _ => safe_forFrom (fun _ =>
        safe_forFrom (fun _ => safe_bind safe_golombDecode (fun _ => safe_bind (safe_read (sameBits_readSample _ _ _ _))
          (fun _ => safe_read (sameBits_storeResidual _ _ _ _ _ _)))) _ _) _ _) _ _)))) _ _) _ _)

/-- The coding of a frame around its two procedures. -/
theorem safe_codeFrame {intra predicted : Action Unit} (hPQ : ∀ s, P s → Q s)
    (hP : ∀ s t : State, t.regs.bitcnt = s.regs.bitcnt → t.regs.bitbuf = s.regs.bitbuf → P s → P t)
    (hi : Safe P Q intra) (hp : Safe P Q predicted) : Safe P Q (codeFrame intra predicted) := by
  have k : ∀ {γ : Type} {x : Action γ}, Keeps SameBits x → Safe P Q x := fun h => safe_of_keeps hPQ hP h
  refine safe_bind (k (keeps_getRegs sameBits_refl)) (fun g => safe_bind ?_ (fun _ =>
    safe_bind (k (fun _ => ⟨rfl, rfl⟩)) (fun _ => k (keeps_pure sameBits_refl _))))
  unfold typedFrame
  split
  · exact safe_bind hi (fun _ => safe_bind (safe_onlyIf _ (k (sameBits_copyCurToRef _))) (fun _ =>
      k (keeps_pure sameBits_refl _)))
  · exact safe_bind hp (fun _ => k (keeps_pure sameBits_refl _))

end Sys2Proof.Machine
end

