-- ==== Sys2Proof/Laws/Loops.lean ====
section
/-! SUPPORT. Loops of the pseudocode (00_scope.md R18): an invariant that each round advances holds at the end. -/

namespace Sys2Proof.Machine

variable {α : Type}

/-- A loop whose every round completes and advances an invariant completes with the invariant at its end. -/
theorem foldFrom_invariant {f : Nat → α → Action α} (P : Nat → α → State → Prop) :
    ∀ (n i : Nat) (a : α) (s : State),
      (∀ j a s, i ≤ j → j < i + n → P j a s → ∃ b t, f j a s = .ok b t ∧ P (j + 1) b t) → P i a s →
      ∃ b t, foldFrom n i f a s = .ok b t ∧ P (i + n) b t
  | 0, i, a, s, _, h => ⟨a, s, rfl, h⟩
  | n + 1, i, a, s, hf, h => by
    obtain ⟨b, t, e, hb⟩ := hf i a s le_rfl (by omega) h
    obtain ⟨c, u, e', hc⟩ := foldFrom_invariant P n (i + 1) b t
      (fun j a s h1 h2 hp => hf j a s (by omega) (by omega) hp) hb
    refine ⟨c, u, ?_, by rw [show i + (n + 1) = i + 1 + n by omega]; exact hc⟩
    show (f i a >>= fun b => foldFrom n (i + 1) f b) s = _
    rw [bind_of_ok e]; exact e'

/-- The same for a loop that carries no value. -/
theorem forFrom_invariant {f : Nat → Action Unit} (P : Nat → State → Prop) (n i : Nat) (s : State)
    (hf : ∀ j s, i ≤ j → j < i + n → P j s → ∃ t, f j s = .ok () t ∧ P (j + 1) t) (h : P i s) :
    ∃ t, forFrom n i f s = .ok () t ∧ P (i + n) t := by
  obtain ⟨_, t, e, ht⟩ := foldFrom_invariant (f := fun i (_ : Unit) => f i) (fun j _ s => P j s) n i () s
    (fun j _ s h1 h2 hp => by
      obtain ⟨t, e, ht⟩ := hf j s h1 h2 hp
      exact ⟨(), t, e, ht⟩) h
  exact ⟨t, e, ht⟩

/-- The place of a sample in a raster of `width` columns and `chans` channels. -/
def rasterIndex (width chans r c ch : Nat) : Nat := (r * width + c) * chans + ch

/-- Three nested loops over a raster: an invariant counted by the place in the raster. -/
theorem raster_invariant {f : Nat → Nat → Nat → Action Unit} (P : Nat → State → Prop) (height width chans : Nat)
    (s : State)
    (hf : ∀ r c ch s, r < height → c < width → ch < chans → P (rasterIndex width chans r c ch) s →
      ∃ t, f r c ch s = .ok () t ∧ P (rasterIndex width chans r c ch + 1) t)
    (h : P 0 s) :
    ∃ t, forFrom height 0 (fun r => forFrom width 0 (fun c => forFrom chans 0 (fun ch => f r c ch))) s = .ok () t ∧
      P (height * width * chans) t := by
  have e : height * width * chans = (fun r => r * width * chans) (0 + height) := by simp
  rw [e]
  refine forFrom_invariant (fun r s => P (r * width * chans) s) height 0 s (fun r s _ hr hp => ?_) (by simpa using h)
  have e1 : (r + 1) * width * chans = (fun c => (r * width + c) * chans) (0 + width) := by
    simp only [Nat.zero_add, Nat.add_mul, Nat.one_mul]
  rw [e1]
  refine forFrom_invariant (fun c s => P ((r * width + c) * chans) s) width 0 s (fun c s _ hc hq => ?_) (by simpa using hp)
  have e2 : (r * width + (c + 1)) * chans = (fun ch => (r * width + c) * chans + ch) (0 + chans) := by
    simp only [Nat.zero_add]; rw [← Nat.add_assoc, Nat.add_mul _ 1, Nat.one_mul]
  rw [e2]
  exact forFrom_invariant (fun ch s => P ((r * width + c) * chans + ch) s) chans 0 s
    (fun ch s _ hch hk => hf r c ch s (by omega) (by omega) (by omega) hk) (by simpa using hq)

/-- Places in a raster tell samples apart, in raster order. -/
theorem rasterIndex_lt_iff {width chans r c ch r' c' ch' : Nat} (hc : c < width) (hch : ch < chans) (hc' : c' < width)
    (hch' : ch' < chans) :
    rasterIndex width chans r c ch < rasterIndex width chans r' c' ch' ↔
      r < r' ∨ (r = r' ∧ (c < c' ∨ (c = c' ∧ ch < ch'))) := by
  unfold rasterIndex
  constructor
  · intro h
    rcases Nat.lt_trichotomy r r' with h1 | h1 | h1
    · exact .inl h1
    · subst h1
      refine .inr ⟨rfl, ?_⟩
      rcases Nat.lt_trichotomy c c' with h2 | h2 | h2
      · exact .inl h2
      · subst h2; exact .inr ⟨rfl, by omega⟩
      · exfalso
        have : (r * width + c' + 1) * chans ≤ (r * width + c) * chans := Nat.mul_le_mul_right _ (by omega)
        rw [Nat.add_mul _ 1] at this; omega
    · exfalso
      have h2 : (r' + 1) * width ≤ r * width := Nat.mul_le_mul_right _ h1
      have : (r' * width + c' + 1) * chans ≤ (r * width + c) * chans := Nat.mul_le_mul_right _ (by
        rw [Nat.add_mul] at h2; omega)
      rw [Nat.add_mul _ 1] at this; omega
  · rintro (h1 | ⟨rfl, h1 | ⟨rfl, h1⟩⟩)
    · have h2 : (r + 1) * width ≤ r' * width := Nat.mul_le_mul_right _ h1
      have : (r * width + c + 1) * chans ≤ (r' * width + c') * chans := Nat.mul_le_mul_right _ (by
        rw [Nat.add_mul] at h2; omega)
      rw [Nat.add_mul _ 1] at this; omega
    · have : (r * width + c + 1) * chans ≤ (r * width + c') * chans := Nat.mul_le_mul_right _ (by omega)
      rw [Nat.add_mul _ 1] at this; omega
    · omega

/-- A place in a raster of `height` rows is below its size. -/
theorem rasterIndex_lt {height width chans r c ch : Nat} (hr : r < height) (hc : c < width) (hch : ch < chans) :
    rasterIndex width chans r c ch < height * width * chans := by
  unfold rasterIndex
  have h2 : (r + 1) * width ≤ height * width := Nat.mul_le_mul_right _ hr
  have : (r * width + c + 1) * chans ≤ height * width * chans := Nat.mul_le_mul_right _ (by
    rw [Nat.add_mul] at h2; omega)
  rw [Nat.add_mul _ 1] at this; omega

end Sys2Proof.Machine
end

