-- ==== Sys2Proof/Laws/Frames.lean ====
section
/-! SUPPORT. What the procedures over frames do, said once: the copy of CUR to REF, the intra prediction, the cost of a
candidate. Each completes in every state; on written samples its result is that of the views in Machine/View.lean. -/

namespace Sys2Proof.Machine

theorem inWindow_iff {g : Regs} {r c ch : Nat} :
    inWindow g r c ch = true ↔ r < g.height.toNat ∧ c < g.width.toNat ∧ ch < channels g := by
  simp [inWindow]

theorem channels_le (g : Regs) : channels g ≤ 3 := by
  unfold channels; split <;> omega

/-- Coordinates of a window stay below the bounds of the keys. -/
theorem inWindow_bounds {g : Regs} {r c ch : Nat} (h : inWindow g r c ch = true) : c < 2 ^ 32 ∧ ch < 2 ^ 8 := by
  have := inWindow_iff.mp h
  have h1 := g.width.isLt
  have h2 := channels_le g
  norm_num at *
  omega

/-- Writing one sample leaves every other one of the bounded coordinates as it was. -/
theorem sample_setSample_ne (s : State) (b b' : Buffer) {r c ch r' c' ch' : Nat} (v : Byte) (hc : c < 2 ^ 32)
    (hch : ch < 2 ^ 8) (hc' : c' < 2 ^ 32) (hch' : ch' < 2 ^ 8) (h : (r', c', ch') ≠ (r, c, ch)) :
    (s.setSample b r c ch v).sample b' r' c' ch' = s.sample b' r' c' ch' := by
  by_cases hb : b' = b
  · subst hb
    refine sample_setSample_other s b' v (fun e => h ?_)
    obtain ⟨rfl, rfl, rfl⟩ := (sampleKey_inj hc' hc hch' hch).mp e
    rfl
  · exact sample_setSample_otherBuffer s hb _ _ _ _ _ _ v

/-! ### The copy of CUR to REF (46_container.md R235) -/

/-- Everything the copy can do: it completes, every sample of the window of REF holds a value after it, the one of CUR
where that was written, and nothing else changes but the reference registers and the counter of free values. -/
theorem copyCurToRef_spec (i : Word) (s : State) :
    ∃ t, copyCurToRef i s = .ok () t ∧
      t = { s with regs := { s.regs with refValid := true, refIdx := i }, ref := t.ref, draws := t.draws } ∧
      (∀ r c ch, inWindow s.regs r c ch = true →
        ∃ v, t.sample .ref r c ch = some v ∧ ∀ w, s.sample .cur r c ch = some w → v = w) ∧
      (∀ r c ch, c < 2 ^ 32 → ch < 2 ^ 8 → inWindow s.regs r c ch = false → t.sample .ref r c ch = s.sample .ref r c ch) := by
  let P : Nat → State → Prop := fun k x =>
    x = { s with ref := x.ref, draws := x.draws } ∧
    (∀ r c ch, inWindow s.regs r c ch = true → rasterIndex s.regs.width.toNat (channels s.regs) r c ch < k →
      ∃ v, x.sample .ref r c ch = some v ∧ ∀ w, s.sample .cur r c ch = some w → v = w) ∧
    (∀ r c ch, c < 2 ^ 32 → ch < 2 ^ 8 → inWindow s.regs r c ch = false → x.sample .ref r c ch = s.sample .ref r c ch)
  have step : ∀ r c ch x, r < s.regs.height.toNat → c < s.regs.width.toNat → ch < channels s.regs →
      P (rasterIndex s.regs.width.toNat (channels s.regs) r c ch) x →
      ∃ t, (readSample .cur r c ch >>= fun v => writeSample .ref r c ch v) x = .ok () t ∧
        P (rasterIndex s.regs.width.toNat (channels s.regs) r c ch + 1) t := by
    intro r c ch x hr hc hch ⟨hx, hin, hout⟩
    obtain ⟨v, n, e, hv⟩ := readSample_cases .cur r c ch x
    have hw : inWindow s.regs r c ch = true := inWindow_iff.mpr ⟨hr, hc, hch⟩
    have hb := inWindow_bounds hw
    have hcur : ∀ r c ch, x.sample .cur r c ch = s.sample .cur r c ch := fun r c ch => by rw [hx]; rfl
    refine ⟨_, (bind_of_ok e).trans (writeSample_apply ..), ?_, ?_, ?_⟩
    · show State.setSample { x with draws := n } .ref r c ch v = _
      rw [hx]; rfl
    · intro r' c' ch' hw' hlt
      have hb' := inWindow_bounds hw'
      by_cases heq : (r', c', ch') = (r, c, ch)
      · obtain ⟨rfl, rfl, rfl⟩ : r' = r ∧ c' = c ∧ ch' = ch := by simpa using heq
        exact ⟨v, sample_setSample_same _ _ _ _ _ _, fun w hws => (hv w (by rw [hcur]; exact hws)).1⟩
      · rw [sample_setSample_ne _ _ _ _ hb.1 hb.2 hb'.1 hb'.2 heq]
        refine hin r' c' ch' hw' ?_
        rcases Nat.lt_or_ge (rasterIndex s.regs.width.toNat (channels s.regs) r' c' ch')
          (rasterIndex s.regs.width.toNat (channels s.regs) r c ch) with h | h
        · exact h
        · exfalso
          have hw1 := inWindow_iff.mp hw'
          have hlt1 := (rasterIndex_lt_iff (r := r) (r' := r') hc hch hw1.2.1 hw1.2.2).not.mp (by omega)
          have hlt2 := (rasterIndex_lt_iff (r := r') (r' := r) hw1.2.1 hw1.2.2 hc hch).not.mp (by omega)
          apply heq
          simp only [Prod.mk.injEq]
          omega
    · intro r' c' ch' h1 h2 hw'
      rw [sample_setSample_ne _ _ _ _ hb.1 hb.2 h1 h2 (by
        rintro h
        obtain ⟨rfl, rfl, rfl⟩ : r' = r ∧ c' = c ∧ ch' = ch := by simpa using h
        rw [hw] at hw'; exact absurd hw' (by simp))]
      exact hout r' c' ch' h1 h2 hw'
  obtain ⟨t, e, ht, hin, hout⟩ := raster_invariant P s.regs.height.toNat s.regs.width.toNat (channels s.regs) s step
    ⟨rfl, fun r c ch _ h => absurd h (by omega), fun _ _ _ _ _ _ => rfl⟩
  refine ⟨{ t with regs := { t.regs with refValid := true, refIdx := i } }, ?_, ?_, ?_, ?_⟩
  · show (getRegs >>= _) s = _
    rw [bind_getRegs_apply]
    exact (bind_of_ok e).trans (modifyRegs_apply ..)
  · rw [ht]
  · intro r c ch hw
    have h1 := inWindow_iff.mp hw
    exact hin r c ch hw (rasterIndex_lt h1.1 h1.2.1 h1.2.2)
  · exact hout

/-! ### The intra prediction (44_intra.md R185) -/

theorem med_bounds {a b c : Int} (ha : 0 ≤ a ∧ a ≤ 255) (hb : 0 ≤ b ∧ b ≤ 255) : 0 ≤ med a b c ∧ med a b c ≤ 255 := by
  unfold med
  split
  · omega
  · split <;> omega

/-- A neighbour is read or is 0; only the counter of free values can change. -/
theorem neighbour_spec (inside : Bool) (r c ch : Nat) (s : State) :
    ∃ (v : Int) (n : Nat), neighbour inside r c ch s = .ok v { s with draws := n } ∧ 0 ≤ v ∧ v ≤ 255 ∧
      (inside = false → v = 0 ∧ n = s.draws) ∧
      (inside = true → (s.sample .cur r c ch).isSome = true →
        v = ((sampleByte s .cur r c ch).toNat : Int) ∧ n = s.draws) := by
  cases inside with
  | false => exact ⟨0, s.draws, rfl, le_rfl, by omega, fun _ => ⟨rfl, rfl⟩, fun h => absurd h (by simp)⟩
  | true =>
    obtain ⟨v, n, e, hv⟩ := readSample_cases .cur r c ch s
    have := v.isLt
    refine ⟨(v.toNat : Int), n, ?_, by omega, by omega, fun h => absurd h (by simp), fun _ hw => ?_⟩
    · show (readSample .cur r c ch >>= _) s = _
      rw [bind_of_ok e]; rfl
    · obtain ⟨w, hw⟩ := Option.isSome_iff_exists.mp hw
      refine ⟨?_, (hv w hw).2⟩
      rw [(hv w hw).1, sampleByte, hw]; rfl

/-- Everything the prediction can do: it completes with a number from 0 to 255, which is that of the frame in CUR where
the neighbours inside the frame are written, and only the counter of free values can change, where one is not. -/
theorem predict_spec (r c ch : Nat) (s : State) :
    ∃ (p : Int) (n : Nat), predict r c ch s = .ok p { s with draws := n } ∧ 0 ≤ p ∧ p ≤ 255 ∧
      ((0 < c → (s.sample .cur r (c - 1) ch).isSome = true) → (0 < r → (s.sample .cur (r - 1) c ch).isSome = true) →
        (0 < r → 0 < c → (s.sample .cur (r - 1) (c - 1) ch).isSome = true) →
        p = framePrediction (sampleByte s .cur) r c ch ∧ n = s.draws) := by
  obtain ⟨a, n1, e1, a0, a1, az, av⟩ := neighbour_spec (decide (0 < c)) r (c - 1) ch s
  obtain ⟨b, n2, e2, b0, b1, bz, bv⟩ := neighbour_spec (decide (0 < r)) (r - 1) c ch { s with draws := n1 }
  obtain ⟨d, n3, e3, -, -, dz, dv⟩ :=
    neighbour_spec (decide (0 < r) && decide (0 < c)) (r - 1) (c - 1) ch { s with draws := n2 }
  refine ⟨med a b d, n3, ?_, (med_bounds ⟨a0, a1⟩ ⟨b0, b1⟩).1, (med_bounds ⟨a0, a1⟩ ⟨b0, b1⟩).2, ?_⟩
  · show (neighbour _ _ _ _ >>= _) s = _
    rw [bind_of_ok e1, bind_of_ok e2, bind_of_ok e3]; rfl
  · intro ha hb hd
    have ea : (a = if 0 < c then ((sampleByte s .cur r (c - 1) ch).toNat : Int) else 0) ∧ n1 = s.draws := by
      by_cases h : 0 < c
      · rw [if_pos h]; exact av (by simp [h]) (ha h)
      · rw [if_neg h]; exact az (by simp [h])
    have eb : (b = if 0 < r then ((sampleByte s .cur (r - 1) c ch).toNat : Int) else 0) ∧ n2 = n1 := by
      by_cases h : 0 < r
      · rw [if_pos h]; exact bv (by simp [h]) (hb h)
      · rw [if_neg h]; exact bz (by simp [h])
    have ed : (d = if 0 < r ∧ 0 < c then ((sampleByte s .cur (r - 1) (c - 1) ch).toNat : Int) else 0) ∧ n3 = n2 := by
      by_cases h : 0 < r ∧ 0 < c
      · rw [if_pos h]; exact dv (by simp [h]) (hd h.1 h.2)
      · rw [if_neg h]; exact dz (by by_cases h1 : 0 < r <;> simp_all)
    exact ⟨by rw [ea.1, eb.1, ed.1]; rfl, by rw [ed.2, eb.2, ea.2]⟩

end Sys2Proof.Machine
end

