-- ==== Sys2Proof/Laws/Golomb.lean ====
section
/-! SUPPORT. The Golomb procedures on bit lists: `golombPut` appends the codeword, `golombGet` reads any codeword back. -/

namespace Sys2Proof.Machine

/-! ### The parameters k and u (41_golomb.md R140) -/

theorem ilog2Upto_spec : ∀ (fuel v : Nat), 1 ≤ v → v ≤ fuel →
    2 ^ ilog2Upto fuel v ≤ v ∧ v < 2 ^ (ilog2Upto fuel v + 1)
  | 0, v, h, hf => by omega
  | fuel + 1, v, h, hf => by
    unfold ilog2Upto
    split
    · have : v = 1 := by omega
      subst this; simp
    · have ih := ilog2Upto_spec fuel (v / 2) (by omega) (by omega)
      rw [Nat.add_comm 1]
      rw [pow_succ, pow_succ]
      omega

/-- 00_scope.md R16: `ilog2` is the position of the most significant one bit. -/
theorem golombK_spec {m : Nat} (h : 1 ≤ m) : 2 ^ golombK m ≤ m ∧ m < 2 ^ (golombK m + 1) :=
  ilog2Upto_spec m m h le_rfl

/-- 41_golomb.md R140: 1 <= u <= 2^k. -/
theorem golombU_bounds {m : Nat} (h : 1 ≤ m) : 1 ≤ golombU m ∧ golombU m ≤ 2 ^ golombK m := by
  have := golombK_spec h
  unfold golombU
  rw [pow_succ] at *
  omega

theorem bitsOf_succ (v : Nat) : ∀ n, bitsOf v (n + 1) = bitsOf (v / 2) n ++ [v.testBit 0]
  | 0 => rfl
  | n + 1 => by
    have ih := bitsOf_succ v n
    have e : v.testBit (n + 1) = (v / 2).testBit n := Nat.testBit_succ v n
    calc bitsOf v (n + 2) = v.testBit (n + 1) :: bitsOf v (n + 1) := rfl
      _ = bitsOf (v / 2) (n + 1) ++ [v.testBit 0] := by rw [ih, e]; rfl

/-! ### Encoding (41_golomb.md R141) -/

/-- `golombPut` appends the codeword. -/
theorem golombPut_appends (m : Nat) (n : Int) {s : State} (hr : sinkReady s = true)
    (hb : bufferHolds s.regs 7 = true) : ∃ t, golombPut m n s = .ok () t ∧ AppendsBits s t (codeword m n) := by
  obtain ⟨t1, h1, a1⟩ := putOnes_appends (n.natAbs / m) hr hb
  have r1 := appendsBits_sinkReady a1 hr
  obtain ⟨t2, h2, a2⟩ := putBit_appends r1 a1.2.1 false
  have r2 := appendsBits_sinkReady a2 r1
  have h3 : ∃ t3, (if n.natAbs % m < golombU m then putBits (n.natAbs % m) (golombK m)
      else putBits (n.natAbs % m + golombU m) (golombK m + 1)) t2 = .ok () t3 ∧
      AppendsBits t2 t3 (remainderBits m (n.natAbs % m)) := by
    unfold remainderBits
    split
    · exact putBits_appends _ _ r2 a2.2.1
    · exact putBits_appends _ _ r2 a2.2.1
  obtain ⟨t3, h3, a3⟩ := h3
  have r3 := appendsBits_sinkReady a3 r2
  obtain ⟨t4, h4, a4⟩ := putBit_appends r3 a3.2.1 (decide (n < 0))
  refine ⟨t4, ?_, ?_⟩
  · unfold golombPut
    rw [bind_of_ok h1, bind_of_ok h2]
    split at h3 <;> rename_i hlt <;> simp only [hlt, if_true, if_false] <;> rw [bind_of_ok h3] <;> exact h4
  · have := appendsBits_trans (appendsBits_trans (appendsBits_trans a1 a2) a3) a4
    simpa [codeword, codewordParts] using this

/-- `GolombEncode` with a divisor set appends the codeword (41_golomb.md R141). -/
theorem golombEncode_appends (n : Int) {s : State} (hm : s.regs.m ≠ 0#8) (hr : sinkReady s = true)
    (hb : bufferHolds s.regs 7 = true) :
    ∃ t, golombEncode n s = .ok () t ∧ AppendsBits s t (codeword s.regs.m.toNat n) := by
  obtain ⟨t, ht, hst⟩ := golombPut_appends s.regs.m.toNat n hr hb
  refine ⟨t, ?_, hst⟩
  unfold golombEncode
  rw [bind_of_ok (getRegs_apply s)]
  simp only [ne_eq, hm, not_false_eq_true, decide_true]
  rw [bind_of_ok (require_true _ s)]; exact ht

/-- `GolombEncode` with the divisor unset raises InvalidState before any bit (41_golomb.md R141). -/
theorem golombEncode_unset (n : Int) {s : State} (hm : s.regs.m = 0#8) :
    golombEncode n s = .error .invalidState s := by
  unfold golombEncode
  rw [bind_of_ok (getRegs_apply s)]
  simp only [ne_eq, hm, not_true_eq_false, decide_false]
  exact bind_of_error (require_false _ s)

theorem appendsBits_m {s t : State} {bs : List Bool} (h : AppendsBits s t bs) : t.regs.m = s.regs.m := by
  obtain ⟨-, -, out, -, ht⟩ := h
  rw [ht]

/-- The flush of a pending run appends its pair, count first, and empties the run (42_runlength.md R160). -/
theorem flushPair_appends {s : State} (hm : s.regs.m ≠ 0#8) (hr : sinkReady s = true)
    (hb : bufferHolds s.regs 7 = true) :
    ∃ t, flushPair s = .ok () { t with regs := { t.regs with runCount := 0#32 } } ∧
      AppendsBits s t (codeword s.regs.m.toNat (s.regs.runCount.toNat : Int) ++
        codeword s.regs.m.toNat s.regs.lastValue.toInt) := by
  obtain ⟨t, h1, h2⟩ := golombEncode_appends (s.regs.runCount.toNat : Int) hm hr hb
  have e := appendsBits_m h2
  obtain ⟨u, k1, k2⟩ := golombEncode_appends (s := t) s.regs.lastValue.toInt (e ▸ hm) (appendsBits_sinkReady h2 hr) h2.2.1
  rw [e] at k2
  refine ⟨u, ?_, appendsBits_trans h2 k2⟩
  unfold flushPair
  rw [bind_getRegs_apply, bind_of_ok h1, bind_of_ok k1]
  rfl

/-! ### Decoding (41_golomb.md R142) -/

/-- The remainder is read back (41_golomb.md R142, R148). -/
theorem getRemainder_consumes {m r : Nat} (hm : 1 ≤ m) (hrm : r < m) {s : State} {rest : List Bool}
    (hb : bufferHolds s.regs 8 = true) (h : unreadBits s = remainderBits m r ++ rest) :
    ∃ t, getRemainder m s = .ok r t ∧ ConsumesBits s t (remainderBits m r) := by
  have hu := golombU_bounds hm
  have hk := golombK_spec hm
  unfold getRemainder
  by_cases hru : r < golombU m
  · simp only [remainderBits, hru, if_true] at h ⊢
    obtain ⟨t, ht, hst⟩ := getBits_consumes hb h
    rw [bitsOf_length, ofBits_bitsOf, Nat.mod_eq_of_lt (by omega)] at ht
    exact ⟨t, by rw [bind_of_ok ht]; simp [hru], hst⟩
  · simp only [remainderBits, hru, if_false] at h ⊢
    rw [bitsOf_succ] at h ⊢
    rw [List.append_assoc] at h
    obtain ⟨t, ht, hst⟩ := getBits_consumes hb h
    have hlt : (r + golombU m) / 2 < 2 ^ golombK m := by
      unfold golombU at *; rw [pow_succ] at *; omega
    rw [bitsOf_length, ofBits_bitsOf, Nat.mod_eq_of_lt hlt] at ht
    obtain ⟨u, hu', htu⟩ := getBit_consumes hst.2.1 (consumesBits_rest hst h)
    refine ⟨u, ?_, consumesBits_trans hst htu⟩
    have hge : ¬ (r + golombU m) / 2 < golombU m := by omega
    rw [bind_of_ok ht]
    simp only [hge, if_false]
    rw [bind_of_ok hu']
    have hbit : ((r + golombU m).testBit 0).toNat = (r + golombU m) % 2 := by
      have := Nat.toNat_testBit (r + golombU m) 0
      simpa using this
    have : 2 * ((r + golombU m) / 2) + ((r + golombU m).testBit 0).toNat - golombU m = r := by
      rw [hbit]; omega
    simp only [pure_apply, this]

/-- Any codeword is read back: its number if it fits 32 bits, else Overflow after every bit was read
(41_golomb.md R142). -/
theorem golombGet_consumes {m q r : Nat} {sign : Bool} (hm : 1 ≤ m) (hrm : r < m) {s : State} {rest : List Bool}
    (hb : bufferHolds s.regs 8 = true) (h : unreadBits s = codewordParts m q r sign ++ rest) :
    ∃ t, ConsumesBits s t (codewordParts m q r sign) ∧
      golombGet m s = if fits32 (codedNumber m q r sign) then .ok (codedNumber m q r sign) t else .error .overflow t := by
  have h' : unreadBits s = List.replicate q true ++ false :: (remainderBits m r ++ (sign :: rest)) := by
    simpa [codewordParts] using h
  obtain ⟨t1, h1, a1⟩ := getUnary_consumes hb h'
  have e1 : unreadBits t1 = remainderBits m r ++ (sign :: rest) := consumesBits_rest a1 (by simpa using h')
  obtain ⟨t2, h2, a2⟩ := getRemainder_consumes hm hrm a1.2.1 e1
  obtain ⟨t3, h3, a3⟩ := getBit_consumes a2.2.1 (consumesBits_rest a2 e1)
  refine ⟨t3, ?_, ?_⟩
  · have := consumesBits_trans (consumesBits_trans a1 a2) a3
    simpa [codewordParts] using this
  · unfold golombGet
    rw [bind_of_ok h1, bind_of_ok h2, bind_of_ok h3]
    show (require (fits32 (codedNumber m q r sign)) .overflow >>= fun _ => pure (codedNumber m q r sign)) t3 = _
    cases hf : fits32 (codedNumber m q r sign) with
    | true => simp only [if_true]; rw [bind_of_ok (require_true _ t3)]; rfl
    | false => simp only [Bool.false_eq_true, if_false]; exact bind_of_error (require_false _ t3)

/-- The parts of a number's codeword stand for the number (41_golomb.md R145). -/
theorem codedNumber_codeword (m : Nat) (n : Int) :
    codedNumber m (n.natAbs / m) (n.natAbs % m) (decide (n < 0)) = n := by
  have h : n.natAbs / m * m + n.natAbs % m = n.natAbs := Nat.div_add_mod' _ _
  unfold codedNumber
  rw [h]
  by_cases hn : n < 0
  · simp only [hn, decide_true, if_true]; omega
  · simp only [hn, decide_false, Bool.false_eq_true, if_false]; omega

/-- `GolombDecode` with a divisor set reads a number's codeword back (41_golomb.md R142, R149). -/
theorem golombDecode_consumes {n : Int} (hf : fits32 n = true) {s : State} {rest : List Bool} (hm : s.regs.m ≠ 0#8)
    (hb : bufferHolds s.regs 8 = true) (h : unreadBits s = codeword s.regs.m.toNat n ++ rest) :
    ∃ t, golombDecode s = .ok n t ∧ ConsumesBits s t (codeword s.regs.m.toNat n) := by
  have hm1 : 1 ≤ s.regs.m.toNat := by
    rcases Nat.eq_zero_or_pos s.regs.m.toNat with h0 | h0
    · exact absurd (BitVec.eq_of_toNat_eq (by simpa using h0)) hm
    · exact h0
  obtain ⟨t, hst, ht⟩ := golombGet_consumes hm1 (Nat.mod_lt _ hm1) hb h
  rw [codedNumber_codeword, hf] at ht
  refine ⟨t, ?_, hst⟩
  unfold golombDecode
  rw [bind_of_ok (getRegs_apply s)]
  simp only [ne_eq, hm, not_false_eq_true, decide_true]
  rw [bind_of_ok (require_true _ s)]; exact ht

/-- `GolombDecode` with the divisor unset raises InvalidState and takes no byte (41_golomb.md R142). -/
theorem golombDecode_unset {s : State} (hm : s.regs.m = 0#8) : golombDecode s = .error .invalidState s := by
  unfold golombDecode
  rw [bind_of_ok (getRegs_apply s)]
  simp only [ne_eq, hm, not_true_eq_false, decide_false]
  exact bind_of_error (require_false _ s)

theorem consumesBits_m {s t : State} {bs : List Bool} (h : ConsumesBits s t bs) : t.regs.m = s.regs.m := by
  rw [h.2.2]

/-- Every number that `GolombDecode` gives fits 32 bits (41_golomb.md R142). -/
theorem golombDecode_fits {s t : State} {n : Int} (h : golombDecode s = .ok n t) : fits32 n = true := by
  unfold golombDecode at h
  rw [bind_getRegs_apply, bind_require_apply] at h
  split at h
  · unfold golombGet at h
    obtain ⟨q, t1, -, h⟩ := bind_ok_iff.mp h
    obtain ⟨r, t2, -, h⟩ := bind_ok_iff.mp h
    obtain ⟨b, t3, -, h⟩ := bind_ok_iff.mp h
    have key : ∀ z : Int, (require (fits32 z) .overflow >>= fun _ => (pure z : Action Int)) t3 = .ok n t →
        fits32 n = true := by
      intro z hz
      rw [bind_require_apply] at hz
      split at hz
      · rename_i hf
        injection hz with hz _
        rw [← hz]; exact hf
      · cases hz
    exact key _ h
  · cases h

end Sys2Proof.Machine
end

