-- ==== Sys2Proof/Laws/Residuals.lean ====
section
/-! SUPPORT. One coded sample of a frame: what the loop bodies of 44_intra.md R188, R189 and 45_motion.md R207, R208 do,
said once for both frame types and for the lossless and the lossy variants. -/

namespace Sys2Proof.Machine

/-! ### The quantizer inside its bit depths (43_quantizer.md R170 to R173) -/

/-- A bit depth from 1 to 8 has a step of 1 or more. -/
theorem quantStep_pos : ∀ nb : Nat, nb ≠ 0 → nb ≤ 8 → 1 ≤ quantStep nb := by
  intro nb h0 h8
  have : nb < 9 := by omega
  interval_cases nb <;> first | exact absurd rfl h0 | decide

/-- Within its bit depths the quantizer has the level of R172 for every value, and no level is larger than its value. -/
theorem levelOf_spec {nb : Nat} (h : nb ≤ 8) (v : Int) : ∃ l, levelOf nb v = some l ∧ l.natAbs ≤ v.natAbs ∧
    l = if nb ≠ 0 then v.sign * ((v.natAbs + 256 / (2 ^ nb - 1) / 2) / (256 / (2 ^ nb - 1)) : Nat) else v := by
  unfold levelOf
  by_cases h0 : nb = 0
  · exact ⟨v, by simp [h0], le_rfl, by simp [h0]⟩
  · have hs := quantStep_pos nb h0 h
    have hle : (v.natAbs + quantStep nb / 2) / quantStep nb ≤ v.natAbs := by
      rcases Nat.eq_zero_or_pos v.natAbs with hv | hv
      · rw [hv, Nat.zero_add]
        exact le_of_eq (Nat.div_eq_of_lt (by omega))
      · rw [Nat.div_le_iff_le_mul_add_pred (by omega)]
        have : v.natAbs ≤ quantStep nb * v.natAbs := Nat.le_mul_of_pos_left _ hs
        rcases Nat.lt_or_ge 1 (quantStep nb) with h1 | h1
        · omega
        · have : quantStep nb = 1 := by omega
          rw [this]; omega
    have hs0 : quantStep nb ≠ 0 := by omega
    simp only [h0, hs0, if_false]
    refine ⟨_, rfl, ?_, ?_⟩
    · split
      · rw [Int.natAbs_neg, Int.natAbs_natCast]; exact hle
      · rw [Int.natAbs_natCast]; exact hle
    · rw [if_pos h0]
      change _ = v.sign * ((v.natAbs + quantStep nb / 2) / quantStep nb : Nat)
      rcases Int.lt_trichotomy v 0 with hv | rfl | hv
      · rw [if_pos hv, Int.sign_eq_neg_one_of_neg hv]; omega
      · have : quantStep nb / 2 / quantStep nb = 0 := Nat.div_eq_of_lt (by omega)
        simp [this]
      · rw [if_neg (by omega), Int.sign_eq_one_of_pos hv]; omega

/-- Within its bit depths the quantizer has a value for every level. -/
theorem valueOf_spec {nb : Nat} (h : nb ≤ 8) (l : Int) :
    valueOf nb l = some (if nb ≠ 0 then l * ((256 / (2 ^ nb - 1) : Nat) : Int) else l) := by
  unfold valueOf
  by_cases h0 : nb = 0
  · simp [h0]
  · have hs := quantStep_pos nb h0 h
    have hs0 : quantStep nb ≠ 0 := by omega
    simp only [h0, hs0, if_false, ne_eq, not_false_eq_true, if_true]
    rfl

/-- The level of a level's value is the level again (43_quantizer.md R177). -/
theorem levelOf_valueOf {nb : Nat} {v l x : Int} (h1 : levelOf nb v = some l) (h2 : valueOf nb l = some x) :
    levelOf nb x = some l := by
  unfold levelOf valueOf at *
  by_cases h0 : nb = 0
  · simp_all
  · simp only [h0, if_false] at *
    by_cases hs : quantStep nb = 0
    · simp [hs] at h1
    · have hp : 0 < quantStep nb := by omega
      simp only [hs, if_false, Option.some.injEq] at h1 h2 ⊢
      subst h2
      clear h1
      have habs : (l * (quantStep nb : Int)).natAbs = l.natAbs * quantStep nb := by simp [Int.natAbs_mul]
      rw [habs]
      have hd : (l.natAbs * quantStep nb + quantStep nb / 2) / quantStep nb = l.natAbs := by
        rw [Nat.mul_comm, Nat.mul_add_div hp, Nat.div_eq_of_lt (by omega)]; rfl
      rw [hd]
      have hpI : (0:Int) < (quantStep nb : Int) := by exact_mod_cast hp
      by_cases hl : l < 0
      · have : l * (quantStep nb : Int) < 0 := Int.mul_neg_of_neg_of_pos hl hpI
        rw [if_pos this]; omega
      · have : ¬ l * (quantStep nb : Int) < 0 := by
          have := Int.mul_nonneg (by omega : 0 ≤ l) hpI.le
          omega
        rw [if_neg this]; omega

/-- The bit depths that a session grants. -/
theorem numBits_le {g : Regs} (hc : CodingReady g) (hl : lossy g = true) (ch : Nat) : numBits g ch ≤ 8 := by
  have := hc.2.1 hl
  unfold numBits
  split
  · exact this.1
  · split
    · exact this.2.1
    · exact this.2.2

theorem clamp8_byte (v : Byte) : clamp8 (v.toNat : Int) = v := by
  have := v.isLt
  unfold clamp8
  rw [if_neg (by omega), if_neg (by omega)]
  simp

/-- In a lossless variant the difference itself is in the stream. -/
theorem transmitted_lossless {g : Regs} (hl : lossy g = false) (ch : Nat) (d : Int) : transmitted g ch d = d := by
  simp [transmitted, hl]

/-- A lossless reconstruction from a difference gives the sample back (44_intra.md R190, 45_motion.md R210). -/
theorem reconstruct_lossless {g : Regs} (hl : lossy g = false) (ch : Nat) (v : Byte) (p : Int) :
    reconstruct g ch p ((v.toNat : Int) - p) = v := by
  unfold reconstruct
  rw [hl]
  simp only [Bool.false_eq_true, false_and, if_false]
  rw [show p + ((v.toNat : Int) - p) = (v.toNat : Int) by omega]
  exact clamp8_byte v

/-! ### One sample -/

/-- Everything that coding a sample can do in a session: it completes; the codeword of the difference, or of its level
in a lossy variant, follows the bits; the reconstruction stands in CUR in a lossy variant and CUR is as before in a lossless one; nothing else changes but the
counter of free values, and that not where the sample is written. -/
theorem encodeResidual_spec {s : State} (hc : CodingReady s.regs) (hr : sinkReady s = true)
    (hb : bufferHolds s.regs 7 = true) (r c ch : Nat) (p : Int) :
    ∃ (v : Byte) (n : Nat) (l : Int) (t u : State), AppendsBits { s with draws := n } t (codeword s.regs.m.toNat l) ∧
      encodeResidual (lossy s.regs) r c ch p s = .ok () u ∧
      u = (if lossy s.regs then t.setSample .cur r c ch (reconstruct s.regs ch p l) else t) ∧
      (∀ w, s.sample .cur r c ch = some w → v = w ∧ n = s.draws) ∧
      l = transmitted s.regs ch ((v.toNat : Int) - p) ∧ l.natAbs ≤ ((v.toNat : Int) - p).natAbs := by
  obtain ⟨v, n, e, hv⟩ := readSample_cases .cur r c ch s
  cases hl : lossy s.regs with
  | false =>
    obtain ⟨t, e2, ht⟩ := golombEncode_appends (s := { s with draws := n }) ((v.toNat : Int) - p) hc.1 hr hb
    refine ⟨v, n, (v.toNat : Int) - p, t, t, ht, ?_, by simp, hv, (transmitted_lossless hl _ _).symm, le_rfl⟩
    unfold encodeResidual
    rw [bind_of_ok e]
    exact e2
  | true =>
    have hn := numBits_le hc hl ch
    obtain ⟨l, el, hle, hlv⟩ := levelOf_spec hn ((v.toNat : Int) - p)
    obtain ⟨t, e2, ht⟩ := golombEncode_appends (s := { s with draws := n }) l hc.1 hr hb
    have hregs : numBits t.regs ch = numBits s.regs ch := by
      obtain ⟨-, -, out, -, e⟩ := ht; rw [e]; rfl
    refine ⟨v, n, l, t, t.setSample .cur r c ch (reconstruct s.regs ch p l), ht, ?_, by simp, hv, ?_, hle⟩
    rotate_left
    · simpa [transmitted, hl] using hlv
    unfold encodeResidual
    rw [bind_of_ok e]
    simp only [if_true]
    have e1 : qLevel ch ((v.toNat : Int) - p) { s with draws := n } = .ok l { s with draws := n } := by
      unfold qLevel; rw [bind_getRegs_apply, el]; rfl
    have e3 : qValue ch l t = .ok (if numBits s.regs ch ≠ 0 then l * ((256 / (2 ^ numBits s.regs ch - 1) : Nat) : Int)
        else l) t := by
      unfold qValue; rw [bind_getRegs_apply, hregs, valueOf_spec hn]; rfl
    rw [bind_of_ok e1, bind_of_ok e2, bind_of_ok e3, writeSample_apply]
    simp [reconstruct, hl]

/-- Storing a decoded sample always completes in a session and writes the reconstruction. -/
theorem storeResidual_spec {s : State} (hc : CodingReady s.regs) (r c ch : Nat) (p l : Int) :
    storeResidual (lossy s.regs) r c ch p l s = .ok () (s.setSample .cur r c ch (reconstruct s.regs ch p l)) := by
  unfold storeResidual
  cases hl : lossy s.regs with
  | false =>
    simp only [Bool.false_eq_true, if_false, writeSample_apply, reconstruct, hl, false_and]
  | true =>
    have hn := numBits_le hc hl ch
    have e3 : qValue ch l s = .ok (if numBits s.regs ch ≠ 0 then l * ((256 / (2 ^ numBits s.regs ch - 1) : Nat) : Int)
        else l) s := by
      unfold qValue; rw [bind_getRegs_apply, valueOf_spec hn]; rfl
    simp only [if_true]
    rw [bind_of_ok e3, writeSample_apply]
    simp [reconstruct, hl]

end Sys2Proof.Machine
end

