-- ==== Sys2Proof/Laws/Coding.lean ====
section
/-! SUPPORT. A rectangle of samples coded or decoded in raster order, said once for the whole frame of 44_intra.md R188,
R189 and for one block of 45_motion.md R207, R208. The prediction is a parameter. -/

namespace Sys2Proof.Machine

/-! ### Bits written or read while CUR changes -/

/-- The state `x` is `s` after the bits `bs` were written, CUR and the counter of free values apart. -/
def Behind (s x : State) (bs : List Bool) : Prop :=
  AppendsBits s { x with cur := s.cur, draws := s.draws } bs

/-- The state `x` is `s` after the bits `bs` were read, CUR and the counter of free values apart. -/
def Taken (s x : State) (bs : List Bool) : Prop :=
  ConsumesBits s { x with cur := s.cur, draws := s.draws } bs

theorem appendsBits_other {s t : State} {bs : List Bool} (a : Memory) (n : Nat) (h : AppendsBits s t bs) :
    AppendsBits { s with cur := a, draws := n } { t with cur := a, draws := n } bs := by
  obtain ⟨w, b, out, ho, ht⟩ := h
  exact ⟨w, b, out, ho, congrArg (fun x : State => { x with cur := a, draws := n }) ht⟩

theorem consumesBits_other {s t : State} {bs : List Bool} (a : Memory) (n : Nat) (h : ConsumesBits s t bs) :
    ConsumesBits { s with cur := a, draws := n } { t with cur := a, draws := n } bs := by
  obtain ⟨w, b, ht⟩ := h
  exact ⟨w, b, congrArg (fun x : State => { x with cur := a, draws := n }) ht⟩

theorem behind_refl {s : State} (h : bufferHolds s.regs 7 = true) : Behind s s [] := appendsBits_refl h

theorem taken_refl {s : State} (h : bufferHolds s.regs 8 = true) : Taken s s [] := consumesBits_refl h

theorem behind_next {s x t : State} {bs cs : List Bool} {n : Nat} (h : Behind s x bs)
    (h' : AppendsBits { x with draws := n } t cs) (a : Memory) (d : Nat) :
    Behind s { t with cur := a, draws := d } (bs ++ cs) :=
  by
  have k := appendsBits_other s.cur s.draws h'
  exact appendsBits_trans h k

theorem taken_next {s x t : State} {bs cs : List Bool} {n : Nat} (h : Taken s x bs)
    (h' : ConsumesBits { x with draws := n } t cs) (a : Memory) (d : Nat) :
    Taken s { t with cur := a, draws := d } (bs ++ cs) :=
  by
  have k := consumesBits_other s.cur s.draws h'
  exact consumesBits_trans h k

theorem behind_trans {s x t : State} {bs cs : List Bool} (h : Behind s x bs) (h' : Behind x t cs) :
    Behind s t (bs ++ cs) :=
  by
  have k := appendsBits_other s.cur s.draws h'
  exact appendsBits_trans h k

theorem taken_trans {s x t : State} {bs cs : List Bool} (h : Taken s x bs) (h' : Taken x t cs) :
    Taken s t (bs ++ cs) :=
  by
  have k := consumesBits_other s.cur s.draws h'
  exact consumesBits_trans h k

/-- Everything that is as before. -/
theorem behind_state {s x : State} {bs : List Bool} (h : Behind s x bs) :
    x = { s with
      regs := { s.regs with bitcnt := x.regs.bitcnt, bitbuf := x.regs.bitbuf }
      env := { s.env with
        sinkOut := x.env.sinkOut
        sinkAnswers := s.env.sinkAnswers.drop (x.env.sinkOut.length - s.env.sinkOut.length) }
      cur := x.cur
      draws := x.draws } := by
  obtain ⟨-, -, out, ho, ht⟩ := h
  have e := congrArg (fun y : State => { y with cur := x.cur, draws := x.draws }) ht
  have ho' : x.env.sinkOut = s.env.sinkOut ++ out := ho
  have : x.env.sinkOut.length - s.env.sinkOut.length = out.length := by rw [ho']; simp
  rw [this]
  exact e

/-- Everything that is as before. -/
theorem taken_state {s x : State} {bs : List Bool} (h : Taken s x bs) :
    x = { s with
      regs := { s.regs with bitcnt := x.regs.bitcnt, bitbuf := x.regs.bitbuf }
      env := { s.env with source := x.env.source }
      cur := x.cur
      draws := x.draws } :=
  congrArg (fun y : State => { y with cur := x.cur, draws := x.draws }) h.2.2

theorem behind_regs {s x : State} {bs : List Bool} (h : Behind s x bs) :
    x.regs = { s.regs with bitcnt := x.regs.bitcnt, bitbuf := x.regs.bitbuf } := congrArg State.regs (behind_state h)

theorem taken_regs {s x : State} {bs : List Bool} (h : Taken s x bs) :
    x.regs = { s.regs with bitcnt := x.regs.bitcnt, bitbuf := x.regs.bitbuf } := congrArg State.regs (taken_state h)

theorem behind_ref {s x : State} {bs : List Bool} (h : Behind s x bs) : x.ref = s.ref := by
  have e := congrArg State.ref (behind_state h)
  exact e

theorem taken_ref {s x : State} {bs : List Bool} (h : Taken s x bs) : x.ref = s.ref := by
  have e := congrArg State.ref (taken_state h)
  exact e

theorem behind_ready {s x : State} {bs : List Bool} (h : Behind s x bs) (hr : sinkReady s = true) : sinkReady x = true := by
  have k : sinkReady { x with cur := s.cur, draws := s.draws } = true := appendsBits_sinkReady (s := s) h hr
  exact k

theorem behind_holds {s x : State} {bs : List Bool} (h : Behind s x bs) : bufferHolds x.regs 7 = true := h.2.1

theorem taken_holds {s x : State} {bs : List Bool} (h : Taken s x bs) : bufferHolds x.regs 8 = true := h.2.1

theorem behind_written {s x : State} {bs : List Bool} (h : Behind s x bs) : writtenBits x = writtenBits s ++ bs := h.1

theorem taken_unread {s x : State} {bs rest : List Bool} (h : Taken s x bs) (e : unreadBits s = bs ++ rest) :
    unreadBits x = rest := by
  have h1 : unreadBits s = bs ++ unreadBits x := h.1
  exact List.append_cancel_left (h1.symm.trans e)

theorem codewords_append (m : Nat) (ls ks : List Int) : codewords m (ls ++ ks) = codewords m ls ++ codewords m ks := by
  simp [codewords]

theorem codewords_cons (m : Nat) (l : Int) (ks : List Int) : codewords m (l :: ks) = codeword m l ++ codewords m ks := rfl

theorem codewords_singleton (m : Nat) (l : Int) : codewords m [l] = codeword m l := by simp [codewords]

/-! ### Rectangles -/

/-- The sample lies in the rectangle. -/
def InRect (r0 c0 height width chans r c ch : Nat) : Prop :=
  r0 ≤ r ∧ r < r0 + height ∧ c0 ≤ c ∧ c < c0 + width ∧ ch < chans

/-- The place `(i', j', ch')` of a rectangle comes before the place `(i, j, ch)`. -/
def Before (height width chans i j ch i' j' ch' : Nat) : Prop :=
  i' < height ∧ j' < width ∧ ch' < chans ∧ rasterIndex width chans i' j' ch' < rasterIndex width chans i j ch

/-- The prediction `F` for a place looks at the frame only in places that come before it. -/
def LooksBack (height width chans r0 c0 : Nat) (F : (Nat → Nat → Nat → Byte) → Nat → Nat → Nat → Int) : Prop :=
  ∀ i j ch g g', i < height → j < width → ch < chans →
    (∀ i' j' ch', Before height width chans i j ch i' j' ch' → g (r0 + i') (c0 + j') ch' = g' (r0 + i') (c0 + j') ch') →
    F g i j ch = F g' i j ch

/-- The same place of a raster is the same sample. -/
theorem rasterIndex_inj {width chans r c ch r' c' ch' : Nat} (hc : c < width) (hch : ch < chans) (hc' : c' < width)
    (hch' : ch' < chans) (h : rasterIndex width chans r c ch = rasterIndex width chans r' c' ch') :
    r = r' ∧ c = c' ∧ ch = ch' := by
  have h1 := (rasterIndex_lt_iff (r := r) (r' := r') hc hch hc' hch').not.mp (by omega)
  have h2 := (rasterIndex_lt_iff (r := r') (r' := r) hc' hch' hc hch).not.mp (by omega)
  omega

/-- Writing one sample of a rectangle. -/
theorem setSample_rect (s : State) {r0 c0 width i j ch i' j' ch' : Nat} (v : Byte) (hcol : c0 + width ≤ 2 ^ 32)
    (hj : j < width) (hch : ch < 3) (hj' : j' < width) (hch' : ch' < 3)
    (h : rasterIndex width 3 i' j' ch' ≠ rasterIndex width 3 i j ch) :
    (s.setSample .cur (r0 + i) (c0 + j) ch v).sample .cur (r0 + i') (c0 + j') ch' =
      s.sample .cur (r0 + i') (c0 + j') ch' := by
  refine sample_setSample_ne _ _ _ _ (by omega) (by omega) (by omega) (by omega) (fun e => h ?_)
  simp only [Prod.mk.injEq] at e
  obtain ⟨h1, h2, h3⟩ := e
  have e1 : i' = i := by omega
  have e2 : j' = j := by omega
  rw [e1, e2, h3]

/-- Everything that coding a rectangle can do in a session. It completes; the codewords of one number per sample follow
the bits, none beyond the range of a difference; CUR is as before outside the rectangle, and everywhere in a lossless
variant. Where the samples are written (`W`), the number of each is the difference of its value and the prediction on the
frame as it then stands, or the level of that in a lossy variant, and it becomes the reconstruction of its number. -/
theorem encodeRect_spec {s : State} (hc : CodingReady s.regs) (hr : sinkReady s = true)
    (hb : bufferHolds s.regs 7 = true) (r0 c0 height width : Nat) (hcol : c0 + width ≤ 2 ^ 32)
    (f : Nat → Nat → Nat → Action Unit) (F : (Nat → Nat → Nat → Byte) → Nat → Nat → Nat → Int) (W : Prop)
    (hW : W → ∀ i j ch, i < height → j < width → ch < channels s.regs →
      (s.sample .cur (r0 + i) (c0 + j) ch).isSome = true)
    (hf : ∀ i j ch x bs, i < height → j < width → ch < channels s.regs → Behind s x bs → ∃ (p : Int) (n : Nat),
      f i j ch x = encodeResidual (lossy s.regs) (r0 + i) (c0 + j) ch p { x with draws := n } ∧ 0 ≤ p ∧ p ≤ 255 ∧
      (W → (∀ i' j' ch', Before height width (channels s.regs) i j ch i' j' ch' →
        (x.sample .cur (r0 + i') (c0 + j') ch').isSome = true) → p = F (sampleByte x .cur) i j ch))
    (hF : LooksBack height width (channels s.regs) r0 c0 F) :
    ∃ t ls, forFrom height 0 (fun i => forFrom width 0 fun j => forFrom (channels s.regs) 0 fun ch => f i j ch) s =
        .ok () t ∧
      Behind s t (codewords s.regs.m.toNat ls) ∧ ls.length = height * width * channels s.regs ∧
      (∀ l ∈ ls, l.natAbs ≤ 255) ∧ (lossy s.regs = false → t.cur = s.cur) ∧
      (∀ r c ch, c < 2 ^ 32 → ch < 2 ^ 8 → ¬ InRect r0 c0 height width (channels s.regs) r c ch →
        t.sample .cur r c ch = s.sample .cur r c ch) ∧
      (W → ∀ i j ch l, i < height → j < width → ch < channels s.regs →
        ls[rasterIndex width (channels s.regs) i j ch]? = some l →
        t.sample .cur (r0 + i) (c0 + j) ch = some (reconstruct s.regs ch (F (sampleByte t .cur) i j ch) l) ∧
        l = transmitted s.regs ch (((sampleByte s .cur (r0 + i) (c0 + j) ch).toNat : Int) - F (sampleByte t .cur) i j ch)) := by
  have h3 := channels_le s.regs
  obtain ⟨t, e, ls, hB, hlen, hls, hcur, hout, -, hin⟩ := raster_invariant
    (f := f) (fun k x => ∃ ls, Behind s x (codewords s.regs.m.toNat ls) ∧ ls.length = k ∧
      (∀ l ∈ ls, l.natAbs ≤ 255) ∧ (lossy s.regs = false → x.cur = s.cur) ∧
      (∀ r c ch, c < 2 ^ 32 → ch < 2 ^ 8 → ¬ InRect r0 c0 height width (channels s.regs) r c ch →
        x.sample .cur r c ch = s.sample .cur r c ch) ∧
      (∀ i j ch, i < height → j < width → ch < channels s.regs → k ≤ rasterIndex width (channels s.regs) i j ch →
        x.sample .cur (r0 + i) (c0 + j) ch = s.sample .cur (r0 + i) (c0 + j) ch) ∧
      (W → ∀ i j ch l, i < height → j < width → ch < channels s.regs →
        ls[rasterIndex width (channels s.regs) i j ch]? = some l →
        x.sample .cur (r0 + i) (c0 + j) ch = some (reconstruct s.regs ch (F (sampleByte x .cur) i j ch) l) ∧
        l = transmitted s.regs ch (((sampleByte s .cur (r0 + i) (c0 + j) ch).toNat : Int) - F (sampleByte x .cur) i j ch)))
    height width (channels s.regs) s
    (fun i j ch x hi hj hch ⟨ls, hB, hlen, hls, hcur, hout, hnext, hin⟩ => by
      obtain ⟨p, n, ef, hp0, hp1, hp⟩ := hf i j ch x _ hi hj hch hB
      have hregs := behind_regs hB
      have hlossy : lossy x.regs = lossy s.regs := by rw [hregs]; rfl
      have hm : x.regs.m = s.regs.m := by rw [hregs]
      have hrec : reconstruct x.regs = reconstruct s.regs := by rw [hregs]; rfl
      have htra : transmitted x.regs = transmitted s.regs := by rw [hregs]; rfl
      obtain ⟨v, n', l, t, u, hA, eu, hu, hv, hl, hle⟩ := encodeResidual_spec (s := { x with draws := n })
        (by show CodingReady x.regs; rw [hregs]; exact hc) (behind_ready hB hr) (behind_holds hB) (r0 + i) (c0 + j) ch p
      simp only [hlossy, hrec, htra, hm] at hA eu hu hl
      have htcur : t.cur = x.cur := by obtain ⟨-, -, out, -, ht⟩ := hA; rw [ht]
      have hB' : Behind s u (codewords s.regs.m.toNat (ls ++ [l])) := by
        rw [codewords_append, codewords_singleton]
        have := behind_next (n := n') hB hA u.cur u.draws
        have e : u = { t with cur := u.cur, draws := u.draws } := by
          rw [hu]; split <;> rfl
        rw [e]; exact this
      have hts : ∀ r c k, t.sample .cur r c k = x.sample .cur r c k := fun r c k => by
        show t.cur.read _ = x.cur.read _; rw [htcur]
      -- the samples that are not the coded one
      have hother : ∀ r c k, c < 2 ^ 32 → k < 2 ^ 8 → (r, c, k) ≠ (r0 + i, c0 + j, ch) →
          u.sample .cur r c k = x.sample .cur r c k := fun r c k h1 h2 hne => by
        rw [hu]
        split
        · rw [sample_setSample_ne _ _ _ _ (by omega) (by omega) h1 h2 hne, hts]
        · exact hts _ _ _
      have hrect : ∀ i' j' ch', i' < height → j' < width → ch' < channels s.regs →
          rasterIndex width (channels s.regs) i' j' ch' ≠ rasterIndex width (channels s.regs) i j ch →
          u.sample .cur (r0 + i') (c0 + j') ch' = x.sample .cur (r0 + i') (c0 + j') ch' :=
        fun i' j' ch' h1 h2 h3 hne => hother _ _ _ (by omega) (by omega) (fun e => hne (by
          simp only [Prod.mk.injEq] at e
          obtain ⟨h1, h2, h3⟩ := e
          rw [show i' = i by omega, show j' = j by omega, h3]))
      have hlook : ∀ i' j' ch', i' < height → j' < width → ch' < channels s.regs →
          rasterIndex width (channels s.regs) i' j' ch' ≤ rasterIndex width (channels s.regs) i j ch →
          F (sampleByte x .cur) i' j' ch' = F (sampleByte u .cur) i' j' ch' :=
        fun i' j' ch' h1 h2 h3 hle => hF i' j' ch' _ _ h1 h2 h3 (fun a b d hb => by
          unfold sampleByte
          rw [hrect a b d hb.1 hb.2.1 hb.2.2.1 (by have := hb.2.2.2; omega)])
      refine ⟨u, ef.trans eu, ls ++ [l], hB', by simp [hlen], ?_, ?_, ?_, ?_, ?_⟩
      · intro l' hl'
        rcases List.mem_append.mp hl' with h | h
        · exact hls l' h
        · rw [List.mem_singleton] at h
          have := v.isLt
          subst h; omega
      · intro hL
        rw [hu, hL]
        simp only [Bool.false_eq_true, if_false]
        exact htcur.trans (hcur hL)
      · intro r c k h1 h2 hnot
        rw [hother r c k h1 h2 ?_, hout r c k h1 h2 hnot]
        rintro e
        simp only [Prod.mk.injEq] at e
        obtain ⟨rfl, rfl, rfl⟩ := e
        exact hnot ⟨by omega, by omega, by omega, by omega, hch⟩
      · intro i' j' ch' h1 h2 h3 hge
        rw [hrect i' j' ch' h1 h2 h3 (by omega), hnext i' j' ch' h1 h2 h3 (by omega)]
      · intro hw i' j' ch' l' h1 h2 h3 hl'
        rcases Nat.lt_trichotomy (rasterIndex width (channels s.regs) i' j' ch')
          (rasterIndex width (channels s.regs) i j ch) with hlt | heq | hgt
        · rw [List.getElem?_append_left (by omega)] at hl'
          obtain ⟨k1, k2⟩ := hin hw i' j' ch' l' h1 h2 h3 hl'
          rw [hrect i' j' ch' h1 h2 h3 (by omega), k1, ← hlook i' j' ch' h1 h2 h3 (by omega)]
          exact ⟨rfl, k2⟩
        · obtain ⟨rfl, rfl, rfl⟩ := rasterIndex_inj h2 h3 hj hch heq
          rw [List.getElem?_append_right (by omega), hlen, Nat.sub_self] at hl'
          simp only [List.getElem?_cons_zero, Option.some.injEq] at hl'
          subst hl'
          have hbefore : ∀ a b d, Before height width (channels s.regs) i' j' ch' a b d →
              (x.sample .cur (r0 + a) (c0 + b) d).isSome = true := fun a b d hbf => by
            have hidx : rasterIndex width (channels s.regs) a b d < ls.length := by rw [hlen]; exact hbf.2.2.2
            rw [(hin hw a b d _ hbf.1 hbf.2.1 hbf.2.2.1 (List.getElem?_eq_getElem hidx)).1]; rfl
          have hpF := hp hw hbefore
          obtain ⟨w, hw1⟩ := Option.isSome_iff_exists.mp (hW hw i' j' ch' h1 h2 h3)
          have hxw : x.sample .cur (r0 + i') (c0 + j') ch' = some w := by rw [hnext i' j' ch' h1 h2 h3 le_rfl, hw1]
          have hvw := (hv w hxw).1
          subst hvw
          constructor
          · rw [← hlook i' j' ch' h1 h2 h3 le_rfl, ← hpF, hu]
            cases hL : lossy s.regs with
            | true => simp only [if_true]; exact sample_setSample_same _ _ _ _ _ _
            | false =>
              simp only [Bool.false_eq_true, if_false]
              rw [hts, hxw, hl, transmitted_lossless hL, reconstruct_lossless hL]
          · rw [hl, ← hlook i' j' ch' h1 h2 h3 le_rfl, ← hpF]
            congr 3
            unfold sampleByte
            rw [hw1]; rfl
        · have : (ls ++ [l]).length ≤ rasterIndex width (channels s.regs) i' j' ch' := by simp [hlen]; omega
          rw [List.getElem?_eq_none this] at hl'
          cases hl')
    ⟨[], behind_refl hb, rfl, by simp, fun _ => rfl, fun _ _ _ _ _ _ => rfl, fun _ _ _ _ _ _ _ => rfl,
      fun _ i j ch l _ _ _ h => by simp at h⟩
  exact ⟨t, ls, e, hB, hlen, hls, hcur, hout, hin⟩

/-- Everything that decoding a rectangle can do in a session, when the codewords of one number per sample stand in the
stream: it completes and reads exactly them; CUR is as before outside the rectangle; each sample is written, and where
its prediction is known (`G`) it is the reconstruction of its number on the frame as it then stands. -/
theorem decodeRect_spec {s : State} (hc : CodingReady s.regs) (hb : bufferHolds s.regs 8 = true)
    (r0 c0 height width : Nat) (hcol : c0 + width ≤ 2 ^ 32) (ls : List Int) (rest : List Bool)
    (hlen : ls.length = height * width * channels s.regs)
    (hrest : unreadBits s = codewords s.regs.m.toNat ls ++ rest)
    (f : Nat → Nat → Nat → Action Unit) (F : (Nat → Nat → Nat → Byte) → Nat → Nat → Nat → Int)
    (G : Nat → Nat → Nat → Prop)
    (hf : ∀ i j ch x bs l more, i < height → j < width → ch < channels s.regs → Taken s x bs → l ∈ ls →
      unreadBits x = codeword s.regs.m.toNat l ++ more → ∃ (p : Int) (n : Nat) (t : State),
      ConsumesBits { x with draws := n } t (codeword s.regs.m.toNat l) ∧
      f i j ch x = storeResidual (lossy s.regs) (r0 + i) (c0 + j) ch p l t ∧
      (G i j ch → (∀ i' j' ch', Before height width (channels s.regs) i j ch i' j' ch' →
        (x.sample .cur (r0 + i') (c0 + j') ch').isSome = true) → p = F (sampleByte x .cur) i j ch))
    (hF : LooksBack height width (channels s.regs) r0 c0 F) :
    ∃ t, forFrom height 0 (fun i => forFrom width 0 fun j => forFrom (channels s.regs) 0 fun ch => f i j ch) s =
        .ok () t ∧
      Taken s t (codewords s.regs.m.toNat ls) ∧
      (∀ r c ch, c < 2 ^ 32 → ch < 2 ^ 8 → ¬ InRect r0 c0 height width (channels s.regs) r c ch →
        t.sample .cur r c ch = s.sample .cur r c ch) ∧
      (∀ i j ch l, i < height → j < width → ch < channels s.regs → G i j ch →
        ls[rasterIndex width (channels s.regs) i j ch]? = some l →
        t.sample .cur (r0 + i) (c0 + j) ch = some (reconstruct s.regs ch (F (sampleByte t .cur) i j ch) l)) := by
  have h3 := channels_le s.regs
  obtain ⟨t, e, hT, hout, -, hin⟩ := raster_invariant
    (f := f) (fun k x => Taken s x (codewords s.regs.m.toNat (ls.take k)) ∧
      (∀ r c ch, c < 2 ^ 32 → ch < 2 ^ 8 → ¬ InRect r0 c0 height width (channels s.regs) r c ch →
        x.sample .cur r c ch = s.sample .cur r c ch) ∧
      (∀ i j ch, i < height → j < width → ch < channels s.regs → rasterIndex width (channels s.regs) i j ch < k →
        (x.sample .cur (r0 + i) (c0 + j) ch).isSome = true) ∧
      (∀ i j ch l, i < height → j < width → ch < channels s.regs → G i j ch →
        rasterIndex width (channels s.regs) i j ch < k → ls[rasterIndex width (channels s.regs) i j ch]? = some l →
        x.sample .cur (r0 + i) (c0 + j) ch = some (reconstruct s.regs ch (F (sampleByte x .cur) i j ch) l)))
    height width (channels s.regs) s
    (fun i j ch x hi hj hch ⟨hT, hout, hsome, hin⟩ => by
      have hlt : rasterIndex width (channels s.regs) i j ch < ls.length := hlen ▸ rasterIndex_lt hi hj hch
      generalize hk : rasterIndex width (channels s.regs) i j ch = k at hlt hT hsome hin ⊢
      have hsplit : codewords s.regs.m.toNat ls = codewords s.regs.m.toNat (ls.take k) ++
          (codeword s.regs.m.toNat ls[k] ++ codewords s.regs.m.toNat (ls.drop (k + 1))) := by
        rw [← codewords_cons, ← List.drop_eq_getElem_cons hlt, ← codewords_append, List.take_append_drop]
      have hx := taken_unread hT (hrest.trans (by rw [hsplit, List.append_assoc, List.append_assoc]))
      obtain ⟨p, n, t, hA, ef, hp⟩ := hf i j ch x _ ls[k] _ hi hj hch hT (List.getElem_mem _) hx
      have hregs := taken_regs hT
      have htregs : t.regs = { s.regs with bitcnt := t.regs.bitcnt, bitbuf := t.regs.bitbuf } := by
        have := congrArg State.regs hA.2.2
        rw [hregs] at this; exact this
      have hlossy : lossy t.regs = lossy s.regs := by rw [htregs]; rfl
      have hrec : reconstruct t.regs = reconstruct s.regs := by rw [htregs]; rfl
      have hst := storeResidual_spec (s := t) (by rw [htregs]; exact hc) (r0 + i) (c0 + j) ch p ls[k]
      rw [hlossy, hrec] at hst
      have htcur : t.cur = x.cur := by
        have e := congrArg State.cur hA.2.2
        exact e
      have hts : ∀ r c k, t.sample .cur r c k = x.sample .cur r c k := fun r c k => by
        show t.cur.read _ = x.cur.read _; rw [htcur]
      generalize hu : t.setSample .cur (r0 + i) (c0 + j) ch (reconstruct s.regs ch p ls[k]) = u at hst
      have hother : ∀ r c k, c < 2 ^ 32 → k < 2 ^ 8 → (r, c, k) ≠ (r0 + i, c0 + j, ch) →
          u.sample .cur r c k = x.sample .cur r c k := fun r c k h1 h2 hne => by
        rw [← hu, sample_setSample_ne _ _ _ _ (by omega) (by omega) h1 h2 hne, hts]
      have hrect : ∀ i' j' ch', i' < height → j' < width → ch' < channels s.regs →
          rasterIndex width (channels s.regs) i' j' ch' ≠ k →
          u.sample .cur (r0 + i') (c0 + j') ch' = x.sample .cur (r0 + i') (c0 + j') ch' :=
        fun i' j' ch' h1 h2 h3 hne => hother _ _ _ (by omega) (by omega) (fun e => hne (by
          simp only [Prod.mk.injEq] at e
          obtain ⟨h1, h2, h3⟩ := e
          rw [← hk, show i' = i by omega, show j' = j by omega, h3]))
      have hlook : ∀ i' j' ch', i' < height → j' < width → ch' < channels s.regs →
          rasterIndex width (channels s.regs) i' j' ch' ≤ k →
          F (sampleByte x .cur) i' j' ch' = F (sampleByte u .cur) i' j' ch' :=
        fun i' j' ch' h1 h2 h3 hle => hF i' j' ch' _ _ h1 h2 h3 (fun a b d hb => by
          unfold sampleByte
          rw [hrect a b d hb.1 hb.2.1 hb.2.2.1 (by have := hb.2.2.2; omega)])
      have hnew : u.sample .cur (r0 + i) (c0 + j) ch = some (reconstruct s.regs ch p ls[k]) := by
        rw [← hu]; exact sample_setSample_same _ _ _ _ _ _
      refine ⟨u, ef.trans hst, ?_, ?_, ?_, ?_⟩
      · rw [List.take_add_one, List.getElem?_eq_getElem hlt, Option.toList_some, codewords_append, codewords_singleton]
        have := taken_next (n := n) hT hA u.cur u.draws
        have e : u = { t with cur := u.cur, draws := u.draws } := by rw [← hu]; rfl
        rw [e]; exact this
      · intro r c k' h1 h2 hnot
        rw [hother r c k' h1 h2 ?_, hout r c k' h1 h2 hnot]
        rintro e
        simp only [Prod.mk.injEq] at e
        obtain ⟨rfl, rfl, rfl⟩ := e
        exact hnot ⟨by omega, by omega, by omega, by omega, hch⟩
      · intro i' j' ch' h1 h2 h3 hlt'
        by_cases heq : rasterIndex width (channels s.regs) i' j' ch' = k
        · obtain ⟨rfl, rfl, rfl⟩ := rasterIndex_inj h2 h3 hj hch (heq.trans hk.symm)
          rw [hnew]; rfl
        · rw [hrect i' j' ch' h1 h2 h3 heq]
          exact hsome i' j' ch' h1 h2 h3 (by omega)
      · intro i' j' ch' l' h1 h2 h3 hG hlt' hl'
        by_cases heq : rasterIndex width (channels s.regs) i' j' ch' = k
        · obtain ⟨rfl, rfl, rfl⟩ := rasterIndex_inj h2 h3 hj hch (heq.trans hk.symm)
          rw [heq, List.getElem?_eq_getElem hlt, Option.some.injEq] at hl'
          rw [hnew, hl', hp hG (fun a b d hbf => hsome a b d hbf.1 hbf.2.1 hbf.2.2.1 (by
            have := hbf.2.2.2; omega)), hlook i' j' ch' h1 h2 h3 (by omega)]
        · rw [hrect i' j' ch' h1 h2 h3 heq, hin i' j' ch' l' h1 h2 h3 hG (by omega) hl',
            hlook i' j' ch' h1 h2 h3 (by omega)])
    ⟨by simpa [codewords] using taken_refl hb, fun _ _ _ _ _ _ => rfl, fun _ _ _ _ _ _ h => absurd h (by omega),
      fun _ _ _ _ _ _ _ _ h => absurd h (by omega)⟩
  rw [← hlen, List.take_length] at hT
  refine ⟨t, e, hT, hout, fun i j ch l h1 h2 h3 hG hl => hin i j ch l h1 h2 h3 hG ?_ hl⟩
  exact rasterIndex_lt h1 h2 h3

end Sys2Proof.Machine
end

