-- ==== Sys2Proof/Laws/Search.lean ====
section
/-! SUPPORT. The motion search on views: the cost of a candidate, the scan of the window and what the search picks
(45_motion.md R201 to R203). Each completes in every state and changes at most the counter of free values. -/

namespace Sys2Proof.Machine

/-- Every sample of the block at `(r0, c0)` of a buffer is written. -/
def BlockWritten (s : State) (b : Buffer) (r0 c0 : Nat) : Prop :=
  ∀ i j ch, i < s.regs.blockSize.toNat → j < s.regs.blockSize.toNat → ch < channels s.regs →
    (s.sample b (r0 + i) (c0 + j) ch).isSome = true

/-- A loop that adds up terms: it completes where every round does, and the result is the sum where every round adds its
term. -/
theorem foldFrom_sum {f : Nat → Nat → Action Nat} (s : State) (W : Prop) (h : Nat → Nat) (n : Nat)
    (hf : ∀ i a d, i < n → ∃ b m, f i a { s with draws := d } = .ok b { s with draws := m } ∧ (W → b = a + h i ∧ m = d)) (a d : Nat) :
    ∃ b m, foldFrom n 0 f a { s with draws := d } = .ok b { s with draws := m } ∧
      (W → b = a + ∑ i ∈ Finset.range n, h i ∧ m = d) := by
  obtain ⟨b, t, e, m, ht, hb⟩ := foldFrom_invariant
    (fun i b x => ∃ m, x = { s with draws := m } ∧ (W → b = a + ∑ i ∈ Finset.range i, h i ∧ m = d)) n 0 a
    { s with draws := d }
    (fun j b x _ hj ⟨m, hx, hb⟩ => by
      subst hx
      obtain ⟨b', m', e, hb'⟩ := hf j b m (by omega)
      refine ⟨b', _, e, m', rfl, fun w => ⟨?_, (hb' w).2.trans (hb w).2⟩⟩
      rw [(hb' w).1, (hb w).1, Finset.sum_range_succ, Nat.add_assoc])
    ⟨d, rfl, fun _ => by simp⟩
  subst ht
  rw [Nat.zero_add] at hb
  exact ⟨b, m, e, hb⟩

/-- One term of the cost is that of the view. -/
theorem costTerm_eq (sq : Bool) (x y : Byte) :
    costTerm sq x y = if sq then (((x.toNat : Int) - (y.toNat : Int)) ^ 2).natAbs
      else ((x.toNat : Int) - (y.toNat : Int)).natAbs := by
  unfold costTerm
  cases sq
  · rfl
  · simp [pow_two, Int.natAbs_mul]

theorem sampleNat_of {s : State} {b : Buffer} {r c ch : Nat} {v : Byte} (h : s.sample b r c ch = some v) :
    sampleNat s b r c ch = v.toNat := by
  simp [sampleNat, h]

/-- The cost of a candidate completes, and on written blocks it is that of the view. -/
theorem blockCost_spec (r0 c0 r1 c1 d : Nat) (s : State) :
    ∃ k m, blockCost s.regs r0 c0 r1 c1 { s with draws := d } = .ok k { s with draws := m } ∧
      (BlockWritten s .cur r0 c0 → BlockWritten s .ref r1 c1 → k = frameCost s r0 c0 r1 c1 ∧ m = d) := by
  obtain ⟨k, m, e, hk⟩ := foldFrom_sum s (BlockWritten s .cur r0 c0 ∧ BlockWritten s .ref r1 c1)
    (f := fun i acc =>
      foldFrom s.regs.blockSize.toNat 0 (fun j acc =>
        foldFrom (channels s.regs) 0 (fun ch acc =>
          readSample .cur (r0 + i) (c0 + j) ch >>= fun x => readSample .ref (r1 + i) (c1 + j) ch >>= fun y =>
            pure (acc + costTerm (squaredMetric s.regs) x y)) acc) acc)
    (fun i => ∑ j ∈ Finset.range s.regs.blockSize.toNat, ∑ ch ∈ Finset.range (channels s.regs),
      (if squaredMetric s.regs then
        (((sampleNat s .cur (r0 + i) (c0 + j) ch : Int) - (sampleNat s .ref (r1 + i) (c1 + j) ch : Int)) ^ 2).natAbs
      else
        ((sampleNat s .cur (r0 + i) (c0 + j) ch : Int) - (sampleNat s .ref (r1 + i) (c1 + j) ch : Int)).natAbs))
    s.regs.blockSize.toNat
    (fun i a d hi => foldFrom_sum s _ _ _ (fun j a d hj => foldFrom_sum s _ _ _ (fun ch a d hch => by
      obtain ⟨x, n1, e1, hx⟩ := readSample_cases .cur (r0 + i) (c0 + j) ch { s with draws := d }
      obtain ⟨y, n2, e2, hy⟩ := readSample_cases .ref (r1 + i) (c1 + j) ch { s with draws := n1 }
      refine ⟨_, n2, (bind_of_ok e1).trans ((bind_of_ok e2).trans rfl), fun w => ?_⟩
      obtain ⟨x', hx'⟩ := Option.isSome_iff_exists.mp (w.1 i j ch hi hj hch)
      obtain ⟨y', hy'⟩ := Option.isSome_iff_exists.mp (w.2 i j ch hi hj hch)
      refine ⟨?_, (hy y' hy').2.trans (hx x' hx').2⟩
      rw [(hx x' hx').1, (hy y' hy').1, costTerm_eq, sampleNat_of hx', sampleNat_of hy']) a d) a d) 0 d
  refine ⟨k, m, e, fun w1 w2 => ?_⟩
  refine ⟨?_, (hk ⟨w1, w2⟩).2⟩
  rw [(hk ⟨w1, w2⟩).1, Nat.zero_add]; rfl

/-- What the best candidate after a part of the scan is: nothing where the part is empty, else a position of the part, and
where `W` holds the first of the positions of least cost. -/
def BestOf (W : Prop) (cost : Nat → Nat → Nat) (part : Nat → Nat → Prop) (best : Option Candidate) : Prop :=
  (best = none → ∀ r c, ¬ part r c) ∧
  (∀ b, best = some b → part b.row b.col ∧ (W → b.cost = cost b.row b.col ∧
    ∀ r c, part r c → cost b.row b.col ≤ cost r c ∧ (cost b.row b.col = cost r c → b.row < r ∨ (b.row = r ∧ b.col ≤ c))))

/-- The next position of the scan. -/
theorem bestOf_next {W : Prop} {cost : Nat → Nat → Nat} {part part' : Nat → Nat → Prop} {best : Option Candidate}
    {r1 c1 k : Nat} (h : BestOf W cost part best) (hk : W → k = cost r1 c1)
    (hpart : ∀ r c, part' r c ↔ part r c ∨ (r = r1 ∧ c = c1))
    (hlast : ∀ r c, part r c → r < r1 ∨ (r = r1 ∧ c < c1)) :
    BestOf W cost part' (better best { row := r1, col := c1, cost := k }) := by
  cases best with
  | none =>
    refine ⟨fun e => absurd e (by simp [better]), fun b hb => ?_⟩
    simp only [better, Option.some.injEq] at hb
    subst hb
    refine ⟨(hpart _ _).mpr (.inr ⟨rfl, rfl⟩), fun w => ⟨hk w, fun r c hrc => ?_⟩⟩
    rcases (hpart r c).mp hrc with h' | ⟨rfl, rfl⟩
    · exact absurd h' (h.1 rfl r c)
    · exact ⟨le_rfl, fun _ => .inr ⟨rfl, le_rfl⟩⟩
  | some b =>
    obtain ⟨hb, hbest⟩ := h.2 b rfl
    by_cases hlt : k < b.cost
    · refine ⟨fun e => absurd e (by simp [better, hlt]), fun b' hb' => ?_⟩
      simp only [better, hlt, if_true, Option.some.injEq] at hb'
      subst hb'
      refine ⟨(hpart _ _).mpr (.inr ⟨rfl, rfl⟩), fun w => ⟨hk w, fun r c hrc => ?_⟩⟩
      obtain ⟨e1, e2⟩ := hbest w
      have := hk w
      rcases (hpart r c).mp hrc with h' | ⟨rfl, rfl⟩
      · have := (e2 r c h').1
        dsimp only
        exact ⟨by omega, fun e => by omega⟩
      · exact ⟨le_rfl, fun _ => .inr ⟨rfl, le_rfl⟩⟩
    · refine ⟨fun e => absurd e (by simp [better, hlt]), fun b' hb' => ?_⟩
      simp only [better, hlt, if_false, Option.some.injEq] at hb'
      subst hb'
      refine ⟨(hpart _ _).mpr (.inl hb), fun w => ?_⟩
      obtain ⟨e1, e2⟩ := hbest w
      refine ⟨e1, fun r c hrc => ?_⟩
      have := hk w
      rcases (hpart r c).mp hrc with h' | ⟨rfl, rfl⟩
      · exact e2 r c h'
      · refine ⟨by omega, fun _ => ?_⟩
        have := hlast _ _ hb
        omega

/-- The rows and columns that the loops of the scan visit. -/
def Visited (g : Regs) (r0 c0 r c : Nat) : Prop :=
  windowLow r0 g.searchRadius.toNat ≤ r ∧
  r < windowLow r0 g.searchRadius.toNat + windowCount r0 g.searchRadius.toNat g.height.toNat g.blockSize.toNat ∧
  windowLow c0 g.searchRadius.toNat ≤ c ∧
  c < windowLow c0 g.searchRadius.toNat + windowCount c0 g.searchRadius.toNat g.width.toNat g.blockSize.toNat

/-- The scan of a window completes with the best candidate of the whole window. -/
theorem scanWindow_spec (r0 c0 d : Nat) (s : State) (W : Prop)
    (hW : W → BlockWritten s .cur r0 c0 ∧ ∀ r c, Visited s.regs r0 c0 r c → BlockWritten s .ref r c) :
    ∃ best m, scanWindow s.regs r0 c0 { s with draws := d } = .ok best { s with draws := m } ∧ (W → m = d) ∧
      BestOf W (frameCost s r0 c0) (Visited s.regs r0 c0) best := by
  unfold Visited at *
  generalize hrl : windowLow r0 s.regs.searchRadius.toNat = rl at *
  generalize hcl : windowLow c0 s.regs.searchRadius.toNat = cl at *
  generalize hrn : windowCount r0 s.regs.searchRadius.toNat s.regs.height.toNat s.regs.blockSize.toNat = rn at *
  generalize hcn : windowCount c0 s.regs.searchRadius.toNat s.regs.width.toNat s.regs.blockSize.toNat = cn at *
  obtain ⟨best, t, e, ⟨m, ht, hm⟩, hb⟩ := foldFrom_invariant
    (f := fun r1 best => foldFrom cn cl (fun c1 best => blockCost s.regs r0 c0 r1 c1 >>= fun k =>
      pure (better best { row := r1, col := c1, cost := k })) best)
    (fun r best x => (∃ m, x = { s with draws := m } ∧ (W → m = d)) ∧
      BestOf W (frameCost s r0 c0) (fun r' c' => rl ≤ r' ∧ r' < r ∧ cl ≤ c' ∧ c' < cl + cn) best)
    rn rl none { s with draws := d }
    (fun r best x hr1 hr2 ⟨hx, hbest⟩ => by
      obtain ⟨b, t, e, hx', hb⟩ := foldFrom_invariant
        (f := fun c1 best => blockCost s.regs r0 c0 r c1 >>= fun k =>
          pure (better best { row := r, col := c1, cost := k }))
        (fun c best x => (∃ m, x = { s with draws := m } ∧ (W → m = d)) ∧
          BestOf W (frameCost s r0 c0)
            (fun r' c' => (rl ≤ r' ∧ r' < r ∧ cl ≤ c' ∧ c' < cl + cn) ∨ (r' = r ∧ cl ≤ c' ∧ c' < c)) best)
        cn cl best x
        (fun c best x hc1 hc2 ⟨⟨m, hx, hm⟩, hbest⟩ => by
          subst hx
          obtain ⟨k, m', e, hk⟩ := blockCost_spec r0 c0 r c m s
          have hk' := fun w => hk (hW w).1 ((hW w).2 r c ⟨hr1, hr2, hc1, hc2⟩)
          refine ⟨_, _, (bind_of_ok e).trans rfl, ⟨m', rfl, fun w => (hk' w).2.trans (hm w)⟩, ?_⟩
          refine bestOf_next hbest (fun w => (hk' w).1) (fun r' c' => ?_) (fun r' c' => ?_)
          · constructor
            · rintro (h | ⟨rfl, h1, h2⟩)
              · exact .inl (.inl h)
              · rcases Nat.lt_or_ge c' c with h | h
                · exact .inl (.inr ⟨rfl, h1, h⟩)
                · exact .inr ⟨rfl, by omega⟩
            · rintro ((h | ⟨rfl, h1, h2⟩) | ⟨rfl, rfl⟩)
              · exact .inl h
              · exact .inr ⟨rfl, h1, by omega⟩
              · exact .inr ⟨rfl, hc1, by omega⟩
          · rintro (h | ⟨rfl, h1, h2⟩)
            · exact .inl h.2.1
            · exact .inr ⟨rfl, h2⟩)
        ⟨hx, by
          have : (fun r' c' => (rl ≤ r' ∧ r' < r ∧ cl ≤ c' ∧ c' < cl + cn) ∨ (r' = r ∧ cl ≤ c' ∧ c' < cl)) =
              (fun r' c' => rl ≤ r' ∧ r' < r ∧ cl ≤ c' ∧ c' < cl + cn) := by
            funext r' c'; apply propext; constructor
            · rintro (h | h)
              · exact h
              · omega
            · exact .inl
          rw [this]; exact hbest⟩
      refine ⟨b, t, e, hx', ?_⟩
      have : (fun r' c' => rl ≤ r' ∧ r' < r + 1 ∧ cl ≤ c' ∧ c' < cl + cn) =
          (fun r' c' => (rl ≤ r' ∧ r' < r ∧ cl ≤ c' ∧ c' < cl + cn) ∨ (r' = r ∧ cl ≤ c' ∧ c' < cl + cn)) := by
        funext r' c'; apply propext; constructor
        · rintro ⟨h1, h2, h3⟩
          rcases Nat.lt_or_ge r' r with h | h
          · exact .inl ⟨h1, h, h3⟩
          · exact .inr ⟨by omega, h3⟩
        · rintro (h | ⟨rfl, h⟩)
          · exact ⟨h.1, by omega, h.2.2⟩
          · exact ⟨hr1, by omega, h⟩
      rw [this]; exact hb)
    ⟨⟨d, rfl, fun _ => rfl⟩, fun _ r' c' h => by omega, fun b hb => absurd hb (by simp)⟩
  subst ht
  refine ⟨best, m, ?_, hm, hb⟩
  unfold scanWindow
  rw [hrl, hcl, hrn, hcn]
  exact e

/-- A position lies in the window exactly when the loops of the scan reach it. -/
theorem inSearchWindow_iff {g : Regs} {r0 c0 r c : Nat} (hr : r0 + g.blockSize.toNat ≤ g.height.toNat)
    (hc : c0 + g.blockSize.toNat ≤ g.width.toNat) :
    inSearchWindow g r0 c0 r c ↔ Visited g r0 c0 r c := by
  unfold inSearchWindow Visited windowCount windowLow windowHigh
  omega

/-- A position of the window names a block inside the frame. -/
theorem inSearchWindow_inside {g : Regs} {r0 c0 r c : Nat} (h : inSearchWindow g r0 c0 r c) :
    r + g.blockSize.toNat ≤ g.height.toNat ∧ c + g.blockSize.toNat ≤ g.width.toNat := by
  unfold inSearchWindow at h
  omega

/-- A block of a written window is written. -/
theorem blockWritten_of_window {s : State} {b : Buffer} (h : WindowWritten s b) {r c : Nat}
    (hr : r + s.regs.blockSize.toNat ≤ s.regs.height.toNat) (hc : c + s.regs.blockSize.toNat ≤ s.regs.width.toNat) :
    BlockWritten s b r c := fun i j ch hi hj hch =>
  Option.isSome_iff_exists.mpr (h (r + i) (c + j) ch (inWindow_iff.mpr ⟨by omega, by omega, hch⟩))

/-- Everything the search can do for a block inside the frame: it completes with the displacement of some block inside
the frame, at most the radius away, and on written frames with that of the first best candidate. -/
theorem matchSearch_spec {r0 c0 : Nat} {s : State} (d : Nat) (hr : r0 + s.regs.blockSize.toNat ≤ s.regs.height.toNat)
    (hc : c0 + s.regs.blockSize.toNat ≤ s.regs.width.toNat) :
    ∃ r1 c1 m : Nat, matchSearch s.regs r0 c0 { s with draws := d } =
        .ok ((c1 : Int) - (c0 : Int), (r1 : Int) - (r0 : Int)) { s with draws := m } ∧
      inSearchWindow s.regs r0 c0 r1 c1 ∧
      (WindowWritten s .cur → WindowWritten s .ref → FirstBest s r0 c0 r1 c1 ∧ m = d) := by
  obtain ⟨k, m, e, hk⟩ := blockCost_spec r0 c0 r0 c0 d s
  have h00 : inSearchWindow s.regs r0 c0 r0 c0 := by unfold inSearchWindow; omega
  have hk' := fun w1 w2 => hk (blockWritten_of_window w1 hr hc) (blockWritten_of_window w2 hr hc)
  by_cases h0 : k = 0
  · refine ⟨r0, c0, m, ?_, h00, fun w1 w2 => ⟨⟨fun _ => ⟨rfl, rfl⟩, fun hne => ?_⟩, (hk' w1 w2).2⟩⟩
    · show (blockCost _ _ _ _ _ >>= _) _ = _
      rw [bind_of_ok e]
      simp only [h0, if_true, Int.sub_self]; rfl
    · exact absurd ((hk' w1 w2).1 ▸ h0) hne
  · obtain ⟨best, m', e', hm, hb⟩ := scanWindow_spec r0 c0 m s (WindowWritten s .cur ∧ WindowWritten s .ref)
      (fun w => ⟨blockWritten_of_window w.1 hr hc, fun r c h =>
        have := inSearchWindow_inside ((inSearchWindow_iff hr hc).mpr h)
        blockWritten_of_window w.2 this.1 this.2⟩)
    cases hbest : best with
    | none => exact absurd ((inSearchWindow_iff hr hc).mp h00) (hb.1 hbest _ _)
    | some b =>
      obtain ⟨hp, hw⟩ := hb.2 b hbest
      have hin := (inSearchWindow_iff hr hc).mpr hp
      refine ⟨b.row, b.col, m', ?_, hin, fun w1 w2 =>
        ⟨⟨fun hz => ?_, fun _ => ⟨hin, fun r c hrc => ?_⟩⟩, (hm ⟨w1, w2⟩).trans (hk' w1 w2).2⟩⟩
      · show (blockCost _ _ _ _ _ >>= _) _ = _
        rw [bind_of_ok e]
        simp only [h0, if_false]
        rw [bind_of_ok e', hbest]; rfl
      · exact absurd ((hk' w1 w2).1.trans hz) h0
      · exact (hw ⟨w1, w2⟩).2 r c ((inSearchWindow_iff hr hc).mp hrc)

end Sys2Proof.Machine
end

