-- ==== Sys2Proof/Laws/FrameCoding.lean ====
section
/-! SUPPORT. Intra and predicted frames, coded and decoded: everything that `EncodeIntra`, `DecodeIntra` (44_intra.md
R188, R189), `EncodePred` and `DecodePred` (45_motion.md R207, R208) can do in a session. -/

namespace Sys2Proof.Machine

/-! ### Lists in raster order -/

theorem flatMap_range_length {α : Type} {f : Nat → List α} {c : Nat} : ∀ {n : Nat}, (∀ i, i < n → (f i).length = c) →
    ((List.range n).flatMap f).length = n * c
  | 0, _ => by simp
  | n + 1, h => by
    rw [List.range_succ, List.flatMap_append, List.length_append,
      flatMap_range_length (n := n) (fun i hi => h i (by omega))]
    simp [h n (by omega), Nat.add_mul]

theorem flatMap_range_getElem? {α : Type} {f : Nat → List α} {c : Nat} : ∀ {n i j : Nat},
    (∀ i, i < n → (f i).length = c) → i < n → j < c → ((List.range n).flatMap f)[i * c + j]? = (f i)[j]?
  | 0, _, _, _, hi, _ => absurd hi (by omega)
  | n + 1, i, j, h, hi, hj => by
    have hlen := flatMap_range_length (n := n) (f := f) (c := c) (fun i hi => h i (by omega))
    rw [List.range_succ, List.flatMap_append]
    rcases Nat.lt_or_ge i n with hlt | hge
    · have : (i + 1) * c ≤ n * c := Nat.mul_le_mul_right _ hlt
      rw [Nat.add_mul] at this
      rw [List.getElem?_append_left (by omega)]
      exact flatMap_range_getElem? (fun i hi => h i (by omega)) hlt hj
    · have : i = n := by omega
      subst this
      rw [List.getElem?_append_right (by omega), hlen, Nat.add_sub_cancel_left]
      simp

theorem raster_length (height width chans : Nat) : (raster height width chans).length = height * width * chans := by
  unfold raster
  rw [flatMap_range_length (c := width * chans) (fun r _ => flatMap_range_length (fun c _ => by simp)), Nat.mul_assoc]

theorem raster_getElem? {height width chans r c ch : Nat} (hr : r < height) (hc : c < width) (hch : ch < chans) :
    (raster height width chans)[rasterIndex width chans r c ch]? = some (r, c, ch) := by
  have h2 : (c + 1) * chans ≤ width * chans := Nat.mul_le_mul_right _ hc
  rw [Nat.add_mul] at h2
  unfold raster rasterIndex
  rw [show (r * width + c) * chans + ch = r * (width * chans) + (c * chans + ch) by ring,
    flatMap_range_getElem? (fun r _ => flatMap_range_length (fun c _ => by simp)) hr (by omega),
    flatMap_range_getElem? (fun c _ => by simp) hc hch]
  simp [hch]

/-- Every place below the size of a raster belongs to a sample. -/
theorem rasterIndex_surj {height width chans k : Nat} (h : k < height * width * chans) :
    ∃ r c ch, r < height ∧ c < width ∧ ch < chans ∧ rasterIndex width chans r c ch = k := by
  have hchans : 0 < chans := Nat.pos_of_ne_zero (fun e => by simp [e] at h)
  have h1 : k / chans < height * width := (Nat.div_lt_iff_lt_mul hchans).mpr h
  have hwidth : 0 < width := Nat.pos_of_ne_zero (fun e => by simp [e] at h1)
  have h2 : k / chans / width < height := (Nat.div_lt_iff_lt_mul hwidth).mpr h1
  refine ⟨k / chans / width, k / chans % width, k % chans, h2, Nat.mod_lt _ hwidth, Nat.mod_lt _ hchans, ?_⟩
  unfold rasterIndex
  rw [Nat.div_add_mod', Nat.div_add_mod']

/-- A list in raster order is known by its entries. -/
theorem raster_map_ext {height width chans : Nat} {ls : List Int} {F : Nat × Nat × Nat → Int}
    (hlen : ls.length = height * width * chans)
    (h : ∀ r c ch l, r < height → c < width → ch < chans → ls[rasterIndex width chans r c ch]? = some l →
      l = F (r, c, ch)) :
    ls = (raster height width chans).map F := by
  apply List.ext_getElem?
  intro k
  rcases Nat.lt_or_ge k ls.length with hk | hk
  · obtain ⟨r, c, ch, hr, hc, hch, e⟩ := rasterIndex_surj (hlen ▸ hk)
    have h1 := List.getElem?_eq_getElem hk
    rw [List.getElem?_map, ← e, raster_getElem? hr hc hch]
    have h2 := h r c ch ls[k] hr hc hch (by rw [e]; exact h1)
    rw [e, h1, Option.map_some, ← h2]
  · rw [List.getElem?_eq_none hk, List.getElem?_eq_none (by rw [List.length_map, raster_length]; omega)]

/-! ### Intra frames -/

/-- The prediction of the frame looks at earlier samples only. -/
theorem framePrediction_looksBack (height width chans : Nat) :
    LooksBack height width chans 0 0 framePrediction := by
  intro i j ch g g' hi hj hch h
  simp only [Nat.zero_add] at h
  unfold framePrediction
  have ha : (if 0 < j then ((g i (j - 1) ch).toNat : Int) else 0) =
      if 0 < j then ((g' i (j - 1) ch).toNat : Int) else 0 := by
    split
    · rw [h i (j - 1) ch ⟨hi, by omega, hch, (rasterIndex_lt_iff (by omega) hch hj hch).mpr (by omega)⟩]
    · rfl
  have hb : (if 0 < i then ((g (i - 1) j ch).toNat : Int) else 0) =
      if 0 < i then ((g' (i - 1) j ch).toNat : Int) else 0 := by
    split
    · rw [h (i - 1) j ch ⟨by omega, hj, hch, (rasterIndex_lt_iff hj hch hj hch).mpr (by omega)⟩]
    · rfl
  have hd : (if 0 < i ∧ 0 < j then ((g (i - 1) (j - 1) ch).toNat : Int) else 0) =
      if 0 < i ∧ 0 < j then ((g' (i - 1) (j - 1) ch).toNat : Int) else 0 := by
    split
    · rw [h (i - 1) (j - 1) ch ⟨by omega, by omega, hch, (rasterIndex_lt_iff (by omega) hch hj hch).mpr (by omega)⟩]
    · rfl
  rw [ha, hb, hd]

/-- The neighbours that a prediction reads come before it, so it is known once they are written. -/
theorem predict_known {height width chans r c ch : Nat} {x : State} (hr : r < height) (hc : c < width)
    (hch : ch < chans) : ∃ (p : Int) (n : Nat), predict r c ch x = .ok p { x with draws := n } ∧ 0 ≤ p ∧ p ≤ 255 ∧
      ((∀ i' j' ch', Before height width chans r c ch i' j' ch' →
        (x.sample .cur (0 + i') (0 + j') ch').isSome = true) → p = framePrediction (sampleByte x .cur) r c ch) := by
  obtain ⟨p, n, e, h0, h1, h⟩ := predict_spec r c ch x
  refine ⟨p, n, e, h0, h1, fun hw => (h (fun hp => ?_) (fun hp => ?_) (fun hp hq => ?_)).1⟩
  · have := hw r (c - 1) ch ⟨hr, by omega, hch, (rasterIndex_lt_iff (by omega) hch hc hch).mpr (by omega)⟩
    simpa using this
  · have := hw (r - 1) c ch ⟨by omega, hc, hch, (rasterIndex_lt_iff hc hch hc hch).mpr (by omega)⟩
    simpa using this
  · have := hw (r - 1) (c - 1) ch ⟨by omega, by omega, hch, (rasterIndex_lt_iff (by omega) hch hc hch).mpr (by omega)⟩
    simpa using this

theorem inWindow_iff_inRect {g : Regs} {r c ch : Nat} :
    inWindow g r c ch = true ↔ InRect 0 0 g.height.toNat g.width.toNat (channels g) r c ch := by
  rw [inWindow_iff]; unfold InRect; omega

/-- Everything that `EncodeIntra` can do in a session (44_intra.md R188). -/
theorem encodeIntra_spec {s : State} (hc : CodingReady s.regs) (hr : sinkReady s = true)
    (hb : bufferHolds s.regs 7 = true) :
    ∃ t ls, encodeIntra s = .ok () t ∧ Behind s t (codewords s.regs.m.toNat ls) ∧
      ls.length = s.regs.height.toNat * s.regs.width.toNat * channels s.regs ∧ (∀ l ∈ ls, l.natAbs ≤ 255) ∧
      (lossy s.regs = false → t.cur = s.cur) ∧
      (∀ r c ch, c < 2 ^ 32 → ch < 2 ^ 8 → inWindow s.regs r c ch = false →
        t.sample .cur r c ch = s.sample .cur r c ch) ∧
      (WindowWritten s .cur → ∀ r c ch l, inWindow s.regs r c ch = true →
        ls[rasterIndex s.regs.width.toNat (channels s.regs) r c ch]? = some l →
        t.sample .cur r c ch = some (reconstruct s.regs ch (framePrediction (sampleByte t .cur) r c ch) l) ∧
        l = transmitted s.regs ch
          (((sampleByte s .cur r c ch).toNat : Int) - framePrediction (sampleByte t .cur) r c ch)) ∧
      (WindowWritten s .cur → lossy s.regs = false → ls = frameDifferences s.regs (sampleByte s .cur)) := by
  obtain ⟨t, ls, e, hB, hlen, hls, hcur, hout, hin⟩ := encodeRect_spec hc hr hb 0 0 s.regs.height.toNat
    s.regs.width.toNat (by have := s.regs.width.isLt; omega)
    (fun r c ch => predict r c ch >>= fun p => encodeResidual (lossy s.regs) r c ch p) framePrediction
    (WindowWritten s .cur)
    (fun hw i j ch hi hj hch => by
      rw [Nat.zero_add, Nat.zero_add]
      exact Option.isSome_iff_exists.mpr (hw i j ch (inWindow_iff.mpr ⟨hi, hj, hch⟩)))
    (fun i j ch x bs hi hj hch hx => by
      obtain ⟨p, n, e, h0, h1, hp⟩ := predict_known (x := x) hi hj hch
      refine ⟨p, n, ?_, h0, h1, fun _ => hp⟩
      rw [bind_of_ok e, Nat.zero_add, Nat.zero_add])
    (framePrediction_looksBack _ _ _)
  simp only [Nat.zero_add] at hin
  refine ⟨t, ls, ?_, hB, hlen, hls, hcur, fun r c ch h1 h2 h => hout r c ch h1 h2 (fun h' => ?_),
    fun hw r c ch l hwin hl => ?_, fun hw hL => ?_⟩
  · unfold encodeIntra
    rw [bind_getRegs_apply]; exact e
  · rw [inWindow_iff_inRect.mpr h'] at h; cases h
  · obtain ⟨h1, h2, h3⟩ := inWindow_iff.mp hwin
    exact hin hw r c ch l h1 h2 h3 hl
  · refine raster_map_ext hlen (fun r c ch l h1 h2 h3 hl => ?_)
    have e : sampleByte t .cur = sampleByte s .cur := by
      unfold sampleByte State.sample State.buffer
      funext a b d
      rw [hcur hL]
    rw [(hin hw r c ch l h1 h2 h3 hl).2, transmitted_lossless hL, e]

/-- Everything that `DecodeIntra` can do in a session when a frame's numbers stand in the stream (44_intra.md R189). -/
theorem decodeIntra_spec {s : State} (hc : CodingReady s.regs) (hb : bufferHolds s.regs 8 = true) {ls : List Int}
    {rest : List Bool} (hlen : ls.length = s.regs.height.toNat * s.regs.width.toNat * channels s.regs)
    (hfit : ∀ l ∈ ls, fits32 l = true) (hrest : unreadBits s = codewords s.regs.m.toNat ls ++ rest) :
    ∃ t, decodeIntra s = .ok () t ∧ Taken s t (codewords s.regs.m.toNat ls) ∧
      (∀ r c ch, c < 2 ^ 32 → ch < 2 ^ 8 → inWindow s.regs r c ch = false →
        t.sample .cur r c ch = s.sample .cur r c ch) ∧
      (∀ r c ch l, inWindow s.regs r c ch = true →
        ls[rasterIndex s.regs.width.toNat (channels s.regs) r c ch]? = some l →
        t.sample .cur r c ch = some (reconstruct s.regs ch (framePrediction (sampleByte t .cur) r c ch) l)) := by
  obtain ⟨t, e, hT, hout, hin⟩ := decodeRect_spec hc hb 0 0 s.regs.height.toNat
    s.regs.width.toNat (by have := s.regs.width.isLt; omega) ls rest hlen hrest
    (fun r c ch => predict r c ch >>= fun p => golombDecode >>= fun l => storeResidual (lossy s.regs) r c ch p l)
    framePrediction (fun _ _ _ => True)
    (fun i j ch x bs l more hi hj hch hx hl hmore => by
      obtain ⟨p, n, e, h0, h1, hp⟩ := predict_known (x := x) hi hj hch
      have hm : x.regs.m = s.regs.m := by rw [taken_regs hx]
      obtain ⟨t, e', ht⟩ := golombDecode_consumes (s := { x with draws := n }) (hfit l hl)
        (by show x.regs.m ≠ _; rw [hm]; exact hc.1) (taken_holds hx) (by show unreadBits x = _; rw [hmore, ← hm])
      refine ⟨p, n, t, by simpa only [hm] using ht, ?_, fun _ => hp⟩
      rw [bind_of_ok e, bind_of_ok e', Nat.zero_add, Nat.zero_add])
    (framePrediction_looksBack _ _ _)
  simp only [Nat.zero_add] at hin
  refine ⟨t, ?_, hT, fun r c ch h1 h2 h => hout r c ch h1 h2 (fun h' => ?_), fun r c ch l hwin hl => ?_⟩
  · unfold decodeIntra
    rw [bind_getRegs_apply]; exact e
  · rw [inWindow_iff_inRect.mpr h'] at h; cases h
  · obtain ⟨h1, h2, h3⟩ := inWindow_iff.mp hwin
    exact hin r c ch l h1 h2 h3 trivial hl

/-- The numbers of an intra frame determine its samples. -/
theorem intra_unique {g : Regs} {ls : List Int} {t v : State}
    (hlen : ls.length = g.height.toNat * g.width.toNat * channels g)
    (ht : ∀ r c ch l, inWindow g r c ch = true → ls[rasterIndex g.width.toNat (channels g) r c ch]? = some l →
      t.sample .cur r c ch = some (reconstruct g ch (framePrediction (sampleByte t .cur) r c ch) l))
    (hv : ∀ r c ch l, inWindow g r c ch = true → ls[rasterIndex g.width.toNat (channels g) r c ch]? = some l →
      v.sample .cur r c ch = some (reconstruct g ch (framePrediction (sampleByte v .cur) r c ch) l)) :
    ∀ r c ch, inWindow g r c ch = true → v.sample .cur r c ch = t.sample .cur r c ch := by
  suffices h : ∀ k r c ch, inWindow g r c ch = true → rasterIndex g.width.toNat (channels g) r c ch = k →
      v.sample .cur r c ch = t.sample .cur r c ch from fun r c ch hw => h _ r c ch hw rfl
  intro k
  induction k using Nat.strong_induction_on with
  | _ k ih =>
    intro r c ch hw hk
    obtain ⟨h1, h2, h3⟩ := inWindow_iff.mp hw
    have hlt : rasterIndex g.width.toNat (channels g) r c ch < ls.length := hlen ▸ rasterIndex_lt h1 h2 h3
    have hl := List.getElem?_eq_getElem hlt
    rw [ht r c ch _ hw hl, hv r c ch _ hw hl]
    rw [framePrediction_looksBack g.height.toNat g.width.toNat (channels g) r c ch (sampleByte v .cur) (sampleByte t .cur)
      h1 h2 h3 (fun i' j' ch' hbf => by
        rw [Nat.zero_add, Nat.zero_add]
        unfold sampleByte
        rw [ih _ (hk ▸ hbf.2.2.2) i' j' ch' (inWindow_iff.mpr ⟨hbf.1, hbf.2.1, hbf.2.2.1⟩) rfl])]

/-! ### One block of a predicted frame -/

theorem displaced_of (x0 x1 : Nat) : displaced x0 ((x1 : Int) - (x0 : Int)) = x1 := by
  unfold displaced; omega

/-- Everything that coding one block can do in a session (45_motion.md R207): the vector is that of a position of the
window, on written frames the first best one; the residuals follow it. -/
theorem encodeBlock_spec {s : State} (hc : CodingReady s.regs) (hr : sinkReady s = true)
    (hb : bufferHolds s.regs 7 = true) {r0 c0 : Nat} (hr0 : r0 + s.regs.blockSize.toNat ≤ s.regs.height.toNat)
    (hc0 : c0 + s.regs.blockSize.toNat ≤ s.regs.width.toNat) :
    ∃ (t : State) (r1 c1 : Nat) (ls : List Int), encodeBlock s.regs r0 c0 s = .ok () t ∧
      Behind s t (codewords s.regs.m.toNat (((c1 : Int) - (c0 : Int)) :: ((r1 : Int) - (r0 : Int)) :: ls)) ∧
      inSearchWindow s.regs r0 c0 r1 c1 ∧
      ls.length = s.regs.blockSize.toNat * s.regs.blockSize.toNat * channels s.regs ∧ (∀ l ∈ ls, l.natAbs ≤ 255) ∧
      (lossy s.regs = false → t.cur = s.cur) ∧
      (∀ r c ch, c < 2 ^ 32 → ch < 2 ^ 8 →
        ¬ InRect r0 c0 s.regs.blockSize.toNat s.regs.blockSize.toNat (channels s.regs) r c ch →
        t.sample .cur r c ch = s.sample .cur r c ch) ∧
      (WindowWritten s .cur → WindowWritten s .ref → FirstBest s r0 c0 r1 c1 ∧
        ∀ i j ch l, i < s.regs.blockSize.toNat → j < s.regs.blockSize.toNat → ch < channels s.regs →
          ls[rasterIndex s.regs.blockSize.toNat (channels s.regs) i j ch]? = some l →
          t.sample .cur (r0 + i) (c0 + j) ch =
            some (reconstruct s.regs ch ((sampleByte s .ref (r1 + i) (c1 + j) ch).toNat : Int) l) ∧
          l = transmitted s.regs ch (((sampleByte s .cur (r0 + i) (c0 + j) ch).toNat : Int) -
            ((sampleByte s .ref (r1 + i) (c1 + j) ch).toNat : Int))) := by
  obtain ⟨r1, c1, m, eS, hwin, hbest⟩ := matchSearch_spec s.draws hr0 hc0
  obtain ⟨t1, e1, a1⟩ := golombEncode_appends (s := { s with draws := m }) ((c1 : Int) - (c0 : Int)) hc.1 hr hb
  have m1 : t1.regs.m = s.regs.m := by
    have k := appendsBits_m a1
    exact k
  have b1 : Behind s t1 (codeword s.regs.m.toNat ((c1 : Int) - (c0 : Int))) := by
    have k := behind_next (behind_refl hb) a1 t1.cur t1.draws
    exact k
  obtain ⟨t2, e2, a2⟩ := golombEncode_appends (s := t1) ((r1 : Int) - (r0 : Int)) (m1 ▸ hc.1) (behind_ready b1 hr)
    (behind_holds b1)
  rw [m1] at a2
  have b2 : Behind s t2 (codewords s.regs.m.toNat [(c1 : Int) - (c0 : Int), (r1 : Int) - (r0 : Int)]) := by
    have k := behind_next (n := t1.draws) b1 a2 t2.cur t2.draws
    rw [codewords_cons, codewords_singleton]
    exact k
  have hcur2 : t2.cur = s.cur := by
    obtain ⟨-, -, out, -, ht⟩ := a2
    obtain ⟨-, -, out', -, ht'⟩ := a1
    rw [ht, ht']
  have hregs := behind_regs b2
  have hlossy : lossy t2.regs = lossy s.regs := by rw [hregs]; rfl
  have hchan : channels t2.regs = channels s.regs := by rw [hregs]; rfl
  have hm : t2.regs.m = s.regs.m := by rw [hregs]
  have hrec : reconstruct t2.regs = reconstruct s.regs := by rw [hregs]; rfl
  have hsamp : ∀ r c ch, t2.sample .cur r c ch = s.sample .cur r c ch := fun r c ch => by
    show t2.cur.read _ = s.cur.read _; rw [hcur2]
  have htra : transmitted t2.regs = transmitted s.regs := by rw [hregs]; rfl
  have hbyte : sampleByte t2 .cur = sampleByte s .cur := by
    funext r c ch; unfold sampleByte; rw [hsamp]
  have hd1 : displaced r0 ((r1 : Int) - (r0 : Int)) = r1 := displaced_of _ _
  have hd2 : displaced c0 ((c1 : Int) - (c0 : Int)) = c1 := displaced_of _ _
  have hspec := encodeRect_spec (s := t2) (by rw [hregs]; exact hc) (behind_ready b2 hr) (behind_holds b2) r0 c0
    s.regs.blockSize.toNat s.regs.blockSize.toNat (by have := s.regs.width.isLt; omega)
    (fun i j ch => readSample .ref (r1 + i) (c1 + j) ch >>= fun y =>
      encodeResidual (lossy s.regs) (r0 + i) (c0 + j) ch (y.toNat : Int))
    (fun _ i j ch => ((sampleByte s .ref (r1 + i) (c1 + j) ch).toNat : Int))
    (WindowWritten s .cur ∧ WindowWritten s .ref)
    (fun hw i j ch hi hj hch => by
      rw [hsamp]
      exact Option.isSome_iff_exists.mpr (hw.1 _ _ _ (inWindow_iff.mpr ⟨by omega, by omega, hchan ▸ hch⟩)))
    (fun i j ch x bs hi hj hch hx => by
      obtain ⟨y, n, ey, hy⟩ := readSample_cases .ref (r1 + i) (c1 + j) ch x
      have := y.isLt
      refine ⟨(y.toNat : Int), n, ?_, by omega, by omega, fun hw _ => ?_⟩
      · rw [bind_of_ok ey, hlossy]
      · have hin := inSearchWindow_inside hwin
        obtain ⟨w, hw'⟩ := hw.2 (r1 + i) (c1 + j) ch (inWindow_iff.mpr ⟨by omega, by omega, hchan ▸ hch⟩)
        have hx' : x.sample .ref (r1 + i) (c1 + j) ch = some w := by
          have : x.ref = s.ref := (behind_ref hx).trans (behind_ref b2)
          show x.ref.read _ = _; rw [this]; exact hw'
        unfold sampleByte
        rw [(hy w hx').1, hw']; rfl)
    (fun _ _ _ _ _ _ _ _ _ => rfl)
  simp only [hlossy, hchan, hm, hrec, htra, hbyte, hcur2, hsamp] at hspec
  obtain ⟨t, ls, e, hB, hlen, hls, hcur, hout, hin⟩ := hspec
  refine ⟨t, r1, c1, ls, ?_, ?_, hwin, hlen, hls, hcur, hout, fun w1 w2 => ⟨(hbest w1 w2).1, hin ⟨w1, w2⟩⟩⟩
  · unfold encodeBlock
    rw [bind_of_ok eS]
    dsimp only
    rw [bind_of_ok e1, bind_of_ok e2, hd1, hd2]
    exact e
  · have k := behind_trans b2 hB
    rw [← codewords_append] at k
    exact k

/-- Everything that decoding one block can do in a session, when a vector that stays inside the frame and the block's
residuals stand in the stream (45_motion.md R208). -/
theorem decodeBlock_spec {s : State} (hc : CodingReady s.regs) (hb : bufferHolds s.regs 8 = true) {r0 c0 : Nat}
    (hc0 : c0 + s.regs.blockSize.toNat ≤ s.regs.width.toNat) {dx dy : Int} {ls : List Int} {rest : List Bool}
    (hin : vectorInside s.regs r0 c0 dx dy = true) (hdx : fits32 dx = true) (hdy : fits32 dy = true)
    (hlen : ls.length = s.regs.blockSize.toNat * s.regs.blockSize.toNat * channels s.regs)
    (hfit : ∀ l ∈ ls, fits32 l = true) (hrest : unreadBits s = codewords s.regs.m.toNat (dx :: dy :: ls) ++ rest) :
    ∃ t, decodeBlock s.regs r0 c0 s = .ok () t ∧ Taken s t (codewords s.regs.m.toNat (dx :: dy :: ls)) ∧
      (∀ r c ch, c < 2 ^ 32 → ch < 2 ^ 8 →
        ¬ InRect r0 c0 s.regs.blockSize.toNat s.regs.blockSize.toNat (channels s.regs) r c ch →
        t.sample .cur r c ch = s.sample .cur r c ch) ∧
      (∀ i j ch l y, i < s.regs.blockSize.toNat → j < s.regs.blockSize.toNat → ch < channels s.regs →
        ls[rasterIndex s.regs.blockSize.toNat (channels s.regs) i j ch]? = some l →
        s.sample .ref (displaced r0 dy + i) (displaced c0 dx + j) ch = some y →
        t.sample .cur (r0 + i) (c0 + j) ch = some (reconstruct s.regs ch (y.toNat : Int) l)) := by
  rw [codewords_cons, codewords_cons, List.append_assoc, List.append_assoc] at hrest
  obtain ⟨t1, e1, a1⟩ := golombDecode_consumes hdx hc.1 hb hrest
  have m1 := consumesBits_m a1
  have b1 : Taken s t1 (codeword s.regs.m.toNat dx) := by
    have k := taken_next (n := s.draws) (taken_refl hb) a1 t1.cur t1.draws
    exact k
  have u1 := taken_unread b1 hrest
  obtain ⟨t2, e2, a2⟩ := golombDecode_consumes hdy (m1 ▸ hc.1) (taken_holds b1) (by rw [m1]; exact u1)
  rw [m1] at a2
  have b2 : Taken s t2 (codewords s.regs.m.toNat [dx, dy]) := by
    have k := taken_next (n := t1.draws) b1 a2 t2.cur t2.draws
    rw [codewords_cons, codewords_singleton]
    exact k
  have u2 : unreadBits t2 = codewords s.regs.m.toNat ls ++ rest := by
    refine taken_unread b2 ?_
    rw [codewords_cons, codewords_singleton, List.append_assoc]; exact hrest
  have hcur2 : t2.cur = s.cur := by
    have k1 := congrArg State.cur a1.2.2
    have k2 := congrArg State.cur a2.2.2
    exact Eq.trans k2 k1
  have hregs := taken_regs b2
  have hlossy : lossy t2.regs = lossy s.regs := by rw [hregs]; rfl
  have hchan : channels t2.regs = channels s.regs := by rw [hregs]; rfl
  have hm : t2.regs.m = s.regs.m := by rw [hregs]
  have hrec : reconstruct t2.regs = reconstruct s.regs := by rw [hregs]; rfl
  have hsamp : ∀ r c ch, t2.sample .cur r c ch = s.sample .cur r c ch := fun r c ch => by
    show t2.cur.read _ = s.cur.read _; rw [hcur2]
  have hspec := decodeRect_spec (s := t2) (by rw [hregs]; exact hc) (taken_holds b2) r0 c0
    s.regs.blockSize.toNat s.regs.blockSize.toNat (by have := s.regs.width.isLt; omega) ls rest
    (by rw [hchan]; exact hlen) (by rw [hm]; exact u2)
    (fun i j ch => golombDecode >>= fun l => readSample .ref (displaced r0 dy + i) (displaced c0 dx + j) ch >>= fun y =>
      storeResidual (lossy s.regs) (r0 + i) (c0 + j) ch (y.toNat : Int) l)
    (fun _ i j ch => ((sampleByte s .ref (displaced r0 dy + i) (displaced c0 dx + j) ch).toNat : Int))
    (fun i j ch => (s.sample .ref (displaced r0 dy + i) (displaced c0 dx + j) ch).isSome = true)
    (fun i j ch x bs l more hi hj hch hx hl hmore => by
      have hxm : x.regs.m = t2.regs.m := by rw [taken_regs hx]
      obtain ⟨t, e, ht⟩ := golombDecode_consumes (s := x) (hfit l hl) (by rw [hxm, hm]; exact hc.1) (taken_holds hx)
        (by rw [hxm]; exact hmore)
      rw [hxm] at ht
      obtain ⟨y, n, ey, hy⟩ := readSample_cases .ref (displaced r0 dy + i) (displaced c0 dx + j) ch t
      refine ⟨(y.toNat : Int), n, { t with draws := n }, ?_, ?_, fun hsome _ => ?_⟩
      · have k := consumesBits_other x.cur n ht
        have ecur := congrArg State.cur ht.2.2
        have : t.cur = x.cur := ecur
        rw [← this] at k
        simpa only [this] using k
      · rw [bind_of_ok e, bind_of_ok ey, hlossy]
      · obtain ⟨w, hw⟩ := Option.isSome_iff_exists.mp hsome
        have htref : t.sample .ref (displaced r0 dy + i) (displaced c0 dx + j) ch = some w := by
          have k := congrArg State.ref ht.2.2
          have : t.ref = s.ref := Eq.trans k ((taken_ref hx).trans (taken_ref b2))
          show t.ref.read _ = _; rw [this]; exact hw
        unfold sampleByte
        rw [(hy w htref).1, hw]; rfl)
    (fun _ _ _ _ _ _ _ _ _ => rfl)
  simp only [hchan, hm, hrec, hsamp] at hspec
  obtain ⟨t, e, hT, hout, hsm⟩ := hspec
  refine ⟨t, ?_, ?_, hout, fun i j ch l y hi hj hch hl hy => ?_⟩
  · unfold decodeBlock
    rw [bind_of_ok e1, bind_of_ok e2, hin, bind_require_apply, if_pos rfl]
    exact e
  · have k := taken_trans b2 hT
    rw [← codewords_append] at k
    exact k
  · have k := hsm i j ch l hi hj hch (by rw [hy]; rfl) hl
    rw [k]
    unfold sampleByte
    rw [hy]; rfl

end Sys2Proof.Machine
end

