-- ==== Sys2Proof/Laws/Headers.lean ====
section
/-! SUPPORT. Headers on bit lists: `putHeader` appends the header's bits, `getHeader` reads any header back, and the checks
of 46_container.md R224 are those of Safety.lean. -/

namespace Sys2Proof.Machine

/-! ### Writing (46_container.md R225) -/

/-- What a procedure that only appends bits does in every ready state. -/
def Appends (x : Action Unit) (bs : List Bool) : Prop :=
  ∀ s : State, sinkReady s = true → bufferHolds s.regs 7 = true → ∃ t, x s = .ok () t ∧ AppendsBits s t bs

theorem appends_bind {x : Action Unit} {f : Unit → Action Unit} {bs cs : List Bool} (hx : Appends x bs)
    (hf : Appends (f ()) cs) : Appends (x >>= f) (bs ++ cs) := by
  intro s hr hb
  obtain ⟨t, e, a⟩ := hx s hr hb
  exact bind_appends e a (hf t (appendsBits_sinkReady a hr) a.2.1)

theorem appends_putBits (v n : Nat) : Appends (putBits v n) (bitsOf v n) := fun _ hr hb => putBits_appends v n hr hb

theorem appends_onlyIf {x : Action Unit} {bs : List Bool} (b : Bool) (hx : Appends x bs) :
    Appends (onlyIf b x) (if b then bs else []) := by
  cases b
  · exact fun s _ hb => ⟨s, rfl, appendsBits_refl hb⟩
  · exact hx

theorem appends_congr {x : Action Unit} {bs cs : List Bool} (h : bs = cs) (hx : Appends x bs) : Appends x cs := h ▸ hx

/-- Writing a header appends its bits. -/
theorem putHeader_appends (g : Regs) : Appends (putHeader g) (headerBits g) := by
  have three : ∀ a b c n, Appends (putBits a n >>= fun _ => putBits b n >>= fun _ => putBits c n)
      (bitsOf a n ++ (bitsOf b n ++ bitsOf c n)) := fun a b c n =>
    appends_bind (appends_putBits _ _) (appends_bind (appends_putBits _ _) (appends_putBits _ _))
  refine appends_congr ?_ (appends_bind (appends_putBits _ _) (appends_bind (appends_putBits _ _)
    (appends_bind (appends_putBits _ _) (appends_bind (appends_putBits _ _) (appends_bind (appends_putBits _ _)
      (appends_bind (appends_putBits _ _) (appends_bind (appends_onlyIf (hybrid g) (three _ _ _ 8))
        (appends_onlyIf (lossy g) (three _ _ _ 8)))))))))
  unfold headerBits headerOfRegs
  simp only [List.append_assoc]

/-! ### Reading (46_container.md R226) -/

/-- A field that was written is read back. -/
theorem getBits_bitsOf {v n : Nat} (hv : v < 2 ^ n) {s : State} {rest : List Bool} (hb : bufferHolds s.regs 8 = true)
    (h : unreadBits s = bitsOf v n ++ rest) :
    ∃ t, getBits n s = .ok v t ∧ ConsumesBits s t (bitsOf v n) ∧ unreadBits t = rest := by
  obtain ⟨t, e, hc⟩ := getBits_consumes hb h
  rw [bitsOf_length, ofBits_bitsOf, Nat.mod_eq_of_lt hv] at e
  exact ⟨t, e, hc, consumesBits_rest hc h⟩

/-- A field that a variant may lack is read back, or keeps the value given. -/
theorem getField_bits {v x n : Nat} (b : Bool) (hv : v < 2 ^ n) {s : State} {rest : List Bool}
    (hb : bufferHolds s.regs 8 = true) (h : unreadBits s = (if b then bitsOf v n else []) ++ rest) :
    ∃ t, getField b x n s = .ok (if b then v else x) t ∧ ConsumesBits s t (if b then bitsOf v n else []) ∧
      unreadBits t = rest := by
  cases b with
  | true => exact getBits_bitsOf hv hb h
  | false => exact ⟨s, rfl, consumesBits_refl hb, h⟩

/-- The header that is read where the bits of the header of `g` stand in the stream: absent fields keep the value of
their register in `old`. -/
def readHeader (old g : Regs) : Header where
  colorSpace := g.colorSpace.toNat
  chroma := g.chroma.toNat
  width := g.width.toNat
  height := g.height.toNat
  m := g.m.toNat
  frameCount := g.frameCount.toNat
  blockSize := if hybrid old then g.blockSize.toNat else old.blockSize.toNat
  intraPeriod := if hybrid old then g.intraPeriod.toNat else old.intraPeriod.toNat
  searchRadius := if hybrid old then g.searchRadius.toNat else old.searchRadius.toNat
  quantY := if lossy old then g.qbitsY.toNat else old.qbitsY.toNat
  quantU := if lossy old then g.qbitsU.toNat else old.qbitsU.toNat
  quantV := if lossy old then g.qbitsV.toNat else old.qbitsV.toNat

theorem headerBits_fields (g : Regs) :
    headerBits g = bitsOf g.colorSpace.toNat 3 ++ (bitsOf g.chroma.toNat 3 ++ (bitsOf g.width.toNat (dimWidth g) ++
      (bitsOf g.height.toNat (dimWidth g) ++ (bitsOf g.m.toNat 8 ++ (bitsOf g.frameCount.toNat (countWidth g) ++
      ((if hybrid g then bitsOf g.blockSize.toNat 8 else []) ++ ((if hybrid g then bitsOf g.intraPeriod.toNat 8 else []) ++
      ((if hybrid g then bitsOf g.searchRadius.toNat 8 else []) ++ ((if lossy g then bitsOf g.qbitsY.toNat 8 else []) ++
      ((if lossy g then bitsOf g.qbitsU.toNat 8 else []) ++ (if lossy g then bitsOf g.qbitsV.toNat 8 else []))))))))))) := by
  unfold headerBits
  cases hybrid g <;> cases lossy g <;> simp

theorem width_fits {g : Regs} (h : FieldsFit g) : g.width.toNat < 2 ^ dimWidth g ∧ g.height.toNat < 2 ^ dimWidth g := by
  unfold dimWidth
  have h1 := g.width.isLt
  have h2 := g.height.isLt
  cases hd : dim32 g with
  | true => exact ⟨h1, h2⟩
  | false => have := h.1 hd; norm_num; omega

theorem count_fits {g : Regs} (h : FieldsFit g) : g.frameCount.toNat < 2 ^ countWidth g := by
  unfold countWidth
  cases hd : fc32 g with
  | true => exact g.frameCount.isLt
  | false => have := h.2 hd; norm_num; omega

/-- Reading a header gives the fields that were written, and consumes its bits. -/
theorem getHeader_consumes {old g : Regs} (hv : g.variant = old.variant) (hh : g.hdrcfg = old.hdrcfg) (hf : FieldsFit g)
    {s : State} {rest : List Bool} (hb : bufferHolds s.regs 8 = true) (h : unreadBits s = headerBits g ++ rest) :
    ∃ t, getHeader old s = .ok (readHeader old g) t ∧ ConsumesBits s t (headerBits g) := by
  have e1 : hybrid old = hybrid g := by unfold hybrid; rw [hv]
  have e2 : lossy old = lossy g := by unfold lossy; rw [hv]
  have e3 : dimWidth old = dimWidth g := by unfold dimWidth dim32; rw [hh]
  have e4 : countWidth old = countWidth g := by unfold countWidth fc32; rw [hh]
  obtain ⟨w1, w2⟩ := width_fits hf
  rw [headerBits_fields] at h ⊢
  simp only [List.append_assoc] at h
  obtain ⟨t1, k1, c1, u1⟩ := getBits_bitsOf g.colorSpace.isLt hb h
  obtain ⟨t2, k2, c2, u2⟩ := getBits_bitsOf g.chroma.isLt c1.2.1 u1
  obtain ⟨t3, k3, c3, u3⟩ := getBits_bitsOf w1 c2.2.1 u2
  obtain ⟨t4, k4, c4, u4⟩ := getBits_bitsOf w2 c3.2.1 u3
  obtain ⟨t5, k5, c5, u5⟩ := getBits_bitsOf g.m.isLt c4.2.1 u4
  obtain ⟨t6, k6, c6, u6⟩ := getBits_bitsOf (count_fits hf) c5.2.1 u5
  obtain ⟨t7, k7, c7, u7⟩ := getField_bits (x := old.blockSize.toNat) (hybrid g) g.blockSize.isLt c6.2.1 u6
  obtain ⟨t8, k8, c8, u8⟩ := getField_bits (x := old.intraPeriod.toNat) (hybrid g) g.intraPeriod.isLt c7.2.1 u7
  obtain ⟨t9, k9, c9, u9⟩ := getField_bits (x := old.searchRadius.toNat) (hybrid g) g.searchRadius.isLt c8.2.1 u8
  obtain ⟨t10, k10, c10, u10⟩ := getField_bits (x := old.qbitsY.toNat) (lossy g) g.qbitsY.isLt c9.2.1 u9
  obtain ⟨t11, k11, c11, u11⟩ := getField_bits (x := old.qbitsU.toNat) (lossy g) g.qbitsU.isLt c10.2.1 u10
  obtain ⟨t12, k12, c12, -⟩ := getField_bits (x := old.qbitsV.toNat) (lossy g) g.qbitsV.isLt c11.2.1 u11
  refine ⟨t12, ?_, consumesBits_trans c1 (consumesBits_trans c2 (consumesBits_trans c3 (consumesBits_trans c4
    (consumesBits_trans c5 (consumesBits_trans c6 (consumesBits_trans c7 (consumesBits_trans c8 (consumesBits_trans c9
      (consumesBits_trans c10 (consumesBits_trans c11 c12))))))))))⟩
  unfold getHeader readHeader
  rw [e1, e2, e3, e4]
  simp only [headerOfRegs]
  rw [bind_of_ok k1, bind_of_ok k2, bind_of_ok k3, bind_of_ok k4, bind_of_ok k5, bind_of_ok k6, bind_of_ok k7,
    bind_of_ok k8, bind_of_ok k9, bind_of_ok k10, bind_of_ok k11, bind_of_ok k12]
  rfl

/-- `GetBits(n)` gives a number of `n` bits. -/
theorem getBitsOnto_lt : ∀ (n v : Nat) {s t : State} {x : Nat}, getBitsOnto n v s = .ok x t → x < (v + 1) * 2 ^ n
  | 0, v, s, t, x, h => by injection h with h _; subst h; simp
  | n + 1, v, s, t, x, h => by
    obtain ⟨b, t1, -, h⟩ := bind_ok_iff.mp h
    have := getBitsOnto_lt n _ h
    have hb : b.toNat ≤ 1 := by cases b <;> simp
    have h2 : (2 * v + b.toNat + 1) * 2 ^ n ≤ (2 * v + 2) * 2 ^ n := Nat.mul_le_mul_right _ (by omega)
    rw [pow_succ]
    calc x < _ := this
      _ ≤ _ := h2
      _ = _ := by ring

theorem getBits_lt {n x : Nat} {s t : State} (h : getBits n s = .ok x t) : x < 2 ^ n := by
  have := getBitsOnto_lt n 0 h; simpa using this

theorem getField_lt {p : Bool} {x n v : Nat} {s t : State} (hx : x < 2 ^ n) (h : getField p x n s = .ok v t) : v < 2 ^ n := by
  cases p
  · injection h with h _; subst h; exact hx
  · exact getBits_lt h

/-- Every number of a header that was read fits its field. -/
theorem getHeader_lt {g : Regs} {h : Header} {s t : State} (e : getHeader g s = .ok h t) :
    h.colorSpace < 2 ^ 3 ∧ h.chroma < 2 ^ 3 ∧ h.width < 2 ^ dimWidth g ∧ h.height < 2 ^ dimWidth g ∧ h.m < 2 ^ 8 ∧
    h.frameCount < 2 ^ countWidth g ∧ h.blockSize < 2 ^ 8 ∧ h.intraPeriod < 2 ^ 8 ∧ h.searchRadius < 2 ^ 8 ∧
    h.quantY < 2 ^ 8 ∧ h.quantU < 2 ^ 8 ∧ h.quantV < 2 ^ 8 := by
  unfold getHeader at e
  obtain ⟨a1, t1, e1, e⟩ := bind_ok_iff.mp e
  obtain ⟨a2, t2, e2, e⟩ := bind_ok_iff.mp e
  obtain ⟨a3, t3, e3, e⟩ := bind_ok_iff.mp e
  obtain ⟨a4, t4, e4, e⟩ := bind_ok_iff.mp e
  obtain ⟨a5, t5, e5, e⟩ := bind_ok_iff.mp e
  obtain ⟨a6, t6, e6, e⟩ := bind_ok_iff.mp e
  obtain ⟨a7, t7, e7, e⟩ := bind_ok_iff.mp e
  obtain ⟨a8, t8, e8, e⟩ := bind_ok_iff.mp e
  obtain ⟨a9, t9, e9, e⟩ := bind_ok_iff.mp e
  obtain ⟨b1, u1, f1, e⟩ := bind_ok_iff.mp e
  obtain ⟨b2, u2, f2, e⟩ := bind_ok_iff.mp e
  obtain ⟨b3, u3, f3, e⟩ := bind_ok_iff.mp e
  injection e with e _
  subst e
  exact ⟨getBits_lt e1, getBits_lt e2, getBits_lt e3, getBits_lt e4, getBits_lt e5, getBits_lt e6,
    getField_lt (BitVec.isLt _) e7, getField_lt (BitVec.isLt _) e8, getField_lt (BitVec.isLt _) e9,
    getField_lt (BitVec.isLt _) f1, getField_lt (BitVec.isLt _) f2, getField_lt (BitVec.isLt _) f3⟩

/-! ### The checks (46_container.md R224) -/

/-- The checks that WRHDR and RDHDR share, on a header's numbers. -/
def headerFine (p : Config.Params) (g : Regs) (h : Header) : Prop :=
  h.m ≠ 0 ∧ h.colorSpace ≤ 2 ∧ h.chroma ≤ 3 ∧ (h.width ≠ 0 ∧ h.height ≠ 0) ∧ (h.width ≤ p.maxW ∧ h.height ≤ p.maxH) ∧
  ¬ (h.chroma = 2 ∧ h.width % 2 = 1) ∧ ¬ (h.chroma = 3 ∧ (h.width % 2 = 1 ∨ h.height % 2 = 1)) ∧
  (hybrid g = true → h.blockSize ≠ 0) ∧ (hybrid g = true → h.intraPeriod ≠ 0) ∧
  (lossy g = true → h.quantY ≤ 8 ∧ h.quantU ≤ 8 ∧ h.quantV ≤ 8)

/-- A header is fine exactly when no check fails, and a failure is that of some check. -/
theorem validateHeader_cases (p : Config.Params) (g : Regs) (w : Bool) (h : Header) :
    (validateHeader p g w h = none ∧ ∀ c ∈ headerChecks p g w h, c.1 = false) ∨
    (∃ c ∈ headerChecks p g w h, c.1 = true ∧ validateHeader p g w h = some c.2) := by
  unfold validateHeader
  cases hf : (headerChecks p g w h).find? (fun c => c.1) with
  | none =>
    refine .inl ⟨rfl, fun c hc => ?_⟩
    simpa using List.find?_eq_none.mp hf c hc
  | some c => exact .inr ⟨c, List.mem_of_find?_eq_some hf, by simpa using List.find?_some hf, rfl⟩

/-- The checks of RDHDR, as a proposition. -/
theorem headerChecks_read (p : Config.Params) (g : Regs) (h : Header) :
    (∀ c ∈ headerChecks p g false h, c.1 = false) ↔ headerFine p g h := by
  unfold headerChecks headerFine
  simp only [List.mem_cons, List.not_mem_nil, or_false, forall_eq_or_imp, forall_eq, decide_eq_false_iff_not,
    Bool.and_eq_false_iff, Bool.false_eq_true, true_or, true_and]
  cases hybrid g <;> cases lossy g <;> simp

/-- The checks of WRHDR, as a proposition. -/
theorem headerChecks_write (p : Config.Params) (g : Regs) (h : Header) :
    (∀ c ∈ headerChecks p g true h, c.1 = false) ↔
      headerFine p g h ∧ (dim32 g = false → h.width ≤ 255 ∧ h.height ≤ 255) ∧ (fc32 g = false → h.frameCount ≤ 255) := by
  unfold headerChecks headerFine
  simp only [List.mem_cons, List.not_mem_nil, or_false, forall_eq_or_imp, forall_eq, decide_eq_false_iff_not,
    Bool.and_eq_false_iff]
  cases hybrid g <;> cases lossy g <;> cases dim32 g <;> cases fc32 g <;> simp <;> omega

/-- Every failure is InvalidFormat, but that of the unset divisor at WRHDR. -/
theorem headerChecks_cause {p : Config.Params} {g : Regs} {w : Bool} {h : Header} {c : Bool × Cause}
    (hc : c ∈ headerChecks p g w h) (h1 : c.1 = true) : c.2 = .invalidFormat ∨ (w = true ∧ h.m = 0) := by
  unfold headerChecks at hc
  simp only [List.mem_cons, List.not_mem_nil, or_false] at hc
  rcases hc with rfl | rfl | rfl | rfl | rfl | rfl | rfl | rfl | rfl | rfl | rfl | rfl
  · cases w
    · exact .inl rfl
    · exact .inr ⟨rfl, by simpa using h1⟩
  all_goals exact .inl rfl

/-- A header passes the checks of RDHDR exactly when it is fine, and every failure is InvalidFormat. -/
theorem validateHeader_read (p : Config.Params) (g : Regs) (h : Header) :
    (headerFine p g h → validateHeader p g false h = none) ∧
    (¬ headerFine p g h → validateHeader p g false h = some .invalidFormat) := by
  rcases validateHeader_cases p g false h with ⟨e, hn⟩ | ⟨c, hc, h1, e⟩
  · exact ⟨fun _ => e, fun hf => absurd ((headerChecks_read p g h).mp hn) hf⟩
  · refine ⟨fun hf => ?_, fun _ => ?_⟩
    · have := (headerChecks_read p g h).mpr hf c hc
      rw [h1] at this; exact absurd this (by simp)
    · rw [e]
      rcases headerChecks_cause hc h1 with h2 | ⟨h2, -⟩
      · rw [h2]
      · exact absurd h2 (by simp)

/-- The same for WRHDR, whose first failure is the unset divisor and which checks the widths of the fields too. -/
theorem validateHeader_write (p : Config.Params) (g : Regs) (h : Header) :
    (h.m = 0 → validateHeader p g true h = some .invalidState) ∧
    (headerFine p g h → (dim32 g = false → h.width ≤ 255 ∧ h.height ≤ 255) → (fc32 g = false → h.frameCount ≤ 255) →
      validateHeader p g true h = none) ∧
    (h.m ≠ 0 → ¬ (headerFine p g h ∧ (dim32 g = false → h.width ≤ 255 ∧ h.height ≤ 255) ∧
      (fc32 g = false → h.frameCount ≤ 255)) → validateHeader p g true h = some .invalidFormat) := by
  refine ⟨fun h0 => by simp [validateHeader, headerChecks, h0], fun hf hd hc => ?_, fun h0 hn => ?_⟩
  · rcases validateHeader_cases p g true h with ⟨e, -⟩ | ⟨c, hcm, h1, e⟩
    · exact e
    · have := (headerChecks_write p g h).mpr ⟨hf, hd, hc⟩ c hcm
      rw [h1] at this; exact absurd this (by simp)
  · rcases validateHeader_cases p g true h with ⟨-, hall⟩ | ⟨c, hcm, h1, e⟩
    · exact absurd ((headerChecks_write p g h).mp hall) hn
    · rw [e]
      rcases headerChecks_cause hcm h1 with h2 | ⟨-, h2⟩
      · rw [h2]
      · exact absurd h2 h0

/-- A header's numbers are fine exactly when the registers that hold them are acceptable. -/
theorem headerFine_iff {p : Config.Params} {old g : Regs} (hv : g.variant = old.variant) :
    headerFine p old (readHeader old g) ↔ HeaderAccepted p g := by
  have e1 : hybrid old = hybrid g := by unfold hybrid; rw [hv]
  have e2 : lossy old = lossy g := by unfold lossy; rw [hv]
  have z : ∀ {n : Nat} (x : BitVec n), x.toNat ≠ 0 ↔ x ≠ 0#n := fun x => by
    rw [ne_eq, ne_eq, not_iff_not, ← BitVec.toNat_inj]; simp
  have c2 : g.chroma.toNat = 2 ↔ g.chroma = 2#3 := by rw [← BitVec.toNat_inj]; rfl
  have c3 : g.chroma.toNat = 3 ↔ g.chroma = 3#3 := by rw [← BitVec.toNat_inj]; rfl
  unfold headerFine HeaderAccepted readHeader
  simp only [e1, e2, ← z, ← c2, ← c3]
  cases hybrid g <;> cases lossy g <;> simp <;> omega

theorem readHeader_self (g : Regs) : readHeader g g = headerOfRegs g := by
  unfold readHeader headerOfRegs
  simp

end Sys2Proof.Machine
end

