-- ==== Sys2Proof/Laws/PerInstr.lean ====
section
/-! SUPPORT. The family of laws stated once for every command: the fields of its word (30_encoding.md R90, R95). -/

/-- The five fields of a command's word are its opcode, its operands and zero in Z. -/
def Sys2Proof.Laws.Fields.Statement (i : Sys2Proof.Instr) : Prop :=
  Sys2Proof.opField (Sys2Proof.encode i) = Sys2Proof.opcodeOf i ∧
  Sys2Proof.aField (Sys2Proof.encode i) = Sys2Proof.aOperand i ∧
  Sys2Proof.bField (Sys2Proof.encode i) = Sys2Proof.bOperand i ∧
  Sys2Proof.zField (Sys2Proof.encode i) = 0#8 ∧
  Sys2Proof.immField (Sys2Proof.encode i) = Sys2Proof.immOperand i

namespace Sys2Proof.Laws.Fields

/-- The law for any command, from the fields of `mkWord`. -/
theorem of_encode (i : Instr) : Statement i :=
  ⟨opField_mkWord .., aField_mkWord .., bField_mkWord .., zField_mkWord .., immField_mkWord ..⟩

theorem nop : Statement .nop := of_encode _
theorem reset : Statement .reset := of_encode _
theorem csrr (csr : BitVec 8) : Statement (.csrr csr) := of_encode _
theorem csrw (csr : BitVec 8) (value : Word) : Statement (.csrw csr value) := of_encode _
theorem pxwr (ch sample : BitVec 8) (row col : BitVec 16) : Statement (.pxwr ch sample row col) := of_encode _
theorem pxrd (ch : BitVec 8) (buf : BitVec 1) (row col : BitVec 16) : Statement (.pxrd ch buf row col) := of_encode _
theorem cpref : Statement .cpref := of_encode _
theorem bopenw : Statement .bopenw := of_encode _
theorem bopenr : Statement .bopenr := of_encode _
theorem bclose : Statement .bclose := of_encode _
theorem putbit (bit : BitVec 1) : Statement (.putbit bit) := of_encode _
theorem putbits (n : BitVec 8) (value : Word) : Statement (.putbits n value) := of_encode _
theorem getbit : Statement .getbit := of_encode _
theorem getbits (n : BitVec 8) : Statement (.getbits n) := of_encode _
theorem genc (n : Word) : Statement (.genc n) := of_encode _
theorem gdec : Statement .gdec := of_encode _
theorem rpush (v : Word) : Statement (.rpush v) := of_encode _
theorem rflush : Statement .rflush := of_encode _
theorem rpop : Statement .rpop := of_encode _
theorem qlevel (ch : BitVec 8) (v : Word) : Statement (.qlevel ch v) := of_encode _
theorem qvalue (ch : BitVec 8) (level : Word) : Statement (.qvalue ch level) := of_encode _
theorem quant (ch : BitVec 8) (v : Word) : Statement (.quant ch v) := of_encode _
theorem ipred (ch : BitVec 8) (row col : BitVec 16) : Statement (.ipred ch row col) := of_encode _
theorem matchBlock (row col : BitVec 16) : Statement (.matchBlock row col) := of_encode _
theorem wrhdr : Statement .wrhdr := of_encode _
theorem rdhdr : Statement .rdhdr := of_encode _
theorem encf : Statement .encf := of_encode _
theorem decf : Statement .decf := of_encode _

end Sys2Proof.Laws.Fields
end

