-- ==== Sys2Proof/Laws/PredFrames.lean ====
section
/-! SUPPORT. Predicted frames: everything that `EncodePred` and `DecodePred` (45_motion.md R207, R208) can do in a
session, block after block in frame-partition order. -/

namespace Sys2Proof.Machine

/-! ### The partition (45_motion.md R200) -/

/-- A sample lies in one block only. -/
theorem block_unique {B b b' i i' : Nat} (hi : i < B) (hi' : i' < B) (h : b * B + i = b' * B + i') : b = b' ∧ i = i' := by
  rcases Nat.lt_trichotomy b b' with h1 | rfl | h1
  · have := Nat.mul_le_mul_right B h1
    rw [Nat.succ_mul] at this; omega
  · exact ⟨rfl, by omega⟩
  · have := Nat.mul_le_mul_right B h1
    rw [Nat.succ_mul] at this; omega

/-- A block of the partition lies inside the frame. -/
theorem block_inside {B n b : Nat} (h : b < n / B) : b * B + B ≤ n := by
  have h1 : (b + 1) * B ≤ n / B * B := Nat.mul_le_mul_right _ h
  have h2 := Nat.div_mul_le_self n B
  rw [Nat.succ_mul] at h1; omega

theorem blockOrder_length (g : Regs) :
    (blockOrder g).length = g.height.toNat / g.blockSize.toNat * (g.width.toNat / g.blockSize.toNat) := by
  unfold blockOrder
  exact flatMap_range_length (fun _ _ => by simp)

theorem blockOrder_getElem? {g : Regs} {br bc : Nat} (hr : br < g.height.toNat / g.blockSize.toNat)
    (hc : bc < g.width.toNat / g.blockSize.toNat) :
    (blockOrder g)[br * (g.width.toNat / g.blockSize.toNat) + bc]? = some (br, bc) := by
  unfold blockOrder
  rw [flatMap_range_getElem? (fun _ _ => by simp) hr hc]
  simp [hc]

theorem mem_blockOrder {g : Regs} {b : Nat × Nat} :
    b ∈ blockOrder g ↔ b.1 < g.height.toNat / g.blockSize.toNat ∧ b.2 < g.width.toNat / g.blockSize.toNat := by
  obtain ⟨br, bc⟩ := b
  simp [blockOrder]

/-- A list in frame-partition order is known by its entries. -/
theorem blockOrder_map_ext {α : Type} {g : Regs} {xs : List α} {F : Nat × Nat → α}
    (hlen : xs.length = g.height.toNat / g.blockSize.toNat * (g.width.toNat / g.blockSize.toNat))
    (h : ∀ br bc, br < g.height.toNat / g.blockSize.toNat → bc < g.width.toNat / g.blockSize.toNat →
      xs[br * (g.width.toNat / g.blockSize.toNat) + bc]? = some (F (br, bc))) :
    xs = (blockOrder g).map F := by
  apply List.ext_getElem?
  intro k
  rcases Nat.lt_or_ge k xs.length with hk | hk
  · rw [hlen] at hk
    have hw : 0 < g.width.toNat / g.blockSize.toNat := Nat.pos_of_ne_zero (fun e => by simp [e] at hk)
    have hr := (Nat.div_lt_iff_lt_mul hw).mpr hk
    have hc := Nat.mod_lt k hw
    have e := Nat.div_add_mod' k (g.width.toNat / g.blockSize.toNat)
    rw [List.getElem?_map, ← e, blockOrder_getElem? hr hc, h _ _ hr hc]; rfl
  · rw [List.getElem?_eq_none hk, List.getElem?_eq_none (by rw [List.length_map, blockOrder_length]; omega)]

/-- The two loops over the blocks collect one datum per block. -/
theorem blocks_collect {D : Type} {f : Nat → Nat → Action Unit} (P : List D → State → Prop) (nr nc : Nat) (s : State)
    (hf : ∀ br bc x xs, br < nr → bc < nc → xs.length = br * nc + bc → P xs x →
      ∃ d t, f br bc x = .ok () t ∧ P (xs ++ [d]) t)
    (h : P [] s) :
    ∃ t xs, forFrom nr 0 (fun br => forFrom nc 0 fun bc => f br bc) s = .ok () t ∧ xs.length = nr * nc ∧ P xs t := by
  obtain ⟨t, e, xs, hlen, hP⟩ := forFrom_invariant (f := fun br => forFrom nc 0 fun bc => f br bc)
    (fun br x => ∃ xs : List D, xs.length = br * nc ∧ P xs x) nr 0 s
    (fun br x _ hbr ⟨xs, hlen, hP⟩ => by
      obtain ⟨t, e, ys, hlen', hP'⟩ := forFrom_invariant (f := f br)
        (fun bc x => ∃ xs : List D, xs.length = br * nc + bc ∧ P xs x) nc 0 x
        (fun bc y _ hbc ⟨ys, hl, hy⟩ => by
          obtain ⟨d, t, e, ht⟩ := hf br bc y ys (by omega) (by omega) hl hy
          exact ⟨t, e, ys ++ [d], by simp [hl]; omega, ht⟩)
        ⟨xs, by simpa using hlen, hP⟩
      exact ⟨t, e, ys, by rw [hlen', Nat.succ_mul]; omega, hP'⟩)
    ⟨[], by simp, h⟩
  exact ⟨t, xs, e, by simpa using hlen, hP⟩

/-! ### Coding -/

/-- What was coded of one block: its best position and its residuals. -/
structure CodedBlock where
  row : Nat
  col : Nat
  residuals : List Int
deriving DecidableEq, Repr

/-- The vector of a coded block. -/
def CodedBlock.vector (d : CodedBlock) (B br bc : Nat) : Int × Int :=
  ((d.col : Int) - (bc * B : Nat), (d.row : Int) - (br * B : Nat))

/-- What holds of one coded block once the frame stands as in `x`; `s` is the state before the frame. -/
def BlockCoded (s x : State) (br bc : Nat) (d : CodedBlock) : Prop :=
  inSearchWindow s.regs (br * s.regs.blockSize.toNat) (bc * s.regs.blockSize.toNat) d.row d.col ∧
  d.residuals.length = s.regs.blockSize.toNat * s.regs.blockSize.toNat * channels s.regs ∧
  (∀ l ∈ d.residuals, l.natAbs ≤ 255) ∧
  (WindowWritten s .cur → WindowWritten s .ref →
    FirstBest s (br * s.regs.blockSize.toNat) (bc * s.regs.blockSize.toNat) d.row d.col ∧
    ∀ i j ch l, i < s.regs.blockSize.toNat → j < s.regs.blockSize.toNat → ch < channels s.regs →
      d.residuals[rasterIndex s.regs.blockSize.toNat (channels s.regs) i j ch]? = some l →
      x.sample .cur (br * s.regs.blockSize.toNat + i) (bc * s.regs.blockSize.toNat + j) ch =
        some (reconstruct s.regs ch ((sampleByte s .ref (d.row + i) (d.col + j) ch).toNat : Int) l) ∧
      l = transmitted s.regs ch
        (((sampleByte s .cur (br * s.regs.blockSize.toNat + i) (bc * s.regs.blockSize.toNat + j) ch).toNat : Int) -
          ((sampleByte s .ref (d.row + i) (d.col + j) ch).toNat : Int)))

/-- What the search picks depends on the block of CUR, on REF and on the registers, the bit buffer apart. -/
theorem firstBest_congr {s x : State} {r0 c0 r1 c1 : Nat}
    (hregs : x.regs = { s.regs with bitcnt := x.regs.bitcnt, bitbuf := x.regs.bitbuf })
    (hcur : ∀ i j ch, i < s.regs.blockSize.toNat → j < s.regs.blockSize.toNat → ch < channels s.regs →
      x.sample .cur (r0 + i) (c0 + j) ch = s.sample .cur (r0 + i) (c0 + j) ch)
    (href : ∀ r c ch, x.sample .ref r c ch = s.sample .ref r c ch) (h : FirstBest x r0 c0 r1 c1) :
    FirstBest s r0 c0 r1 c1 := by
  have hcost : ∀ r c, frameCost x r0 c0 r c = frameCost s r0 c0 r c := fun r c => by
    have hb : x.regs.blockSize = s.regs.blockSize := by rw [hregs]
    have hc : channels x.regs = channels s.regs := by rw [hregs]; rfl
    have hq : squaredMetric x.regs = squaredMetric s.regs := by rw [hregs]; rfl
    unfold frameCost
    rw [hb, hc, hq]
    refine Finset.sum_congr rfl (fun i hi => Finset.sum_congr rfl (fun j hj => Finset.sum_congr rfl (fun ch hch => ?_)))
    rw [Finset.mem_range] at hi hj hch
    have e1 : sampleNat x .cur (r0 + i) (c0 + j) ch = sampleNat s .cur (r0 + i) (c0 + j) ch := by
      unfold sampleNat; rw [hcur i j ch hi hj hch]
    have e2 : sampleNat x .ref (r + i) (c + j) ch = sampleNat s .ref (r + i) (c + j) ch := by
      unfold sampleNat; rw [href]
    rw [e1, e2]
  have hwin : ∀ r c, inSearchWindow x.regs r0 c0 r c ↔ inSearchWindow s.regs r0 c0 r c := fun r c => by
    rw [hregs]; rfl
  unfold FirstBest at *
  simpa only [hcost, hwin] using h

/-- The block of the next command's `g` is the block of the present registers: the bit buffer plays no part. -/
theorem encodeBlock_regs {s x : State} {bs : List Bool} (h : Behind s x bs) :
    encodeBlock x.regs = encodeBlock s.regs := by
  rw [behind_regs h]; rfl

theorem decodeBlock_regs {s x : State} {bs : List Bool} (h : Taken s x bs) :
    decodeBlock x.regs = decodeBlock s.regs := by
  rw [taken_regs h]; rfl

/-- Everything that `EncodePred` can do in a session (45_motion.md R207). -/
theorem encodePred_blocks {s : State} (hc : CodingReady s.regs) (hr : sinkReady s = true)
    (hb : bufferHolds s.regs 7 = true) :
    ∃ t xs, encodePred s = .ok () t ∧
      xs.length = s.regs.height.toNat / s.regs.blockSize.toNat * (s.regs.width.toNat / s.regs.blockSize.toNat) ∧
      (∃ ns : List Int, Behind s t (codewords s.regs.m.toNat ns) ∧
        ∀ (F : Nat × Nat → CodedBlock), xs = (blockOrder s.regs).map F →
          ns = predictedNumbers s.regs (fun br bc => (F (br, bc)).vector s.regs.blockSize.toNat br bc)
            (fun br bc => (F (br, bc)).residuals)) ∧
      (lossy s.regs = false → t.cur = s.cur) ∧
      (∀ r c ch, c < 2 ^ 32 → ch < 2 ^ 8 → ¬ inBlocks s.regs r c ch → t.sample .cur r c ch = s.sample .cur r c ch) ∧
      (∀ br bc d, br < s.regs.height.toNat / s.regs.blockSize.toNat → bc < s.regs.width.toNat / s.regs.blockSize.toNat →
        xs[br * (s.regs.width.toNat / s.regs.blockSize.toNat) + bc]? = some d → BlockCoded s t br bc d) := by
  generalize hB : s.regs.blockSize.toNat = B
  generalize hnc : s.regs.width.toNat / B = nc
  generalize hnr : s.regs.height.toNat / B = nr
  have h3 := channels_le s.regs
  have hwlt := s.regs.width.isLt
  let nums : Nat → CodedBlock → List Int := fun k d =>
    (d.vector B (k / nc) (k % nc)).1 :: (d.vector B (k / nc) (k % nc)).2 :: d.residuals
  obtain ⟨t, xs, e, hlen, ⟨ns, hns, hBeh⟩, hcur, hout, -, -, hall⟩ := blocks_collect
    (f := fun br bc => encodeBlock s.regs (br * B) (bc * B))
    (fun xs x =>
      (∃ ns : List Int, ns = (xs.zipIdx.flatMap fun p => nums p.2 p.1) ∧ Behind s x (codewords s.regs.m.toNat ns)) ∧
      (lossy s.regs = false → x.cur = s.cur) ∧
      (∀ r c ch, c < 2 ^ 32 → ch < 2 ^ 8 → ¬ inBlocks s.regs r c ch → x.sample .cur r c ch = s.sample .cur r c ch) ∧
      (∀ br bc i j ch, br < nr → bc < nc → i < B → j < B → ch < channels s.regs → xs.length ≤ br * nc + bc →
        x.sample .cur (br * B + i) (bc * B + j) ch = s.sample .cur (br * B + i) (bc * B + j) ch) ∧
      (WindowWritten s .cur → WindowWritten s .ref → WindowWritten x .cur) ∧
      (∀ br bc d, br < nr → bc < nc → xs[br * nc + bc]? = some d → BlockCoded s x br bc d))
    nr nc s
    (fun br bc x xs hbr hbc hlen ⟨⟨ns, hns, hBeh⟩, hcur, hout, hnext, hww, hall⟩ => by
      have hregs := behind_regs hBeh
      have hlossy : lossy x.regs = lossy s.regs := by rw [hregs]; rfl
      have hchan : channels x.regs = channels s.regs := by rw [hregs]; rfl
      have hm : x.regs.m = s.regs.m := by rw [hregs]
      have hbs : x.regs.blockSize = s.regs.blockSize := by rw [hregs]
      have hrec : reconstruct x.regs = reconstruct s.regs := by rw [hregs]; rfl
      have htra : transmitted x.regs = transmitted s.regs := by rw [hregs]; rfl
      have hwin : ∀ a b c d, inSearchWindow x.regs a b c d = inSearchWindow s.regs a b c d := by
        intros; rw [hregs]; rfl
      have href : x.ref = s.ref := behind_ref hBeh
      have hrefb : ∀ r c ch, sampleByte x .ref r c ch = sampleByte s .ref r c ch := fun r c ch => by
        show (x.ref.read _).getD _ = (s.ref.read _).getD _; rw [href]
      have hrw : WindowWritten s .ref → WindowWritten x .ref := fun h r c ch hin => by
        have hin' : inWindow s.regs r c ch = true := by rw [hregs] at hin; exact hin
        obtain ⟨v, hv⟩ := h r c ch hin'
        exact ⟨v, by show x.ref.read _ = _; rw [href]; exact hv⟩
      have hbi := block_inside (hnr ▸ hbr : br < s.regs.height.toNat / B)
      have hbj := block_inside (hnc ▸ hbc : bc < s.regs.width.toNat / B)
      have hspec := encodeBlock_spec (s := x) (r0 := br * B) (c0 := bc * B) (by rw [hregs]; exact hc)
        (behind_ready hBeh hr) (behind_holds hBeh) (by rw [hregs]; show br * B + s.regs.blockSize.toNat ≤ _; rw [hB]; exact hbi)
        (by rw [hregs]; show bc * B + s.regs.blockSize.toNat ≤ _; rw [hB]; exact hbj)
      rw [encodeBlock_regs hBeh] at hspec
      simp only [hlossy, hchan, hm, hbs, hB, hrec, htra, hwin, hrefb] at hspec
      obtain ⟨t, r1, c1, ls, e, hBeh', hw1, hl1, hl2, hcur', hout', hin'⟩ := hspec
      have hidx : xs.length = br * nc + bc := hlen
      have hdiv : (br * nc + bc) / nc = br := by
        rw [Nat.add_comm, Nat.add_mul_div_right _ _ (by omega), Nat.div_eq_of_lt hbc, Nat.zero_add]
      have hmod : (br * nc + bc) % nc = bc := by
        rw [Nat.add_comm, Nat.add_mul_mod_self_right, Nat.mod_eq_of_lt hbc]
      -- samples of other blocks
      have hsame : ∀ br' bc' i j ch, bc' < nc → i < B → j < B → ch < channels s.regs →
          ¬ (br' = br ∧ bc' = bc) →
          t.sample .cur (br' * B + i) (bc' * B + j) ch = x.sample .cur (br' * B + i) (bc' * B + j) ch :=
        fun br' bc' i j ch h2 hi hj hch hne => by
          have := block_inside (hnc ▸ h2 : bc' < s.regs.width.toNat / B)
          refine hout' _ _ _ (by omega) (by omega) (fun hin => hne ?_)
          obtain ⟨a1, a2, a3, a4, -⟩ := hin
          have e1 := block_unique hi (by omega : br' * B + i - br * B < B) (by omega : br' * B + i = br * B + (br' * B + i - br * B))
          have e2 := block_unique hj (by omega : bc' * B + j - bc * B < B) (by omega : bc' * B + j = bc * B + (bc' * B + j - bc * B))
          exact ⟨e1.1, e2.1⟩
      have hidx_ne : ∀ br' bc', bc' < nc → br' * nc + bc' ≠ br * nc + bc → ¬ (br' = br ∧ bc' = bc) :=
        fun br' bc' _ h hh => h (by rw [hh.1, hh.2])
      refine ⟨⟨r1, c1, ls⟩, t, e, ⟨ns ++ nums (br * nc + bc) ⟨r1, c1, ls⟩, ?_, ?_⟩, ?_, ?_, ?_, ?_, ?_⟩
      · rw [List.zipIdx_append, List.flatMap_append, ← hns, hidx]; simp
      · rw [codewords_append]
        have k := behind_trans hBeh hBeh'
        have en : nums (br * nc + bc) ⟨r1, c1, ls⟩ =
            ((c1 : Int) - ((bc * B : Nat) : Int)) :: ((r1 : Int) - ((br * B : Nat) : Int)) :: ls := by
          simp only [nums, CodedBlock.vector, hdiv, hmod]
        rw [en]; exact k
      · exact fun hL => (hcur' hL).trans (hcur hL)
      · intro r c ch hc1 hch1 hnot
        rw [hout' r c ch hc1 hch1 (fun hin => hnot ?_), hout r c ch hc1 hch1 hnot]
        obtain ⟨a1, a2, a3, a4, a5⟩ := hin
        have k1 : (br + 1) * B ≤ nr * B := Nat.mul_le_mul_right _ hbr
        have k2 : (bc + 1) * B ≤ nc * B := Nat.mul_le_mul_right _ hbc
        rw [Nat.succ_mul] at k1 k2
        unfold inBlocks
        rw [hB, hnr, hnc]
        exact ⟨by omega, by omega, a5⟩
      · intro br' bc' i j ch h1 h2 hi hj hch hle
        rw [List.length_append, List.length_singleton, hidx] at hle
        rw [hsame br' bc' i j ch h2 hi hj hch (hidx_ne br' bc' h2 (by omega)),
          hnext br' bc' i j ch h1 h2 hi hj hch (by omega)]
      · intro w1 w2 r c ch hin
        have htr : t.regs = { s.regs with bitcnt := t.regs.bitcnt, bitbuf := t.regs.bitbuf } :=
          behind_regs (behind_trans hBeh hBeh')
        have hins : inWindow s.regs r c ch = true := by rw [htr] at hin; exact hin
        have hinx : inWindow x.regs r c ch = true := by rw [hregs]; exact hins
        have hbd := inWindow_bounds hins
        by_cases hrect : InRect (br * B) (bc * B) B B (channels s.regs) r c ch
        · obtain ⟨a1, a2, a3, a4, a5⟩ := hrect
          have hlt : rasterIndex B (channels s.regs) (r - br * B) (c - bc * B) ch < ls.length := by
            rw [hl1]; exact rasterIndex_lt (by omega) (by omega) a5
          have k := ((hin' (hww w1 w2) (hrw w2)).2 (r - br * B) (c - bc * B) ch _ (by omega) (by omega) a5
            (List.getElem?_eq_getElem hlt)).1
          rw [show br * B + (r - br * B) = r by omega, show bc * B + (c - bc * B) = c by omega] at k
          exact ⟨_, k⟩
        · rw [hout' r c ch hbd.1 hbd.2 hrect]
          exact hww w1 w2 r c ch hinx
      · intro br' bc' d h1 h2 hd
        rcases Nat.lt_trichotomy (br' * nc + bc') (br * nc + bc) with hlt | heq | hgt
        · rw [List.getElem?_append_left (by omega)] at hd
          have k := hall br' bc' d h1 h2 hd
          unfold BlockCoded at k ⊢
          rw [hB] at k ⊢
          refine ⟨k.1, k.2.1, k.2.2.1, fun w1 w2 => ⟨(k.2.2.2 w1 w2).1, fun i j ch l hi hj hch hl => ?_⟩⟩
          have := (k.2.2.2 w1 w2).2 i j ch l hi hj hch hl
          rw [hsame br' bc' i j ch h2 hi hj hch (hidx_ne br' bc' h2 (by omega))]
          exact this
        · have hbb : br' = br ∧ bc' = bc := by
            have := block_unique h2 hbc heq
            exact this
          obtain ⟨rfl, rfl⟩ := hbb
          rw [List.getElem?_append_right (by omega), hidx, Nat.sub_self] at hd
          simp only [List.getElem?_cons_zero, Option.some.injEq] at hd
          subst hd
          unfold BlockCoded
          rw [hB]
          -- the block stands in CUR as before the frame
          have hsam : ∀ i j ch, i < B → j < B → ch < channels s.regs →
              x.sample .cur (br' * B + i) (bc' * B + j) ch = s.sample .cur (br' * B + i) (bc' * B + j) ch :=
            fun i j ch hi hj hch => hnext br' bc' i j ch hbr hbc hi hj hch (by omega)
          refine ⟨hw1, hl1, hl2, fun w1 w2 => ⟨?_, fun i j ch l hi hj hch hl => ?_⟩⟩
          · refine firstBest_congr hregs (fun i j ch hi hj hch => ?_) (fun r c ch => ?_) (hin' (hww w1 w2) (hrw w2)).1
            · exact hsam i j ch (hB ▸ hi) (hB ▸ hj) hch
            · show x.ref.read _ = _; rw [href]; rfl
          · have k := (hin' (hww w1 w2) (hrw w2)).2 i j ch l hi hj hch hl
            refine ⟨k.1, ?_⟩
            have : sampleByte x .cur (br' * B + i) (bc' * B + j) ch = sampleByte s .cur (br' * B + i) (bc' * B + j) ch := by
              unfold sampleByte; rw [hsam i j ch hi hj hch]
            rw [← this]; exact k.2
        · rw [List.getElem?_eq_none (by simp [hidx]; omega)] at hd
          cases hd)
    ⟨⟨[], rfl, behind_refl hb⟩, fun _ => rfl, fun _ _ _ _ _ _ => rfl, fun _ _ _ _ _ _ _ _ _ _ _ => rfl, fun w _ => w,
      fun _ _ _ _ _ h => by simp at h⟩
  refine ⟨t, xs, ?_, hlen, ⟨ns, hBeh, fun F hF => ?_⟩, hcur, hout, hall⟩
  · unfold encodePred
    rw [bind_getRegs_apply]
    unfold forBlocks blocksAlong
    rw [hB, hnr, hnc]
    exact e
  · subst hns
    unfold predictedNumbers blockNumbers
    -- the entries with their places are those of the block order
    have key : xs.zipIdx = (blockOrder s.regs).map (fun b => (F b, b.1 * nc + b.2)) := by
      refine blockOrder_map_ext (by simp [hlen, hB, hnr, hnc]) (fun br bc h1 h2 => ?_)
      rw [List.getElem?_zipIdx, hF, List.getElem?_map, blockOrder_getElem? h1 h2, hB, hnc]
      simp
    rw [key, List.flatMap_map]
    refine List.flatMap_congr (fun b hb => ?_)
    have hmem := mem_blockOrder.mp hb
    rw [hB, hnr, hnc] at hmem
    have hdiv : (b.1 * nc + b.2) / nc = b.1 := by
      rw [Nat.add_comm, Nat.add_mul_div_right _ _ (by omega), Nat.div_eq_of_lt hmem.2, Nat.zero_add]
    have hmod : (b.1 * nc + b.2) % nc = b.2 := by
      rw [Nat.add_comm, Nat.add_mul_mod_self_right, Nat.mod_eq_of_lt hmem.2]
    simp only [nums, hdiv, hmod]

/-- Everything that `EncodePred` can do in a session (45_motion.md R207), block by block. -/
theorem encodePred_spec {s : State} (hc : CodingReady s.regs) (hr : sinkReady s = true)
    (hb : bufferHolds s.regs 7 = true) :
    ∃ (t : State) (F : Nat → Nat → CodedBlock), encodePred s = .ok () t ∧
      Behind s t (codewords s.regs.m.toNat (predictedNumbers s.regs
        (fun br bc => CodedBlock.vector (F br bc) s.regs.blockSize.toNat br bc) (fun br bc => (F br bc).residuals))) ∧
      (lossy s.regs = false → t.cur = s.cur) ∧
      (∀ r c ch, c < 2 ^ 32 → ch < 2 ^ 8 → ¬ inBlocks s.regs r c ch → t.sample .cur r c ch = s.sample .cur r c ch) ∧
      (∀ b ∈ blockOrder s.regs, BlockCoded s t b.1 b.2 (F b.1 b.2)) := by
  obtain ⟨t, xs, e, hlen, ⟨ns, hB, hns⟩, hcur, hout, hall⟩ := encodePred_blocks hc hr hb
  let F : Nat → Nat → CodedBlock := fun br bc =>
    (xs[br * (s.regs.width.toNat / s.regs.blockSize.toNat) + bc]?).getD ⟨0, 0, []⟩
  have hF : ∀ br bc, br < s.regs.height.toNat / s.regs.blockSize.toNat → bc < s.regs.width.toNat / s.regs.blockSize.toNat →
      xs[br * (s.regs.width.toNat / s.regs.blockSize.toNat) + bc]? = some (F br bc) := fun br bc h1 h2 => by
    have hlt : br * (s.regs.width.toNat / s.regs.blockSize.toNat) + bc < xs.length := by
      have := Nat.mul_le_mul_right (s.regs.width.toNat / s.regs.blockSize.toNat) h1
      rw [Nat.succ_mul] at this; omega
    simp only [F, List.getElem?_eq_getElem hlt, Option.getD_some]
  have hmap := blockOrder_map_ext (F := fun b => F b.1 b.2) hlen hF
  refine ⟨t, F, e, ?_, hcur, hout, fun b hmem => ?_⟩
  · have := hns _ hmap
    rw [this] at hB; exact hB
  · obtain ⟨h1, h2⟩ := mem_blockOrder.mp hmem
    exact hall b.1 b.2 _ h1 h2 (hF b.1 b.2 h1 h2)

/-! ### Decoding -/

/-- The entries of a list one after the other. -/
def runList {α : Type} (f : α → Action Unit) : List α → Action Unit
  | [] => pure ()
  | a :: rest => do
    f a
    runList f rest

theorem runList_append {α : Type} (f : α → Action Unit) (ys : List α) : ∀ (xs : List α) (s : State),
    runList f (xs ++ ys) s = (runList f xs >>= fun _ => runList f ys) s
  | [], _ => rfl
  | a :: xs, s => by
    show (f a >>= fun _ => runList f (xs ++ ys)) s = ((f a >>= fun _ => runList f xs) >>= fun _ => runList f ys) s
    cases e : f a s with
    | ok _ t =>
      have h : (f a >>= fun _ => runList f xs) s = runList f xs t := bind_of_ok e
      rw [bind_of_ok e, runList_append f ys xs t]
      cases e' : runList f xs t with
      | ok _ u => rw [bind_of_ok e', bind_of_ok (h.trans e')]
      | error c u => rw [bind_of_error e', bind_of_error (h.trans e')]
    | error c t => rw [bind_of_error e, bind_of_error (bind_of_error e)]

/-- A loop is its rounds one after the other. -/
theorem forFrom_eq_runList {f : Nat → Action Unit} {α : Type} {g : α → Action Unit} {L : Nat → List α}
    (h : ∀ i s, f i s = runList g (L i) s) : ∀ (n i : Nat) (s : State),
    forFrom n i f s = runList g ((List.range' i n).flatMap L) s
  | 0, _, _ => rfl
  | n + 1, i, s => by
    rw [List.range'_succ, List.flatMap_cons, runList_append]
    show (f i >>= fun _ => forFrom n (i + 1) f) s = _
    have hi := h i s
    cases e : f i s with
    | ok _ t => rw [bind_of_ok e, bind_of_ok (hi.symm.trans e)]; exact forFrom_eq_runList h n (i + 1) t
    | error c t => rw [bind_of_error e, bind_of_error (hi.symm.trans e)]

/-- The blocks of the partition are visited in its order (45_motion.md R200). -/
theorem forBlocks_eq_runList (g : Regs) (f : Nat → Nat → Action Unit) (s : State) :
    forBlocks g f s = runList (fun b => f (b.1 * g.blockSize.toNat) (b.2 * g.blockSize.toNat)) (blockOrder g) s := by
  have h1 : ∀ (br bc : Nat) (s : State), f (br * g.blockSize.toNat) (bc * g.blockSize.toNat) s =
      runList (fun b : Nat × Nat => f (b.1 * g.blockSize.toNat) (b.2 * g.blockSize.toNat)) [(br, bc)] s := fun br bc s => by
    show _ = (f _ _ >>= fun _ => (pure () : Action Unit)) s
    cases e : f (br * g.blockSize.toNat) (bc * g.blockSize.toNat) s with
    | ok _ t => rw [bind_of_ok e]; rfl
    | error c t => rw [bind_of_error e]
  have h2 := fun br s => forFrom_eq_runList (fun bc s => h1 br bc s) (blocksAlong g.width g.blockSize) 0 s
  have h3 := forFrom_eq_runList h2 (blocksAlong g.height g.blockSize) 0 s
  unfold forBlocks
  rw [h3]
  unfold blockOrder blocksAlong
  simp only [List.range_eq_range']
  congr 2
  funext br
  rw [List.map_eq_flatMap]

theorem blockOrder_nodup (g : Regs) : (blockOrder g).Nodup :=
  (List.nodup_range (n := g.height.toNat / g.blockSize.toNat)).product
    (List.nodup_range (n := g.width.toNat / g.blockSize.toNat))

/-- The check of 45_motion.md R208 is that of the view. -/
theorem vectorInside_iff {g : Regs} {b : Nat × Nat} {v : Int × Int} :
    vectorInside g (b.1 * g.blockSize.toNat) (b.2 * g.blockSize.toNat) v.1 v.2 = true ↔ ReferenceInside g b v := by
  unfold vectorInside ReferenceInside
  simp only [decide_eq_true_eq]
  omega

/-- The sample lies in the block. -/
abbrev InBlock (g : Regs) (b : Nat × Nat) (r c ch : Nat) : Prop :=
  InRect (b.1 * g.blockSize.toNat) (b.2 * g.blockSize.toNat) g.blockSize.toNat g.blockSize.toNat (channels g) r c ch

/-- Everything that decoding some blocks of the partition can do in a session, when vectors that stay inside the frame and
their residuals stand in the stream (45_motion.md R208). -/
theorem decodeBlocks_spec {s : State} (hc : CodingReady s.regs) (hb : bufferHolds s.regs 8 = true)
    (vec : Nat → Nat → Int × Int) (res : Nat → Nat → List Int) {bs : List (Nat × Nat)} :
    ∀ {rest : List Bool}, bs.Nodup → (∀ b ∈ bs, b ∈ blockOrder s.regs ∧ BlockFine s.regs vec res b) →
    unreadBits s = codewords s.regs.m.toNat (blockNumbers vec res bs) ++ rest →
    ∃ t, runList (fun b => decodeBlock s.regs (b.1 * s.regs.blockSize.toNat) (b.2 * s.regs.blockSize.toNat)) bs s =
        .ok () t ∧
      Taken s t (codewords s.regs.m.toNat (blockNumbers vec res bs)) ∧
      (∀ r c ch, c < 2 ^ 32 → ch < 2 ^ 8 → (∀ b ∈ bs, ¬ InBlock s.regs b r c ch) →
        t.sample .cur r c ch = s.sample .cur r c ch) ∧
      (∀ b ∈ bs, BlockDecoded s t b (vec b.1 b.2) (res b.1 b.2)) := by
  have h3 := channels_le s.regs
  have hwlt := s.regs.width.isLt
  induction bs using List.reverseRecOn with
  | nil => exact fun _ _ _ => ⟨s, rfl, taken_refl hb, fun _ _ _ _ _ _ => rfl, fun _ h => absurd h (by simp)⟩
  | append_singleton bs b ih =>
    intro rest hnd hall hrest
    have hnum : blockNumbers vec res (bs ++ [b]) =
        blockNumbers vec res bs ++ ((vec b.1 b.2).1 :: (vec b.1 b.2).2 :: res b.1 b.2) := by
      simp [blockNumbers]
    rw [hnum, codewords_append] at hrest ⊢
    rw [List.append_assoc] at hrest
    have hnd' := List.nodup_append.mp hnd
    obtain ⟨x, e, hT, hout, hsm⟩ := ih hnd'.1 (fun b' hb' => hall b' (List.mem_append_left _ hb')) hrest
    have hnot : ∀ b' ∈ bs, b' ≠ b := fun b' hb' => hnd'.2.2 b' hb' b (by simp)
    obtain ⟨hmem, hin, hf1, hf2, hl1, hl2⟩ := hall b (by simp)
    have hmem := mem_blockOrder.mp hmem
    have hregs := taken_regs hT
    have hchan : channels x.regs = channels s.regs := by rw [hregs]; rfl
    have hm : x.regs.m = s.regs.m := by rw [hregs]
    have hbs : x.regs.blockSize = s.regs.blockSize := by rw [hregs]
    have hrec : reconstruct x.regs = reconstruct s.regs := by rw [hregs]; rfl
    have href : ∀ r c ch, x.sample .ref r c ch = s.sample .ref r c ch := fun r c ch => by
      show x.ref.read _ = s.ref.read _; rw [taken_ref hT]
    have hspec := decodeBlock_spec (s := x) (r0 := b.1 * s.regs.blockSize.toNat) (c0 := b.2 * s.regs.blockSize.toNat)
      (dx := (vec b.1 b.2).1) (dy := (vec b.1 b.2).2) (ls := res b.1 b.2) (by rw [hregs]; exact hc) (taken_holds hT)
      (by rw [hbs, hregs]; exact block_inside hmem.2) (by rw [hregs]; exact vectorInside_iff.mpr hin) hf1 hf2 (by rw [hbs, hchan]; exact hl1) hl2
      (by rw [hm]; exact taken_unread hT hrest)
    rw [decodeBlock_regs hT] at hspec
    simp only [hchan, hm, hbs, hrec, href] at hspec
    obtain ⟨t, e', hT', hout', hsm'⟩ := hspec
    refine ⟨t, ?_, taken_trans hT hT', fun r c ch h1 h2 h => ?_, fun b' hb' i j ch l y hi hj hch hl hy => ?_⟩
    · rw [runList_append, bind_of_ok e]
      show (decodeBlock s.regs _ _ >>= fun _ => pure ()) x = _
      rw [bind_of_ok e']; rfl
    · rw [hout' r c ch h1 h2 (h b (by simp)), hout r c ch h1 h2 (fun b' hb' => h b' (List.mem_append_left _ hb'))]
    · rcases List.mem_append.mp hb' with hb1 | hb1
      · have hmem' := mem_blockOrder.mp (hall b' hb').1
        have hbi := block_inside hmem'.2
        rw [hout' _ _ _ (by omega) (by omega) (fun hin => hnot b' hb1 ?_)]
        · exact hsm b' hb1 i j ch l y hi hj hch hl hy
        · obtain ⟨a1, a2, a3, a4, -⟩ := hin
          generalize s.regs.blockSize.toNat = B at *
          have e1 := block_unique hi (by omega : b'.1 * B + i - b.1 * B < B)
            (by omega : b'.1 * B + i = b.1 * B + (b'.1 * B + i - b.1 * B))
          have e2 := block_unique hj (by omega : b'.2 * B + j - b.2 * B < B)
            (by omega : b'.2 * B + j = b.2 * B + (b'.2 * B + j - b.2 * B))
          exact Prod.ext e1.1 e2.1
      · rw [List.mem_singleton] at hb1
        subst hb1
        exact hsm' i j ch l y hi hj hch hl hy

/-- A sample of a block of the partition lies in the partition. -/
theorem inBlocks_of_inBlock {g : Regs} {b : Nat × Nat} {r c ch : Nat} (hb : b ∈ blockOrder g) (h : InBlock g b r c ch) :
    inBlocks g r c ch := by
  obtain ⟨h1, h2⟩ := mem_blockOrder.mp hb
  obtain ⟨a1, a2, a3, a4, a5⟩ := h
  have k1 := Nat.mul_le_mul_right g.blockSize.toNat h1
  have k2 := Nat.mul_le_mul_right g.blockSize.toNat h2
  rw [Nat.succ_mul] at k1 k2
  exact ⟨by omega, by omega, a5⟩

theorem decodePred_eq (s : State) : decodePred s =
    runList (fun b => decodeBlock s.regs (b.1 * s.regs.blockSize.toNat) (b.2 * s.regs.blockSize.toNat))
      (blockOrder s.regs) s := by
  unfold decodePred
  rw [bind_getRegs_apply, forBlocks_eq_runList]

/-- Everything that `DecodePred` can do in a session, when vectors that stay inside the frame and residuals for every
block stand in the stream (45_motion.md R208). -/
theorem decodePred_spec {s : State} (hc : CodingReady s.regs) (hb : bufferHolds s.regs 8 = true)
    (vec : Nat → Nat → Int × Int) (res : Nat → Nat → List Int) {rest : List Bool}
    (hall : ∀ b ∈ blockOrder s.regs, BlockFine s.regs vec res b)
    (hrest : unreadBits s = codewords s.regs.m.toNat (predictedNumbers s.regs vec res) ++ rest) :
    ∃ t, decodePred s = .ok () t ∧ Taken s t (codewords s.regs.m.toNat (predictedNumbers s.regs vec res)) ∧
      (∀ r c ch, c < 2 ^ 32 → ch < 2 ^ 8 → ¬ inBlocks s.regs r c ch → t.sample .cur r c ch = s.sample .cur r c ch) ∧
      (∀ b ∈ blockOrder s.regs, BlockDecoded s t b (vec b.1 b.2) (res b.1 b.2)) := by
  obtain ⟨t, e, hT, hout, hsm⟩ := decodeBlocks_spec hc hb vec res (blockOrder_nodup s.regs)
    (fun b hb => ⟨hb, hall b hb⟩) hrest
  exact ⟨t, (decodePred_eq s).trans e, hT,
    fun r c ch h1 h2 hn => hout r c ch h1 h2 (fun b hb hi => hn (inBlocks_of_inBlock hb hi)), hsm⟩

/-- `DecodePred` on a block whose decoded vector leaves the frame: OutOfBounds once the blocks before it are decoded and
the two numbers of the vector are read (45_motion.md R208). -/
theorem decodePred_outside {s : State} (hc : CodingReady s.regs) (hb : bufferHolds s.regs 8 = true)
    (vec : Nat → Nat → Int × Int) (res : Nat → Nat → List Int) {good more : List (Nat × Nat)} {b : Nat × Nat}
    {rest : List Bool} (horder : blockOrder s.regs = good ++ b :: more)
    (hall : ∀ b ∈ good, BlockFine s.regs vec res b)
    (hout : ¬ ReferenceInside s.regs b (vec b.1 b.2))
    (hdx : fits32 (vec b.1 b.2).1 = true) (hdy : fits32 (vec b.1 b.2).2 = true)
    (hrest : unreadBits s = codewords s.regs.m.toNat
      (blockNumbers vec res good ++ [(vec b.1 b.2).1, (vec b.1 b.2).2]) ++ rest) :
    ∃ t, decodePred s = .error .outOfBounds t ∧
      Taken s t (codewords s.regs.m.toNat (blockNumbers vec res good ++ [(vec b.1 b.2).1, (vec b.1 b.2).2])) ∧
      (∀ r c ch, c < 2 ^ 32 → ch < 2 ^ 8 → (∀ b ∈ good, ¬ InBlock s.regs b r c ch) →
        t.sample .cur r c ch = s.sample .cur r c ch) ∧
      (∀ b ∈ good, BlockDecoded s t b (vec b.1 b.2) (res b.1 b.2)) := by
  have hnd := blockOrder_nodup s.regs
  rw [horder] at hnd
  rw [codewords_append, List.append_assoc] at hrest
  obtain ⟨x, e, hT, hun, hsm⟩ := decodeBlocks_spec hc hb vec res (List.nodup_append.mp hnd).1
    (fun b' hb' => ⟨by rw [horder]; exact List.mem_append_left _ hb', hall b' hb'⟩) hrest
  have hm : x.regs.m = s.regs.m := by rw [taken_regs hT]
  have u0 := taken_unread hT hrest
  rw [codewords_cons, codewords_singleton, List.append_assoc] at u0
  obtain ⟨t1, e1, a1⟩ := golombDecode_consumes hdx (s := x) (by rw [hm]; exact hc.1) (taken_holds hT) (by rw [hm]; exact u0)
  rw [hm] at a1
  have b1 : Taken s t1 (codewords s.regs.m.toNat (blockNumbers vec res good) ++ codeword s.regs.m.toNat (vec b.1 b.2).1) := by
    have k := taken_next (n := x.draws) hT a1 t1.cur t1.draws
    exact k
  have m1 : t1.regs.m = s.regs.m := by rw [taken_regs b1]
  have u1 := consumesBits_rest a1 u0
  obtain ⟨t2, e2, a2⟩ := golombDecode_consumes hdy (s := t1) (by rw [m1]; exact hc.1) (taken_holds b1) (by rw [m1]; exact u1)
  rw [m1] at a2
  have b2 := taken_next (n := t1.draws) b1 a2 t2.cur t2.draws
  have hcur : t2.cur = x.cur := by
    have k1 := congrArg State.cur a1.2.2
    have k2 := congrArg State.cur a2.2.2
    exact Eq.trans k2 k1
  have hsame : ∀ r c ch, t2.sample .cur r c ch = x.sample .cur r c ch := fun r c ch => by
    show t2.cur.read _ = x.cur.read _; rw [hcur]
  refine ⟨t2, ?_, ?_, fun r c ch h1 h2 h => ?_, fun b' hb' i j ch l y hi hj hch hl hy => ?_⟩
  · rw [decodePred_eq, horder, runList_append, bind_of_ok e]
    refine bind_of_error ?_
    show decodeBlock s.regs _ _ x = _
    unfold decodeBlock
    rw [bind_of_ok e1, bind_of_ok e2, bind_require_apply, if_neg (fun h => hout (vectorInside_iff.mp h))]
  · rw [codewords_append, codewords_cons, codewords_singleton, ← List.append_assoc]
    exact b2
  · rw [hsame]; exact hun r c ch h1 h2 h
  · rw [hsame]; exact hsm b' hb' i j ch l y hi hj hch hl hy

end Sys2Proof.Machine
end

