-- ==== Sys2Proof/Laws/Refused.lean ====
section
/-! SUPPORT. A byte that SINK refuses (40_bitio.md R121, 60_exceptions.md R260, R267): what completes on a sink that takes
every byte ends, on one that answers `ioerr` within the bytes it hands over, in IoError with the bytes before delivered.
Said for each writing procedure by comparing the two runs. -/

namespace Sys2Proof.Machine

/-- The states `s` and `s'` differ in the answers of SINK only: that of `s'` takes every byte, that of `s` refuses the byte
after the first `total` and then has the answers `more`. -/
def Refusing (more : List IoAnswer) (total : Nat) (s s' : State) : Prop :=
  ∃ j, s.env.sinkAnswers = List.replicate j .ok ++ .ioerr :: more ∧ s.env.sinkOut.length + j = total ∧
    s' = { s with env := { s.env with sinkAnswers := [] } }

/-- The state `u` is one after the refused byte: `total` bytes are delivered, and they begin those of `t'`. -/
def Refused (more : List IoAnswer) (total : Nat) (u t' : State) : Prop :=
  u.env.sinkOut <+: t'.env.sinkOut ∧ u.env.sinkOut.length = total ∧ u.env.sinkAnswers = more

/-- On a sink that refuses a byte, `x` does what it does on one that takes all, or it ends in IoError at that byte. -/
def Refuses {α : Type} (more : List IoAnswer) (total : Nat) (x : Action α) : Prop :=
  (∀ s a t, x s = .ok a t → s.env.sinkOut <+: t.env.sinkOut) ∧
  ∀ s s' a t', Refusing more total s s' → x s' = .ok a t' →
    (∃ t, x s = .ok a t ∧ Refusing more total t t') ∨ (∃ u, x s = .error .ioError u ∧ Refused more total u t')

section
variable {α β : Type} {more : List IoAnswer} {total : Nat}

theorem refuses_bind {x : Action α} {f : α → Action β} (hx : Refuses more total x)
    (hf : ∀ a, Refuses more total (f a)) : Refuses more total (x >>= f) := by
  refine ⟨fun s b u e => ?_, fun s s' b u' h e => ?_⟩
  · obtain ⟨a, t, e1, e2⟩ := bind_ok_iff.mp e
    exact (hx.1 s a t e1).trans ((hf a).1 t b u e2)
  · obtain ⟨a, t', e1, e2⟩ := bind_ok_iff.mp e
    rcases hx.2 s s' a t' h e1 with ⟨t, e3, ht⟩ | ⟨u, e3, hu⟩
    · rw [bind_of_ok e3]
      exact (hf a).2 t t' b u' ht e2
    · exact .inr ⟨u, bind_of_error e3, hu.1.trans ((hf a).1 t' b u' e2), hu.2⟩

/-- An action that leaves SINK alone and does not look at its answers. -/
theorem refuses_inert {x : Action α} (hsink : ∀ s a t, x s = .ok a t → t.env.sinkOut = s.env.sinkOut)
    (hsame : ∀ (s : State) (ans : List IoAnswer) a t',
      x { s with env := { s.env with sinkAnswers := ans } } = .ok a t' →
      ∃ t, x s = .ok a t ∧ t.env.sinkAnswers = s.env.sinkAnswers ∧
        t' = { t with env := { t.env with sinkAnswers := ans } }) : Refuses more total x := by
  refine ⟨fun s a t e => by rw [hsink s a t e], fun s s' a t' ⟨j, h1, h2, h3⟩ e => .inl ?_⟩
  subst h3
  obtain ⟨t, e', ht, rfl⟩ := hsame s [] a t' e
  exact ⟨t, e', j, by rw [ht, h1], by rw [hsink s a t e', h2], rfl⟩

theorem refuses_pure (a : α) : Refuses more total (pure a : Action α) := by
  refine refuses_inert (fun s b t e => ?_) (fun s ans b t' e => ?_)
  · obtain ⟨-, rfl⟩ : a = b ∧ s = t := by simpa using e
    rfl
  · obtain ⟨rfl, rfl⟩ : a = b ∧ _ = t' := by simpa using e
    exact ⟨s, rfl, rfl, rfl⟩

theorem refuses_raise (c : Cause) : Refuses more total (raise c : Action α) :=
  ⟨fun _ _ _ e => (nomatch e), fun _ _ _ _ _ e => (nomatch e)⟩

theorem refuses_require (b : Bool) (c : Cause) : Refuses more total (require b c) := by
  cases b
  · exact refuses_raise c
  · exact refuses_pure ()

theorem refuses_onlyIf {b : Bool} {x : Action Unit} (h : b = true → Refuses more total x) :
    Refuses more total (onlyIf b x) := by
  cases b
  · exact refuses_pure ()
  · exact h rfl

theorem refuses_getRegs : Refuses more total getRegs := by
  refine refuses_inert (fun s b t e => ?_) (fun s ans b t' e => ?_)
  · cases e; rfl
  · cases e; exact ⟨s, rfl, rfl, rfl⟩

theorem refuses_modifyRegs (f : Regs → Regs) : Refuses more total (modifyRegs f) := by
  refine refuses_inert (fun s b t e => ?_) (fun s ans b t' e => ?_)
  · cases e; rfl
  · cases e; exact ⟨_, rfl, rfl, rfl⟩

theorem refuses_requireMode (m : Mode) : Refuses more total (requireMode m) := by
  refine refuses_inert (fun s b t e => ?_) (fun s ans b t' e => ?_)
  · unfold requireMode at e; split at e
    · cases e; rfl
    · cases e
  · unfold requireMode at e ⊢
    by_cases h : s.regs.mode = m
    · rw [if_pos h] at e ⊢; cases e; exact ⟨s, rfl, rfl, rfl⟩
    · rw [if_neg h] at e; cases e

theorem refuses_requireSess (m : Sess) : Refuses more total (requireSess m) := by
  refine refuses_inert (fun s b t e => ?_) (fun s ans b t' e => ?_)
  · unfold requireSess at e; split at e
    · cases e; rfl
    · cases e
  · unfold requireSess at e ⊢
    by_cases h : s.regs.sess = m
    · rw [if_pos h] at e ⊢; cases e; exact ⟨s, rfl, rfl, rfl⟩
    · rw [if_neg h] at e; cases e

theorem refuses_checkHeader (w : Bool) (x : Header) : Refuses more total (checkHeader w x) := by
  refine refuses_inert (fun s b t e => ?_) (fun s ans b t' e => ?_)
  · unfold checkHeader at e; split at e
    · cases e; rfl
    · cases e
  · unfold checkHeader at e ⊢
    dsimp only at e
    cases h : validateHeader s.par s.regs w x with
    | none => rw [h] at e; cases e; exact ⟨s, rfl, rfl, rfl⟩
    | some c => rw [h] at e; cases e

theorem refuses_readSample (b : Buffer) (r c ch : Nat) : Refuses more total (readSample b r c ch) := by
  have hs : ∀ (s : State) ans, State.sample { s with env := { s.env with sinkAnswers := ans } } b r c ch =
      s.sample b r c ch := fun s ans => by cases b <;> rfl
  refine refuses_inert (fun s v t e => ?_) (fun s ans v t' e => ?_)
  · obtain ⟨w, n, e', -⟩ := readSample_cases b r c ch s
    rw [e'] at e
    cases e; rfl
  · unfold readSample at e ⊢
    rw [hs] at e
    cases h : s.sample b r c ch with
    | some w => rw [h] at e; cases e; exact ⟨s, rfl, rfl, rfl⟩
    | none => rw [h] at e; cases e; exact ⟨_, rfl, rfl, rfl⟩

theorem refuses_writeSample (b : Buffer) (r c ch : Nat) (v : Byte) : Refuses more total (writeSample b r c ch v) := by
  refine refuses_inert (fun s a t e => ?_) (fun s ans a t' e => ?_)
  · cases e; cases b <;> rfl
  · cases e; exact ⟨_, rfl, by cases b <;> rfl, by cases b <;> rfl⟩

theorem refuses_abandonSource : Refuses more total abandonSource := by
  have h : ∀ e : Env, e.dropSource.sinkOut = e.sinkOut ∧ e.dropSource.sinkAnswers = e.sinkAnswers := fun e => by
    unfold Env.dropSource; split <;> exact ⟨rfl, rfl⟩
  refine refuses_inert (fun s a t e => ?_) (fun s ans a t' e => ?_)
  · cases e; exact (h s.env).1
  · cases e
    refine ⟨_, rfl, (h s.env).2, ?_⟩
    unfold Env.dropSource
    dsimp only
    cases s.env.nextSources <;> rfl

theorem refuses_foldFrom {f : Nat → α → Action α} (hf : ∀ i a, Refuses more total (f i a)) :
    ∀ (n i : Nat) (a : α), Refuses more total (foldFrom n i f a)
  | 0, _, a => refuses_pure a
  | n + 1, i, a => refuses_bind (hf i a) (fun b => refuses_foldFrom hf n (i + 1) b)

theorem refuses_forFrom {f : Nat → Action Unit} (hf : ∀ i, Refuses more total (f i)) (n i : Nat) :
    Refuses more total (forFrom n i f) :=
  refuses_foldFrom (fun i _ => hf i) n i ()

theorem refuses_sinkPut (b : Byte) : Refuses more total (sinkPut b) := by
  refine ⟨fun s a t e => ?_, fun s s' a t' ⟨j, h1, h2, h3⟩ e => ?_⟩
  · unfold sinkPut at e
    cases hs : s.env.sinkAnswers with
    | nil => rw [hs] at e; cases e; exact List.prefix_append _ _
    | cons x rest =>
      rw [hs] at e
      cases x with
      | ok => cases e; exact List.prefix_append _ _
      | ioerr => cases e
  · subst h3
    unfold sinkPut at e
    cases e
    unfold sinkPut
    cases j with
    | zero =>
      right
      have h4 : s.env.sinkAnswers = .ioerr :: more := h1
      rw [h4]
      exact ⟨_, rfl, List.prefix_append _ _, h2, rfl⟩
    | succ j =>
      left
      have h4 : s.env.sinkAnswers = .ok :: (List.replicate j .ok ++ .ioerr :: more) := h1
      rw [h4]
      exact ⟨_, rfl, j, rfl, by simp; omega, rfl⟩

theorem refuses_putBit (b : Bool) : Refuses more total (putBit b) :=
  refuses_bind refuses_getRegs fun _ => refuses_bind (refuses_modifyRegs _) fun _ => refuses_onlyIf fun _ =>
    refuses_bind (refuses_sinkPut _) fun _ => refuses_modifyRegs _

theorem refuses_putBits (v : Nat) : ∀ n, Refuses more total (putBits v n)
  | 0 => refuses_pure _
  | n + 1 => refuses_bind (refuses_putBit _) fun _ => refuses_putBits v n

theorem refuses_putOnes : ∀ q, Refuses more total (putOnes q)
  | 0 => refuses_pure _
  | q + 1 => refuses_bind (refuses_putBit _) fun _ => refuses_putOnes q

theorem refuses_golombEncode (n : Int) : Refuses more total (golombEncode n) := by
  refine refuses_bind refuses_getRegs fun _ => refuses_bind (refuses_require _ _) fun _ =>
    refuses_bind (refuses_putOnes _) fun _ => refuses_bind (refuses_putBit _) fun _ => ?_
  dsimp only
  split <;> exact refuses_bind (refuses_putBits _ _) fun _ => refuses_putBit _

theorem refuses_flushPair : Refuses more total flushPair :=
  refuses_bind refuses_getRegs fun _ => refuses_bind (refuses_golombEncode _) fun _ =>
    refuses_bind (refuses_golombEncode _) fun _ => refuses_modifyRegs _

theorem refuses_orInvalidState (x : Option Int) : Refuses more total (orInvalidState x) := by
  cases x
  · exact refuses_raise _
  · exact refuses_pure _

theorem refuses_encodeResidual (b : Bool) (r c ch : Nat) (p : Int) : Refuses more total (encodeResidual b r c ch p) := by
  refine refuses_bind (refuses_readSample _ _ _ _) fun _ => ?_
  cases b
  · exact refuses_golombEncode _
  · exact refuses_bind (refuses_bind refuses_getRegs fun _ => refuses_orInvalidState _) fun _ =>
      refuses_bind (refuses_golombEncode _) fun _ =>
      refuses_bind (refuses_bind refuses_getRegs fun _ => refuses_orInvalidState _) fun _ => refuses_writeSample _ _ _ _ _

theorem refuses_neighbour (b : Bool) (r c ch : Nat) : Refuses more total (neighbour b r c ch) := by
  cases b
  · exact refuses_pure 0
  · exact refuses_bind (refuses_readSample _ _ _ _) fun _ => refuses_pure _

theorem refuses_predict (r c ch : Nat) : Refuses more total (predict r c ch) :=
  refuses_bind (refuses_neighbour _ _ _ _) fun _ => refuses_bind (refuses_neighbour _ _ _ _) fun _ =>
    refuses_bind (refuses_neighbour _ _ _ _) fun _ => refuses_pure _

theorem refuses_blockCost (g : Regs) (r0 c0 r1 c1 : Nat) : Refuses more total (blockCost g r0 c0 r1 c1) :=
  refuses_foldFrom (fun _ _ => refuses_foldFrom (fun _ _ => refuses_foldFrom (fun _ _ =>
    refuses_bind (refuses_readSample _ _ _ _) fun _ => refuses_bind (refuses_readSample _ _ _ _) fun _ =>
      refuses_pure _) _ _ _) _ _ _) _ _ _

theorem refuses_matchSearch (g : Regs) (r0 c0 : Nat) : Refuses more total (matchSearch g r0 c0) := by
  refine refuses_bind (refuses_blockCost _ _ _ _ _) fun k => ?_
  split
  · exact refuses_pure _
  · exact refuses_bind (refuses_foldFrom (fun _ _ => refuses_foldFrom (fun _ _ =>
      refuses_bind (refuses_blockCost _ _ _ _ _) fun _ => refuses_pure _) _ _ _) _ _ _) fun _ => refuses_pure _

theorem refuses_encodeIntra : Refuses more total encodeIntra :=
  refuses_bind refuses_getRegs fun _ =>
    refuses_forFrom (fun _ => refuses_forFrom (fun _ => refuses_forFrom (fun _ =>
      refuses_bind (refuses_predict _ _ _) fun _ => refuses_encodeResidual _ _ _ _ _) _ _) _ _) _ _

theorem refuses_encodePred : Refuses more total encodePred :=
  refuses_bind refuses_getRegs fun _ =>
    refuses_forFrom (fun _ => refuses_forFrom (fun _ =>
      refuses_bind (refuses_matchSearch _ _ _) fun _ => refuses_bind (refuses_golombEncode _) fun _ =>
      refuses_bind (refuses_golombEncode _) fun _ =>
        refuses_forFrom (fun _ => refuses_forFrom (fun _ => refuses_forFrom (fun _ =>
          refuses_bind (refuses_readSample _ _ _ _) fun _ => refuses_encodeResidual _ _ _ _ _) _ _) _ _) _ _) _ _) _ _

theorem refuses_copyCurToRef (i : Word) : Refuses more total (copyCurToRef i) :=
  refuses_bind refuses_getRegs fun _ => refuses_bind
    (refuses_forFrom (fun _ => refuses_forFrom (fun _ => refuses_forFrom (fun _ =>
      refuses_bind (refuses_readSample _ _ _ _) fun _ => refuses_writeSample _ _ _ _ _) _ _) _ _) _ _)
    fun _ => refuses_modifyRegs _

theorem refuses_putHeader (g : Regs) : Refuses more total (putHeader g) := by
  have p := fun v n => refuses_putBits (more := more) (total := total) v n
  exact refuses_bind (p _ _) fun _ => refuses_bind (p _ _) fun _ => refuses_bind (p _ _) fun _ =>
    refuses_bind (p _ _) fun _ => refuses_bind (p _ _) fun _ => refuses_bind (p _ _) fun _ =>
    refuses_bind (refuses_onlyIf fun _ => refuses_bind (p _ _) fun _ => refuses_bind (p _ _) fun _ => p _ _) fun _ =>
    refuses_onlyIf fun _ => refuses_bind (p _ _) fun _ => refuses_bind (p _ _) fun _ => p _ _

/-! ### The bodies of the commands that write -/

theorem refuses_putbitBody (b : BitVec 1) : Refuses more total (putbitBody b) :=
  refuses_bind (refuses_requireMode _) fun _ => refuses_bind (refuses_putBit _) fun _ => refuses_pure _

theorem refuses_putbitsBody (n : BitVec 8) (v : Word) : Refuses more total (putbitsBody n v) :=
  refuses_bind (refuses_requireMode _) fun _ => refuses_bind (refuses_putBits _ _) fun _ => refuses_pure _

theorem refuses_gencBody (n : Word) : Refuses more total (gencBody n) :=
  refuses_bind (refuses_requireMode _) fun _ => refuses_bind (refuses_golombEncode _) fun _ => refuses_pure _

theorem refuses_rpushBody (v : Word) : Refuses more total (rpushBody v) :=
  refuses_bind (refuses_requireMode _) fun _ => refuses_bind refuses_getRegs fun _ =>
    refuses_bind (refuses_require _ _) fun _ => refuses_bind (refuses_onlyIf fun _ => refuses_flushPair) fun _ =>
    refuses_bind (refuses_modifyRegs _) fun _ => refuses_pure _

theorem refuses_rflushBody : Refuses more total rflushBody :=
  refuses_bind (refuses_requireMode _) fun _ => refuses_bind refuses_getRegs fun _ =>
    refuses_bind (refuses_onlyIf fun _ => refuses_flushPair) fun _ => refuses_pure _

theorem refuses_bcloseBody : Refuses more total bcloseBody :=
  refuses_bind refuses_getRegs fun _ => refuses_bind (refuses_require _ _) fun _ =>
    refuses_bind (refuses_onlyIf fun _ => refuses_bind refuses_getRegs fun _ =>
      refuses_bind (refuses_onlyIf fun _ => refuses_flushPair) fun _ => refuses_bind refuses_getRegs fun _ =>
        refuses_onlyIf fun _ => refuses_sinkPut _) fun _ =>
    refuses_bind (refuses_onlyIf fun _ => refuses_abandonSource) fun _ =>
    refuses_bind (refuses_modifyRegs _) fun _ => refuses_pure _

theorem refuses_wrhdrBody : Refuses more total wrhdrBody :=
  refuses_bind (refuses_requireMode _) fun _ => refuses_bind (refuses_requireSess _) fun _ =>
    refuses_bind refuses_getRegs fun _ => refuses_bind (refuses_checkHeader _ _) fun _ =>
    refuses_bind (refuses_putHeader _) fun _ => refuses_bind (refuses_modifyRegs _) fun _ => refuses_pure _

theorem refuses_encfBody : Refuses more total encfBody := by
  refine refuses_bind (refuses_requireMode _) fun _ => refuses_bind
    (refuses_bind (refuses_requireSess _) fun _ => refuses_bind refuses_getRegs fun _ => refuses_require _ _) fun _ =>
    refuses_bind refuses_getRegs fun _ => refuses_bind ?_ fun _ => refuses_bind (refuses_modifyRegs _) fun _ =>
      refuses_pure _
  unfold typedFrame
  split
  · exact refuses_bind refuses_encodeIntra fun _ => refuses_bind
      (refuses_onlyIf fun _ => refuses_copyCurToRef _) fun _ => refuses_pure _
  · exact refuses_bind refuses_encodePred fun _ => refuses_pure _

/-- A command that writes bits, or BCLOSE. -/
theorem refuses_bodyOf {i : Instr} (h : neededMode i = some .write ∨ i = .bclose) : Refuses more total (bodyOf i) := by
  rcases h with h | rfl
  · cases i <;> first | (dsimp only [neededMode] at h; cases h; done) | skip
    · exact refuses_putbitBody _
    · exact refuses_putbitsBody _ _
    · exact refuses_gencBody _
    · exact refuses_rpushBody _
    · exact refuses_rflushBody
    · exact refuses_wrhdrBody
    · exact refuses_encfBody
  · exact refuses_bcloseBody

end
end Sys2Proof.Machine
end

