-- ==== Sys2Proof/Laws/Sessions.lean ====
section
/-! SUPPORT. The frame around its coding: the preconditions of ENCF and DECF, the choice of the frame type, the copy to
REF and the advance of FRAME_IDX (46_container.md R232, R233, R235, R236). -/

namespace Sys2Proof.Machine

/-- The frame type that the meaning chooses is that of the view (46_container.md R232). -/
theorem frameIsIntra_eq (g : Regs) : frameIsIntra g = intraNext g := by
  unfold frameIsIntra intraNext
  cases hybrid g <;> simp

/-- The preconditions of a frame command pass inside a session that has a frame left. -/
theorem requireFrame_ok {s : State} (hs : s.regs.sess = .headerDone)
    (hi : s.regs.frameIdx.toNat < s.regs.frameCount.toNat) : requireFrame s = .ok () s := by
  unfold requireFrame
  rw [bind_requireSess_apply, if_pos hs, bind_getRegs_apply, decide_eq_true hi]; rfl

theorem encfBody_eq {s : State} (hm : s.regs.mode = .write) (hs : s.regs.sess = .headerDone)
    (hi : s.regs.frameIdx.toNat < s.regs.frameCount.toNat) : encfBody s = codeFrame encodeIntra encodePred s := by
  unfold encfBody
  rw [bind_requireMode_apply, if_pos hm, bind_of_ok (requireFrame_ok hs hi)]

theorem decfBody_eq {s : State} (hm : s.regs.mode = .read) (hs : s.regs.sess = .headerDone)
    (hi : s.regs.frameIdx.toNat < s.regs.frameCount.toNat) : decfBody s = codeFrame decodeIntra decodePred s := by
  unfold decfBody
  rw [bind_requireMode_apply, if_pos hm, bind_of_ok (requireFrame_ok hs hi)]

/-- A predicted frame: its coding, then FRAME_IDX. -/
theorem codeFrame_predicted {s t : State} {intra predicted : Action Unit} (hi : intraNext s.regs = false)
    (h : predicted s = .ok () t) :
    codeFrame intra predicted s =
      .ok 1#32 { t with regs := { t.regs with frameIdx := s.regs.frameIdx + 1#32 } } := by
  unfold codeFrame typedFrame
  rw [bind_getRegs_apply, frameIsIntra_eq, hi]
  simp only [Bool.false_eq_true, if_false]
  have e : predictedFrame predicted s = .ok 1#32 t := by
    unfold predictedFrame; rw [bind_of_ok h]; rfl
  rw [bind_of_ok e]; rfl

/-- An intra frame: its coding, in a hybrid variant the copy to REF, then FRAME_IDX. -/
theorem codeFrame_intra {s t : State} {intra predicted : Action Unit} (hi : intraNext s.regs = true)
    (h : intra s = .ok () t)
    (hregs : t.regs = { s.regs with bitcnt := t.regs.bitcnt, bitbuf := t.regs.bitbuf }) :
    ∃ u, codeFrame intra predicted s = .ok 0#32 u ∧
      u = { t with
        regs := { t.regs with
          frameIdx := s.regs.frameIdx + 1#32
          refValid := if hybrid s.regs then true else t.regs.refValid
          refIdx := if hybrid s.regs then s.regs.frameIdx else t.regs.refIdx }
        ref := u.ref
        draws := u.draws } ∧
      (hybrid s.regs = false → u.ref = t.ref) ∧
      (hybrid s.regs = true →
        (∀ r c ch, inWindow s.regs r c ch = true →
          ∃ v, u.sample .ref r c ch = some v ∧ ∀ w, t.sample .cur r c ch = some w → v = w) ∧
        (∀ r c ch, c < 2 ^ 32 → ch < 2 ^ 8 → inWindow s.regs r c ch = false →
          u.sample .ref r c ch = t.sample .ref r c ch)) := by
  have hw : ∀ r c ch, inWindow t.regs r c ch = inWindow s.regs r c ch := by
    intros; rw [hregs]; rfl
  cases hy : hybrid s.regs with
  | false =>
    refine ⟨{ t with regs := { t.regs with frameIdx := s.regs.frameIdx + 1#32 } }, ?_, by simp, fun _ => rfl,
      fun h => absurd h (by simp)⟩
    unfold codeFrame typedFrame
    rw [bind_getRegs_apply, frameIsIntra_eq, hi, if_pos rfl]
    have e : intraFrame s.regs intra s = .ok 0#32 t := by
      unfold intraFrame
      rw [bind_of_ok h, hy, onlyIf_false]; rfl
    rw [bind_of_ok e]; rfl
  | true =>
    obtain ⟨v, ev, hv, h1, h2⟩ := copyCurToRef_spec s.regs.frameIdx t
    refine ⟨{ v with regs := { v.regs with frameIdx := s.regs.frameIdx + 1#32 } }, ?_, ?_, fun h => absurd h (by simp),
      fun _ => ⟨fun r c ch hin => h1 r c ch (by rw [hw]; exact hin), fun r c ch hc hch hin => h2 r c ch hc hch (by
        rw [hw]; exact hin)⟩⟩
    · unfold codeFrame typedFrame
      rw [bind_getRegs_apply, frameIsIntra_eq, hi, if_pos rfl]
      have e : intraFrame s.regs intra s = .ok 0#32 v := by
        unfold intraFrame
        rw [bind_of_ok h, hy, onlyIf_true, bind_of_ok ev]; rfl
      rw [bind_of_ok e]; rfl
    · have k := congrArg (fun x : State => { x with regs := { x.regs with frameIdx := s.regs.frameIdx + 1#32 } }) hv
      simp only [if_true]
      exact k

end Sys2Proof.Machine
end

