-- ==== Sys2Proof/Laws/Truncated.lean ====
section
/-! SUPPORT. Streams that stop too early (40_bitio.md R123, 60_exceptions.md R270): what completes on a longer stream ends,
on a stream that stops within the bits it reads, in EndOfStream or IoError with every bit consumed. Said for each reading
procedure by comparing the two runs. -/

namespace Sys2Proof.Machine

/-- The fault that a source raises once it gives no more bytes (40_bitio.md R123). -/
def stopCause (tail : List SourceAnswer) : Cause :=
  if sourceEnds tail = true then .endOfStream else .ioError

/-- The states `s` and `s'` differ in the source only: that of `s` stops, with the answers `tail`, where that of `s'` gives
the bytes `more`. Since `s0` at most the stream changed, and unless `still` CUR and the counter of free values. -/
def Stops (s0 : State) (still : Bool) (tail : List SourceAnswer) (more : List Byte) (s s' : State) : Prop :=
  bufferHolds s.regs 8 = true ∧
  s = { s0 with
    regs := { s0.regs with bitcnt := s.regs.bitcnt, bitbuf := s.regs.bitbuf }
    env := { s0.env with source := s.env.source }
    cur := if still then s0.cur else s.cur
    draws := if still then s0.draws else s.draws } ∧
  ∃ bs : List Byte, s.env.source = bs.map .byte ++ tail ∧
    s' = { s with env := { s.env with source := (bs ++ more).map SourceAnswer.byte } }

/-- The state `u` is `s0` after its source stopped: every bit is consumed, and the answer that stopped it. -/
def Ended (s0 : State) (still : Bool) (tail : List SourceAnswer) (u : State) : Prop :=
  u = { s0 with
    regs := { s0.regs with bitcnt := 0#4, bitbuf := 0#8 }
    env := { s0.env with source := tail.drop 1 }
    cur := if still then s0.cur else u.cur
    draws := if still then s0.draws else u.draws }

/-- On a stream that stops, `x` does what it does on the longer one, or it ends in the fault of the source. -/
def Truncates {α : Type} (s0 : State) (still : Bool) (tail : List SourceAnswer) (more : List Byte) (x : Action α) : Prop :=
  ∀ s s' a t', Stops s0 still tail more s s' → x s' = .ok a t' →
    (∃ t, x s = .ok a t ∧ Stops s0 still tail more t t') ∨
    (∃ u, x s = .error (stopCause tail) u ∧ Ended s0 still tail u)

section
variable {α β : Type} {s0 : State} {still : Bool} {tail : List SourceAnswer} {more : List Byte}

theorem truncates_bind {x : Action α} {f : α → Action β} (hx : Truncates s0 still tail more x)
    (hf : ∀ a, Truncates s0 still tail more (f a)) : Truncates s0 still tail more (x >>= f) := by
  intro s s' b u' h e
  obtain ⟨a, t', e1, e2⟩ := bind_ok_iff.mp e
  rcases hx s s' a t' h e1 with ⟨t, e3, ht⟩ | ⟨u, e3, hu⟩
  · rw [bind_of_ok e3]
    exact hf a t t' b u' ht e2
  · exact .inr ⟨u, bind_of_error e3, hu⟩

theorem truncates_pure (a : α) : Truncates s0 still tail more (pure a : Action α) := by
  rintro s s' b t' h e
  obtain ⟨rfl, rfl⟩ : a = b ∧ s' = t' := by simpa using e
  exact .inl ⟨s, rfl, h⟩

theorem truncates_require (b : Bool) (c : Cause) : Truncates s0 still tail more (require b c) := by
  cases b with
  | true => exact truncates_pure ()
  | false => intro s s' a t' _ e; simp at e

theorem stops_regs {s s' : State} (h : Stops s0 still tail more s s') : s'.regs = s.regs := by
  obtain ⟨-, -, bs, -, e⟩ := h; rw [e]

theorem stops_sample {s s' : State} (h : Stops s0 still tail more s s') (b : Buffer) (r c ch : Nat) :
    s'.sample b r c ch = s.sample b r c ch := by
  obtain ⟨-, -, bs, -, e⟩ := h
  rw [e]; cases b <;> rfl

theorem truncates_getRegs : Truncates s0 still tail more getRegs := by
  intro s s' a t' h e
  obtain ⟨rfl, rfl⟩ : s'.regs = a ∧ s' = t' := by simpa using e
  exact .inl ⟨s, by rw [stops_regs h]; rfl, h⟩

theorem truncates_foldFrom {f : Nat → α → Action α} (hf : ∀ i a, Truncates s0 still tail more (f i a)) :
    ∀ (n i : Nat) (a : α), Truncates s0 still tail more (foldFrom n i f a)
  | 0, _, a => truncates_pure a
  | n + 1, i, a => truncates_bind (hf i a) (fun b => truncates_foldFrom hf n (i + 1) b)

theorem truncates_forFrom {f : Nat → Action Unit} (hf : ∀ i, Truncates s0 still tail more (f i)) (n i : Nat) :
    Truncates s0 still tail more (forFrom n i f) :=
  truncates_foldFrom (fun i _ => hf i) n i ()

theorem truncates_readSample (b : Buffer) (r c ch : Nat) : Truncates s0 false tail more (readSample b r c ch) := by
  intro s s' a t' h e
  have hs' := stops_sample h b r c ch
  obtain ⟨h1, h2, bs, h3, rfl⟩ := h
  unfold readSample at e ⊢
  rw [hs'] at e
  cases hs : s.sample b r c ch with
  | some v =>
    rw [hs] at e
    simp only [EStateM.Result.ok.injEq] at e
    obtain ⟨rfl, rfl⟩ := e
    exact .inl ⟨s, rfl, h1, h2, bs, h3, rfl⟩
  | none =>
    rw [hs] at e
    simp only [EStateM.Result.ok.injEq] at e
    obtain ⟨rfl, rfl⟩ := e
    refine .inl ⟨{ s with draws := s.draws + 1 }, rfl, h1, ?_, bs, h3, rfl⟩
    have k := congrArg (fun x : State => { x with draws := s.draws + 1 }) h2
    exact k

theorem truncates_writeCur (r c ch : Nat) (v : Byte) : Truncates s0 false tail more (writeSample .cur r c ch v) := by
  intro s s' a t' h e
  simp only [writeSample_apply, EStateM.Result.ok.injEq, true_and] at e ⊢
  subst e
  refine .inl ⟨_, rfl, h.1, ?_, ?_⟩
  · have k := congrArg (fun x : State => x.setSample .cur r c ch v) h.2.1
    exact k
  · obtain ⟨-, -, bs, h1, h2⟩ := h
    exact ⟨bs, h1, by rw [h2]; rfl⟩

/-- The bit taken from the buffer. -/
theorem truncates_takeBufferedBit {s s' : State} (h : Stops s0 still tail more s s') (h0 : s.regs.bitcnt ≠ 0#4) :
    ∃ b t t', takeBufferedBit s = .ok b t ∧ takeBufferedBit s' = .ok b t' ∧ Stops s0 still tail more t t' := by
  obtain ⟨b, t, e, hc⟩ := takeBufferedBit_consumes h.1 h0
  obtain ⟨-, h2, bs, h3, h4⟩ := h
  have e' := e
  simp only [takeBufferedBit, EStateM.Result.ok.injEq] at e'
  obtain ⟨rfl, rfl⟩ := e'
  refine ⟨_, _, _, rfl, ?_, hc.2.1, ?_, bs, h3, rfl⟩
  · rw [h4]; rfl
  · have k := congrArg (fun x : State => { x with
      regs := { x.regs with bitbuf := s.regs.bitbuf <<< 1, bitcnt := s.regs.bitcnt - 1#4 } }) h2
    exact k

theorem truncates_getBit (htail : sourceBytes tail = []) : Truncates s0 still tail more getBit := by
  intro s s' a t' h e
  by_cases h0 : s.regs.bitcnt = 0#4
  · have h0' : s'.regs.bitcnt = 0#4 := by rw [stops_regs h]; exact h0
    obtain ⟨h1, h2, bs, h3, h4⟩ := h
    unfold getBit at e ⊢
    rw [bind_getRegs_apply] at e ⊢
    simp only [h0, h0', decide_true, onlyIf_true] at e ⊢
    cases bs with
    | nil =>
      right
      have hz : s.regs.bitbuf = 0#8 := by
        have h6 := (bufferHolds_iff.mp h1).2
        rw [h0] at h6
        have := s.regs.bitbuf.isLt
        apply BitVec.eq_of_toNat_eq
        simp at *; omega
      refine ⟨{ s with env := { s.env with source := tail.drop 1 } }, bind_of_error (bind_of_error ?_), ?_⟩
      · have h5 : s.env.source = tail := h3
        unfold sourceGet stopCause
        cases tail with
        | nil =>
          have k : ({ s with env := { s.env with source := s.env.source } } : State) = s := rfl
          rw [h5] at k
          simp only [h5, sourceEnds, if_true, List.drop_nil, k]
        | cons x rest =>
          cases x with
          | byte b => simp [sourceBytes] at htail
          | eos => rw [h5]; rfl
          | ioerr => rw [h5]; rfl
      · unfold Ended
        have k := congrArg (fun x : State => { x with env := { x.env with source := tail.drop 1 } }) h2
        rw [h0, hz] at k
        exact k
    | cons y bs =>
      have hs : s.env.source = .byte y :: (bs.map SourceAnswer.byte ++ tail) := by rw [h3]; rfl
      have hs' : s'.env.source = .byte y :: (bs ++ more).map SourceAnswer.byte := by rw [h4]; rfl
      let u : State := { s with
        env := { s.env with source := bs.map SourceAnswer.byte ++ tail }
        regs := { s.regs with bitbuf := y, bitcnt := 8#4 } }
      let u' : State := { u with env := { u.env with source := (bs ++ more).map SourceAnswer.byte } }
      have hu : Stops s0 still tail more u u' := by
        refine ⟨by rw [bufferHolds_iff]; simp [u, Nat.mod_one], ?_, bs, rfl, rfl⟩
        have k := congrArg (fun x : State => { x with
          env := { x.env with source := bs.map SourceAnswer.byte ++ tail }
          regs := { x.regs with bitbuf := y, bitcnt := 8#4 } }) h2
        exact k
      have l : (sourceGet >>= fun b => modifyRegs fun g => { g with bitbuf := b, bitcnt := 8#4 }) s = .ok () u := by
        have : sourceGet s = .ok y { s with env := { s.env with source := bs.map SourceAnswer.byte ++ tail } } := by
          unfold sourceGet; rw [hs]
        rw [bind_of_ok this]; rfl
      have l' : (sourceGet >>= fun b => modifyRegs fun g => { g with bitbuf := b, bitcnt := 8#4 }) s' = .ok () u' := by
        have : sourceGet s' = .ok y { s' with env := { s'.env with source := (bs ++ more).map SourceAnswer.byte } } := by
          unfold sourceGet; rw [hs']
        rw [bind_of_ok this, h4]; rfl
      rw [bind_of_ok l'] at e
      rw [bind_of_ok l]
      obtain ⟨b, t, t'', e1, e2, h5⟩ := truncates_takeBufferedBit hu (by simp [u])
      rw [e2] at e
      obtain ⟨rfl, rfl⟩ : b = a ∧ t'' = t' := by simpa using e
      exact .inl ⟨t, e1, h5⟩
  · have h0' : s'.regs.bitcnt ≠ 0#4 := by rw [stops_regs h]; exact h0
    unfold getBit at e ⊢
    rw [bind_getRegs_apply] at e ⊢
    simp only [h0, h0', decide_false, onlyIf_false, bind_pure_apply] at e ⊢
    obtain ⟨b, t, t'', e1, e2, h5⟩ := truncates_takeBufferedBit h h0
    rw [e2] at e
    obtain ⟨rfl, rfl⟩ : b = a ∧ t'' = t' := by simpa using e
    exact .inl ⟨t, e1, h5⟩

theorem truncates_getBitsOnto (htail : sourceBytes tail = []) : ∀ n v, Truncates s0 still tail more (getBitsOnto n v)
  | 0, _ => truncates_pure _
  | n + 1, _ => truncates_bind (truncates_getBit htail) (fun _ => truncates_getBitsOnto htail n _)

theorem truncates_getBits (htail : sourceBytes tail = []) (n : Nat) : Truncates s0 still tail more (getBits n) :=
  truncates_getBitsOnto htail n 0

/-- Where `GetBit` completes there was a bit to read. -/
theorem getBit_unread {s t : State} {b : Bool} (hb : bufferHolds s.regs 8 = true) (h : getBit s = .ok b t) :
    (unreadBits t).length + 1 = (unreadBits s).length := by
  cases hu : unreadBits s with
  | nil =>
    exfalso
    have h0 : s.regs.bitcnt = 0#4 := by
      by_contra hne
      obtain ⟨c, t, -, hst⟩ := takeBufferedBit_consumes hb hne
      have := hst.1
      rw [hu] at this; simp at this
    unfold getBit at h
    rw [bind_getRegs_apply] at h
    simp only [h0, decide_true, onlyIf_true] at h
    obtain ⟨_, u, h, -⟩ := bind_ok_iff.mp h
    obtain ⟨x, v, h, -⟩ := bind_ok_iff.mp h
    unfold sourceGet at h
    cases hs : s.env.source with
    | nil => rw [hs] at h; cases h
    | cons y rest =>
      rw [hs] at h
      cases y with
      | byte y =>
        have := congrArg List.length hu
        simp [unreadBits, hs, sourceBytes] at this
      | eos => cases h
      | ioerr => cases h
  | cons x rest =>
    obtain ⟨t', e, hc⟩ := getBit_consumes hb hu
    rw [h] at e
    obtain ⟨rfl, rfl⟩ : b = x ∧ t = t' := by simpa using e
    rw [consumesBits_rest hc (rest := rest) (by rw [hu]; rfl)]; rfl

/-- The unary loop, whatever the two bounds on its rounds, as long as the first is above the number of unread bits. -/
theorem truncates_countOnes (htail : sourceBytes tail = []) : ∀ (fuel' fuel : Nat) (s s' : State) (q : Nat) (t' : State),
    (unreadBits s).length < fuel → Stops s0 still tail more s s' → countOnes fuel' s' = .ok q t' →
    (∃ t, countOnes fuel s = .ok q t ∧ Stops s0 still tail more t t') ∨
    (∃ u, countOnes fuel s = .error (stopCause tail) u ∧ Ended s0 still tail u)
  | 0, _, _, _, _, _, _, _, e => by cases e
  | fuel' + 1, fuel, s, s', q, t', hf, h, e => by
    obtain ⟨fuel, rfl⟩ := Nat.exists_eq_succ_of_ne_zero (Nat.ne_of_gt (Nat.zero_lt_of_lt hf))
    unfold countOnes at e ⊢
    obtain ⟨b, x', e1, e2⟩ := bind_ok_iff.mp e
    rcases truncates_getBit htail s s' b x' h e1 with ⟨x, e3, hx⟩ | ⟨u, e3, hu⟩
    · rw [bind_of_ok e3]
      cases b with
      | false =>
        obtain ⟨rfl, rfl⟩ : 0 = q ∧ x' = t' := by simpa using e2
        exact .inl ⟨x, rfl, hx⟩
      | true =>
        simp only [if_true] at e2 ⊢
        obtain ⟨p, y', e4, e5⟩ := bind_ok_iff.mp e2
        obtain ⟨rfl, rfl⟩ : p + 1 = q ∧ y' = t' := by simpa using e5
        have hlen : (unreadBits x).length < fuel := by
          have := getBit_unread h.1 e3
          omega
        rcases truncates_countOnes htail fuel' fuel x x' p y' hlen hx e4 with ⟨y, e6, hy⟩ | ⟨u, e6, hu⟩
        · exact .inl ⟨y, by rw [bind_of_ok e6]; rfl, hy⟩
        · exact .inr ⟨u, bind_of_error e6, hu⟩
    · exact .inr ⟨u, bind_of_error e3, hu⟩

theorem truncates_getUnary (htail : sourceBytes tail = []) : Truncates s0 still tail more getUnary := by
  intro s s' q t' h e
  exact truncates_countOnes htail _ _ s s' q t' (by have := unreadBits_length_le h.1; omega) h e

theorem truncates_getRemainder (htail : sourceBytes tail = []) (m : Nat) : Truncates s0 still tail more (getRemainder m) := by
  refine truncates_bind (truncates_getBits htail _) (fun v => ?_)
  split
  · exact truncates_pure _
  · exact truncates_bind (truncates_getBit htail) (fun _ => truncates_pure _)

theorem truncates_golombDecode (htail : sourceBytes tail = []) : Truncates s0 still tail more golombDecode :=
  truncates_bind truncates_getRegs fun _ => truncates_bind (truncates_require _ _) fun _ =>
    truncates_bind (truncates_getUnary htail) fun _ => truncates_bind (truncates_getRemainder htail _) fun _ =>
      truncates_bind (truncates_getBit htail) fun _ => truncates_bind (truncates_require _ _) fun _ => truncates_pure _

theorem truncates_getField (htail : sourceBytes tail = []) (b : Bool) (x n : Nat) :
    Truncates s0 still tail more (getField b x n) := by
  cases b
  · exact truncates_pure x
  · exact truncates_getBits htail n

theorem truncates_getHeader (htail : sourceBytes tail = []) (g : Regs) : Truncates s0 still tail more (getHeader g) :=
  truncates_bind (truncates_getBits htail _) fun _ => truncates_bind (truncates_getBits htail _) fun _ =>
  truncates_bind (truncates_getBits htail _) fun _ => truncates_bind (truncates_getBits htail _) fun _ =>
  truncates_bind (truncates_getBits htail _) fun _ => truncates_bind (truncates_getBits htail _) fun _ =>
  truncates_bind (truncates_getField htail _ _ _) fun _ => truncates_bind (truncates_getField htail _ _ _) fun _ =>
  truncates_bind (truncates_getField htail _ _ _) fun _ => truncates_bind (truncates_getField htail _ _ _) fun _ =>
  truncates_bind (truncates_getField htail _ _ _) fun _ => truncates_bind (truncates_getField htail _ _ _) fun _ =>
  truncates_pure _

theorem truncates_storeResidual (b : Bool) (r c ch : Nat) (p l : Int) :
    Truncates s0 false tail more (storeResidual b r c ch p l) := by
  cases b with
  | false => exact truncates_writeCur _ _ _ _
  | true =>
    refine truncates_bind (truncates_bind truncates_getRegs fun g => ?_) (fun _ => truncates_writeCur _ _ _ _)
    unfold orInvalidState
    split
    · exact truncates_pure _
    · intro s s' a t' _ e; cases e

theorem truncates_neighbour (b : Bool) (r c ch : Nat) : Truncates s0 false tail more (neighbour b r c ch) := by
  cases b
  · exact truncates_pure 0
  · exact truncates_bind (truncates_readSample _ _ _ _) fun _ => truncates_pure _

theorem truncates_predict (r c ch : Nat) : Truncates s0 false tail more (predict r c ch) :=
  truncates_bind (truncates_neighbour _ _ _ _) fun _ => truncates_bind (truncates_neighbour _ _ _ _) fun _ =>
    truncates_bind (truncates_neighbour _ _ _ _) fun _ => truncates_pure _

theorem truncates_decodeIntra (htail : sourceBytes tail = []) : Truncates s0 false tail more decodeIntra :=
  truncates_bind truncates_getRegs fun _ =>
    truncates_forFrom (fun _ => truncates_forFrom (fun _ => truncates_forFrom (fun _ =>
      truncates_bind (truncates_predict _ _ _) fun _ => truncates_bind (truncates_golombDecode htail) fun _ =>
        truncates_storeResidual _ _ _ _ _ _) _ _) _ _) _ _

theorem truncates_decodePred (htail : sourceBytes tail = []) : Truncates s0 false tail more decodePred :=
  truncates_bind truncates_getRegs fun _ =>
    truncates_forFrom (fun _ => truncates_forFrom (fun _ =>
      truncates_bind (truncates_golombDecode htail) fun _ => truncates_bind (truncates_golombDecode htail) fun _ =>
      truncates_bind (truncates_require _ _) fun _ =>
        truncates_forFrom (fun _ => truncates_forFrom (fun _ => truncates_forFrom (fun _ =>
          truncates_bind (truncates_golombDecode htail) fun _ => truncates_bind (truncates_readSample _ _ _ _) fun _ =>
            truncates_storeResidual _ _ _ _ _ _) _ _) _ _) _ _) _ _) _ _

end

/-! ### The faults -/

/-- A list of bits is the bits of its number. -/
theorem bitsOf_ofBits (bs : List Bool) : bitsOf (ofBits bs) bs.length = bs := by
  induction bs using List.reverseRecOn with
  | nil => rfl
  | append_singleton bs b ih =>
    have e : ofBits (bs ++ [b]) = 2 * ofBits bs + b.toNat := by simp [ofBits]
    rw [List.length_append, List.length_singleton, bitsOf_succ, e]
    have h1 : (2 * ofBits bs + b.toNat) / 2 = ofBits bs := by have := Bool.toNat_le b; omega
    have h2 : (2 * ofBits bs + b.toNat).testBit 0 = b := by
      cases b <;> simp
    rw [h1, h2, ih]

/-- Every list of bits begins some list of bytes. -/
theorem exists_bytes (bs : List Bool) : ∃ ys pad, bytesBits ys = bs ++ pad := by
  suffices h : ∀ (n : Nat) (bs : List Bool), bs.length ≤ 8 * n → ∃ ys pad, bytesBits ys = bs ++ pad from
    h bs.length bs (by omega)
  intro n
  induction n with
  | zero => exact fun bs h => ⟨[], [], by simpa using h⟩
  | succ n ih =>
    intro bs h
    let first := (bs ++ List.replicate 8 false).take 8
    have hfirst : first.length = 8 := by simp [first]
    have hbyte : byteBits (BitVec.ofNat 8 (ofBits first)) = first := by
      have := ofBits_lt first
      rw [hfirst] at this
      unfold byteBits
      rw [BitVec.toNat_ofNat, Nat.mod_eq_of_lt this]
      have k := bitsOf_ofBits first
      rwa [hfirst] at k
    obtain ⟨ys, pad, e⟩ := ih (bs.drop 8) (by simp; omega)
    rcases Nat.le_total 8 bs.length with h8 | h8
    · refine ⟨BitVec.ofNat 8 (ofBits first) :: ys, pad, ?_⟩
      have : first = bs.take 8 := by simp [first, List.take_append, Nat.sub_eq_zero_of_le h8]
      rw [bytesBits_cons, hbyte, e, this, ← List.append_assoc, List.take_append_drop]
    · refine ⟨[BitVec.ofNat 8 (ofBits first)], List.replicate (8 - bs.length) false, ?_⟩
      rw [bytesBits_cons, hbyte, bytesBits_nil, List.append_nil]
      show (bs ++ List.replicate 8 false).take 8 = _
      rw [List.take_append, List.take_of_length_le h8, List.take_replicate, Nat.min_eq_left (by omega)]

/-- The answers of a source: its bytes, and what follows them. -/
theorem source_split (l : List SourceAnswer) :
    l = (sourceBytes l).map .byte ++ l.drop (sourceBytes l).length ∧
      sourceBytes (l.drop (sourceBytes l).length) = [] ∧
      sourceEnds (l.drop (sourceBytes l).length) = sourceEnds l := by
  induction l with
  | nil => exact ⟨rfl, rfl, rfl⟩
  | cons x rest ih =>
    cases x with
    | byte b =>
      refine ⟨?_, ih.2.1, ih.2.2⟩
      show _ :: rest = _ :: (_ ++ _)
      exact congrArg _ ih.1
    | eos => exact ⟨rfl, rfl, rfl⟩
    | ioerr => exact ⟨rfl, rfl, rfl⟩

theorem sourceBytes_map (bs : List Byte) : sourceBytes (bs.map .byte) = bs := by
  induction bs with
  | nil => rfl
  | cons b bs ih => simp [sourceBytes, ih]

/-- What reads the bits `need` ends in the fault of the source, with every bit consumed, where only a part of them can be
read (40_bitio.md R123, 60_exceptions.md R267, R270). -/
theorem truncated {α : Type} {x : Action α} {s : State} (still : Bool) {need missing : List Bool} (hb : bufferHolds s.regs 8 = true)
    (hneed : unreadBits s ++ missing = need) (hne : missing ≠ [])
    (hx : ∀ tail more, sourceBytes tail = [] → Truncates s still tail more x)
    (hrun : ∀ (u : State) (rest : List Bool), u.regs = s.regs → unreadBits u = need ++ rest →
      ∃ a t, x u = .ok a t ∧ unreadBits t = rest) :
    ∃ v : State, x s = .error (stopCause s.env.source) v ∧
      v = { pastEnd s with
        cur := if still then s.cur else v.cur
        draws := if still then s.draws else v.draws } := by
  obtain ⟨more, pad, hmore⟩ := exists_bytes missing
  obtain ⟨h1, h2, h3⟩ := source_split s.env.source
  let src : List SourceAnswer := (sourceBytes s.env.source ++ more).map .byte
  have hun : unreadBits { s with env := { s.env with source := src } } = need ++ pad := by
    show bufferedBits s.regs ++ bytesBits (sourceBytes src) = _
    rw [sourceBytes_map, bytesBits_append, hmore, ← hneed]
    unfold unreadBits
    simp only [List.append_assoc]
  obtain ⟨a, t', e, hrest⟩ := hrun { s with env := { s.env with source := src } } pad rfl hun
  have hS : Stops s still (s.env.source.drop (sourceBytes s.env.source).length) more s
      { s with env := { s.env with source := src } } := ⟨hb, by simp, sourceBytes s.env.source, h1, rfl⟩
  rcases hx _ _ h2 _ _ _ _ hS e with ⟨t, -, ht⟩ | ⟨u, eu, hu⟩
  · -- it cannot complete: there are not enough bits
    exfalso
    obtain ⟨-, -, bs, k1, k2⟩ := ht
    have k3 : unreadBits t' = unreadBits t ++ (missing ++ pad) := by
      rw [k2]
      show bufferedBits t.regs ++ bytesBits (sourceBytes ((bs ++ more).map .byte)) =
        bufferedBits t.regs ++ bytesBits (sourceBytes t.env.source) ++ _
      have : sourceBytes t.env.source = bs := by
        rw [k1]
        have : ∀ l : List Byte, sourceBytes (l.map .byte ++ s.env.source.drop (sourceBytes s.env.source).length) = l := by
          intro l
          induction l with
          | nil => exact h2
          | cons b l ih => simp [sourceBytes, ih]
        exact this bs
      rw [sourceBytes_map, bytesBits_append, hmore, this, List.append_assoc]
    have k4 := congrArg List.length (hrest.symm.trans k3)
    have k5 := List.length_pos_of_ne_nil hne
    simp only [List.length_append] at k4
    omega
  · refine ⟨u, ?_, ?_⟩
    · rw [eu]; unfold stopCause; rw [h3]
    · unfold Ended at hu
      rw [List.drop_drop] at hu
      exact hu

/-! ### Reads of a fixed number of bits -/

/-- What reads `n` bits, whatever they are. -/
def ReadsExactly {α : Type} (x : Action α) (n : Nat) : Prop :=
  ∀ (s : State) (bs rest : List Bool), bufferHolds s.regs 8 = true → bs.length = n → unreadBits s = bs ++ rest →
    ∃ a t, x s = .ok a t ∧ ConsumesBits s t bs

theorem readsExactly_bind {α β : Type} {x : Action α} {f : α → Action β} {n m : Nat} (hx : ReadsExactly x n)
    (hf : ∀ a, ReadsExactly (f a) m) : ReadsExactly (x >>= f) (n + m) := by
  intro s bs rest hb hl h
  have h' : unreadBits s = bs.take n ++ (bs.drop n ++ rest) := by rw [h, ← List.append_assoc, List.take_append_drop]
  obtain ⟨a, t, e, hc⟩ := hx s (bs.take n) _ hb (by simp; omega) h'
  obtain ⟨b, u, e', hc'⟩ := hf a t (bs.drop n) rest hc.2.1 (by simp; omega) (consumesBits_rest hc h')
  refine ⟨b, u, (bind_of_ok e).trans e', ?_⟩
  have k := consumesBits_trans hc hc'
  rwa [List.take_append_drop] at k

theorem readsExactly_pure {α : Type} (a : α) : ReadsExactly (pure a : Action α) 0 := by
  intro s bs rest hb hl _
  rw [List.length_eq_zero_iff.mp hl]
  exact ⟨a, s, rfl, consumesBits_refl hb⟩

theorem readsExactly_getBits (n : Nat) : ReadsExactly (getBits n) n := by
  intro s bs rest hb hl h
  obtain ⟨t, e, hc⟩ := getBits_consumes hb h
  exact ⟨_, t, hl ▸ e, hc⟩

theorem readsExactly_getField (b : Bool) (x n : Nat) : ReadsExactly (getField b x n) (if b then n else 0) := by
  cases b
  · exact readsExactly_pure x
  · exact readsExactly_getBits n

/-- RDHDR reads as many bits as the header has (46_container.md R226). -/
theorem readsExactly_getHeader (g : Regs) : ReadsExactly (getHeader g) (headerBits g).length := by
  have h := readsExactly_bind (readsExactly_getBits 3) fun cs => readsExactly_bind (readsExactly_getBits 3) fun cu =>
    readsExactly_bind (readsExactly_getBits (dimWidth g)) fun w => readsExactly_bind (readsExactly_getBits (dimWidth g)) fun h =>
    readsExactly_bind (readsExactly_getBits 8) fun m => readsExactly_bind (readsExactly_getBits (countWidth g)) fun fc =>
    readsExactly_bind (readsExactly_getField (hybrid g) (headerOfRegs g).blockSize 8) fun bs =>
    readsExactly_bind (readsExactly_getField (hybrid g) (headerOfRegs g).intraPeriod 8) fun ip =>
    readsExactly_bind (readsExactly_getField (hybrid g) (headerOfRegs g).searchRadius 8) fun sr =>
    readsExactly_bind (readsExactly_getField (lossy g) (headerOfRegs g).quantY 8) fun qy =>
    readsExactly_bind (readsExactly_getField (lossy g) (headerOfRegs g).quantU 8) fun qu =>
    readsExactly_bind (readsExactly_getField (lossy g) (headerOfRegs g).quantV 8) fun qv =>
    readsExactly_pure (Header.mk cs cu w h m fc bs ip sr qy qu qv)
  have e : (headerBits g).length = 3 + (3 + (dimWidth g + (dimWidth g + (8 + (countWidth g +
      ((if hybrid g then 8 else 0) + ((if hybrid g then 8 else 0) + ((if hybrid g then 8 else 0) +
      ((if lossy g then 8 else 0) + ((if lossy g then 8 else 0) + ((if lossy g then 8 else 0) + 0))))))))))) := by
    rw [headerBits_fields]
    simp only [List.length_append, bitsOf_length]
    cases hybrid g <;> cases lossy g <;> simp [bitsOf_length]
  rw [e]
  exact h

/-- Fewer bits than a procedure reads, whatever they are. -/
theorem readsExactly_truncated {α : Type} {x : Action α} {n : Nat} {s : State} (hb : bufferHolds s.regs 8 = true)
    (hx : ReadsExactly x n) (hT : ∀ tail more, sourceBytes tail = [] → Truncates s true tail more x)
    (h : (unreadBits s).length < n) : x s = .error (stopCause s.env.source) (pastEnd s) := by
  obtain ⟨v, e, hv⟩ := truncated true hb (missing := List.replicate (n - (unreadBits s).length) false) rfl
    (fun h' => by have := congrArg List.length h'; simp at this; omega) hT
    (fun u rest hr hu => by
      obtain ⟨a, t, e, hc⟩ := hx u _ rest (hr ▸ hb) (by simp; omega) hu
      exact ⟨a, t, e, consumesBits_rest hc hu⟩)
  rw [e, hv]; rfl

/-! ### Codewords -/

/-- The three parts of a codeword, before the number is looked at (41_golomb.md R142). -/
def golombParts (m : Nat) : Action (Nat × Nat × Bool) := do
  let q ← getUnary
  let r ← getRemainder m
  let b ← getBit
  pure (q, r, b)

/-- Where the parts of a codeword cannot be read, its number cannot. -/
theorem golombGet_of_error {m : Nat} {s u : State} {c : Cause} (h : golombParts m s = .error c u) :
    golombGet m s = .error c u := by
  unfold golombParts at h
  unfold golombGet
  rcases bind_error_iff.mp h with h1 | ⟨q, t1, h1, h⟩
  · exact bind_of_error h1
  rcases bind_error_iff.mp h with h2 | ⟨r, t2, h2, h⟩
  · rw [bind_of_ok h1]; exact bind_of_error h2
  rcases bind_error_iff.mp h with h3 | ⟨b, t3, h3, h⟩
  · rw [bind_of_ok h1, bind_of_ok h2]; exact bind_of_error h3
  · cases h

/-- The parts of a codeword are read back. -/
theorem golombParts_consumes {m q r : Nat} {sign : Bool} (hm : 1 ≤ m) (hrm : r < m) {s : State} {rest : List Bool}
    (hb : bufferHolds s.regs 8 = true) (h : unreadBits s = codewordParts m q r sign ++ rest) :
    ∃ t, golombParts m s = .ok (q, r, sign) t ∧ unreadBits t = rest := by
  have h' : unreadBits s = List.replicate q true ++ false :: (remainderBits m r ++ (sign :: rest)) := by
    simpa [codewordParts] using h
  obtain ⟨t1, h1, a1⟩ := getUnary_consumes hb h'
  have e1 : unreadBits t1 = remainderBits m r ++ (sign :: rest) := consumesBits_rest a1 (by simpa using h')
  obtain ⟨t2, h2, a2⟩ := getRemainder_consumes hm hrm a1.2.1 e1
  have e2 := consumesBits_rest a2 e1
  obtain ⟨t3, h3, a3⟩ := getBit_consumes a2.2.1 e2
  refine ⟨t3, ?_, consumesBits_rest a3 (by rw [e2]; rfl)⟩
  unfold golombParts
  rw [bind_of_ok h1, bind_of_ok h2, bind_of_ok h3]; rfl

/-- A codeword of which only a part can be read (41_golomb.md R142). -/
theorem golombDecode_truncated {s : State} (hb : bufferHolds s.regs 8 = true) (hm : s.regs.m ≠ 0#8) {q r : Nat}
    {sign : Bool} {missing : List Bool} (hr : r < s.regs.m.toNat) (hne : missing ≠ [])
    (h : unreadBits s ++ missing = codewordParts s.regs.m.toNat q r sign) :
    golombDecode s = .error (stopCause s.env.source) (pastEnd s) := by
  obtain ⟨v, e, hv⟩ := truncated (x := golombParts s.regs.m.toNat) true hb h hne
    (fun tail more ht => truncates_bind (truncates_getUnary ht) fun _ => truncates_bind (truncates_getRemainder ht _) fun _ =>
      truncates_bind (truncates_getBit ht) fun _ => truncates_pure _)
    (fun u rest hu h => by
      obtain ⟨t, e, ht⟩ := golombParts_consumes (by omega) hr (hu ▸ hb) h
      exact ⟨_, t, e, ht⟩)
  have e' := golombGet_of_error e
  unfold golombDecode
  rw [bind_getRegs_apply, bind_require_apply, if_pos (by simpa using hm), e', hv]; rfl

end Sys2Proof.Machine
end

