-- ==== Sys2Proof/Tests/Slice0.lean ====
section
/-! SUPPORT. Tests: the operand checks, one decoded word per command, one-step examples with the values that the spec's
own tables give (spec/95_test_vectors.md), and a witness for the hypotheses of every statement that has some. -/

-- one kernel evaluation at a time: together they need more threads than there are
set_option Elab.async false

namespace Sys2Proof.Tests

open Sys2Proof Sys2Proof.Machine

/-! ### Helpers -/

/-- The state an outcome goes on with (the reset state where it does not). -/
def after (o : Host.Outcome State Fault Refusal) : State :=
  match o with
  | .next t => t
  | .fault _ => State.reset
  | .refused _ => State.reset

/-- The outcome is a next state. -/
def goesOn (o : Host.Outcome State Fault Refusal) : Bool :=
  match o with
  | .next _ => true
  | .fault _ => false
  | .refused _ => false

/-- An outcome that goes on goes on with `after` of it. -/
theorem after_eq {o : Host.Outcome State Fault Refusal} (h : goesOn o = true) : o = .next (after o) := by
  cases o with
  | next t => rfl
  | fault r => cases r
  | refused r => cases h

/-- The last response word of a state. -/
def answer (s : State) : Option RspWord := s.responses.getLast?

/-- The answer of the step that accepts the word `w` in `s`. -/
def stepAnswer (s : State) (w : Nat) : Option RspWord := answer (after (step (s.withFetchWord 64 w)))

/-- The answer of a command in `s`. -/
def execAnswer (i : Instr) (s : State) : Option RspWord := answer (after (exec i s))

/-- The command of a word, if it decodes. -/
def read (w : CmdWord) : Option Instr := decodeTableWord 64 w.toNat

/-- An open output stream with the divisor `m`. -/
def writer (m : BitVec 8) : State := { State.reset with regs := { Regs.reset with mode := .write, m := m } }

/-- An open input stream on the bytes `bs` with the divisor `m`. -/
def reader (m : BitVec 8) (bs : List Byte) : State :=
  { State.reset with
    regs := { Regs.reset with mode := .read, m := m }
    env := { Env.quiet with source := bs.map .byte } }

/-- A fault is recorded. -/
def faulted : State := after (exec .bclose State.reset)

/-- A window of `h` rows and `w` columns, GRAY, no stream. -/
def framed (h w : BitVec 32) : State :=
  { State.reset with regs := { Regs.reset with height := h, width := w, colorSpace := 2#3 } }

/-- Samples of channel 0 of a buffer, row by row. -/
def load (b : Buffer) (rows : List (List Byte)) (s : State) : State :=
  rows.zipIdx.foldl (fun s row => row.1.zipIdx.foldl (fun s x => s.setSample b row.2 x.2 0 x.1) s) s

/-- Session parameters that WRHDR accepts: `n` by `n` samples, GRAY, M = 4, one frame, the given variant; B = 2, one intra
frame in every two, radius 1, five bits of quantization. -/
def sessionRegs (variant : BitVec 2) (n : BitVec 32) : Regs :=
  { Regs.reset with
    variant := variant
    hdrcfg := 0#2
    colorSpace := 2#3
    width := n
    height := n
    m := 4#8
    frameCount := 2#32
    blockSize := 2#8
    intraPeriod := 2#8
    searchRadius := 1#8
    qbitsY := 5#8 }

/-- A session with its header in force, in the given mode. -/
def session (mode : Mode) (variant : BitVec 2) (n : BitVec 32) : State :=
  { State.reset with regs := { sessionRegs variant n with mode := mode, sess := .headerDone } }

/-- The frame of vector S1. -/
def frameS1 : List (List Byte) := [[10#8, 12#8], [14#8, 16#8]]

/-- Frame 0 of program P5. -/
def frameP5a : List (List Byte) :=
  [[10#8, 20#8, 30#8, 40#8], [50#8, 60#8, 70#8, 80#8], [90#8, 100#8, 110#8, 120#8], [130#8, 140#8, 150#8, 160#8]]

/-- Frame 1 of program P5. -/
def frameP5b : List (List Byte) :=
  [[11#8, 10#8, 20#8, 30#8], [51#8, 50#8, 60#8, 70#8], [90#8, 100#8, 110#8, 120#8], [130#8, 140#8, 151#8, 160#8]]

/-- The second frame of program P5, about to be coded. -/
def sessionP5 : State :=
  load .ref frameP5a (load .cur frameP5b { session .write 1#2 4#32 with
    regs := { sessionRegs 1#2 4#32 with
      mode := .write
      sess := .headerDone
      frameIdx := 1#32
      refValid := true
      meMetric := 3#2 } })

/-! ### Operand checks: an ill-formed command for each (30_encoding.md R94, R97; 47_system.md R252, R253) -/

theorem test_ill_csrr_unlisted : (Instr.csrr 0x19#8).wellFormed Config.Params.standard = false := by decide
theorem test_ill_csrw_unlisted : (Instr.csrw 0xFF#8 0#32).wellFormed Config.Params.standard = false := by decide
theorem test_ill_csrw_readonly : (Instr.csrw 0x13#8 0#32).wellFormed Config.Params.standard = false := by decide
theorem test_ill_csrw_width : (Instr.csrw 0x04#8 4#32).wellFormed Config.Params.standard = false := by decide
theorem test_ill_csrw_max_w : (Instr.csrw 0x08#8 4097#32).wellFormed Config.Params.standard = false := by decide
theorem test_ill_csrw_max_h : (Instr.csrw 0x09#8 4097#32).wellFormed Config.Params.standard = false := by decide
theorem test_ill_pxwr_channel : (Instr.pxwr 3#8 0#8 0#16 0#16).wellFormed Config.Params.standard = false := by decide
theorem test_ill_pxrd_channel : (Instr.pxrd 3#8 0#1 0#16 0#16).wellFormed Config.Params.standard = false := by decide
theorem test_ill_ipred_channel : (Instr.ipred 3#8 0#16 0#16).wellFormed Config.Params.standard = false := by decide
theorem test_ill_quantizer_channel :
    ([Instr.qlevel 3#8 0#32, .qvalue 3#8 0#32, .quant 255#8 0#32].all
      fun i => !i.wellFormed Config.Params.standard) = true := by decide
theorem test_ill_count :
    ([Instr.putbits 33#8 0#32, .getbits 33#8].all fun i => !i.wellFormed Config.Params.standard) = true := by decide
theorem test_well_bounds :
    ([Instr.csrr 0x18#8, .csrw 0x08#8 4096#32, .csrw 0x12#8 3#32, .pxwr 2#8 255#8 65535#16 65535#16, .putbits 32#8 0#32,
      .getbits 0#8].all fun i => i.wellFormed Config.Params.standard) = true := by decide

/-! ### Decoding: a word for every command, from the tables of spec/95_test_vectors.md and 30_encoding.md R95 -/

theorem test_decode_system :
    [0x0000000000000000#64, 0x0100000000000000#64, 0x0201000000000000#64, 0x030A000000000004#64, 0x08000B0000000000#64,
      0x0900010000010002#64, 0x0A00000000000000#64].map read =
    [some .nop, some .reset, some (.csrr 1#8), some (.csrw 0x0A#8 4#32), some (.pxwr 0#8 11#8 0#16 0#16),
      some (.pxrd 0#8 1#1 1#16 2#16), some .cpref] := by decide +kernel

theorem test_decode_bitio :
    [0x1000000000000000#64, 0x1100000000000000#64, 0x1200000000000000#64, 0x1301000000000000#64, 0x140C000000000ABC#64,
      0x1500000000000000#64, 0x160C000000000000#64].map read =
    [some .bopenw, some .bopenr, some .bclose, some (.putbit 1#1), some (.putbits 12#8 0xABC#32), some .getbit,
      some (.getbits 12#8)] := by decide +kernel

theorem test_decode_coders :
    [0x20000000FFFFFFE6#64, 0x2100000000000000#64, 0x28000000FFFFFFFE#64, 0x2900000000000000#64,
      0x2A00000000000000#64].map read =
    [some (.genc 0xFFFFFFE6#32), some .gdec, some (.rpush 0xFFFFFFFE#32), some .rflush, some .rpop] := by decide +kernel

theorem test_decode_pixels :
    [0x300000000000000C#64, 0x3100000000000002#64, 0x3201000000000005#64, 0x4002000000010003#64,
      0x4800000000020000#64].map read =
    [some (.qlevel 0#8 12#32), some (.qvalue 0#8 2#32), some (.quant 1#8 5#32), some (.ipred 2#8 1#16 3#16),
      some (.matchBlock 2#16 0#16)] := by decide +kernel

theorem test_decode_container :
    [0x5000000000000000#64, 0x5100000000000000#64, 0x5200000000000000#64, 0x5300000000000000#64].map read =
    [some .wrhdr, some .rdhdr, some .encf, some .decf] := by decide +kernel

/-- 30_encoding.md R91, R96, R97: a reserved opcode, a set Z bit, a set unused A, B or IMM bit, PUTBIT 2, PXRD buffer 2. -/
theorem test_decode_refused :
    ([0xFF00000000000000#64, 0x5400000000000000#64, 0x0000000100000000#64, 0x1001000000000000#64, 0x1000010000000000#64,
      0x0000000000000001#64, 0x1302000000000000#64, 0x0900020000000000#64].all fun w => (read w).isNone) = true := by
  decide +kernel

/-- Encoding writes those words (30_encoding.md R90, R94). -/
theorem test_encode :
    encode (.pxrd 0#8 1#1 1#16 2#16) = 0x0900010000010002#64 ∧ encode (.putbits 12#8 0xABC#32) = 0x140C000000000ABC#64 ∧
    encode (.csrw 0x0A#8 4#32) = 0x030A000000000004#64 := by decide +kernel

/-! ### One step, values from spec/95_test_vectors.md -/

theorem test_nop : stepAnswer State.reset 0x0000000000000000 = some 0#64 := by decide +kernel
theorem test_reset_leaves_fault : (after (exec .reset faulted)).regs = Regs.reset := by decide +kernel
theorem test_csrr_id : stepAnswer State.reset 0x0200000000000000 = some 0x0000000047454301#64 := by decide +kernel
theorem test_csrr_status_faulted : execAnswer (.csrr 1#8) faulted = some 0x10#64 := by decide +kernel
theorem test_csrw_m : (after (exec (.csrw 0x0A#8 4#32) State.reset)).regs = { Regs.reset with m := 4#8 } := by
  decide +kernel
theorem test_csrw_readonly : stepAnswer State.reset 0x0313000000000000 = some 0x0600000000000000#64 := by decide +kernel
theorem test_pxwr :
    (after (exec (.pxwr 0#8 11#8 1#16 0#16) (framed 2#32 2#32))).sample .cur 1 0 0 = some 11#8 := by decide +kernel
theorem test_pxwr_channel_outside :
    execAnswer (.pxwr 1#8 11#8 1#16 0#16) (framed 2#32 2#32) = some 0x0400000000000000#64 := by decide +kernel
theorem test_pxrd :
    execAnswer (.pxrd 0#8 0#1 1#16 0#16) (load .cur frameS1 (framed 2#32 2#32)) = some 14#64 := by decide +kernel
theorem test_pxrd_no_reference :
    execAnswer (.pxrd 0#8 1#1 0#16 0#16) (framed 2#32 2#32) = some 0x0300000000000000#64 := by decide +kernel
theorem test_cpref :
    (after (exec .cpref (load .cur frameS1 (framed 2#32 2#32)))).sample .ref 0 1 0 = some 12#8 := by decide +kernel
theorem test_bopenw : (after (exec .bopenw State.reset)).regs = { Regs.reset with mode := .write } := by decide +kernel
theorem test_bopenr_twice : execAnswer .bopenr (reader 4#8 []) = some 0x0300000000000000#64 := by decide +kernel
theorem test_bclose_pads :
    (after (exec .bclose (after (exec (.putbits 12#8 0xABC#32) (writer 0#8))))).env.sinkOut = [0xAB#8, 0xC0#8] := by
  decide +kernel
theorem test_bclose_run :
    (after (exec .bclose (after (exec (.rpush 0#32) (writer 4#8))))).env.sinkOut = [0x20#8] := by decide +kernel
theorem test_putbit :
    (after (exec (.putbit 1#1) (writer 0#8))).regs = { (writer 0#8).regs with bitcnt := 1#4, bitbuf := 0x80#8 } := by
  decide +kernel
theorem test_putbits :
    (after (exec (.putbits 3#8 0xFFFFFFFD#32) (writer 0#8))).regs.bitbuf = 0xA0#8 := by decide +kernel
theorem test_getbit : execAnswer .getbit (reader 0#8 [0xA0#8]) = some 1#64 := by decide +kernel
theorem test_getbits : execAnswer (.getbits 12#8) (reader 0#8 [0xAB#8, 0xC0#8]) = some 0xABC#64 := by decide +kernel
theorem test_genc :
    (after (exec (.genc 26#32) (writer 4#8))).env.sinkOut = [0xFD#8] ∧
    (after (exec (.genc 26#32) (writer 4#8))).regs.bitcnt = 2#4 := by decide +kernel
theorem test_genc_negative :
    bufferedBits (after (exec (.genc 0xFFFFFFFD#32) (writer 5#8))).regs = [false, true, true, false, true] := by
  decide +kernel
theorem test_gdec : execAnswer .gdec (reader 4#8 [0xFD#8, 0x00#8]) = some 26#64 := by decide +kernel
theorem test_gdec_negative : execAnswer .gdec (reader 5#8 [0xBD#8, 0x80#8]) = some 0xFFFFFFF7#64 := by decide +kernel
theorem test_rpush :
    (after (exec (.rpush 5#32) (writer 4#8))).regs = { (writer 4#8).regs with runCount := 1#32, lastValue := 5#32 } := by
  decide +kernel
theorem test_rflush :
    bufferedBits (after (exec .rflush (after (exec (.rpush 0#32) (writer 4#8))))).regs = [] ∧
    (after (exec .rflush (after (exec (.rpush 0#32) (writer 4#8))))).env.sinkOut = [0x20#8] := by decide +kernel
theorem test_rpop :
    execAnswer .rpop (reader 4#8 [0x69#8, 0x12#8]) = some 5#64 ∧
    (after (exec .rpop (reader 4#8 [0x69#8, 0x12#8]))).regs.runCount = 2#32 := by decide +kernel
theorem test_rpop_negative_count : execAnswer .rpop (reader 4#8 [0x30#8]) = some 0x0500000000000000#64 := by
  decide +kernel
theorem test_qlevel : execAnswer (.qlevel 0#8 0xFFFFFFF4#32) (session .idle 2#2 2#32) = some 0xFFFFFFFE#64 := by
  decide +kernel
theorem test_qvalue : execAnswer (.qvalue 0#8 2#32) (session .idle 2#2 2#32) = some 0x10#64 := by decide +kernel
theorem test_quant : execAnswer (.quant 0#8 3#32) (session .idle 2#2 2#32) = some 0#64 := by decide +kernel
theorem test_quant_overflow :
    execAnswer (.quant 0#8 0x7FFFFFFF#32) { State.reset with regs := { Regs.reset with qbitsY := 1#8 } } =
      some 0x0700000000000000#64 := by decide +kernel
theorem test_ipred : execAnswer (.ipred 0#8 1#16 1#16) (load .cur frameS1 (framed 2#32 2#32)) = some 14#64 := by
  decide +kernel
theorem test_ipred_otherwise :
    execAnswer (.ipred 0#8 1#16 1#16) (load .cur [[13#8, 14#8], [12#8, 0#8]] (framed 2#32 2#32)) = some 13#64 := by
  decide +kernel
theorem test_match : execAnswer (.matchBlock 0#16 2#16) sessionP5 = some 0x000000000000FFFF#64 := by decide +kernel
theorem test_match_outside : execAnswer (.matchBlock 3#16 0#16) sessionP5 = some 0x0400000000000000#64 := by
  decide +kernel

/-- Program P4: header bits `010 000 00000010 00000010 00000010 00000001 ...` of a lossy session. -/
theorem test_wrhdr :
    (after (exec .wrhdr { State.reset with
      regs := { sessionRegs 2#2 2#32 with mode := .write, m := 2#8, frameCount := 1#32 } })).env.sinkOut =
        [0x40#8, 0x08#8, 0x08#8, 0x08#8, 0x04#8, 0x14#8, 0x00#8] := by decide +kernel

/-- The same header read back, program P4. -/
theorem test_rdhdr :
    let t := after (exec .rdhdr { reader 0#8 [0x40#8, 0x08#8, 0x08#8, 0x08#8, 0x04#8, 0x14#8, 0x00#8, 0x01#8] with
      regs := { Regs.reset with mode := .read, variant := 2#2, hdrcfg := 0#2 } })
    t.regs.sess = .headerDone ∧ t.regs.m = 2#8 ∧ t.regs.qbitsY = 5#8 ∧ t.regs.width = 2#32 := by decide +kernel

/-- Vector S1: the payload `110100 0100 10000 0100`. -/
theorem test_encf_intra :
    let t := after (exec .encf (load .cur frameS1 (session .write 0#2 2#32)))
    t.env.sinkOut = [0xD1#8, 0x20#8] ∧ t.regs.bitcnt = 3#4 ∧ t.regs.bitbuf = 0x80#8 ∧ answer t = some 0#64 := by
  decide +kernel

/-- Program P5, second frame: 100 bits; the first block is `0000 0000 0010 110101 0010 110101`. -/
theorem test_encf_predicted :
    let t := after (exec .encf sessionP5)
    t.env.sinkOut.take 4 = [0x00#8, 0x2D#8, 0x4B#8, 0x53#8] ∧ answer t = some 1#64 ∧
    (writtenBits t).length = 100 := by decide +kernel

/-- Vector S1 read back. -/
theorem test_decf_intra :
    let t := after (exec .decf { session .read 0#2 2#32 with
      env := { Env.quiet with source := [.byte 0xD1#8, .byte 0x20#8, .byte 0x80#8] } })
    t.cur = (load .cur frameS1 State.reset).cur ∧ answer t = some 0#64 := by decide +kernel

/-- Program P5: the second frame decodes to the encoder's frame. -/
theorem test_decf_predicted :
    let t := after (exec .decf { sessionP5 with
      cur := []
      regs := { sessionP5.regs with mode := .read }
      env := { Env.quiet with source := (after (exec .bclose (after (exec .encf sessionP5)))).env.sinkOut.map .byte } })
    t.cur = (load .cur frameP5b State.reset).cur ∧ answer t = some 1#64 := by decide +kernel

/-! ### Witnesses: a concrete state and operands that meet the hypotheses of each statement -/

theorem witness_EncodeOfDecode : decode 0x0900010000010002#64 = .ok (.pxrd 0#8 1#1 1#16 2#16) := by decide +kernel

/-- Every range of reserved opcodes at both of its ends, accepted by a step. -/
theorem witness_ReservedOpcodesFault :
    ([(0x04, 0x07), (0x0B, 0x0F), (0x17, 0x1F), (0x22, 0x27), (0x2B, 0x2F), (0x33, 0x3F), (0x41, 0x47), (0x49, 0x4F),
      (0x54, 0xFF)].all fun b =>
      decide ((State.reset.withFetchWord 64 (b.1 * 2 ^ 56)).inputs = [.command (BitVec.ofNat 64 (b.1 * 2 ^ 56))]) &&
      decide (((BitVec.ofNat 64 (b.1 * 2 ^ 56)).extractLsb' 56 8).toNat = b.1) &&
      decide (((BitVec.ofNat 64 (b.2 * 2 ^ 56)).extractLsb' 56 8).toNat = b.2) &&
      decide (stepAnswer State.reset (b.1 * 2 ^ 56) = some 0x0600000000000000#64) &&
      decide (stepAnswer State.reset (b.2 * 2 ^ 56) = some 0x0600000000000000#64)) = true := by decide +kernel

theorem witness_IllegalOperandsFault :
    (Instr.csrr 0x19#8).wellFormed State.reset.par = false ∧ (Instr.putbits 33#8 0#32).wellFormed State.reset.par = false ∧
    (Instr.pxwr 3#8 0#8 0#16 0#16).wellFormed State.reset.par = false := by decide

theorem witness_StepRunsDecodedCommand :
    (State.reset.withFetchWord 64 0x1000000000000000).inputs = [.command 0x1000000000000000#64] ∧
    decode 0x1000000000000000#64 = .ok .bopenw ∧
    (State.reset.withFetchWord 64 1).inputs = [.command 1#64] ∧ decode 1#64 = .error .nonzeroUnused := by decide +kernel

/-- `hard_reset` after one of the four bytes that PUTBITS hands over. -/
theorem witness_HardResetAndWaiting :
    let s := { writer 4#8 with inputs := [.hardResetDuring 0x14200000DEADBEEF#64 1] }
    State.reset.inputs = [] ∧ { writer 4#8 with inputs := [.hardReset] }.inputs = .hardReset :: [] ∧
    s.inputs = .hardResetDuring 0x14200000DEADBEEF#64 1 :: [] ∧ (after (step s)).env.sinkOut = [0xDE#8] ∧
    (after (step s)).regs = Regs.reset ∧ (after (step s)).responses = [] := by decide +kernel

theorem witness_RefusedWhileFaulted :
    (faulted.withFetchWord 64 0x1200000000000000).inputs = [.command 0x1200000000000000#64] ∧
    (faulted.withFetchWord 64 0x1200000000000000).regs.err = true ∧
    ¬ ∃ i, decode 0x1200000000000000#64 = .ok i ∧ i.wellFormed faulted.par = true ∧
      (i = .nop ∨ i = .reset ∨ ∃ a, i = .csrr a) := by
  refine ⟨by decide +kernel, by decide +kernel, ?_⟩
  rintro ⟨i, h, -, hi⟩
  have h2 : decode 0x1200000000000000#64 = .ok .bclose := by decide +kernel
  rw [h2] at h
  cases h
  rcases hi with h | h | ⟨a, h⟩ <;> cases h

/-- An ill-formed CSRR is refused as well while a fault is recorded. -/
theorem witness_RefusedWhileFaulted_illegal :
    faulted.regs.err = true ∧ decode 0x0219000000000000#64 = .ok (.csrr 0x19#8) ∧
    (Instr.csrr 0x19#8).wellFormed faulted.par = false := by decide +kernel

theorem witness_FaultEntryRecordsCause :
    State.reset.regs.err = false ∧ exec .bclose State.reset = .next (after (exec .bclose State.reset)) ∧
    (after (exec .bclose State.reset)).regs.err = true ∧
    exec .bopenw State.reset = .next (after (exec .bopenw State.reset)) ∧
    (after (exec .bopenw State.reset)).regs.err = false :=
  ⟨by decide, after_eq (by decide +kernel), by decide +kernel, after_eq (by decide +kernel), by decide +kernel⟩

theorem witness_CommandsRaiseOnlyTheirFaults :
    State.reset.regs.err = false ∧
    (Instr.bclose.wellFormed State.reset.par = true ∧ exec .bclose State.reset = .next (after (exec .bclose State.reset)) ∧
      (after (exec .bclose State.reset)).regs.err = true) ∧
    ((Instr.csrr 0x19#8).wellFormed State.reset.par = false ∧
      exec (.csrr 0x19#8) State.reset = .next (after (exec (.csrr 0x19#8) State.reset)) ∧
      (after (exec (.csrr 0x19#8) State.reset)).regs.err = true) :=
  ⟨rfl, ⟨by decide, after_eq (by decide +kernel), by decide +kernel⟩, by decide, after_eq (by decide +kernel),
    by decide +kernel⟩

theorem witness_OnlyResetLeavesFaultState :
    faulted.regs.err = true ∧
    step (faulted.withFetchWord 64 0) = .next (after (step (faulted.withFetchWord 64 0))) ∧
    step (faulted.withFetchWord 64 0x0100000000000000) = .next (after (step (faulted.withFetchWord 64 0x0100000000000000))) ∧
    (after (step (faulted.withFetchWord 64 0x0100000000000000))).regs.err = false :=
  ⟨by decide +kernel, after_eq (by decide +kernel), after_eq (by decide +kernel), by decide +kernel⟩

theorem witness_ResetValues :
    exec .reset faulted = .next (after (exec .reset faulted)) ∧
    step { faulted with inputs := [.hardReset] } = .next (after (step { faulted with inputs := [.hardReset] })) ∧
    step { faulted with inputs := [.hardResetDuring 0#64 0] } =
      .next (after (step { faulted with inputs := [.hardResetDuring 0#64 0] })) :=
  ⟨after_eq (by decide +kernel), after_eq (by decide +kernel), after_eq (by decide +kernel)⟩

theorem witness_IdReadsConstant : State.reset.regs.err = false := by decide

theorem witness_NopAndCsrrComplete :
    csrOrder[(0x00#8).toNat]? = some .id ∧ csrOrder[(0x18#8).toNat]? = some .bitbuf := by decide

/-- The bounds of every range of legal values, and the values past them. -/
theorem witness_CsrwWritesRegister :
    State.reset.regs.err = false ∧ State.reset.regs.sess ≠ .headerDone ∧
    csrOrder[0x04]? = some .variant ∧ CsrwLegal State.reset.par 0x04 3 ∧ CsrwLegal State.reset.par 0x06 7 ∧
    CsrwLegal State.reset.par 0x08 4096 ∧ CsrwLegal State.reset.par 0x09 4096 ∧ CsrwLegal State.reset.par 0x0A 255 ∧
    CsrwLegal State.reset.par 0x0B 4294967295 ∧ CsrwLegal State.reset.par 0x12 3 ∧
    ¬ CsrwLegal State.reset.par 0x03 0 ∧ ¬ CsrwLegal State.reset.par 0x13 0 ∧ ¬ CsrwLegal State.reset.par 0x04 4 ∧
    ¬ CsrwLegal State.reset.par 0x08 4097 ∧ ¬ CsrwLegal State.reset.par 0x0A 256 := by
  unfold CsrwLegal; and_intros <;> decide

theorem witness_SessionParametersAreLocked :
    CsrwLegal State.reset.par 0x04 3 ∧ CsrwLegal State.reset.par 0x11 8 ∧
    (session .write 1#2 2#32).regs.sess = .headerDone ∧ State.reset.regs.sess ≠ .headerDone ∧
    (session .write 1#2 2#32).regs.err = false := by
  unfold CsrwLegal; decide

theorem witness_SessionParametersImmutable :
    let s := (session .write 1#2 2#32).withFetchWord 64 0x0312000000000003
    step s = .next (after (step s)) ∧ s.regs.sess = .headerDone ∧ (after (step s)).regs.sess = .headerDone :=
  ⟨after_eq (by decide +kernel), by decide +kernel, by decide +kernel⟩

/-- The first and the last sample of a window, and the first coordinates outside it. -/
theorem witness_Window :
    (framed 2#32 3#32).regs.err = false ∧ (0#8).toNat ≤ 2 ∧ (2#8).toNat ≤ 2 ∧
    inWindow (framed 2#32 3#32).regs 0 0 0 = true ∧ inWindow (framed 2#32 3#32).regs 1 2 0 = true ∧
    inWindow (framed 2#32 3#32).regs 2 0 0 = false ∧ inWindow (framed 2#32 3#32).regs 0 3 0 = false ∧
    inWindow (framed 2#32 3#32).regs 0 0 1 = false ∧
    inWindow { (framed 2#32 3#32).regs with colorSpace := 0#3 } 1 2 2 = true := by decide

theorem witness_PixelOutOfBounds :
    (framed 2#32 3#32).regs.refValid = false ∧
    inWindow (framed 2#32 3#32).regs (2#16).toNat (0#16).toNat (0#8).toNat = false ∧
    { (framed 2#32 3#32).regs with refValid := true }.refValid = true := by decide

/-- PXRD of a written sample of either buffer, and of an unwritten one. -/
theorem witness_PxrdReadsSample :
    inWindow sessionP5.regs (0#16).toNat (1#16).toNat (0#8).toNat = true ∧ sessionP5.regs.refValid = true ∧
    sessionP5.regs.err = false ∧ sessionP5.sample .ref 0 1 0 = some 20#8 ∧ sessionP5.sample .cur 0 1 0 = some 10#8 ∧
    (framed 2#32 3#32).sample .cur 0 1 0 = none := by decide +kernel

theorem witness_CprefCopiesWindow :
    (framed 2#32 3#32).regs.err = false ∧ (framed 2#32 3#32).regs.sess ≠ .headerDone ∧
    (session .write 1#2 2#32).regs.err = false ∧ (session .write 1#2 2#32).regs.sess = .headerDone := by decide

theorem witness_BuffersChangeOnlyByTheirCommands :
    exec .cpref (framed 1#32 1#32) = .next (after (exec .cpref (framed 1#32 1#32))) ∧
    exec (.pxwr 0#8 7#8 0#16 0#16) (framed 1#32 1#32) =
      .next (after (exec (.pxwr 0#8 7#8 0#16 0#16) (framed 1#32 1#32))) ∧
    exec .nop State.reset = .next (after (exec .nop State.reset)) :=
  ⟨after_eq (by decide +kernel), after_eq (by decide +kernel), after_eq (by decide +kernel)⟩

theorem witness_OpenStream :
    State.reset.regs.err = false ∧ State.reset.regs.mode = .idle ∧ State.reset.env.openAnswers.head? ≠ some .ioerr ∧
    { Env.quiet with openAnswers := [.ioerr] }.openAnswers.head? = some .ioerr ∧ (writer 0#8).regs.mode ≠ .idle := by decide

/-- An output stream with 0 and one with 7 bits pending; counts 0 and 32. -/
theorem witness_PutBitsAppend :
    (writer 0#8).regs.err = false ∧ (writer 0#8).regs.mode = .write ∧ sinkReady (writer 0#8) = true ∧
    bufferHolds (writer 0#8).regs 7 = true ∧
    bufferHolds { (writer 0#8).regs with bitcnt := 7#4, bitbuf := 0xFE#8 } 7 = true ∧ (0#8).toNat ≤ 32 ∧
    (32#8).toNat ≤ 32 := by decide

/-- One bit, no bit and 32 bits that can be read. -/
theorem witness_GetBitsConsume :
    let s := reader 0#8 [0xDE#8, 0xAD#8, 0xBE#8, 0xEF#8]
    s.regs.err = false ∧ s.regs.mode = .read ∧ bufferHolds s.regs 8 = true ∧
    unreadBits s = [true] ++ (unreadBits s).drop 1 ∧ unreadBits s = [] ++ unreadBits s ∧
    unreadBits s = unreadBits s ++ [] ∧ (unreadBits s).length = (32#8).toNat := by decide +kernel

/-- The outcome of a list of commands, as a state. -/
def run (is : List Instr) (s : State) : State := after (execAll is s)

/-- A decoder of the second frame of program P5. -/
def decoderP5 : State :=
  { sessionP5 with
    cur := []
    regs := { sessionP5.regs with mode := .read }
    env := { Env.quiet with source := (run [.encf, .bclose] sessionP5).env.sinkOut.map .byte } }

/-- The vectors of the second frame of program P5. -/
def vectorsP5 (br bc : Nat) : Int × Int := if br = 0 ∧ bc = 1 then (-1, 0) else (0, 0)

/-- The residuals of the second frame of program P5. -/
def residualsP5 (br bc : Nat) : List Int :=
  if br = 0 ∧ bc = 0 then [1, -10, 1, -10] else if br = 1 ∧ bc = 1 then [0, 0, 1, 0] else [0, 0, 0, 0]

/-- A source that stops after the bytes `bs` with the answer `x`. -/
def stopping (bs : List Byte) (x : SourceAnswer) (s : State) : State :=
  { s with env := { Env.quiet with source := bs.map .byte ++ [x] } }

/-- A source that ends and one that fails: within a bit, a field, a codeword of which one bit is left, a pair, a header, an
intra frame (vector S1) and a predicted frame (program P5). -/
theorem witness_ReadPastEndFaults :
    ((reader 0#8 []).regs.err = false ∧ (reader 0#8 []).regs.mode = .read ∧ bufferHolds (reader 0#8 []).regs 8 = true ∧
      unreadBits (reader 0#8 []) = [] ∧ (unreadBits (reader 0#8 [])).length < (1#8).toNat ∧
      (unreadBits (reader 0#8 [0xDE#8, 0xAD#8, 0xBE#8])).length < (32#8).toNat) ∧
    ([SourceAnswer.eos, .ioerr].all fun x =>
      let one := stopping [] x { reader 4#8 [] with
        regs := { (reader 4#8 []).regs with bitcnt := 1#4, bitbuf := 0x80#8 } }
      let intra := stopping [0xD1#8] x (session .read 0#2 2#32)
      let pred := stopping [0x00#8, 0x2D#8] x decoderP5
      decide (sourceEnds one.env.source = decide (x = .eos) ∧ bufferHolds one.regs 8 = true ∧ one.regs.m ≠ 0#8 ∧
        unreadBits one ++ (codewordParts 4 1 0 false).drop 1 = codewordParts one.regs.m.toNat 1 0 false ∧
        one.regs.runCount = 0#32 ∧
        unreadBits one ++ (codeword 4 (4#32).toInt ++ codeword 4 (0#32).toInt).drop 1 =
          codeword one.regs.m.toNat (4#32).toInt ++ codeword one.regs.m.toNat (0#32).toInt ∧
        one.regs.sess = .uninit ∧ (unreadBits one).length < (headerBits one.regs).length ∧
        unreadBits intra ++ (codewords 4 [10, 2, 4, 2]).drop 8 = codewords intra.regs.m.toNat [10, 2, 4, 2] ∧
        unreadBits pred ++ (codewords 4 (predictedNumbers pred.regs vectorsP5 residualsP5)).drop 16 =
          codewords pred.regs.m.toNat (predictedNumbers pred.regs vectorsP5 residualsP5) ∧
        execAnswer .gdec one = some (responseWord (if x = .eos then 2#8 else 1#8) 0#32) ∧
        execAnswer .decf intra = some (responseWord (if x = .eos then 2#8 else 1#8) 0#32) ∧
        execAnswer .decf pred = some (responseWord (if x = .eos then 2#8 else 1#8) 0#32))) = true := by
  and_intros <;> decide +kernel

theorem witness_WrongModeFaults :
    Instr.getbit.wellFormed (writer 0#8).par = true ∧ neededMode .getbit = some .read ∧ (writer 0#8).regs.mode ≠ .read ∧
    (writer 0#8).regs.err = false := by decide

theorem witness_BcloseClosesStream :
    (writer 4#8).regs.err = false ∧ (writer 4#8).regs.mode = .write ∧ sinkReady (writer 4#8) = true ∧
    bufferHolds (writer 4#8).regs 7 = true ∧ ((writer 4#8).regs.runCount = 0#32 ∨ (writer 4#8).regs.m ≠ 0#8) ∧
    (reader 0#8 []).regs.mode = .read ∧ (reader 0#8 []).regs.err = false ∧ State.reset.regs.mode = .idle ∧
    State.reset.regs.err = false := by decide

theorem witness_SinkFailureFaults :
    let s := { writer 0#8 with
      regs := { (writer 0#8).regs with bitcnt := 7#4, bitbuf := 0xAA#8 }
      env := { Env.quiet with sinkAnswers := [.ioerr] } }
    s.regs.err = false ∧ s.regs.mode = .write ∧ s.regs.bitcnt = 7#4 ∧ s.env.sinkAnswers = .ioerr :: [] ∧
    execAnswer (.putbit 0#1) s = some 0x0100000000000000#64 := by decide +kernel

/-- SINK takes the first byte of PUTBITS 24 bits and refuses the second. -/
theorem witness_SinkFailureFaults_within :
    let i := Instr.putbits 24#8 0x010203#32
    let s := { writer 0#8 with env := { Env.quiet with sinkAnswers := [.ok, .ioerr] } }
    let t := after (exec i { s with env := { s.env with sinkAnswers := [] } })
    neededMode i = some .write ∧ s.regs.err = false ∧
    exec i { s with env := { s.env with sinkAnswers := [] } } = .next t ∧ t.regs.err = false ∧
    t.env.sinkOut = s.env.sinkOut ++ [1#8, 2#8, 3#8] ∧ s.env.sinkAnswers = List.replicate 1 .ok ++ .ioerr :: [] ∧
    execAnswer i s = some 0x0100000000000000#64 :=
  ⟨by decide +kernel, by decide +kernel, after_eq (by decide +kernel), by decide +kernel, by decide +kernel, rfl,
    by decide +kernel⟩

theorem witness_StreamIsSequential :
    exec (.putbits 8#8 7#32) (writer 0#8) = .next (after (exec (.putbits 8#8 7#32) (writer 0#8))) ∧
    exec .bclose (reader 0#8 []) = .next (after (exec .bclose (reader 0#8 []))) :=
  ⟨after_eq (by decide +kernel), after_eq (by decide +kernel)⟩

theorem witness_BitStreamRoundTrip :
    let s := State.reset
    let t := run [.bopenw, .putbits 12#8 0xABC#32, .bclose] s
    let u := { State.reset with env := { Env.quiet with source := t.env.sinkOut.map .byte } }
    (12#8).toNat ≤ 32 ∧ s.regs.err = false ∧ s.regs.mode = .idle ∧ s.env.openAnswers = [] ∧ sinkReady s = true ∧
    s.env.sinkOut = [] ∧ t.env.sinkOut = [0xAB#8, 0xC0#8] ∧ u.regs.err = false ∧ u.regs.mode = .idle ∧
    u.env.openAnswers = [] ∧ u.env.source = t.env.sinkOut.map .byte := by decide +kernel

theorem witness_GencWritesCodeword :
    (writer 5#8).regs.err = false ∧ (writer 5#8).regs.mode = .write ∧ (writer 5#8).regs.m ≠ 0#8 ∧
    sinkReady (writer 5#8) = true ∧ bufferHolds (writer 5#8).regs 7 = true := by decide

/-- The codeword of -9 and negative zero. -/
theorem witness_GdecReadsCodeword :
    let s := reader 5#8 [0xBD#8, 0x80#8]
    s.regs.err = false ∧ s.regs.mode = .read ∧ s.regs.m ≠ 0#8 ∧ bufferHolds s.regs 8 = true ∧ 4 < s.regs.m.toNat ∧
    unreadBits s = codewordParts s.regs.m.toNat 1 4 true ++ (unreadBits s).drop 6 ∧
    fits32 (codedNumber s.regs.m.toNat 1 4 true) = true ∧
    unreadBits (reader 4#8 [0x10#8]) = codewordParts 4 0 0 true ++ (unreadBits (reader 4#8 [0x10#8])).drop 4 ∧
    fits32 (codedNumber 255 8421504 128 false) = false ∧ fits32 (codedNumber 255 8421504 128 true) = true := by
  decide +kernel

theorem witness_GolombRoundTrip :
    writtenBits (after (exec (.genc 26#32) (writer 4#8))) =
      writtenBits (writer 4#8) ++ [true, true, true, true, true, true, false, true, false, false] ∧
    (reader 4#8 [0xFD#8, 0x00#8]).regs.err = false ∧ (reader 4#8 [0xFD#8, 0x00#8]).regs.mode = .read ∧
    (reader 4#8 [0xFD#8, 0x00#8]).regs.m = (writer 4#8).regs.m ∧
    bufferHolds (reader 4#8 [0xFD#8, 0x00#8]).regs 8 = true ∧
    unreadBits (reader 4#8 [0xFD#8, 0x00#8]) =
      [true, true, true, true, true, true, false, true, false, false] ++ List.replicate 6 false := by decide +kernel

theorem witness_UnsetDivisorFaults :
    (writer 0#8).regs.err = false ∧ (writer 0#8).regs.m = 0#8 ∧ (writer 0#8).regs.mode = .write ∧
    { (writer 0#8).regs with runCount := 1#32 }.runCount ≠ 0#32 ∧ (reader 0#8 []).regs.mode = .read ∧
    (reader 0#8 []).regs.m = 0#8 := by decide

/-- A push that continues a run, one that ends it by its value, and one at RUN_MAX. -/
theorem witness_RpushCollectsRuns :
    let g := { (writer 4#8).regs with runCount := 2#32, lastValue := 5#32 }
    g.err = false ∧ g.mode = .write ∧ g.m ≠ 0#8 ∧ ((5#32) = g.lastValue ∧ g.runCount.toNat ≠ 2147483647) ∧
    g.runCount ≠ 0#32 ∧ (7#32) ≠ g.lastValue ∧ bufferHolds g 7 = true ∧ sinkReady (writer 4#8) = true ∧
    (writer 4#8).regs.runCount = 0#32 ∧ { g with runCount := 2147483647#32 }.runCount.toNat = 2147483647 := by decide

theorem witness_RflushWritesRun :
    let s := run [.rpush 0#32] (writer 4#8)
    s.regs.err = false ∧ s.regs.mode = .write ∧ s.regs.runCount ≠ 0#32 ∧ s.regs.m ≠ 0#8 ∧ sinkReady s = true ∧
    bufferHolds s.regs 7 = true ∧ (writer 0#8).regs.runCount = 0#32 := by decide +kernel

/-- The pair (3, 5), a pair with the count 0, and a run that is replayed. -/
theorem witness_RpopReplaysRuns :
    let s := reader 4#8 [0x69#8, 0x12#8]
    let z := reader 4#8 [0x00#8]
    s.regs.err = false ∧ s.regs.mode = .read ∧ s.regs.m ≠ 0#8 ∧ s.regs.runCount = 0#32 ∧ bufferHolds s.regs 8 = true ∧
    unreadBits s = codeword s.regs.m.toNat (3#32).toInt ++ codeword s.regs.m.toNat (5#32).toInt ++ (unreadBits s).drop 9 ∧
    1 ≤ (3#32).toInt ∧
    unreadBits z = codeword z.regs.m.toNat (0#32).toInt ++ codeword z.regs.m.toNat (0#32).toInt ++ [] ∧
    (0#32).toInt ≤ 0 ∧ (run [.rpop] s).regs.runCount ≠ 0#32 ∧ (run [.rpop] s).regs.err = false := by decide +kernel

/-- The first line of the run-length table: `5 5 5 -2 7 7`, with an RFLUSH in between. -/
theorem witness_RunLengthRoundTrip :
    let s := writer 4#8
    let u := reader 4#8 [0x69#8, 0x12#8, 0xA5#8, 0x80#8]
    s.regs.err = false ∧ s.regs.mode = .write ∧ s.regs.m ≠ 0#8 ∧ s.regs.runCount = 0#32 ∧ sinkReady s = true ∧
    bufferHolds s.regs 7 = true ∧
    writtenBits (run [.rpush 5#32, .rpush 5#32, .rpush 5#32, .rflush, .rpush 0xFFFFFFFE#32, .rpush 7#32, .rpush 7#32,
      .rflush] s) ++ List.replicate 6 false = unreadBits u ∧
    u.regs.err = false ∧ u.regs.mode = .read ∧ u.regs.m = s.regs.m ∧ u.regs.runCount = 0#32 ∧
    bufferHolds u.regs 8 = true := by decide +kernel

/-- The bit depths at the bounds of the three clauses: 0, 1, 8 and 9. -/
theorem witness_QuantizerResults :
    ([0#8, 1#8, 8#8, 9#8].all fun nb =>
      let s : State := { State.reset with regs := { Regs.reset with qbitsY := nb } }
      decide (s.regs.err = false ∧ (0#8).toNat ≤ 2 ∧
        nb.toNat = (if (0#8) = 0#8 then s.regs.qbitsY else if (0#8) = 1#8 then s.regs.qbitsU else s.regs.qbitsV).toNat)) =
      true ∧
    fits32 ((2147483647#32).toInt * 256) = false ∧ fits32 ((2#32).toInt * 256) = true := by decide

theorem witness_QuantIsIdempotent :
    (session .idle 2#2 2#32).regs.err = false ∧
    execAnswer (.quant 0#8 12#32) (session .idle 2#2 2#32) = some (responseWord 0#8 16#32) ∧
    exec (.quant 0#8 12#32) (session .idle 2#2 2#32) = .next ((session .idle 2#2 2#32).respond 0#8 16#32) :=
  ⟨by decide, by decide +kernel, rfl⟩

theorem witness_IpredPredicts :
    let s := load .cur frameS1 (framed 2#32 2#32)
    s.regs.err = false ∧ inWindow s.regs (1#16).toNat (1#16).toNat (0#8).toNat = true ∧
    (14 : Nat) = sampleNat s .cur 1 0 0 ∧ (12 : Nat) = sampleNat s .cur 0 1 0 ∧ (10 : Nat) = sampleNat s .cur 0 0 0 ∧
    (s.sample .cur 1 0 0).isSome = true ∧ (s.sample .cur 0 1 0).isSome = true ∧ (s.sample .cur 0 0 0).isSome = true := by
  decide +kernel

theorem witness_IpredBoundary :
    let s := load .cur frameS1 (framed 2#32 2#32)
    s.regs.err = false ∧ inWindow s.regs 0 0 0 = true ∧ inWindow s.regs 0 1 0 = true ∧ inWindow s.regs 1 0 0 = true ∧
    s.sample .cur 0 0 0 = some 10#8 := by decide +kernel

/-- A window is written when each of its samples is. -/
theorem windowWritten_of_all {s : State} {b : Buffer} {h w k : Nat} (hh : s.regs.height.toNat = h)
    (hw : s.regs.width.toNat = w) (hk : channels s.regs = k)
    (all : ((List.range h).all fun r => (List.range w).all fun c => (List.range k).all fun ch =>
      (s.sample b r c ch).isSome) = true) : WindowWritten s b := by
  intro r c ch hin
  simp only [inWindow, decide_eq_true_eq, hh, hw, hk] at hin
  simp only [List.all_eq_true, List.mem_range] at all
  exact Option.isSome_iff_exists.mp (all r hin.1 c hin.2.1 ch hin.2.2)

theorem written_P5 : WindowWritten sessionP5 .cur ∧ WindowWritten sessionP5 .ref :=
  ⟨windowWritten_of_all (h := 4) (w := 4) (k := 1) (by decide +kernel) (by decide +kernel) (by decide +kernel)
      (by decide +kernel),
    windowWritten_of_all (h := 4) (w := 4) (k := 1) (by decide +kernel) (by decide +kernel) (by decide +kernel)
      (by decide +kernel)⟩

/-- The block at the last legal corner, and a displaced one. -/
theorem witness_MatchFindsFirstBest :
    (sessionP5.regs.err = false ∧ sessionP5.regs.refValid = true ∧ sessionP5.regs.blockSize ≠ 0#8 ∧
      (2#16).toNat + sessionP5.regs.blockSize.toNat ≤ sessionP5.regs.height.toNat ∧
      (2#16).toNat + sessionP5.regs.blockSize.toNat ≤ sessionP5.regs.width.toNat) ∧
    WindowWritten sessionP5 .cur ∧ WindowWritten sessionP5 .ref :=
  ⟨by decide +kernel, written_P5⟩

theorem witness_MatchPreconditions :
    State.reset.regs.refValid = false ∧ { sessionP5.regs with blockSize := 0#8 }.blockSize = 0#8 ∧
    sessionP5.regs.height.toNat < (3#16).toNat + sessionP5.regs.blockSize.toNat ∧
    sessionP5.regs.width.toNat < (3#16).toNat + sessionP5.regs.blockSize.toNat ∧
    { sessionP5.regs with searchRadius := 0#8 }.searchRadius = 0#8 := by decide +kernel

/-- Parameters that WRHDR accepts, an unset divisor, and parameters it refuses. -/
theorem witness_WrhdrWritesHeader :
    (writer 4#8).regs.mode = .write ∧ (writer 4#8).regs.sess = .uninit ∧ (writer 4#8).regs.err = false ∧
    HeaderAccepted Config.Params.standard (sessionRegs 3#2 255#32) ∧ FieldsFit (sessionRegs 3#2 255#32) ∧
    sinkReady (writer 4#8) = true ∧ bufferHolds (sessionRegs 3#2 255#32) 7 = true ∧ (sessionRegs 3#2 1#32).m ≠ 0#8 ∧
    ¬ FieldsFit (sessionRegs 3#2 256#32) ∧ ¬ HeaderAccepted Config.Params.standard (sessionRegs 3#2 0#32) ∧
    (writer 0#8).regs.m = 0#8 := by
  unfold HeaderAccepted FieldsFit; and_intros <;> decide +kernel

/-- The header of program P4 in the stream, and a header with the divisor 0. -/
theorem witness_RdhdrLoadsHeader :
    let g := { sessionRegs 2#2 2#32 with m := 2#8, frameCount := 1#32 }
    let s := { reader 0#8 [0x40#8, 0x08#8, 0x08#8, 0x08#8, 0x04#8, 0x14#8, 0x00#8, 0x01#8] with
      regs := { Regs.reset with mode := .read, variant := 2#2, hdrcfg := 0#2 } }
    s.regs.err = false ∧ s.regs.mode = .read ∧ s.regs.sess = .uninit ∧ bufferHolds s.regs 8 = true ∧
    g.variant = s.regs.variant ∧ g.hdrcfg = s.regs.hdrcfg ∧ FieldsFit g ∧
    unreadBits s = headerBits g ++ [false, true] ∧ HeaderAccepted s.par g ∧
    ¬ HeaderAccepted s.par { g with m := 0#8 } ∧ FieldsFit { g with m := 0#8 } := by
  unfold HeaderAccepted FieldsFit; and_intros <;> decide +kernel

theorem witness_SessionStateMachine :
    State.reset.regs.err = false ∧ exec .encf State.reset = .next (after (exec .encf State.reset)) ∧
    ¬ SessionAllows State.reset.regs .encf ∧ (after (exec .encf State.reset)).regs.err = true ∧
    exec .bopenw State.reset = .next (after (exec .bopenw State.reset)) ∧
    (after (exec .bopenw State.reset)).regs.err = false :=
  ⟨by decide, after_eq (by decide +kernel), by unfold SessionAllows; decide, by decide +kernel, after_eq (by decide +kernel),
    by decide +kernel⟩

/-- An intra and a predicted frame that are about to be coded; the intra one has unwritten samples. -/
theorem witness_EncfCompletes :
    (session .write 0#2 2#32).regs.err = false ∧ (session .write 0#2 2#32).regs.mode = .write ∧
    (session .write 0#2 2#32).regs.sess = .headerDone ∧
    (session .write 0#2 2#32).regs.frameIdx.toNat < (session .write 0#2 2#32).regs.frameCount.toNat ∧
    CodingReady (session .write 0#2 2#32).regs ∧ sinkReady (session .write 0#2 2#32) = true ∧
    bufferHolds (session .write 0#2 2#32).regs 7 = true ∧ CodingReady sessionP5.regs ∧
    sessionP5.regs.frameIdx.toNat < sessionP5.regs.frameCount.toNat ∧ sessionP5.regs.mode = .write := by
  unfold CodingReady; decide +kernel

/-- Program P4: a lossy intra frame that is about to be coded. -/
def sessionP4 : State :=
  load .cur frameS1 { session .write 2#2 2#32 with regs := { (session .write 2#2 2#32).regs with m := 2#8 } }

/-- Program P5 in a lossy variant. -/
def sessionLossy : State := { sessionP5 with regs := { sessionP5.regs with variant := 3#2 } }

/-- A lossless and a lossy frame of each type; the levels and the reconstruction of program P4. -/
theorem witness_EncfPayload :
    (lossy sessionP5.regs = false ∧ intraNext sessionP5.regs = false ∧ CodingReady sessionP5.regs ∧
      sinkReady sessionP5 = true ∧ bufferHolds sessionP5.regs 7 = true ∧ sessionP5.regs.sess = .headerDone ∧
      intraNext { sessionP5.regs with frameIdx := 0#32 } = true) ∧
    (lossy sessionP4.regs = true ∧ intraNext sessionP4.regs = true ∧ CodingReady sessionP4.regs ∧
      sinkReady sessionP4 = true ∧ bufferHolds sessionP4.regs 7 = true ∧ sessionP4.regs.sess = .headerDone ∧
      writtenBits (after (exec .encf sessionP4)) = codewords 2 [1, 1, 1, 0] ∧
      (after (exec .encf sessionP4)).cur = (load .cur [[8#8, 16#8], [16#8, 16#8]] State.reset).cur) ∧
    (lossy sessionLossy.regs = true ∧ intraNext sessionLossy.regs = false ∧ CodingReady sessionLossy.regs ∧
      sinkReady sessionLossy = true ∧ bufferHolds sessionLossy.regs 7 = true) ∧
    (WindowWritten sessionP5 .cur ∧ WindowWritten sessionP5 .ref) ∧ WindowWritten sessionP4 .cur ∧
    WindowWritten sessionLossy .cur ∧ WindowWritten sessionLossy .ref :=
  ⟨by unfold CodingReady; decide +kernel, by unfold CodingReady; decide +kernel, by unfold CodingReady; decide +kernel,
    written_P5,
    windowWritten_of_all (h := 2) (w := 2) (k := 1) (by decide +kernel) (by decide +kernel) (by decide +kernel)
      (by decide +kernel),
    windowWritten_of_all (h := 4) (w := 4) (k := 1) (by decide +kernel) (by decide +kernel) (by decide +kernel)
      (by decide +kernel),
    windowWritten_of_all (h := 4) (w := 4) (k := 1) (by decide +kernel) (by decide +kernel) (by decide +kernel)
      (by decide +kernel)⟩

/-- The payload of vector S1. -/
theorem witness_DecfIntraDecodes :
    let s := { session .read 0#2 2#32 with env := { Env.quiet with source := [.byte 0xD1#8, .byte 0x20#8, .byte 0x80#8] } }
    let ls : List Int := [10, 2, 4, 2]
    s.regs.err = false ∧ s.regs.mode = .read ∧ s.regs.sess = .headerDone ∧
    s.regs.frameIdx.toNat < s.regs.frameCount.toNat ∧ CodingReady s.regs ∧ bufferHolds s.regs 8 = true ∧
    intraNext s.regs = true ∧ ls.length = s.regs.height.toNat * s.regs.width.toNat * channels s.regs ∧
    (∀ l ∈ ls, fits32 l = true) ∧ unreadBits s = codewords s.regs.m.toNat ls ++ List.replicate 5 false := by
  unfold CodingReady; decide +kernel

/-- The second frame of program P5, a decoder whose second block has a vector one column past the last legal one, and the
decoder of 95_test_vectors.md section 2.8 whose only block has one. -/
theorem witness_DecfPredictedDecodes :
    (decoderP5.regs.err = false ∧ decoderP5.regs.mode = .read ∧ decoderP5.regs.sess = .headerDone ∧
      decoderP5.regs.frameIdx.toNat < decoderP5.regs.frameCount.toNat ∧ CodingReady decoderP5.regs ∧
      bufferHolds decoderP5.regs 8 = true ∧ intraNext decoderP5.regs = false ∧
      (∀ b ∈ blockOrder decoderP5.regs, BlockFine decoderP5.regs vectorsP5 residualsP5 b) ∧
      unreadBits decoderP5 = codewords decoderP5.regs.m.toNat (predictedNumbers decoderP5.regs vectorsP5 residualsP5) ++
        List.replicate 4 false) ∧
    (let bad : Nat → Nat → Int × Int := fun _ bc => if bc = 0 then (2, 0) else (1, 0)
     let res : Nat → Nat → List Int := fun _ _ => [0, 0, 0, 0]
     let s := stopping [0x40#8, 0x00#8, 0x00#8, 0x20#8] .eos decoderP5
     blockOrder s.regs = [(0, 0)] ++ (0, 1) :: [(1, 0), (1, 1)] ∧ (∀ d ∈ [(0, 0)], BlockFine s.regs bad res d) ∧
     ¬ ReferenceInside s.regs (0, 1) (bad 0 1) ∧ fits32 (bad 0 1).1 = true ∧ fits32 (bad 0 1).2 = true ∧
     unreadBits s = codewords s.regs.m.toNat (blockNumbers bad res [(0, 0)] ++ [(bad 0 1).1, (bad 0 1).2]) ++
       (unreadBits s).drop 32 ∧ execAnswer .decf s = some 0x0400000000000000#64) ∧
    (let s := stopping [0x20#8, 0x00#8, 0x00#8] .eos { session .read 1#2 2#32 with
       regs := { (session .read 1#2 2#32).regs with frameIdx := 1#32, refValid := true } }
     blockOrder s.regs = [] ++ (0, 0) :: [] ∧ ¬ ReferenceInside s.regs (0, 0) (1, 0) ∧
     unreadBits s = codewords s.regs.m.toNat (blockNumbers (fun _ _ => (1, 0)) (fun _ _ => []) [] ++ [1, 0]) ++
       (unreadBits s).drop 8 ∧ execAnswer .decf s = some 0x0400000000000000#64) := by
  unfold CodingReady BlockFine ReferenceInside; and_intros <;> decide +kernel

/-- An encoder and a decoder of vector S1. -/
theorem witness_FrameRoundTrip :
    (let s := load .cur frameS1 (session .write 0#2 2#32)
     let bs := [true, true, false, true, false, false, false, true, false, false, true, false, false, false, false, false,
       true, false, false]
     let u := { session .read 0#2 2#32 with env := { Env.quiet with source := [.byte 0xD1#8, .byte 0x20#8, .byte 0x80#8] } }
     s.regs.err = false ∧ s.regs.mode = .write ∧ s.regs.sess = .headerDone ∧
     s.regs.frameIdx.toNat < s.regs.frameCount.toNat ∧ CodingReady s.regs ∧ sinkReady s = true ∧
     bufferHolds s.regs 7 = true ∧ intraNext s.regs = true ∧ writtenBits (after (exec .encf s)) = writtenBits s ++ bs ∧
     u.regs.err = false ∧ u.regs.mode = .read ∧ u.regs.sess = .headerDone ∧ u.regs.frameIdx = s.regs.frameIdx ∧
     sessionParameters u.regs = sessionParameters s.regs ∧ bufferHolds u.regs 8 = true ∧
     unreadBits u = bs ++ List.replicate 5 false) ∧
    WindowWritten (load .cur frameS1 (session .write 0#2 2#32)) .cur :=
  ⟨by unfold CodingReady; decide +kernel,
    windowWritten_of_all (h := 2) (w := 2) (k := 1) (by decide +kernel) (by decide +kernel) (by decide +kernel)
      (by decide +kernel)⟩

/-- An encoder and a decoder of a predicted frame. -/
theorem witness_FrameRoundTrip_predicted :
    (intraNext sessionP5.regs = false ∧ sessionParameters decoderP5.regs = sessionParameters sessionP5.regs ∧
      decoderP5.regs.frameIdx = sessionP5.regs.frameIdx ∧ decoderP5.regs.mode = .read ∧ writtenBits sessionP5 = [] ∧
      unreadBits decoderP5 = writtenBits (after (exec .encf sessionP5)) ++ List.replicate 4 false ∧
      decoderP5.ref = sessionP5.ref) ∧
    WindowWritten sessionP5 .cur ∧ WindowWritten sessionP5 .ref :=
  ⟨by decide +kernel, written_P5⟩

/-- A session in the middle of its second frame meets the invariants, and its next step goes on. -/
theorem witness_StepKeepsInvariant :
    Sys2Proof.Machine.Inv (sessionP5.withFetchWord 64 0x5200000000000000) ∧
    step (sessionP5.withFetchWord 64 0x5200000000000000) =
      .next (after (step (sessionP5.withFetchWord 64 0x5200000000000000))) :=
  ⟨by unfold Sys2Proof.Machine.Inv MemoryOk DimsOk FaultOk BufferOk RunOk SessionOk HeaderAccepted FieldsFit; and_intros <;> decide +kernel,
    after_eq (by decide +kernel)⟩

theorem witness_StepKeepsMemoryForm :
    MemoryOk (sessionP5.withFetchWord 64 0x0800FF0000000000) ∧
    step (sessionP5.withFetchWord 64 0x0800FF0000000000) =
      .next (after (step (sessionP5.withFetchWord 64 0x0800FF0000000000))) :=
  ⟨by unfold MemoryOk; decide +kernel, after_eq (by decide +kernel)⟩

end Sys2Proof.Tests
end

section
/-! PROOFS. The step and the responses (00_scope.md R12, R13; 30_encoding.md R92, R93): what a step does with a command
word, the fields of a response word, and that a command's body is no party to the host's side of the state. -/

namespace Sys2Proof.Machine

/-! ### A step on a command word -/

section StepCommand
variable {s : State} {w : CmdWord} {rest : List HostInput}

/-- A command word that stands first is taken from the inputs and run. -/
theorem step_command (h : s.inputs = .command w :: rest) : step s = runWord w { s with inputs := rest } := by
  simp [step, nextInput, h]

theorem runWord_of_decode_ok {i : Instr} (h : decode w = .ok i) (s : State) : runWord w s = exec i s := by
  simp [runWord, h]

theorem runWord_of_decode_error {e : DecodeError} (h : decode w = .error e) (s : State) :
    runWord w s = .next (rejectWord w s) := by
  simp [runWord, h]

end StepCommand

/-- Settles O7: the word is taken, and `runWord` runs what it decodes to or rejects it. -/
theorem stepRunsDecodedCommand : Obligations.StepRunsDecodedCommand := by
  intro s w rest hin
  rw [step_command hin]
  exact ⟨fun i hi => runWord_of_decode_ok hi _, fun e he => runWord_of_decode_error he _⟩

/-! ### The fields of a response word (30_encoding.md R92) -/

section ResponseFields
variable (status : BitVec 8) (result : Word)

@[simp] theorem responseWord_status : (responseWord status result).extractLsb' 56 8 = status := by
  unfold responseWord
  rw [BitVec.extractLsb'_append_eq_of_le (by decide)]
  exact BitVec.extractLsb'_append_eq_left

@[simp] theorem responseWord_zero : (responseWord status result).extractLsb' 32 24 = 0#24 := by
  unfold responseWord
  rw [BitVec.extractLsb'_append_eq_of_le (by decide)]
  exact BitVec.extractLsb'_append_eq_right

@[simp] theorem responseWord_result : (responseWord status result).extractLsb' 0 32 = result :=
  BitVec.extractLsb'_append_eq_right

end ResponseFields

/-- The codes of R260 are below the status Faulted of 30_encoding.md R93. -/
theorem causeCode_le (c : Cause) : (causeCode c).toNat ≤ 7 := by
  cases c <;> decide

/-! ### A command's body leaves the host's side alone -/

/-- The two states have the same parameters, the same inputs to come and the same responses so far. -/
structure SameHostSide (s t : State) : Prop where
  par : t.par = s.par
  inputs : t.inputs = s.inputs
  responses : t.responses = s.responses

theorem sameHostSide_setSample (s : State) (b : Buffer) (r c ch : Nat) (v : Byte) :
    SameHostSide s (s.setSample b r c ch v) :=
  ⟨setSample_par .., setSample_inputs .., setSample_responses ..⟩

/-- No change that a command's pseudocode makes is to the host's side. -/
theorem respectsAll_sameHostSide : RespectsAll SameHostSide where
  refl _ := ⟨rfl, rfl, rfl⟩
  trans _ _ _ h g := ⟨g.par.trans h.par, g.inputs.trans h.inputs, g.responses.trans h.responses⟩
  bits _ _ _ := ⟨rfl, rfl, rfl⟩
  sink _ _ _ := ⟨rfl, rfl, rfl⟩
  source _ _ := ⟨rfl, rfl, rfl⟩
  draw _ _ := ⟨rfl, rfl, rfl⟩
  cur s r c ch v := sameHostSide_setSample s .cur r c ch v
  ref s r c ch v := sameHostSide_setSample s .ref r c ch v
  run _ _ _ := ⟨rfl, rfl, rfl⟩
  reference _ _ := ⟨rfl, rfl, rfl⟩
  frame _ _ := ⟨rfl, rfl, rfl⟩
  answers _ _ := ⟨rfl, rfl, rfl⟩
  drop _ := ⟨rfl, rfl, rfl⟩
  opened _ _ := ⟨rfl, rfl, rfl⟩
  closed _ := ⟨rfl, rfl, rfl⟩
  headerDone _ := ⟨rfl, rfl, rfl⟩
  load _ _ := ⟨rfl, rfl, rfl⟩
  set _ _ _ _ _ _ := ⟨rfl, rfl, rfl⟩
  reset s := ⟨resetBlock_par s, resetBlock_inputs s, resetBlock_responses s⟩

/-! ### One response per command -/

/-- `t` is `s` on the host's side but for one response more, whose status is one of 0 to 8 and whose result is 0 unless
the status is OK (30_encoding.md R92, R93). -/
structure Answers (s t : State) (status : BitVec 8) (result : Word) : Prop where
  par : t.par = s.par
  inputs : t.inputs = s.inputs
  responses : t.responses = s.responses ++ [responseWord status result]
  status_le : status.toNat ≤ 8
  result_of_ne : status ≠ 0#8 → result = 0#32

section Answers
variable {s u : State}

/-- The response of a command that completes. -/
theorem answers_respond (h : SameHostSide s u) (v : Word) : Answers s (u.respond 0#8 v) 0#8 v where
  par := h.par
  inputs := h.inputs
  responses := by rw [respond_responses, h.responses]
  status_le := by decide
  result_of_ne hne := absurd rfl hne

/-- The response of a command that faults (60_exceptions.md R265). -/
theorem answers_takeFault (h : SameHostSide s u) (op : BitVec 8) (c : Cause) :
    Answers s (takeFault op c u) (causeCode c) 0#32 where
  par := h.par
  inputs := h.inputs
  responses := by rw [takeFault_responses, h.responses]
  status_le := (causeCode_le c).trans (by decide)
  result_of_ne _ := rfl

/-- The response of a command that is refused (60_exceptions.md R268). -/
theorem answers_refuseFaulted (s : State) : Answers s (refuseFaulted s) faultedCode 0#32 where
  par := refuseFaulted_par s
  inputs := refuseFaulted_inputs s
  responses := refuseFaulted_responses s
  status_le := by decide
  result_of_ne _ := rfl

end Answers

/-- Every command answers a next state with one response more: it is refused, illegal, or its body ends one way or the
other (60_exceptions.md R263). -/
theorem exec_answers (i : Instr) (s : State) : ∃ t status result, exec i s = .next t ∧ Answers s t status result := by
  have hbody : Keeps SameHostSide (bodyOf i) := bodyOf_keeps respectsAll_sameHostSide i
  rcases exec_cases i s with ⟨-, -, hrefused⟩ | ⟨-, -, hillegal⟩ | ⟨-, -, hrun⟩
  · exact ⟨_, _, _, hrefused, answers_refuseFaulted s⟩
  · exact ⟨_, _, _, hillegal, answers_takeFault (respectsAll_sameHostSide.refl s) _ _⟩
  · rcases runBody_cases (opcodeOf i) (bodyOf i) s with ⟨v, u, hok, hend⟩ | ⟨c, u, hraise, hend⟩
    · exact ⟨_, _, _, hrun, hend ▸ answers_respond (keeps_ok hbody hok) v⟩
    · exact ⟨_, _, _, hrun, hend ▸ answers_takeFault (keeps_error hbody hraise) _ c⟩

/-- Settles O9: the one response of `exec_answers`, read through the fields of a response word. -/
theorem everyCommandIsAnswered : Obligations.EveryCommandIsAnswered := by
  intro i s
  obtain ⟨t, status, result, hexec, h⟩ := exec_answers i s
  refine ⟨t, responseWord status result, hexec, h.responses, h.inputs, h.par, responseWord_zero .., ?_, ?_⟩
  · rw [responseWord_status]; exact h.status_le
  · rw [responseWord_status, responseWord_result]; exact h.result_of_ne

end Sys2Proof.Machine
end

section
/-! PROOFS. The registers by address (10_state.md R22 to R25, R43, R52; 47_system.md R250 to R253): what an address names,
what a register reads as and what a write does to it; NOP, CSRR and CSRW on them. -/

namespace Sys2Proof.Machine

/-! ### The map of 10_state.md R23 -/

/-- The map by address and the list in the order of addresses are one table. -/
theorem csrOrder_getElem (a : BitVec 8) : csrOrder[a.toNat]? = csrAt a := by
  revert a; decide

/-- The locked registers are those at 0x04 to 0x11. -/
theorem csrLocked_iff {a : BitVec 8} {c : Csr} (hc : csrAt a = some c) :
    csrLocked c = true ↔ 4 ≤ a.toNat ∧ a.toNat ≤ 0x11 := by
  have table : ∀ a : BitVec 8, (csrAt a).any csrLocked = decide (4 ≤ a.toNat ∧ a.toNat ≤ 0x11) := by decide
  have h := table a
  rw [hc, Option.any_some] at h
  rw [h, decide_eq_true_eq]

theorem csrAt_eq_none_iff (a : BitVec 8) : csrAt a = none ↔ 0x19 ≤ a.toNat := by
  revert a; decide

/-- The meaning's test of a CSRW is the table of legal operands (47_system.md R253). -/
theorem legalCsrWrite_iff (p : Config.Params) (a : BitVec 8) (v : Word) :
    legalCsrWrite p a v = true ↔ CsrwLegal p a.toNat v.toNat := by
  have hv : v.toNat < 4294967296 := v.isLt
  unfold legalCsrWrite CsrwLegal
  cases hc : csrAt a with
  | none =>
    have := (csrAt_eq_none_iff a).mp hc
    simp; omega
  | some c =>
    have ha : a.toNat < 0x19 := by
      rw [← Nat.not_le, ← csrAt_eq_none_iff, hc]; simp
    rw [← csrOrder_getElem] at hc
    simp only [Bool.and_eq_true, decide_eq_true_eq]
    generalize a.toNat = n at hc ha ⊢
    interval_cases n <;> cases hc <;> simp [csrWritable, csrLocked, csrWidth, withinLimit, hv]

/-! ### Reading (10_state.md R22, R25) -/

/-- The fields of STATUS by their codes. -/
theorem statusWord_fields (g : Regs) :
    (statusWord g).toNat < 2 ^ 6 ∧
    (statusWord g).extractLsb' 0 2 = BitVec.ofNat 2 (modeCode g.mode) ∧
    (statusWord g).extractLsb' 2 2 = BitVec.ofNat 2 (sessCode g.sess) ∧
    (statusWord g).getLsbD 4 = g.err ∧ (statusWord g).getLsbD 5 = g.refValid := by
  unfold statusWord
  cases g.mode <;> cases g.sess <;> cases g.err <;> cases g.refValid <;> decide

/-- A register reads with zeros above its width. -/
theorem csrValue_lt (c : Csr) (g : Regs) : (csrValue c g).toNat < 2 ^ csrWidth c := by
  have narrow : ∀ {n : Nat} (x : BitVec n), n ≤ 32 → (x.zeroExtend 32).toNat < 2 ^ n := fun x hn => by
    rw [BitVec.toNat_setWidth_of_le hn]; exact x.isLt
  cases c with
  | status => exact (statusWord_fields g).1
  | id | width | height | frameCount | frameIdx | refIdx | runCount | lastValue => exact BitVec.isLt _
  | cause | finfo | variant | hdrcfg | colorSpace | chroma | m | blockSize | intraPeriod | searchRadius | qbitsY | qbitsU
  | qbitsV | meMetric | bitcnt | bitbuf => exact narrow _ (by decide)

/-- The value each register reads as after reset (10_state.md R23, R52). -/
theorem csrValue_reset (c : Csr) :
    csrValue c Regs.reset = if c = .id then 0x47454301#32 else if c = .hdrcfg then 3#32 else 0#32 := by
  cases c <;> decide

/-! ### Writing (10_state.md R23, R43) -/

/-- A value that a register has room for is read back. -/
theorem zeroExtend_truncate_of_lt {n : Nat} {v : Word} (h : v.toNat < 2 ^ n) : (v.truncate n).zeroExtend 32 = v := by
  apply BitVec.eq_of_toNat_eq
  rw [BitVec.toNat_setWidth, BitVec.toNat_setWidth, Nat.mod_eq_of_lt h, Nat.mod_eq_of_lt v.isLt]

/-- A writable register reads as the value written. -/
theorem csrValue_csrSet_same {c : Csr} (hw : csrWritable c = true) {v : Word} (hv : v.toNat < 2 ^ csrWidth c) (g : Regs) :
    csrValue c (csrSet c v g) = v := by
  cases c with
  | width | height | frameCount => rfl
  | variant | hdrcfg | colorSpace | chroma | m | blockSize | intraPeriod | searchRadius | qbitsY | qbitsU | qbitsV
  | meMetric => exact zeroExtend_truncate_of_lt hv
  | id | status | cause | finfo | frameIdx | refIdx | runCount | lastValue | bitcnt | bitbuf => exact absurd hw (by decide)

/-- A write of one register is seen at no other: each pair of registers reads and writes its own field. -/
theorem csrValue_csrSet_other {c d : Csr} (h : d ≠ c) (v : Word) (g : Regs) :
    csrValue d (csrSet c v g) = csrValue d g := by
  cases c <;> cases d <;> first | rfl | exact absurd rfl h

/-! ### NOP and CSRR (47_system.md R250, R252) -/

/-- A command of stage 1's exceptions whose body completes answers its result, with ERR at either value. -/
theorem exec_ok_of_runsAlways {i : Instr} {s t : State} {v : Word} (hr : runsAlways i = true)
    (hl : i.wellFormed s.par = true) (h : bodyOf i s = .ok v t) : exec i s = .next (t.respond 0#8 v) := by
  rw [exec_eq, if_pos hr]
  simp [commandAlways, runBody, hl, h]

theorem exec_nop (s : State) : exec .nop s = .next (s.respond 0#8 0#32) :=
  exec_ok_of_runsAlways rfl rfl rfl

theorem exec_csrr {a : BitVec 8} {c : Csr} (hc : csrAt a = some c) (s : State) :
    exec (.csrr a) s = .next (s.respond 0#8 (csrValue c s.regs)) :=
  exec_ok_of_runsAlways rfl (by simp [Instr.wellFormed, legalCsrRead, hc]) (csrrBody_listed hc s)

theorem exec_reset (s : State) : exec .reset s = .next ((resetBlock s).respond 0#8 0#32) :=
  exec_ok_of_runsAlways rfl rfl rfl

/-! ### CSRW (47_system.md R253) -/

section Csrw
variable {s : State} {a : BitVec 8} {v : Word} (he : s.regs.err = false)
include he

theorem exec_csrw_illegal (h : ¬ CsrwLegal s.par a.toNat v.toNat) :
    exec (.csrw a v) s = .next (takeFault 0x03#8 .illegalCommand s) := by
  have hl : legalCsrWrite s.par a v = false := by
    rwa [← Bool.not_eq_true, legalCsrWrite_iff]
  show command _ _ _ _ = _
  rw [command_illegal hl, he]; rfl

variable {c : Csr} (hc : csrAt a = some c) (h : CsrwLegal s.par a.toNat v.toNat)
include hc h

theorem exec_csrw_locked (hlock : csrLocked c = true) (hs : s.regs.sess = .headerDone) :
    exec (.csrw a v) s = .next (takeFault 0x03#8 .invalidState s) :=
  exec_raise (i := .csrw a v) he ((legalCsrWrite_iff ..).mpr h) (by
    show csrwBody a v s = _
    rw [csrwBody_listed hc, if_pos ⟨hlock, hs⟩])

theorem exec_csrw_unlocked (hs : csrLocked c = true → s.regs.sess ≠ .headerDone) :
    exec (.csrw a v) s = .next (State.respond { s with regs := csrSet c v s.regs } 0#8 0#32) :=
  exec_ok (i := .csrw a v) he ((legalCsrWrite_iff ..).mpr h) (by
    show csrwBody a v s = _
    rw [csrwBody_listed hc, if_neg fun hl => hs hl.1 hl.2])

omit he in
/-- A legal CSRW names a writable register that has room for the value. -/
theorem writable_of_csrwLegal : csrWritable c = true ∧ v.toNat < 2 ^ csrWidth c := by
  have hl := (legalCsrWrite_iff ..).mpr h
  simp only [legalCsrWrite, hc, Bool.and_eq_true, decide_eq_true_eq] at hl
  exact hl.1

end Csrw

/-! ### The statements -/

/-- Settles O17. -/
theorem nopAndCsrrComplete : Obligations.NopAndCsrrComplete := by
  intro s
  obtain ⟨-, hmode, hsess, herr, href⟩ := statusWord_fields s.regs
  refine ⟨exec_nop s, fun a c hc => ?_, ?_, ?_, herr, href⟩
  · rw [csrOrder_getElem] at hc
    exact ⟨exec_csrr hc s, csrValue_lt c s.regs⟩
  · refine hmode.trans ?_
    cases s.regs.mode <;> rfl
  · refine hsess.trans ?_
    cases s.regs.sess <;> rfl

/-- Settles O18: a legal write is `csrSet`, whose effect is seen at the addressed register alone. -/
theorem csrwWritesRegister : Obligations.CsrwWritesRegister := by
  intro s a v he
  refine ⟨fun c hc hlegal hlock => ?_, exec_csrw_illegal he⟩
  rw [csrOrder_getElem] at hc
  obtain ⟨hw, hv⟩ := writable_of_csrwLegal hc hlegal
  exact ⟨_, exec_csrw_unlocked he hc hlegal fun hl => hlock ((csrLocked_iff hc).mp hl).2,
    csrValue_csrSet_same hw hv s.regs, fun d hd => csrValue_csrSet_other hd v s.regs, rfl⟩

/-- Settles O19: the addresses up to 0x11 that a write may name are those of the lock. -/
theorem sessionParametersAreLocked : Obligations.SessionParametersAreLocked := by
  intro s a v he hlegal ha
  obtain ⟨c, hc⟩ : ∃ c, csrAt a = some c := by
    rw [← Option.ne_none_iff_exists', ne_eq, csrAt_eq_none_iff]; omega
  refine ⟨exec_csrw_locked he hc hlegal ((csrLocked_iff hc).mpr ⟨hlegal.1, ha⟩), fun hs => ?_⟩
  obtain ⟨hw, hv⟩ := writable_of_csrwLegal hc hlegal
  exact ⟨_, c, exec_csrw_unlocked he hc hlegal fun _ => hs, (csrOrder_getElem a).trans hc,
    csrValue_csrSet_same hw hv s.regs⟩

/-- Settles O16: ID stands at address 0, below the addresses that a write may name. -/
theorem idReadsConstant : Obligations.IdReadsConstant := fun s v =>
  ⟨exec_csrr (c := .id) rfl s, fun he => exec_csrw_illegal he fun h => absurd h.1 (by decide)⟩

end Sys2Proof.Machine
end

section
/-! PROOFS. Everything a step can end in, said once (60_exceptions.md R263, R269; 70_reset_and_hazards.md R290, R291); the
form of the frame buffers and the values after a reset (10_state.md R50, R52). -/

namespace Sys2Proof.Machine

/-! ### The ends of a step -/

/-- The body of the command runs: no fault is recorded or the command ignores it, and its operands are legal
(60_exceptions.md R263, stages 1 and 2). -/
structure MayRun (s : State) (i : Instr) : Prop where
  err : s.regs.err = false ∨ runsAlways i = true
  wellFormed : i.wellFormed s.par = true

/-- The states a step from `s` can end in. -/
inductive StepEnd (s : State) : State → Prop
  /-- no input is pending -/
  | waits : StepEnd s s
  /-- `hard_reset`, between commands or within one -/
  | resets (u : State) : u.par = s.par → StepEnd s (resetBlock u)
  /-- a command while a fault is recorded -/
  | refuses (rest : List HostInput) : StepEnd s (refuseFaulted { s with inputs := rest })
  /-- a word that is no command, or an operand outside its legal values -/
  | illegal (rest : List HostInput) (op : BitVec 8) :
      StepEnd s (takeFault op .illegalCommand { s with inputs := rest })
  /-- a command whose body ends -/
  | completes (rest : List HostInput) (i : Instr) (v : Word) (u : State) :
      MayRun { s with inputs := rest } i → bodyOf i { s with inputs := rest } = .ok v u → StepEnd s (u.respond 0#8 v)
  /-- a command whose body raises -/
  | raises (rest : List HostInput) (i : Instr) (c : Cause) (u : State) :
      MayRun { s with inputs := rest } i → bodyOf i { s with inputs := rest } = .error c u → StepEnd s (takeFault (opcodeOf i) c u)

section StepEnd
variable {s t : State} {rest : List HostInput}

theorem stepEnd_of_exec {i : Instr} (h : exec i { s with inputs := rest } = .next t) : StepEnd s t := by
  rcases exec_cases i { s with inputs := rest } with ⟨-, -, e⟩ | ⟨-, -, e⟩ | ⟨herr, hwf, e⟩ <;>
    rw [e] at h <;> injection h with h <;> subst h
  · exact .refuses rest
  · exact .illegal rest _
  · rcases runBody_cases (opcodeOf i) (bodyOf i) { s with inputs := rest } with ⟨v, u, hb, hu⟩ | ⟨c, u, hb, hu⟩ <;> rw [hu]
    · exact .completes rest i v u ⟨herr, hwf⟩ hb
    · exact .raises rest i c u ⟨herr, hwf⟩ hb

theorem stepEnd_of_rejectWord (w : CmdWord) : StepEnd s (rejectWord w { s with inputs := rest }) := by
  unfold rejectWord
  split
  · exact .refuses rest
  · exact .illegal rest _

theorem stepEnd_of_runWord {w : CmdWord} (h : runWord w { s with inputs := rest } = .next t) : StepEnd s t := by
  cases hd : decode w with
  | ok i =>
    rw [runWord_of_decode_ok hd] at h
    exact stepEnd_of_exec h
  | error e =>
    rw [runWord_of_decode_error hd] at h
    injection h with h
    exact h ▸ stepEnd_of_rejectWord w

theorem step_waits (h : s.inputs = []) : step s = .next s := by
  simp [step, nextInput, h]

theorem step_hardReset (h : s.inputs = .hardReset :: rest) : step s = .next (resetBlock { s with inputs := rest }) := by
  simp [step, nextInput, h]

/-- `hard_reset` within a command ends in the reset of a state with the same parameters. -/
theorem step_hardResetDuring {w : CmdWord} {n : Nat} (h : s.inputs = .hardResetDuring w n :: rest)
    (hstep : step s = .next t) : ∃ u : State, u.par = s.par ∧ t = resetBlock u := by
  simp only [step, nextInput, h] at hstep
  split at hstep
  · injection hstep with hstep
    refine ⟨_, ?_, hstep.symm⟩
    rfl
  · cases hstep
  · cases hstep

/-- A step ends in one of these states, by the input it accepts. -/
theorem step_end (h : step s = .next t) : StepEnd s t := by
  cases hin : s.inputs with
  | nil =>
    rw [step_waits hin] at h
    injection h with h
    exact h ▸ .waits
  | cons x rest =>
    cases x with
    | command w =>
      rw [step_command hin] at h
      exact stepEnd_of_runWord h
    | hardReset =>
      rw [step_hardReset hin] at h
      injection h with h
      exact h ▸ .resets _ rfl
    | hardResetDuring w n =>
      obtain ⟨u, hpar, rfl⟩ := step_hardResetDuring hin h
      exact .resets u hpar

end StepEnd

/-! ### The form of the frame buffers -/

/-- No change that a command's pseudocode makes breaks the form of a buffer. -/
theorem respectsAll_keepsMemory : RespectsAll KeepsMemory where
  refl := keepsMemory_refl
  trans := keepsMemory_trans
  bits s _ _ := keepsMemory_refl s
  sink s _ _ := keepsMemory_refl s
  source s _ := keepsMemory_refl s
  draw s _ := keepsMemory_refl s
  cur s r c ch v := setSample_keepsMemory s .cur r c ch v
  ref s r c ch v := setSample_keepsMemory s .ref r c ch v
  run s _ _ := keepsMemory_refl s
  reference s _ := keepsMemory_refl s
  frame s _ := keepsMemory_refl s
  answers s _ := keepsMemory_refl s
  drop s := keepsMemory_refl s
  opened s _ := keepsMemory_refl s
  closed s := keepsMemory_refl s
  headerDone s := keepsMemory_refl s
  load s _ := keepsMemory_refl s
  set s _ _ _ _ _ := keepsMemory_refl s
  reset _ := ⟨fun _ => rfl, fun _ => rfl⟩

theorem memoryOk_of_keeps {s t : State} (h : KeepsMemory s t) (hs : MemoryOk s) : MemoryOk t :=
  ⟨h.1 hs.1, h.2 hs.2⟩

/-- Settles O59: only the bodies write samples, and a reset empties both buffers. -/
theorem stepKeepsMemoryForm : Obligations.StepKeepsMemoryForm := by
  intro s t hs hstep
  have hbody : ∀ i, Keeps KeepsMemory (bodyOf i) := bodyOf_keeps respectsAll_keepsMemory
  cases step_end hstep with
  | waits | refuses | illegal => exact hs
  | resets u _ => exact ⟨rfl, rfl⟩
  | completes rest i v u _ hb =>
    have hu : MemoryOk u := memoryOk_of_keeps (keeps_ok (hbody i) hb) hs
    exact hu
  | raises rest i c u _ hb =>
    have hu : MemoryOk u := memoryOk_of_keeps (keeps_error (hbody i) hb) hs
    exact hu

/-! ### The values after a reset -/

/-- Registers and buffers are those of the reset state (10_state.md R52). -/
structure Cleared (t : State) : Prop where
  regs : t.regs = Regs.reset
  cur : t.cur = []
  ref : t.ref = []

theorem cleared_resetBlock (u : State) : Cleared (resetBlock u) := ⟨rfl, rfl, rfl⟩

theorem Cleared.sample {t : State} (h : Cleared t) (b : Buffer) (r c ch : Nat) : t.sample b r c ch = none := by
  cases b
  · show t.cur.read _ = none
    rw [h.cur]; rfl
  · show t.ref.read _ = none
    rw [h.ref]; rfl

/-- Settles O14: the four ways to the reset state all end in cleared registers and buffers. -/
theorem resetValues : Obligations.ResetValues := by
  intro t ht
  have hclear : Cleared t := by
    rcases ht with rfl | ⟨s, h⟩ | ⟨s, rest, hin, h⟩ | ⟨s, rest, w, n, hin, h⟩
    · exact ⟨rfl, rfl, rfl⟩
    · rw [exec_reset] at h
      injection h with h
      exact h ▸ ⟨rfl, rfl, rfl⟩
    · rw [step_hardReset hin] at h
      injection h with h
      exact h ▸ cleared_resetBlock _
    · obtain ⟨u, -, rfl⟩ := step_hardResetDuring hin h
      exact cleared_resetBlock u
  exact ⟨fun c => hclear.regs ▸ csrValue_reset c, hclear.sample⟩

end Sys2Proof.Machine
end

section
/-! PROOFS. What the body of a command can do to the registers, the bit buffer apart, said once for all commands. -/

namespace Sys2Proof.Machine

/-! ### Changes of the bit buffer and of the run alone -/

/-- `t` has the parameters of `s`, and its registers but for the bit buffer. -/
structure SameButBits (s t : State) : Prop where
  par : t.par = s.par
  regs : ∃ n b, t.regs = { s.regs with bitcnt := n, bitbuf := b }

/-- The same where a pending run may have been flushed, too. -/
structure SameButFlush (s t : State) : Prop where
  par : t.par = s.par
  regs : ∃ n b c, (c = s.regs.runCount ∨ c = 0#32) ∧
    t.regs = { s.regs with bitcnt := n, bitbuf := b, runCount := c }

section Same
variable {s t u : State}

theorem sameButBits_of_regs (hp : t.par = s.par) (hr : t.regs = s.regs) : SameButBits s t :=
  ⟨hp, s.regs.bitcnt, s.regs.bitbuf, hr⟩

theorem sameButBits_trans (h : SameButBits s t) (h' : SameButBits t u) : SameButBits s u := by
  obtain ⟨hp, n, b, hr⟩ := h
  obtain ⟨hp', n', b', hr'⟩ := h'
  exact ⟨hp'.trans hp, n', b', by rw [hr', hr]⟩

theorem SameButBits.flush (h : SameButBits s t) : SameButFlush s t := by
  obtain ⟨hp, n, b, hr⟩ := h
  exact ⟨hp, n, b, s.regs.runCount, .inl rfl, hr⟩

theorem sameButFlush_trans (h : SameButFlush s t) (h' : SameButFlush t u) : SameButFlush s u := by
  obtain ⟨hp, n, b, c, hc, hr⟩ := h
  obtain ⟨hp', n', b', c', hc', hr'⟩ := h'
  rw [hr] at hc' hr'
  refine ⟨hp'.trans hp, n', b', c', ?_, hr'⟩
  rcases hc' with rfl | rfl
  · exact hc
  · exact .inr rfl

end Same

theorem respects_sameButBits : Respects SameButBits where
  refl _ := sameButBits_of_regs rfl rfl
  trans _ _ _ := sameButBits_trans
  bits _ n b := ⟨rfl, n, b, rfl⟩
  sink _ _ _ := sameButBits_of_regs rfl rfl
  source _ _ := sameButBits_of_regs rfl rfl
  draw _ _ := sameButBits_of_regs rfl rfl

theorem sameButBits_setSample (s : State) (b : Buffer) (r c ch : Nat) (v : Byte) :
    SameButBits s (s.setSample b r c ch v) :=
  sameButBits_of_regs (setSample_par ..) (setSample_regs ..)

theorem respects_sameButFlush : Respects SameButFlush where
  refl s := (respects_sameButBits.refl s).flush
  trans _ _ _ := sameButFlush_trans
  bits s n b := (respects_sameButBits.bits s n b).flush
  sink s out more := (respects_sameButBits.sink s out more).flush
  source s k := (respects_sameButBits.source s k).flush
  draw s n := (respects_sameButBits.draw s n).flush

theorem sameButFlush_clearRun (s : State) : SameButFlush s { s with regs := { s.regs with runCount := 0#32 } } :=
  ⟨rfl, s.regs.bitcnt, s.regs.bitbuf, 0#32, .inr rfl, rfl⟩

/-! ### The effects -/

/-- The registers after a frame command that completes (46_container.md R233, R235, R236). -/
def frameDoneRegs (g : Regs) : Regs :=
  { g with
    frameIdx := g.frameIdx + 1#32
    refValid := if hybrid g && intraNext g then true else g.refValid
    refIdx := if hybrid g && intraNext g then g.frameIdx else g.refIdx }

/-- The registers, the bit buffer apart, that the body of a command can leave: unchanged, or changed by what the command
is for. RESET, the opening and the closing of a stream are told apart by their command. -/
inductive Effect (s : State) : Instr → Regs → Prop
  | unchanged (i : Instr) : Effect s i s.regs
  | reset : Effect s .reset Regs.reset
  | opened (m : Mode) (i : Instr) : i = .bopenw ∨ i = .bopenr → Effect s i (openedRegs m s.regs)
  | closed : Effect s .bclose (closedRegs s.regs)
  /-- a CSRW outside the lock (10_state.md R43) -/
  | set (a : BitVec 8) (c : Csr) (v : Word) : withinLimit s.par c v = true →
      (csrLocked c = true → s.regs.sess ≠ .headerDone) → Effect s (.csrw a v) (csrSet c v s.regs)
  /-- CPREF, outside a session (47_system.md R256) -/
  | reference : s.regs.sess ≠ .headerDone → Effect s .cpref { s.regs with refValid := true, refIdx := 0#32 }
  /-- the run while a stream is open (42_runlength.md R161 to R163) -/
  | run (i : Instr) (n x : Word) : s.regs.mode ≠ .idle →
      (s.regs.runCount.toNat ≤ Config.runMax → n.toNat ≤ Config.runMax) →
      Effect s i { s.regs with runCount := n, lastValue := x }
  /-- a header that passed the checks (46_container.md R225, R226) -/
  | header (i : Instr) (h : Header) : s.regs.mode ≠ .idle → s.regs.sess = .uninit →
      HeaderAccepted s.par (loadHeader h s.regs) → FieldsFit (loadHeader h s.regs) →
      Effect s i (headerDoneRegs (loadHeader h s.regs))
  /-- a frame of the session (46_container.md R233, R236) -/
  | frame (i : Instr) : s.regs.sess = .headerDone → s.regs.frameIdx.toNat < s.regs.frameCount.toNat →
      Effect s i (frameDoneRegs s.regs)

/-- `t` has the parameters of `s` and the registers of one of the command's effects, the bit buffer apart. -/
def AfterEffect (s : State) (i : Instr) (t : State) : Prop :=
  t.par = s.par ∧ ∃ g n b, Effect s i g ∧ t.regs = { g with bitcnt := n, bitbuf := b }

section AfterEffect
variable {s t u : State} {i : Instr}

theorem afterEffect_of_sameButBits (h : SameButBits s t) : AfterEffect s i t := by
  obtain ⟨hp, n, b, hr⟩ := h
  exact ⟨hp, _, n, b, .unchanged i, hr⟩

theorem afterEffect_of_keeps {x : Action Word} (h : Keeps SameButBits x) : AfterEffect s i (endState (x s)) :=
  afterEffect_of_sameButBits (h s)

theorem afterEffect_of_sameButFlush (hm : s.regs.mode ≠ .idle) (h : SameButFlush s t) : AfterEffect s i t := by
  obtain ⟨hp, n, b, c, hc, hr⟩ := h
  refine ⟨hp, _, n, b, .run i c s.regs.lastValue hm ?_, hr⟩
  rcases hc with rfl | rfl
  · exact id
  · exact fun _ => by decide

/-- An effect on registers whose bit buffer has changed. -/
theorem afterEffect_of_effect {g : Regs} (he : Effect s i g) (hp : t.par = s.par)
    (hr : ∃ n b, t.regs = { g with bitcnt := n, bitbuf := b }) : AfterEffect s i t := by
  obtain ⟨n, b, hr⟩ := hr
  exact ⟨hp, g, n, b, he, hr⟩

/-! A body part by part: where a part raises, the registers are as before it -/

section Sequence
variable {α : Type} {x : Action α} {f : α → Action Word}

theorem afterEffect_bind (hx : Keeps SameButBits x)
    (h : ∀ a t, x s = .ok a t → SameButBits s t → AfterEffect s i (endState (f a t))) :
    AfterEffect s i (endState ((x >>= f) s)) := by
  cases e : x s with
  | error c t =>
    rw [bind_of_error e]
    exact afterEffect_of_sameButBits (keeps_error hx e)
  | ok a t =>
    rw [bind_of_ok e]
    exact h a t e (keeps_ok hx e)

theorem afterEffect_bind_flush (hm : s.regs.mode ≠ .idle) (hx : Keeps SameButFlush x)
    (h : ∀ a t, x s = .ok a t → SameButFlush s t → AfterEffect s i (endState (f a t))) :
    AfterEffect s i (endState ((x >>= f) s)) := by
  cases e : x s with
  | error c t =>
    rw [bind_of_error e]
    exact afterEffect_of_sameButFlush hm (keeps_error hx e)
  | ok a t =>
    rw [bind_of_ok e]
    exact h a t e (keeps_ok hx e)

theorem afterEffect_require {b : Bool} {c : Cause} {f : Unit → Action Word}
    (h : b = true → AfterEffect s i (endState (f () s))) : AfterEffect s i (endState ((require b c >>= f) s)) := by
  rw [bind_require_apply]
  split
  next hb => exact h hb
  next => exact afterEffect_of_sameButBits (respects_sameButBits.refl s)

theorem afterEffect_requireMode {m : Mode} {f : Unit → Action Word}
    (h : s.regs.mode = m → AfterEffect s i (endState (f () s))) :
    AfterEffect s i (endState ((requireMode m >>= f) s)) := by
  rw [bind_requireMode_apply]
  split
  next hm => exact h hm
  next => exact afterEffect_of_sameButBits (respects_sameButBits.refl s)

theorem afterEffect_requireSess {x : Sess} {f : Unit → Action Word}
    (h : s.regs.sess = x → AfterEffect s i (endState (f () s))) :
    AfterEffect s i (endState ((requireSess x >>= f) s)) := by
  rw [bind_requireSess_apply]
  split
  next hs => exact h hs
  next => exact afterEffect_of_sameButBits (respects_sameButBits.refl s)

end Sequence

end AfterEffect

/-! ### Opening and closing a stream (40_bitio.md R125 to R127) -/

/-- Opening a stream raises with the registers unchanged, or leaves those of a fresh session. -/
theorem openStream_end (m : Mode) (s : State) :
    (∃ c t, openStream m s = .error c t ∧ t.par = s.par ∧ t.regs = s.regs) ∨
    (∃ t, openStream m s = .ok 0#32 t ∧ t.par = s.par ∧ t.regs = openedRegs m s.regs) := by
  have hopen : Keeps (fun s t : State => t.par = s.par ∧ t.regs = s.regs) envOpen :=
    keeps_envOpen (fun _ => ⟨rfl, rfl⟩) (fun _ _ => ⟨rfl, rfl⟩)
  unfold openStream
  rw [bind_requireMode_apply]
  split
  · cases e : envOpen s with
    | ok a t =>
      obtain ⟨hp, hr⟩ := keeps_ok hopen e
      rw [bind_of_ok e]
      exact .inr ⟨_, rfl, hp, congrArg (openedRegs m) hr⟩
    | error c t => exact .inl ⟨c, t, bind_of_error e, keeps_error hopen e⟩
  · exact .inl ⟨_, s, rfl, rfl, rfl⟩

theorem openStream_effect {m : Mode} {i : Instr} (hi : i = .bopenw ∨ i = .bopenr) (s : State) :
    AfterEffect s i (endState (openStream m s)) := by
  rcases openStream_end m s with ⟨c, t, e, hp, hr⟩ | ⟨t, e, hp, hr⟩ <;> rw [e]
  · exact afterEffect_of_sameButBits (sameButBits_of_regs hp hr)
  · exact afterEffect_of_effect (.opened m i hi) hp ⟨0#4, 0#8, hr⟩

/-- What BCLOSE does before it closes changes the bit buffer and the run at most. -/
theorem keeps_flushStream_sameButFlush : Keeps SameButFlush flushStream :=
  keeps_flushStream respects_sameButFlush sameButFlush_clearRun

/-- BCLOSE is refused while no stream is open; else it raises where its flush does, or leaves the registers of a closed
stream. -/
theorem bcloseBody_end (s : State) :
    bcloseBody s = .error .invalidState s ∨
    (s.regs.mode ≠ .idle ∧
      ((∃ c t, s.regs.mode = .write ∧ flushStream s = .error c t ∧ bcloseBody s = .error c t) ∨
       (∃ t, bcloseBody s = .ok 0#32 t ∧ t.par = s.par ∧ t.regs = closedRegs s.regs))) := by
  unfold bcloseBody
  rw [bind_getRegs_apply, bind_require_apply]
  cases hm : s.regs.mode with
  | idle => exact .inl rfl
  | read => exact .inr ⟨by decide, .inr ⟨_, rfl, rfl, rfl⟩⟩
  | write =>
    refine .inr ⟨by decide, ?_⟩
    simp only [reduceCtorEq, ne_eq, not_false_eq_true, decide_true, if_true, decide_false, onlyIf_true, onlyIf_false]
    cases e : flushStream s with
    | error c t => exact .inl ⟨c, t, trivial, rfl, bind_of_error e⟩
    | ok a t =>
      obtain ⟨hp, n, b, c, -, hr⟩ := keeps_ok keeps_flushStream_sameButFlush e
      refine .inr ⟨_, bind_of_ok e, hp, ?_⟩
      show closedRegs t.regs = _
      rw [hr]; rfl

theorem bcloseBody_effect (s : State) : AfterEffect s .bclose (endState (bcloseBody s)) := by
  rcases bcloseBody_end s with e | ⟨hm, ⟨c, t, -, hf, e⟩ | ⟨t, e, hp, hr⟩⟩ <;> rw [e]
  · exact afterEffect_of_sameButBits (respects_sameButBits.refl s)
  · exact afterEffect_of_sameButFlush hm (keeps_error keeps_flushStream_sameButFlush hf)
  · exact afterEffect_of_effect .closed hp ⟨0#4, 0#8, hr⟩

/-! ### The run (42_runlength.md R161 to R163) -/

theorem keeps_flushPair : Keeps SameButFlush flushPair :=
  respects_flushPair respects_sameButFlush sameButFlush_clearRun

theorem flushPair_runCount {s t : State} {a : Unit} (h : flushPair s = .ok a t) : t.regs.runCount = 0#32 := by
  unfold flushPair at h
  rw [bind_getRegs_apply] at h
  obtain ⟨_, u, -, h⟩ := bind_ok_iff.mp h
  obtain ⟨_, w, -, h⟩ := bind_ok_iff.mp h
  injection h with _ h
  exact h ▸ rfl

/-- The count after a push is within RUN_MAX: the run was empty, or is not full, or was flushed. -/
theorem rpush_runCount_le {s t : State} {a : Unit} {v : Word}
    (h : onlyIf (pushEndsRun s.regs v) flushPair s = .ok a t) (hs : s.regs.runCount.toNat ≤ Config.runMax) :
    (t.regs.runCount + 1#32).toNat ≤ Config.runMax := by
  cases hends : pushEndsRun s.regs v with
  | true =>
    rw [hends, onlyIf_true] at h
    rw [flushPair_runCount h]; decide
  | false =>
    rw [hends, onlyIf_false] at h
    injection h with _ h
    subst h
    have hfull : s.regs.runCount.toNat ≠ Config.runMax := fun hfull => by
      have hne : s.regs.runCount ≠ 0#32 := fun h0 => by rw [h0] at hfull; exact absurd hfull (by decide)
      simp [pushEndsRun, hne, hfull] at hends
    simp only [Config.runMax] at *
    rw [BitVec.toNat_add]
    simp; omega

theorem keeps_onlyIf_flushPair (b : Bool) : Keeps SameButFlush (onlyIf b flushPair) :=
  keeps_onlyIf respects_sameButFlush.refl b keeps_flushPair

theorem rpushBody_effect (v : Word) (s : State) : AfterEffect s (.rpush v) (endState (rpushBody v s)) := by
  refine afterEffect_requireMode fun hm => ?_
  have hne : s.regs.mode ≠ .idle := by rw [hm]; decide
  rw [bind_getRegs_apply]
  refine afterEffect_require fun _ => afterEffect_bind_flush hne (keeps_onlyIf_flushPair _) fun a t e ht => ?_
  obtain ⟨hp, n, b, c, -, hr⟩ := ht
  refine afterEffect_of_effect (.run _ (t.regs.runCount + 1#32) v hne (rpush_runCount_le e)) hp ⟨n, b, ?_⟩
  show { t.regs with runCount := t.regs.runCount + 1#32, lastValue := v } = _
  rw [hr]

theorem rflushBody_effect (s : State) : AfterEffect s .rflush (endState (rflushBody s)) := by
  refine afterEffect_requireMode fun hm => ?_
  have hne : s.regs.mode ≠ .idle := by rw [hm]; decide
  rw [bind_getRegs_apply]
  exact afterEffect_bind_flush hne (keeps_onlyIf_flushPair _) fun _ _ _ ht => afterEffect_of_sameButFlush hne ht

/-- A count that a pair can have is 1 to RUN_MAX as a register. -/
theorem runCount_of_pair {c : Int} (h : 0 < c) (hf : fits32 c = true) :
    BitVec.ofInt 32 c ≠ 0#32 ∧ (BitVec.ofInt 32 c).toNat ≤ Config.runMax := by
  simp only [fits32, decide_eq_true_eq] at hf
  have hn : (BitVec.ofInt 32 c).toNat = c.toNat := by
    rw [BitVec.toNat_ofInt]; omega
  refine ⟨fun h0 => ?_, ?_⟩
  · rw [h0] at hn
    simp at hn; omega
  · simp only [Config.runMax]; omega

/-- A fresh pair: the run stays as it is where reading it raises; else its count is 1 to RUN_MAX. -/
theorem readPair_end (s : State) :
    (∃ c t, readPair s = .error c t ∧ SameButBits s t) ∨
    (∃ t n b c x, readPair s = .ok () t ∧ t.par = s.par ∧ c ≠ 0#32 ∧ c.toNat ≤ Config.runMax ∧
      t.regs = { s.regs with bitcnt := n, bitbuf := b, runCount := c, lastValue := x }) := by
  have hdec : Keeps SameButBits golombDecode := respects_golombDecode respects_sameButBits
  unfold readPair
  cases e : golombDecode s with
  | error c t => exact .inl ⟨c, t, bind_of_error e, keeps_error hdec e⟩
  | ok c t =>
    rw [bind_of_ok e]
    cases e' : golombDecode t with
    | error d u => exact .inl ⟨d, u, bind_of_error e', sameButBits_trans (keeps_ok hdec e) (keeps_error hdec e')⟩
    | ok x u =>
      have hu : SameButBits s u := sameButBits_trans (keeps_ok hdec e) (keeps_ok hdec e')
      rw [bind_of_ok e', bind_require_apply]
      split
      next hc =>
        obtain ⟨hp, n, b, hr⟩ := hu
        obtain ⟨hne, hle⟩ := runCount_of_pair (of_decide_eq_true hc) (golombDecode_fits e)
        exact .inr ⟨_, n, b, _, tc32 x, rfl, hp, hne, hle, by rw [hr]⟩
      next => exact .inl ⟨_, u, rfl, hu⟩

/-- Taking one from a count that is not zero. -/
theorem runCount_pred_le {c : Word} (hne : c ≠ 0#32) (h : c.toNat ≤ Config.runMax) :
    (c - 1#32).toNat ≤ Config.runMax := by
  simp only [Config.runMax] at *
  bv_omega

theorem rpopBody_effect (s : State) : AfterEffect s .rpop (endState (rpopBody s)) := by
  refine afterEffect_requireMode fun hm => ?_
  have hne : s.regs.mode ≠ .idle := by rw [hm]; decide
  rw [bind_getRegs_apply]
  refine afterEffect_require fun _ => ?_
  by_cases h0 : s.regs.runCount = 0#32
  · rw [decide_eq_true h0, onlyIf_true]
    rcases readPair_end s with ⟨c, t, e, h⟩ | ⟨t, n, b, c, x, e, hp, hc, hle, hr⟩
    · rw [bind_of_error e]
      exact afterEffect_of_sameButBits h
    · rw [bind_of_ok e]
      refine afterEffect_of_effect (.run _ (c - 1#32) x hne fun _ => runCount_pred_le hc hle) hp ⟨n, b, ?_⟩
      show { t.regs with runCount := t.regs.runCount - 1#32 } = _
      rw [hr]
  · rw [decide_eq_false h0, onlyIf_false]
    exact afterEffect_of_effect (.run _ (s.regs.runCount - 1#32) s.regs.lastValue hne (runCount_pred_le h0)) rfl
      ⟨s.regs.bitcnt, s.regs.bitbuf, rfl⟩

/-! ### Registers and samples (47_system.md R253, R254, R256) -/

theorem csrwBody_effect {a : BitVec 8} {v : Word} {s : State} (hl : legalCsrWrite s.par a v = true) :
    AfterEffect s (.csrw a v) (endState (csrwBody a v s)) := by
  cases hc : csrAt a with
  | none => simp [legalCsrWrite, hc] at hl
  | some c =>
    simp only [legalCsrWrite, hc, Bool.and_eq_true] at hl
    rw [csrwBody_listed hc]
    split
    · exact afterEffect_of_sameButBits (respects_sameButBits.refl s)
    next hlock =>
      exact afterEffect_of_effect (.set a c v hl.2 fun h hs => hlock ⟨h, hs⟩) rfl ⟨_, _, rfl⟩

theorem cprefBody_effect (s : State) : AfterEffect s .cpref (endState (cprefBody s)) := by
  unfold cprefBody
  rw [bind_getRegs_apply]
  refine afterEffect_require fun hs => ?_
  obtain ⟨t, e, ht, -, -⟩ := copyCurToRef_spec 0#32 s
  rw [bind_of_ok e, ht]
  exact afterEffect_of_effect (.reference (of_decide_eq_true hs)) rfl ⟨_, _, rfl⟩

/-! ### Headers (46_container.md R224 to R226) -/

theorem loadHeader_headerOfRegs (g : Regs) : loadHeader (headerOfRegs g) g = g := by
  simp [loadHeader, headerOfRegs]

/-- A header whose numbers fit their fields is what its registers describe. -/
theorem headerOfRegs_loadHeader {g old : Regs} {h : Header} {s t : State} (e : getHeader g s = .ok h t) :
    headerOfRegs (loadHeader h old) = h := by
  obtain ⟨h1, h2, h3, h4, h5, h6, h7, h8, h9, h10, h11, h12⟩ := getHeader_lt e
  have hd : 2 ^ dimWidth g ≤ 2 ^ 32 := Nat.pow_le_pow_right (by decide) (by unfold dimWidth; split <;> decide)
  have hc : 2 ^ countWidth g ≤ 2 ^ 32 := Nat.pow_le_pow_right (by decide) (by unfold countWidth; split <;> decide)
  simp only [headerOfRegs, loadHeader, BitVec.toNat_ofNat, Nat.mod_eq_of_lt h1, Nat.mod_eq_of_lt h2,
    Nat.mod_eq_of_lt (h3.trans_le hd), Nat.mod_eq_of_lt (h4.trans_le hd), Nat.mod_eq_of_lt h5,
    Nat.mod_eq_of_lt (h6.trans_le hc), Nat.mod_eq_of_lt h7, Nat.mod_eq_of_lt h8, Nat.mod_eq_of_lt h9,
    Nat.mod_eq_of_lt h10, Nat.mod_eq_of_lt h11, Nat.mod_eq_of_lt h12]

/-- Registers whose header passes the checks of R224 are acceptable. -/
theorem headerAccepted_of_fine {p : Config.Params} {g : Regs} (h : headerFine p g (headerOfRegs g)) :
    HeaderAccepted p g := by
  rw [← readHeader_self] at h
  exact (headerFine_iff rfl).mp h

theorem checkHeader_ok {w : Bool} {h : Header} {s t : State} {a : Unit} (e : checkHeader w h s = .ok a t) :
    t = s ∧ ∀ c ∈ headerChecks s.par s.regs w h, c.1 = false := by
  unfold checkHeader at e
  rcases validateHeader_cases s.par s.regs w h with ⟨hv, hall⟩ | ⟨c, -, -, hv⟩ <;> rw [hv] at e <;> cases e
  exact ⟨rfl, hall⟩

theorem keeps_checkHeader_sameButBits (w : Bool) (h : Header) : Keeps SameButBits (checkHeader w h) :=
  keeps_checkHeader respects_sameButBits.refl w h

theorem wrhdrBody_effect (s : State) : AfterEffect s .wrhdr (endState (wrhdrBody s)) := by
  refine afterEffect_requireMode fun hm => afterEffect_requireSess fun hs => ?_
  rw [bind_getRegs_apply]
  refine afterEffect_bind (keeps_checkHeader_sameButBits _ _) fun _ t ec _ => ?_
  obtain ⟨rfl, hall⟩ := checkHeader_ok ec
  obtain ⟨hfine, hdim, hcount⟩ := (headerChecks_write ..).mp hall
  refine afterEffect_bind (respects_putHeader respects_sameButBits _) fun _ u _ hu => ?_
  obtain ⟨hp, n, b, hr⟩ := hu
  refine afterEffect_of_effect (.header _ (headerOfRegs t.regs) (by rw [hm]; decide) hs ?_ ?_) hp ⟨n, b, ?_⟩
  · rw [loadHeader_headerOfRegs]
    exact headerAccepted_of_fine hfine
  · rw [loadHeader_headerOfRegs]
    exact ⟨hdim, hcount⟩
  · show headerDoneRegs u.regs = _
    rw [hr, loadHeader_headerOfRegs]; rfl

/-- A header that was read fits the registers it is loaded into. -/
theorem fieldsFit_of_getHeader {g : Regs} {h : Header} {s t : State} (e : getHeader g s = .ok h t) :
    FieldsFit (loadHeader h g) := by
  have hround : headerOfRegs (loadHeader h g) = h := headerOfRegs_loadHeader e
  obtain ⟨-, -, hw, hh, -, hc, -⟩ := getHeader_lt e
  rw [← hround] at hw hh hc
  refine ⟨fun hd => ?_, fun hf => ?_⟩
  · have hwidth : dimWidth g = 8 := if_neg (by rw [show dim32 g = false from hd]; decide)
    rw [hwidth] at hw hh
    exact ⟨Nat.le_of_lt_succ hw, Nat.le_of_lt_succ hh⟩
  · have hwidth : countWidth g = 8 := if_neg (by rw [show fc32 g = false from hf]; decide)
    rw [hwidth] at hc
    exact Nat.le_of_lt_succ hc

theorem rdhdrBody_effect (s : State) : AfterEffect s .rdhdr (endState (rdhdrBody s)) := by
  refine afterEffect_requireMode fun hm => afterEffect_requireSess fun hs => ?_
  rw [bind_getRegs_apply]
  refine afterEffect_bind (respects_getHeader respects_sameButBits _) fun h t eg ht => ?_
  obtain ⟨hp, n, b, hr⟩ := ht
  cases ec : checkHeader false h t with
  | error c u =>
    rw [bind_of_error ec]
    exact afterEffect_of_sameButBits
      (sameButBits_trans ⟨hp, n, b, hr⟩ (keeps_error (keeps_checkHeader_sameButBits _ _) ec))
  | ok a u =>
    obtain ⟨rfl, hall⟩ := checkHeader_ok ec
    have hfine : headerFine s.par (loadHeader h s.regs) h := by
      have := (headerChecks_read ..).mp hall
      rw [hp, hr] at this
      exact this
    rw [bind_of_ok ec]
    refine afterEffect_of_effect (.header _ h (by rw [hm]; decide) hs ?_ (fieldsFit_of_getHeader eg)) hp ⟨n, b, ?_⟩
    · exact headerAccepted_of_fine (by rwa [headerOfRegs_loadHeader eg])
    · show headerDoneRegs (loadHeader h u.regs) = _
      rw [hr]; rfl

/-! ### Frames (46_container.md R232, R233, R235, R236) -/

/-- A frame leaves the registers alone where its coding raises; else it leaves those of a frame that is done. -/
theorem codeFrame_end {intra predicted : Action Unit} (hi : Keeps SameButBits intra) (hp : Keeps SameButBits predicted)
    (s : State) :
    SameButBits s (endState (codeFrame intra predicted s)) ∨
    ((endState (codeFrame intra predicted s)).par = s.par ∧
      ∃ n b, (endState (codeFrame intra predicted s)).regs = { frameDoneRegs s.regs with bitcnt := n, bitbuf := b }) := by
  cases hn : intraNext s.regs with
  | true =>
    cases e : intra s with
    | error c t =>
      have h : codeFrame intra predicted s = .error c t := by
        unfold codeFrame typedFrame intraFrame
        rw [bind_getRegs_apply, frameIsIntra_eq, hn, if_pos rfl, bind_of_error (bind_of_error e)]
      rw [h]
      exact .inl (keeps_error hi e)
    | ok a t =>
      obtain ⟨hpar, n, b, hr⟩ := keeps_ok hi e
      obtain ⟨u, h, hu, -⟩ := codeFrame_intra (predicted := predicted) hn e (by rw [hr])
      rw [h, hu]
      refine .inr ⟨hpar, n, b, ?_⟩
      simp only [endState, frameDoneRegs, hr, hn, Bool.and_true]
  | false =>
    cases e : predicted s with
    | error c t =>
      have h : codeFrame intra predicted s = .error c t := by
        unfold codeFrame typedFrame predictedFrame
        rw [bind_getRegs_apply, frameIsIntra_eq, hn, if_neg (by decide), bind_of_error (bind_of_error e)]
      rw [h]
      exact .inl (keeps_error hp e)
    | ok a t =>
      obtain ⟨hpar, n, b, hr⟩ := keeps_ok hp e
      rw [codeFrame_predicted hn e]
      refine .inr ⟨hpar, n, b, ?_⟩
      simp only [endState, frameDoneRegs, hr, hn, Bool.and_false, Bool.false_eq_true, if_false]

theorem requireFrame_cases (s : State) :
    (s.regs.sess = .headerDone ∧ s.regs.frameIdx.toNat < s.regs.frameCount.toNat ∧ requireFrame s = .ok () s) ∨
    requireFrame s = .error .invalidState s := by
  by_cases hs : s.regs.sess = .headerDone
  · by_cases hlt : s.regs.frameIdx.toNat < s.regs.frameCount.toNat
    · exact .inl ⟨hs, hlt, requireFrame_ok hs hlt⟩
    · right
      unfold requireFrame
      rw [bind_requireSess_apply, if_pos hs, bind_getRegs_apply, decide_eq_false hlt]; rfl
  · exact .inr (bind_of_error (requireSess_of_ne hs))

/-- What ENCF and DECF share: the preconditions, then the frame. -/
theorem frameBody_effect {m : Mode} {intra predicted : Action Unit} (hi : Keeps SameButBits intra)
    (hp : Keeps SameButBits predicted) (i : Instr) (s : State) :
    AfterEffect s i
      (endState ((requireMode m >>= fun _ => requireFrame >>= fun _ => codeFrame intra predicted) s)) := by
  refine afterEffect_requireMode fun _ => ?_
  rcases requireFrame_cases s with ⟨hs, hlt, e⟩ | e
  · rw [bind_of_ok e]
    rcases codeFrame_end hi hp s with h | ⟨hpar, hr⟩
    · exact afterEffect_of_sameButBits h
    · exact afterEffect_of_effect (.frame i hs hlt) hpar hr
  · rw [bind_of_error e]
    exact afterEffect_of_sameButBits (respects_sameButBits.refl s)

theorem encfBody_effect (s : State) : AfterEffect s .encf (endState (encfBody s)) :=
  frameBody_effect (respects_encodeIntra respects_sameButBits fun s => sameButBits_setSample s .cur)
    (respects_encodePred respects_sameButBits fun s => sameButBits_setSample s .cur) .encf s

theorem decfBody_effect (s : State) : AfterEffect s .decf (endState (decfBody s)) :=
  frameBody_effect (respects_decodeIntra respects_sameButBits fun s => sameButBits_setSample s .cur)
    (respects_decodePred respects_sameButBits fun s => sameButBits_setSample s .cur) .decf s

/-! ### Every command -/

/-- The body of every legal command ends in one of the command's effects. -/
theorem bodyOf_effect {i : Instr} {s : State} (hwf : i.wellFormed s.par = true) :
    AfterEffect s i (endState (bodyOf i s)) := by
  have hb := respects_sameButBits
  cases i with
  | nop => exact afterEffect_of_keeps (keeps_nopBody hb)
  | reset => exact afterEffect_of_effect .reset rfl ⟨_, _, rfl⟩
  | csrr csr => exact afterEffect_of_keeps (keeps_csrrBody hb csr)
  | csrw csr v => exact csrwBody_effect hwf
  | pxwr ch v row col =>
    exact afterEffect_of_keeps (keeps_pxwrBody hb ch v row col fun s => sameButBits_setSample s .cur)
  | pxrd ch buf row col => exact afterEffect_of_keeps (keeps_pxrdBody hb ch buf row col)
  | cpref => exact cprefBody_effect s
  | bopenw => exact openStream_effect (.inl rfl) s
  | bopenr => exact openStream_effect (.inr rfl) s
  | bclose => exact bcloseBody_effect s
  | putbit b => exact afterEffect_of_keeps (keeps_putbitBody hb b)
  | putbits n v => exact afterEffect_of_keeps (keeps_putbitsBody hb n v)
  | getbit => exact afterEffect_of_keeps (keeps_getbitBody hb)
  | getbits n => exact afterEffect_of_keeps (keeps_getbitsBody hb n)
  | genc n => exact afterEffect_of_keeps (keeps_gencBody hb n)
  | gdec => exact afterEffect_of_keeps (keeps_gdecBody hb)
  | rpush v => exact rpushBody_effect v s
  | rflush => exact rflushBody_effect s
  | rpop => exact rpopBody_effect s
  | qlevel ch v => exact afterEffect_of_keeps (keeps_qlevelBody hb ch v)
  | qvalue ch l => exact afterEffect_of_keeps (keeps_qvalueBody hb ch l)
  | quant ch v => exact afterEffect_of_keeps (keeps_quantBody hb ch v)
  | ipred ch row col => exact afterEffect_of_keeps (keeps_ipredBody hb ch row col)
  | matchBlock row col => exact afterEffect_of_keeps (keeps_matchBlockBody hb row col)
  | wrhdr => exact wrhdrBody_effect s
  | rdhdr => exact rdhdrBody_effect s
  | encf => exact encfBody_effect s
  | decf => exact decfBody_effect s

end Sys2Proof.Machine
end

section
/-! PROOFS. The invariants of Safety.lean through the effects of a command (10_state.md R26, R32, R33, R41 to R43;
46_container.md R224, R230, R232, R235), and what no step does to the session parameters. -/

namespace Sys2Proof.Machine

/-! ### What a write of a register leaves alone -/

section CsrSet
variable (c : Csr) (v : Word) (g : Regs)

@[simp] theorem csrSet_mode : (csrSet c v g).mode = g.mode := by cases c <;> rfl
@[simp] theorem csrSet_sess : (csrSet c v g).sess = g.sess := by cases c <;> rfl
@[simp] theorem csrSet_err : (csrSet c v g).err = g.err := by cases c <;> rfl
@[simp] theorem csrSet_cause : (csrSet c v g).cause = g.cause := by cases c <;> rfl
@[simp] theorem csrSet_refValid : (csrSet c v g).refValid = g.refValid := by cases c <;> rfl
@[simp] theorem csrSet_refIdx : (csrSet c v g).refIdx = g.refIdx := by cases c <;> rfl
@[simp] theorem csrSet_frameIdx : (csrSet c v g).frameIdx = g.frameIdx := by cases c <;> rfl
@[simp] theorem csrSet_runCount : (csrSet c v g).runCount = g.runCount := by cases c <;> rfl
@[simp] theorem csrSet_lastValue : (csrSet c v g).lastValue = g.lastValue := by cases c <;> rfl
@[simp] theorem csrSet_bitcnt : (csrSet c v g).bitcnt = g.bitcnt := by cases c <;> rfl
@[simp] theorem csrSet_bitbuf : (csrSet c v g).bitbuf = g.bitbuf := by cases c <;> rfl

/-- A register outside the lock that a write changes is ME_METRIC. -/
theorem csrSet_of_not_locked (h : csrLocked c = false) : csrSet c v g = { g with meMetric := (csrSet c v g).meMetric } := by
  cases c <;> first | rfl | exact absurd h (by decide)

end CsrSet

/-- The last intra frame before the one after `i` is `i` or, where `i` is no intra frame, the last one before `i`. -/
theorem lastIntraBefore_succ (g : Regs) (i : Nat) :
    lastIntraBefore g (i + 1) = if i % g.intraPeriod.toNat = 0 then i else lastIntraBefore g i := by
  unfold lastIntraBefore
  generalize g.intraPeriod.toNat = p
  split
  next h => simp [h]
  next h =>
    have hdiv := Nat.div_add_mod i p
    have hpred : i - 1 = p * (i / p) + (i % p - 1) := by omega
    have hmod : (i % p - 1) % p = i % p - 1 := by
      rcases Nat.eq_zero_or_pos p with rfl | hp
      · exact Nat.mod_zero _
      · exact Nat.mod_eq_of_lt ((Nat.sub_le _ _).trans_lt (Nat.mod_lt _ hp))
    rw [Nat.add_sub_cancel, hpred, Nat.mul_add_mod, hmod]
    omega

/-- A frame that is done leaves REF with the last intra frame (46_container.md R232, R235). -/
theorem frameDone_reference {g : Regs} (hh : hybrid g = true)
    (h : 0 < g.frameIdx.toNat → g.refValid = true ∧ g.refIdx.toNat = lastIntraBefore g g.frameIdx.toNat) :
    (frameDoneRegs g).refValid = true ∧ (frameDoneRegs g).refIdx.toNat = lastIntraBefore g (g.frameIdx.toNat + 1) := by
  rw [lastIntraBefore_succ]
  by_cases hi : g.frameIdx.toNat % g.intraPeriod.toNat = 0
  · have hn : intraNext g = true := decide_eq_true fun _ => hi
    simp [frameDoneRegs, hh, hn, hi]
  · have hn : intraNext g = false := decide_eq_false fun h => hi (h hh)
    have hpos : 0 < g.frameIdx.toNat := Nat.pos_of_ne_zero fun h0 => hi (by rw [h0, Nat.zero_mod])
    simpa [frameDoneRegs, hn, hi] using h hpos

/-! ### The invariants that the bit buffer has no part in -/

/-- The state with other registers. -/
def State.withRegs (s : State) (g : Regs) : State := { s with regs := g }

section Effects
variable {s : State} {i : Instr} {g : Regs} (he : Effect s i g)
include he

theorem Effect.dimsOk (h : DimsOk s) : DimsOk (s.withRegs g) := by
  cases he with
  | reset => exact ⟨Nat.zero_le _, Nat.zero_le _⟩
  | set a c v hlim _ =>
    cases c with
    | width => exact ⟨of_decide_eq_true hlim, h.2⟩
    | height => exact ⟨h.1, of_decide_eq_true hlim⟩
    | _ => exact h
  | header i x _ _ hacc _ =>
    obtain ⟨-, -, -, -, hw, -, hh, -⟩ := hacc
    exact ⟨hw, hh⟩
  | _ => exact h

theorem Effect.faultOk (h : FaultOk s) : FaultOk (s.withRegs g) := by
  cases he with
  | reset => exact ⟨fun _ => rfl, nofun⟩
  | set a c v _ _ => simpa [FaultOk, State.withRegs] using h
  | _ => exact h

theorem Effect.runOk (h : RunOk s) : RunOk (s.withRegs g) := by
  cases he with
  | reset | opened | closed => exact ⟨Nat.zero_le _, fun _ => ⟨rfl, rfl⟩⟩
  | set a c v _ _ => simpa [RunOk, State.withRegs] using h
  | run i n x hm hn => exact ⟨hn h.1, fun hidle => absurd hidle hm⟩
  | _ => exact h

theorem Effect.sessionOk (h : SessionOk s) : SessionOk (s.withRegs g) := by
  obtain ⟨hclosed, huninit, href, hdone⟩ := h
  cases he with
  | unchanged => exact ⟨hclosed, huninit, href, hdone⟩
  | reset | opened => exact ⟨nofun, fun _ => rfl, fun _ => rfl, nofun⟩
  | closed => exact ⟨fun _ => rfl, nofun, href, nofun⟩
  | set a c v _ hlock =>
    cases hl : csrLocked c with
    | false =>
      rw [csrSet_of_not_locked c v s.regs hl]
      exact ⟨hclosed, huninit, href, hdone⟩
    | true =>
      have hs : (csrSet c v s.regs).sess ≠ .headerDone := by simpa using hlock hl
      exact ⟨by simpa [State.withRegs] using hclosed, by simpa [State.withRegs] using huninit,
        by simpa [State.withRegs] using href, fun h => absurd h hs⟩
  | reference hs => exact ⟨hclosed, huninit, nofun, fun h => absurd h hs⟩
  | run i n x _ _ => exact ⟨hclosed, huninit, href, hdone⟩
  | header i x hm _ hacc hfit =>
    exact ⟨nofun, nofun, href, fun _ => ⟨hm, hacc, hfit, Nat.zero_le _, fun _ h0 => absurd h0 (Nat.lt_irrefl 0)⟩⟩
  | frame i hs hlt =>
    obtain ⟨hm, hacc, hfit, -, hlast⟩ := hdone hs
    have hidx : (frameDoneRegs s.regs).frameIdx.toNat = s.regs.frameIdx.toNat + 1 := by
      show (s.regs.frameIdx + 1#32).toNat = _
      bv_omega
    refine ⟨fun h => absurd (hs.symm.trans h) nofun, fun h => absurd (hs.symm.trans h) nofun, fun h => ?_,
      fun _ => ⟨hm, hacc, hfit, hidx.trans_le hlt, fun hh _ => ?_⟩⟩
    · cases hc : hybrid s.regs && intraNext s.regs with
      | true => simp [State.withRegs, frameDoneRegs, hc] at h
      | false =>
        simp only [State.withRegs, frameDoneRegs, hc, Bool.false_eq_true, if_false] at h ⊢
        exact href h
    · have := frameDone_reference (g := s.regs) hh (hlast hh)
      rw [← hidx] at this
      exact this

end Effects

/-- The invariants but for the buffers and the bit buffer. -/
structure ControlOk (s : State) : Prop where
  dims : DimsOk s
  fault : FaultOk s
  run : RunOk s
  session : SessionOk s

theorem Effect.controlOk {s : State} {i : Instr} {g : Regs} (he : Effect s i g) (h : ControlOk s) :
    ControlOk (s.withRegs g) :=
  ⟨he.dimsOk h.dims, he.faultOk h.fault, he.runOk h.run, he.sessionOk h.session⟩

/-- They do not speak of the bit buffer. -/
theorem controlOk_of_sameButBits {s t : State} (h : SameButBits s t) (hs : ControlOk s) : ControlOk t := by
  obtain ⟨par, regs, cur, ref, draws, env, inputs, responses⟩ := t
  obtain ⟨hp, n, b, hr⟩ := h
  dsimp only at hp hr
  subst hp hr
  exact ⟨hs.dims, hs.fault, hs.run, hs.session⟩

theorem controlOk_of_afterEffect {s t : State} {i : Instr} (h : AfterEffect s i t) (hs : ControlOk s) : ControlOk t := by
  obtain ⟨hp, g, n, b, he, hr⟩ := h
  exact controlOk_of_sameButBits (s := s.withRegs g) ⟨hp, n, b, hr⟩ (he.controlOk hs)

theorem one_le_causeCode (c : Cause) : 1 ≤ (causeCode c).toNat := by
  cases c <;> decide

/-- Taking a fault keeps them: the codes of R260 are 1 to 7. -/
theorem controlOk_takeFault {s : State} (h : ControlOk s) (op : BitVec 8) (c : Cause) : ControlOk (takeFault op c s) :=
  ⟨h.dims, ⟨nofun, fun _ => ⟨one_le_causeCode c, causeCode_le c⟩⟩, h.run, h.session⟩

/-! ### The bit buffer (10_state.md R42) -/

/-- What holds of the bit buffer where a body raises: in WRITE mode it may be full. -/
def BufferRaised (s : State) : Prop :=
  InRange s ∧ (s.regs.mode = .idle → s.regs.bitcnt = 0#4 ∧ s.regs.bitbuf = 0#8)

/-- What the bit buffer is after a body, by its end. -/
def BufferAfter : EStateM.Result Cause State Word → Prop
  | .ok _ t => BufferOk t
  | .error _ t => BufferRaised t

section Buffer
variable {s t : State}

theorem BufferOk.raised (h : BufferOk s) : BufferRaised s := ⟨h.1, h.2.1⟩

theorem BufferRaised.takeFault (h : BufferRaised s) (op : BitVec 8) (c : Cause) : BufferOk (takeFault op c s) :=
  ⟨h.1, h.2, nofun⟩

/-- An empty buffer, as opening, closing and reset leave it, is right in every mode. -/
theorem bufferOk_of_empty (hc : s.regs.bitcnt = 0#4) (hb : s.regs.bitbuf = 0#8) : BufferOk s :=
  ⟨bufferHolds_iff.mpr (by rw [hc, hb]; decide), fun _ => ⟨hc, hb⟩, fun _ _ => by rw [hc]; decide⟩

theorem bufferOk_of_sameBits (h : SameBits s t) (hm : t.regs.mode = s.regs.mode) (he : t.regs.err = s.regs.err)
    (hs : BufferOk s) : BufferOk t := by
  obtain ⟨hc, hb⟩ := h
  obtain ⟨hrange, hidle, hwrite⟩ := hs
  refine ⟨inRange_same s t hc hb hrange, ?_, ?_⟩
  · rw [hc, hb, hm]; exact hidle
  · rw [hc, hm, he]; exact hwrite

theorem BufferOk.room (h : BufferOk s) (hm : s.regs.mode = .write) (he : s.regs.err = false) : Room s :=
  bufferHolds_iff.mpr ⟨h.2.2 hm he, (bufferHolds_iff.mp h.1).2⟩

theorem bufferOk_of_room (hm : t.regs.mode = .write) (h : Room t) : BufferOk t :=
  ⟨room_inRange t h, fun hi => absurd (hm.symm.trans hi) nofun, fun _ _ => (bufferHolds_iff.mp h).1⟩

theorem bufferOk_of_read (hm : t.regs.mode = .read) (h : InRange t) : BufferOk t :=
  ⟨h, fun hi => absurd (hm.symm.trans hi) nofun, fun hw => absurd (hm.symm.trans hw) nofun⟩

theorem bufferRaised_of_open (hm : t.regs.mode ≠ .idle) (h : InRange t) : BufferRaised t :=
  ⟨h, fun hi => absurd hi hm⟩

theorem bufferAfter_of_endState {r : EStateM.Result Cause State Word} (h : BufferOk (endState r)) : BufferAfter r := by
  cases r with
  | ok v t => exact h
  | error c t => exact h.raised

end Buffer

theorem sameBits_requireFrame : Keeps SameBits requireFrame :=
  keeps_bind sameBits_trans (keeps_requireSess sameBits_refl _) fun _ =>
    keeps_bind sameBits_trans (keeps_getRegs sameBits_refl) fun _ => keeps_require sameBits_refl _ _

/-! The commands that write bits, that read bits, and that do neither -/

theorem writing_safe {i : Instr} (h : neededMode i = some .write) : Safe Room InRange (bodyOf i) := by
  have hk : ∀ {α : Type} {x : Action α}, Keeps SameBits x → Safe Room InRange x := safe_write
  have hmode : ∀ m, Keeps SameBits (requireMode m) := keeps_requireMode sameBits_refl
  have hpure : ∀ v : Word, Safe Room InRange (pure v : Action Word) := fun v => hk (keeps_pure sameBits_refl v)
  cases i with
  | putbit b => exact safe_bind (hk (hmode _)) fun _ => safe_bind (safe_putBit _) fun _ => hpure _
  | putbits n v => exact safe_bind (hk (hmode _)) fun _ => safe_bind (safe_putBits _ _) fun _ => hpure _
  | genc n => exact safe_bind (hk (hmode _)) fun _ => safe_bind (safe_golombEncode _) fun _ => hpure _
  | rpush v =>
    exact safe_bind (hk (hmode _)) fun _ => safe_bind (hk (keeps_getRegs sameBits_refl)) fun _ =>
      safe_bind (hk (keeps_require sameBits_refl _ _)) fun _ => safe_bind (safe_onlyIf _ safe_flushPair) fun _ =>
        safe_bind (hk fun _ => ⟨rfl, rfl⟩) fun _ => hpure _
  | rflush =>
    exact safe_bind (hk (hmode _)) fun _ => safe_bind (hk (keeps_getRegs sameBits_refl)) fun _ =>
      safe_bind (safe_onlyIf _ safe_flushPair) fun _ => hpure _
  | wrhdr =>
    exact safe_bind (hk (hmode _)) fun _ => safe_bind (hk (keeps_requireSess sameBits_refl _)) fun _ =>
      safe_bind (hk (keeps_getRegs sameBits_refl)) fun _ => safe_bind (hk (keeps_checkHeader sameBits_refl _ _)) fun _ =>
        safe_bind (safe_putHeader _) fun _ => safe_bind (hk fun _ => ⟨rfl, rfl⟩) fun _ => hpure _
  | encf =>
    exact safe_bind (hk (hmode _)) fun _ => safe_bind (hk sameBits_requireFrame) fun _ =>
      safe_codeFrame room_inRange room_same safe_encodeIntra safe_encodePred
  | _ => exact nomatch h

theorem reading_safe {i : Instr} (h : neededMode i = some .read) : Safe InRange InRange (bodyOf i) := by
  have hk : ∀ {α : Type} {x : Action α}, Keeps SameBits x → Safe InRange InRange x := safe_read
  have hmode : ∀ m, Keeps SameBits (requireMode m) := keeps_requireMode sameBits_refl
  have hregs : Keeps SameBits getRegs := keeps_getRegs sameBits_refl
  have hpure : ∀ v : Word, Safe InRange InRange (pure v : Action Word) := fun v => hk (keeps_pure sameBits_refl v)
  cases i with
  | getbit => exact safe_bind (hk (hmode _)) fun _ => safe_bind safe_getBit fun _ => hpure _
  | getbits n => exact safe_bind (hk (hmode _)) fun _ => safe_bind (safe_getBits _) fun _ => hpure _
  | gdec => exact safe_bind (hk (hmode _)) fun _ => safe_bind safe_golombDecode fun _ => hpure _
  | rpop =>
    have hpair : Safe InRange InRange readPair :=
      safe_bind safe_golombDecode fun _ => safe_bind safe_golombDecode fun _ =>
        safe_bind (hk (keeps_require sameBits_refl _ _)) fun _ => hk fun _ => ⟨rfl, rfl⟩
    exact safe_bind (hk (hmode _)) fun _ => safe_bind (hk hregs) fun _ =>
      safe_bind (hk (keeps_require sameBits_refl _ _)) fun _ => safe_bind (safe_onlyIf _ hpair) fun _ =>
        safe_bind (hk fun _ => ⟨rfl, rfl⟩) fun _ => safe_bind (hk hregs) fun _ => hpure _
  | rdhdr =>
    exact safe_bind (hk (hmode _)) fun _ => safe_bind (hk (keeps_requireSess sameBits_refl _)) fun _ =>
      safe_bind (hk hregs) fun _ => safe_bind (safe_getHeader _) fun _ =>
        safe_bind (hk (keeps_checkHeader sameBits_refl _ _)) fun _ => safe_bind (hk fun _ => ⟨rfl, rfl⟩) fun _ =>
          safe_bind (hk fun _ => ⟨rfl, rfl⟩) fun _ => hpure _
  | decf =>
    exact safe_bind (hk (hmode _)) fun _ => safe_bind (hk sameBits_requireFrame) fun _ =>
      safe_codeFrame (fun _ h => h) inRange_same safe_decodeIntra safe_decodePred
  | _ => exact nomatch h

/-- The commands that open or close a stream, and RESET: they empty the bit buffer. -/
def changesMode : Instr → Bool
  | .reset | .bopenw | .bopenr | .bclose => true
  | _ => false

theorem sameBits_csrwBody (a : BitVec 8) (v : Word) : Keeps SameBits (csrwBody a v) := fun s => by
  cases hc : csrAt a with
  | none => rw [csrwBody_unlisted hc]; exact sameBits_refl s
  | some c =>
    rw [csrwBody_listed hc]
    split
    · exact sameBits_refl s
    · exact ⟨csrSet_bitcnt .., csrSet_bitbuf ..⟩

theorem other_sameBits {i : Instr} (h : neededMode i = none) (hc : changesMode i = false) :
    Keeps SameBits (bodyOf i) := by
  have hpure : ∀ v : Word, Keeps SameBits (pure v : Action Word) := keeps_pure sameBits_refl
  have hregs : Keeps SameBits getRegs := keeps_getRegs sameBits_refl
  have hreq : ∀ b c, Keeps SameBits (require b c) := keeps_require sameBits_refl
  have seq : ∀ {α β : Type} {x : Action α} {f : α → Action β}, Keeps SameBits x → (∀ a, Keeps SameBits (f a)) →
      Keeps SameBits (x >>= f) := keeps_bind sameBits_trans
  cases i with
  | nop => exact hpure _
  | csrr csr =>
    refine seq hregs fun g => ?_
    split
    · exact hpure _
    · exact keeps_raise sameBits_refl _
  | csrw csr v => exact sameBits_csrwBody csr v
  | pxwr ch v row col =>
    exact seq hregs fun _ => seq (hreq _ _) fun _ => seq (sameBits_writeSample _ _ _ _ _) fun _ => hpure _
  | pxrd ch buf row col =>
    exact seq hregs fun _ => seq (hreq _ _) fun _ => seq (hreq _ _) fun _ =>
      seq (sameBits_readSample _ _ _ _) fun _ => hpure _
  | cpref => exact seq hregs fun _ => seq (hreq _ _) fun _ => seq (sameBits_copyCurToRef _) fun _ => hpure _
  | qlevel ch v => exact seq (sameBits_qLevel _ _) fun _ => hpure _
  | qvalue ch l => exact seq (sameBits_qValue _ _) fun _ => seq (hreq _ _) fun _ => hpure _
  | quant ch v =>
    exact seq (sameBits_qLevel _ _) fun _ => seq (sameBits_qValue _ _) fun _ => seq (hreq _ _) fun _ => hpure _
  | ipred ch row col => exact seq hregs fun _ => seq (hreq _ _) fun _ => seq (sameBits_predict _ _ _) fun _ => hpure _
  | matchBlock row col =>
    exact seq hregs fun _ => seq (hreq _ _) fun _ => seq (hreq _ _) fun _ => seq (hreq _ _) fun _ =>
      seq (sameBits_matchSearch _ _ _) fun _ => hpure _
  | reset | bopenw | bopenr | bclose => exact nomatch hc
  | _ => exact nomatch h

/-! The bit buffer after every body -/

theorem Effect.mode_err {s : State} {i : Instr} {g : Regs} (he : Effect s i g) (hc : changesMode i = false) :
    g.mode = s.regs.mode ∧ g.err = s.regs.err := by
  cases he with
  | reset | closed => exact nomatch hc
  | opened m i hi => rcases hi with rfl | rfl <;> exact nomatch hc
  | set a c v _ _ => exact ⟨csrSet_mode .., csrSet_err ..⟩
  | _ => exact ⟨rfl, rfl⟩

section BodyBuffer
variable {s : State} {i : Instr}

theorem bodyOf_mode_err (hwf : i.wellFormed s.par = true) (hc : changesMode i = false) :
    (endState (bodyOf i s)).regs.mode = s.regs.mode ∧ (endState (bodyOf i s)).regs.err = s.regs.err := by
  obtain ⟨-, g, n, b, he, hr⟩ := bodyOf_effect hwf
  rw [hr]
  exact he.mode_err hc

/-- A command that needs another MODE raises InvalidState at once. -/
theorem bodyOf_of_mode_ne {m : Mode} (h : neededMode i = some m) (hm : s.regs.mode ≠ m) :
    bodyOf i s = .error .invalidState s := by
  cases i <;> cases h <;> exact bind_of_error (requireMode_of_ne hm)

theorem neededMode_spec {m : Mode} (h : neededMode i = some m) :
    m ≠ .idle ∧ runsAlways i = false ∧ changesMode i = false := by
  cases i <;> cases h <;> exact ⟨nofun, rfl, rfl⟩

theorem sameBits_sinkPut (b : Byte) : Keeps SameBits (sinkPut b) := fun s => by
  unfold sinkPut
  split <;> exact ⟨rfl, rfl⟩

theorem safe_flushStream : Safe Room InRange flushStream :=
  safe_bind (safe_write (keeps_getRegs sameBits_refl)) fun _ => safe_bind (safe_onlyIf _ safe_flushPair) fun _ =>
    safe_bind (safe_write (keeps_getRegs sameBits_refl)) fun _ => safe_onlyIf _ (safe_write (sameBits_sinkPut _))

theorem openStream_buffer (m : Mode) (hs : BufferOk s) : BufferAfter (openStream m s) := by
  rcases openStream_end m s with ⟨c, t, e, -, hr⟩ | ⟨t, e, -, hr⟩ <;> rw [e]
  · have ht : BufferOk t := bufferOk_of_sameBits (s := s) ⟨by rw [hr], by rw [hr]⟩ (by rw [hr]) (by rw [hr]) hs
    exact ht.raised
  · exact bufferOk_of_empty (by rw [hr]; rfl) (by rw [hr]; rfl)

theorem bcloseBody_buffer (he : s.regs.err = false) (hs : BufferOk s) : BufferAfter (bcloseBody s) := by
  rcases bcloseBody_end s with e | ⟨hm, ⟨c, t, hw, hf, e⟩ | ⟨t, e, -, hr⟩⟩ <;> rw [e]
  · exact hs.raised
  · obtain ⟨-, n, b, k, -, hr⟩ := keeps_error keeps_flushStream_sameButFlush hf
    exact bufferRaised_of_open (by rw [hr]; exact hm) (safe_error safe_flushStream (hs.room hw he) hf)
  · exact bufferOk_of_empty (by rw [hr]; rfl) (by rw [hr]; rfl)

/-- A body that may run leaves the bit buffer as R42 says, and in its range where it raises. -/
theorem bodyOf_buffer (hi : MayRun s i) (hs : BufferOk s) : BufferAfter (bodyOf i s) := by
  obtain ⟨herr, hwf⟩ := hi
  cases hn : neededMode i with
  | some m =>
    obtain ⟨hidle, halways, hchange⟩ := neededMode_spec hn
    have he : s.regs.err = false := herr.resolve_right (by rw [halways]; decide)
    by_cases hm : s.regs.mode = m
    · have hmode := (bodyOf_mode_err hwf hchange).1.trans hm
      cases m with
      | idle => exact absurd rfl hidle
      | write =>
        have hroom : Room s := hs.room hm he
        cases e : bodyOf i s with
        | ok v t => exact bufferOk_of_room (by rwa [e] at hmode) (safe_ok (writing_safe hn) hroom e)
        | error c t =>
          rw [e] at hmode
          exact bufferRaised_of_open (fun h => nomatch hmode.symm.trans h) (safe_error (writing_safe hn) hroom e)
      | read =>
        have hrange : InRange s := hs.1
        cases e : bodyOf i s with
        | ok v t => exact bufferOk_of_read (by rwa [e] at hmode) (safe_ok (reading_safe hn) hrange e)
        | error c t =>
          rw [e] at hmode
          exact bufferRaised_of_open (fun h => nomatch hmode.symm.trans h) (safe_error (reading_safe hn) hrange e)
    · rw [bodyOf_of_mode_ne hn hm]
      exact hs.raised
  | none =>
    cases hc : changesMode i with
    | false =>
      obtain ⟨hmode, herr'⟩ := bodyOf_mode_err hwf hc
      exact bufferAfter_of_endState (bufferOk_of_sameBits (other_sameBits hn hc s) hmode herr' hs)
    | true =>
      cases i with
      | reset => exact bufferOk_of_empty rfl rfl
      | bopenw => exact openStream_buffer _ hs
      | bopenr => exact openStream_buffer _ hs
      | bclose => exact bcloseBody_buffer (herr.resolve_right nofun) hs
      | _ => exact nomatch hc

end BodyBuffer

/-! ### All invariants -/

theorem inv_of_parts {s : State} (hm : MemoryOk s) (hc : ControlOk s) (hb : BufferOk s) : Inv s :=
  ⟨hm, hc.dims, hc.fault, hb, hc.run, hc.session⟩

theorem Inv.controlOk {s : State} (h : Inv s) : ControlOk s := by
  obtain ⟨-, hdims, hfault, -, hrun, hsession⟩ := h
  exact ⟨hdims, hfault, hrun, hsession⟩

theorem Inv.bufferOk {s : State} (h : Inv s) : BufferOk s := by
  obtain ⟨-, -, -, hbuffer, -⟩ := h
  exact hbuffer

/-- They hold wherever registers and buffers are those of the reset state. -/
theorem inv_of_cleared {s : State} (h : Cleared s) : Inv s := by
  obtain ⟨hr, hc, hf⟩ := h
  refine inv_of_parts ⟨by rw [hc]; rfl, by rw [hf]; rfl⟩ ?_ (bufferOk_of_empty (by rw [hr]; rfl) (by rw [hr]; rfl))
  constructor
  · unfold DimsOk
    rw [hr]
    exact ⟨Nat.zero_le _, Nat.zero_le _⟩
  · unfold FaultOk
    rw [hr]
    exact ⟨fun _ => rfl, nofun⟩
  · unfold RunOk
    rw [hr]
    exact ⟨Nat.zero_le _, fun _ => ⟨rfl, rfl⟩⟩
  · unfold SessionOk
    rw [hr]
    exact ⟨nofun, fun _ => rfl, fun _ => rfl, nofun⟩

/-- Settles O58. -/
theorem invAtReset : Obligations.InvAtReset :=
  inv_of_cleared ⟨rfl, rfl, rfl⟩

/-- The invariants but for the buffers, where a body completes or its fault is taken. -/
theorem bodyOf_keeps_inv {s u : State} {i : Instr} (hi : MayRun s i) (hs : Inv s) :
    (∀ v, bodyOf i s = .ok v u → ControlOk u ∧ BufferOk u) ∧
    (∀ c, bodyOf i s = .error c u →
      ControlOk (takeFault (opcodeOf i) c u) ∧ BufferOk (takeFault (opcodeOf i) c u)) := by
  have hcontrol := controlOk_of_afterEffect (bodyOf_effect hi.wellFormed) hs.controlOk
  have hbuffer := bodyOf_buffer hi hs.bufferOk
  refine ⟨fun v e => ?_, fun c e => ?_⟩ <;> rw [e] at hcontrol hbuffer
  · exact ⟨hcontrol, hbuffer⟩
  · exact ⟨controlOk_takeFault hcontrol _ c, hbuffer.takeFault _ c⟩

/-- Settles O60: the buffers by O59, the registers by the command's effect, the bit buffer by its use. -/
theorem stepKeepsInvariant : Obligations.StepKeepsInvariant := by
  intro s t hs hstep
  have hmem : MemoryOk t := stepKeepsMemoryForm s t hs.1 hstep
  have haccept : ∀ rest, Inv { s with inputs := rest } := fun _ => hs
  cases step_end hstep with
  | waits | refuses => exact hs
  | resets u _ => exact inv_of_cleared (cleared_resetBlock u)
  | illegal rest op =>
    have h := haccept rest
    exact inv_of_parts hmem (controlOk_takeFault h.controlOk op _) (h.bufferOk.raised.takeFault op _)
  | completes rest i v u hi hb =>
    obtain ⟨hcontrol, hbuffer⟩ := (bodyOf_keeps_inv hi (haccept rest)).1 v hb
    have hu : Inv u := inv_of_parts hmem hcontrol hbuffer
    exact hu
  | raises rest i c u hi hb =>
    obtain ⟨hcontrol, hbuffer⟩ := (bodyOf_keeps_inv hi (haccept rest)).2 c hb
    exact inv_of_parts hmem hcontrol hbuffer

/-! ### The session parameters (10_state.md R33, R43) -/

/-- While a header is and stays in force no effect changes a session parameter: a write is outside the lock, and a header
comes into force only where none is. -/
theorem Effect.sessionParameters_eq {s : State} {i : Instr} {g : Regs} (he : Effect s i g)
    (hs : s.regs.sess = .headerDone) (hg : g.sess = .headerDone) :
    sessionParameters g = sessionParameters s.regs := by
  cases he with
  | unchanged | run | frame => rfl
  | reset | opened | closed => exact nomatch hg
  | set a c v _ hlock =>
    have hl : csrLocked c = false := by
      rw [← Bool.not_eq_true]; exact fun h => hlock h hs
    rw [csrSet_of_not_locked c v s.regs hl]; rfl
  | reference h => exact absurd hs h
  | header i x _ h _ _ => exact nomatch h.symm.trans hs

theorem bodyOf_sessionParameters {s : State} {i : Instr} (hi : i.wellFormed s.par = true)
    (hs : s.regs.sess = .headerDone) (ht : (endState (bodyOf i s)).regs.sess = .headerDone) :
    sessionParameters (endState (bodyOf i s)).regs = sessionParameters s.regs := by
  obtain ⟨-, g, n, b, he, hr⟩ := bodyOf_effect hi
  rw [hr] at ht ⊢
  exact he.sessionParameters_eq hs ht

/-- Settles O20: outside the bodies a step changes the fault record alone, or resets. -/
theorem sessionParametersImmutable : Obligations.SessionParametersImmutable := by
  intro s t hstep hs ht
  cases step_end hstep with
  | waits | refuses | illegal => rfl
  | resets => exact nomatch ht
  | completes rest i v u hi hb | raises rest i c u hi hb =>
    have h := bodyOf_sessionParameters hi.wellFormed hs
    rw [hb] at h
    exact h ht

end Sys2Proof.Machine
end

section
/-! PROOFS. The samples by command (20_memory.md R60 to R62; 47_system.md R254, R255): what PXWR, PXRD and IPRED do at a
triple, inside the window and outside it. -/

namespace Sys2Proof.Machine

/-! ### The three bodies, at every triple -/

section Bodies
variable (ch : BitVec 8) (row col : BitVec 16) (s : State)

theorem pxwrBody_apply (v : BitVec 8) :
    pxwrBody ch v row col s =
      if inWindow s.regs row.toNat col.toNat ch.toNat = true then
        .ok 0#32 (s.setSample .cur row.toNat col.toNat ch.toNat v)
      else .error .outOfBounds s := by
  unfold pxwrBody
  rw [bind_getRegs_apply, bind_require_apply, bind_writeSample_apply]; rfl

variable {ch row col s}

theorem pxrdBody_unreferenced {buf : BitVec 1} (hbuf : bufferOf buf ≠ .cur) (href : s.regs.refValid = false) :
    pxrdBody ch buf row col s = .error .invalidState s := by
  simp [pxrdBody, hbuf, href]

/-- Past its first precondition PXRD tests the triple and reads the sample. -/
theorem pxrdBody_selected {buf : BitVec 1} (h : bufferOf buf = .cur ∨ s.regs.refValid = true) :
    pxrdBody ch buf row col s =
      if inWindow s.regs row.toNat col.toNat ch.toNat = true then
        (readSample (bufferOf buf) row.toNat col.toNat ch.toNat >>= fun v => pure (v.zeroExtend 32)) s
      else .error .outOfBounds s := by
  have hsel : (decide (bufferOf buf = .cur) || s.regs.refValid) = true := by simpa using h
  unfold pxrdBody
  rw [bind_getRegs_apply, bind_require_apply, if_pos hsel, bind_require_apply]

theorem ipredBody_outside (h : inWindow s.regs row.toNat col.toNat ch.toNat = false) :
    ipredBody ch row col s = .error .outOfBounds s := by
  simp [ipredBody, h]

end Bodies

/-! ### The commands -/

section Commands
variable {s : State} {ch : BitVec 8} {row col : BitVec 16}

theorem exec_pxwr_inside {v : BitVec 8} (he : s.regs.err = false) (hch : ch.toNat ≤ 2)
    (h : inWindow s.regs row.toNat col.toNat ch.toNat = true) :
    exec (.pxwr ch v row col) s =
      .next ((s.setSample .cur row.toNat col.toNat ch.toNat v).respond 0#8 0#32) :=
  exec_ok (i := .pxwr ch v row col) he (decide_eq_true hch) ((pxwrBody_apply ..).trans (if_pos h))

theorem exec_pxwr_outside {v : BitVec 8} (he : s.regs.err = false) (hch : ch.toNat ≤ 2)
    (h : inWindow s.regs row.toNat col.toNat ch.toNat = false) :
    exec (.pxwr ch v row col) s = .next (takeFault 0x08#8 .outOfBounds s) :=
  exec_raise (i := .pxwr ch v row col) he (decide_eq_true hch)
    ((pxwrBody_apply ..).trans (if_neg (by simp [h])))

theorem exec_ipred_outside (he : s.regs.err = false) (hch : ch.toNat ≤ 2)
    (h : inWindow s.regs row.toNat col.toNat ch.toNat = false) :
    exec (.ipred ch row col) s = .next (takeFault 0x40#8 .outOfBounds s) :=
  exec_raise (i := .ipred ch row col) he (decide_eq_true hch) (ipredBody_outside h)

theorem exec_pxrd_outside {buf : BitVec 1} (he : s.regs.err = false) (hch : ch.toNat ≤ 2)
    (hsel : bufferOf buf = .cur ∨ s.regs.refValid = true)
    (h : inWindow s.regs row.toNat col.toNat ch.toNat = false) :
    exec (.pxrd ch buf row col) s = .next (takeFault 0x09#8 .outOfBounds s) :=
  exec_raise (i := .pxrd ch buf row col) he (decide_eq_true hch)
    ((pxrdBody_selected hsel).trans (if_neg (by simp [h])))

theorem exec_pxrd_unreferenced {buf : BitVec 1} (he : s.regs.err = false) (hch : ch.toNat ≤ 2)
    (hbuf : bufferOf buf ≠ .cur) (href : s.regs.refValid = false) :
    exec (.pxrd ch buf row col) s = .next (takeFault 0x09#8 .invalidState s) :=
  exec_raise (i := .pxrd ch buf row col) he (decide_eq_true hch) (pxrdBody_unreferenced hbuf href)

/-- PXRD inside the window answers what the read of the sample gives, in the state the read leaves. -/
theorem exec_pxrd_inside {t : State} {v : Byte} {buf : BitVec 1} (he : s.regs.err = false) (hch : ch.toNat ≤ 2)
    (hsel : bufferOf buf = .cur ∨ s.regs.refValid = true)
    (h : inWindow s.regs row.toNat col.toNat ch.toNat = true)
    (hread : readSample (bufferOf buf) row.toNat col.toNat ch.toNat s = .ok v t) :
    exec (.pxrd ch buf row col) s = .next (t.respond 0#8 (BitVec.ofNat 32 v.toNat)) := by
  rw [BitVec.ofNat_toNat]
  exact exec_ok (i := .pxrd ch buf row col) he (decide_eq_true hch)
    ((pxrdBody_selected hsel).trans ((if_pos h).trans (bind_of_ok hread)))

end Commands

/-- The bit of PXRD selects a buffer (30_encoding.md R94). -/
theorem bufferOf_eq (buf : BitVec 1) : bufferOf buf = if buf = 1#1 then .ref else .cur := by
  revert buf; decide

/-! ### The statements -/

/-- Settles O21: the one write is at a key of its own. -/
theorem pxwrWritesSample : Obligations.PxwrWritesSample := by
  intro s ch v row col he hch hwin
  refine ⟨_, exec_pxwr_inside he hch hwin, ?_, fun r c k hc hk hne => ?_, rfl⟩
  · rw [respond_sample, sample_setSample_same]
  · obtain ⟨hcol, hchan⟩ := inWindow_bounds hwin
    rw [respond_sample, sample_setSample_ne s .cur .cur v hcol hchan hc hk hne]

/-- Settles O23: the two ends of a sample's read. -/
theorem pxrdReadsSample : Obligations.PxrdReadsSample := by
  intro s ch buf row col he hch hwin hvalid
  have hsel : bufferOf buf = .cur ∨ s.regs.refValid = true := by
    rw [bufferOf_eq]
    by_cases hbuf : buf = 1#1
    · exact .inr (hvalid hbuf)
    · exact .inl (if_neg hbuf)
  rw [← bufferOf_eq]
  exact ⟨fun v hv => exec_pxrd_inside he hch hsel hwin (readSample_written hv),
    fun hnone => ⟨_, exec_pxrd_inside he hch hsel hwin (readSample_unwritten hnone)⟩⟩

/-- Settles O22. -/
theorem pixelOutOfBounds : Obligations.PixelOutOfBounds := by
  intro s ch v row col he hch
  exact ⟨fun hout => ⟨exec_pxwr_outside he hch hout, exec_ipred_outside he hch hout,
      exec_pxrd_outside he hch (.inl rfl) hout, fun hvalid => exec_pxrd_outside he hch (.inr hvalid) hout⟩,
    fun hvalid => exec_pxrd_unreferenced he hch (by decide) hvalid⟩

end Sys2Proof.Machine
end

section
/-! PROOFS. Which command may change the frame buffers, the SINK and the SOURCE (20_memory.md R60, R63, R72): one case
analysis over the commands, for relations that do not speak of the registers. -/

namespace Sys2Proof.Machine

/-- The commands that write samples of CUR, RESET apart. -/
def WritesCur (i : Instr) : Prop :=
  i = .encf ∨ i = .decf ∨ ∃ ch v row col, i = .pxwr ch v row col

/-- The commands that write samples of REF, RESET apart. -/
def WritesRef (i : Instr) : Prop :=
  i = .encf ∨ i = .decf ∨ i = .cpref

/-- A relation that holds across every change of the registers, and across those changes of the buffers and of the
environment that the command `i` may make. -/
structure RespectsMemoryOf (i : Instr) (R : State → State → Prop) : Prop extends Respects R where
  regs : ∀ (s : State) g, R s { s with regs := g }
  answers : ∀ (s : State) more, R s { s with env := { s.env with openAnswers := more } }
  cur : WritesCur i → ∀ s r c ch v, R s (State.setSample s .cur r c ch v)
  ref : WritesRef i → ∀ s r c ch v, R s (State.setSample s .ref r c ch v)
  drop : i = .bclose → ∀ s : State, R s { s with env := s.env.dropSource }
  reset : i = .reset → ∀ s, R s (resetBlock s)

/-- The body of a command makes no other change. -/
theorem bodyOf_keeps_memory {i : Instr} {R : State → State → Prop} (h : RespectsMemoryOf i R) : Keeps R (bodyOf i) := by
  have hb := h.toRespects
  have hregs : ∀ (f : Regs → Regs) (s : State), R s { s with regs := f s.regs } := fun f s => h.regs s (f s.regs)
  have hrun : ∀ (s : State) n x, R s { s with regs := { s.regs with runCount := n, lastValue := x } } :=
    fun s _ _ => h.regs s _
  cases i with
  | nop => exact keeps_nopBody hb
  | reset => exact keeps_resetBody (h.reset rfl)
  | csrr a => exact keeps_csrrBody hb a
  | csrw a v => exact keeps_csrwBody hb a v fun s _ _ _ => h.regs s _
  | pxwr ch v row col => exact keeps_pxwrBody hb ch v row col (h.cur (.inr (.inr ⟨ch, v, row, col, rfl⟩)))
  | pxrd ch buf row col => exact keeps_pxrdBody hb ch buf row col
  | cpref => exact keeps_cprefBody hb (h.ref (.inr (.inr rfl))) fun s _ => h.regs s _
  | bopenw | bopenr => exact keeps_openStream hb _ h.answers (hregs _)
  | bclose => exact keeps_bcloseBody hb (fun s => h.regs s _) (h.drop rfl) (hregs closedRegs)
  | putbit b => exact keeps_putbitBody hb b
  | putbits n v => exact keeps_putbitsBody hb n v
  | getbit => exact keeps_getbitBody hb
  | getbits n => exact keeps_getbitsBody hb n
  | genc n => exact keeps_gencBody hb n
  | gdec => exact keeps_gdecBody hb
  | rpush v => exact keeps_rpushBody hb v hrun
  | rflush => exact keeps_rflushBody hb hrun
  | rpop => exact keeps_rpopBody hb hrun
  | qlevel ch v => exact keeps_qlevelBody hb ch v
  | qvalue ch l => exact keeps_qvalueBody hb ch l
  | quant ch v => exact keeps_quantBody hb ch v
  | ipred ch row col => exact keeps_ipredBody hb ch row col
  | matchBlock row col => exact keeps_matchBlockBody hb row col
  | wrhdr => exact keeps_wrhdrBody hb (hregs headerDoneRegs)
  | rdhdr => exact keeps_rdhdrBody hb (fun s x => h.regs s (loadHeader x s.regs)) (hregs headerDoneRegs)
  | encf =>
    exact keeps_encfBody hb (h.cur (.inl rfl)) (h.ref (.inl rfl)) (fun s _ => h.regs s _) fun s _ => h.regs s _
  | decf =>
    exact keeps_decfBody hb (h.cur (.inr (.inl rfl))) (h.ref (.inr (.inl rfl))) (fun s _ => h.regs s _)
      fun s _ => h.regs s _

/-! ### The frame buffers (20_memory.md R60) -/

section Buffers
variable {i : Instr} {s t : State}

theorem respectsMemoryOf_cur (hw : ¬ WritesCur i) (hr : i ≠ .reset) :
    RespectsMemoryOf i fun s t => t.cur = s.cur where
  refl _ := rfl
  trans _ _ _ h g := g.trans h
  bits _ _ _ := rfl
  sink _ _ _ := rfl
  source _ _ := rfl
  draw _ _ := rfl
  regs _ _ := rfl
  answers _ _ := rfl
  cur h := absurd h hw
  ref _ _ _ _ _ _ := rfl
  drop _ _ := rfl
  reset h := absurd h hr

theorem respectsMemoryOf_ref (hw : ¬ WritesRef i) (hr : i ≠ .reset) :
    RespectsMemoryOf i fun s t => t.ref = s.ref where
  refl _ := rfl
  trans _ _ _ h g := g.trans h
  bits _ _ _ := rfl
  sink _ _ _ := rfl
  source _ _ := rfl
  draw _ _ := rfl
  regs _ _ := rfl
  answers _ _ := rfl
  cur _ _ _ _ _ _ := rfl
  ref h := absurd h hw
  drop _ _ := rfl
  reset h := absurd h hr

theorem exec_cur_eq (hw : ¬ WritesCur i) (hr : i ≠ .reset) (h : exec i s = .next t) : t.cur = s.cur :=
  exec_keeps (R := fun s t => t.cur = s.cur) (fun _ _ _ _ => id) (fun _ _ _ _ => id) (fun _ => rfl)
    (bodyOf_keeps_memory (respectsMemoryOf_cur hw hr)) h

theorem exec_ref_eq (hw : ¬ WritesRef i) (hr : i ≠ .reset) (h : exec i s = .next t) : t.ref = s.ref :=
  exec_keeps (R := fun s t => t.ref = s.ref) (fun _ _ _ _ => id) (fun _ _ _ _ => id) (fun _ => rfl)
    (bodyOf_keeps_memory (respectsMemoryOf_ref hw hr)) h

end Buffers

/-- Settles O25: a command that is none of the named ones leaves the buffer as it is. -/
theorem buffersChangeOnlyByTheirCommands : Obligations.BuffersChangeOnlyByTheirCommands := by
  intro i s t h
  constructor
  · refine or_iff_not_imp_right.mpr fun hi => exec_cur_eq (fun hw => hi ?_) (fun hr => hi (.inr (.inr (.inl hr)))) h
    rcases hw with he | hd | hp
    · exact .inl he
    · exact .inr (.inl hd)
    · exact .inr (.inr (.inr hp))
  · refine or_iff_not_imp_right.mpr fun hi => exec_ref_eq (fun hw => hi ?_) (fun hr => hi (.inr (.inr (.inl hr)))) h
    rcases hw with he | hd | hc
    · exact .inl he
    · exact .inr (.inl hd)
    · exact .inr (.inr (.inr hc))

/-! ### The stream (20_memory.md R63, R72) -/

/-- SINK holds in `t` what it held in `s`, and maybe bytes after it. -/
def ExtendsSink (s t : State) : Prop :=
  ∃ out, t.env.sinkOut = s.env.sinkOut ++ out

/-- The present source of `t` is what is left of that of `s` after some answers were taken. -/
structure TakesAnswers (s t : State) : Prop where
  nextSources : t.env.nextSources = s.env.nextSources
  source : ∃ k, t.env.source = s.env.source.drop k

theorem extendsSink_of_eq {s t : State} (h : t.env.sinkOut = s.env.sinkOut) : ExtendsSink s t :=
  ⟨[], by rw [h, List.append_nil]⟩

theorem extendsSink_trans {s t u : State} (h : ExtendsSink s t) (h' : ExtendsSink t u) : ExtendsSink s u := by
  obtain ⟨out, ho⟩ := h
  obtain ⟨out', ho'⟩ := h'
  exact ⟨out ++ out', by rw [ho', ho, List.append_assoc]⟩

theorem takesAnswers_of_eq {s t : State} (h : t.env = s.env) : TakesAnswers s t :=
  ⟨by rw [h], 0, by rw [h, List.drop_zero]⟩

theorem takesAnswers_trans {s t u : State} (h : TakesAnswers s t) (h' : TakesAnswers t u) : TakesAnswers s u := by
  obtain ⟨hn, k, hk⟩ := h
  obtain ⟨hn', k', hk'⟩ := h'
  exact ⟨hn'.trans hn, k + k', by rw [hk', hk, List.drop_drop]⟩

section Stream
variable {i : Instr} {s t : State}

/-- No command takes a byte back from SINK, not even one that drops a source. -/
theorem respectsMemoryOf_extendsSink (i : Instr) : RespectsMemoryOf i ExtendsSink where
  refl _ := extendsSink_of_eq rfl
  trans _ _ _ := extendsSink_trans
  bits _ _ _ := extendsSink_of_eq rfl
  sink _ out _ := ⟨out, rfl⟩
  source _ _ := extendsSink_of_eq rfl
  draw _ _ := extendsSink_of_eq rfl
  regs _ _ := extendsSink_of_eq rfl
  answers _ _ := extendsSink_of_eq rfl
  cur _ _ _ _ _ _ := extendsSink_of_eq rfl
  ref _ _ _ _ _ _ := extendsSink_of_eq rfl
  drop _ s := extendsSink_of_eq (dropSource_sinkOut s.env)
  reset _ s := extendsSink_of_eq (resetBlock_sinkOut s)

theorem respectsMemoryOf_takesAnswers (hc : i ≠ .bclose) (hr : i ≠ .reset) : RespectsMemoryOf i TakesAnswers where
  refl _ := takesAnswers_of_eq rfl
  trans _ _ _ := takesAnswers_trans
  bits _ _ _ := takesAnswers_of_eq rfl
  sink _ _ _ := ⟨rfl, 0, rfl⟩
  source _ k := ⟨rfl, k, rfl⟩
  draw _ _ := takesAnswers_of_eq rfl
  regs _ _ := takesAnswers_of_eq rfl
  answers _ _ := ⟨rfl, 0, rfl⟩
  cur _ _ _ _ _ _ := takesAnswers_of_eq rfl
  ref _ _ _ _ _ _ := takesAnswers_of_eq rfl
  drop h := absurd h hc
  reset h := absurd h hr

theorem exec_extendsSink (h : exec i s = .next t) : ExtendsSink s t :=
  exec_keeps (fun _ _ _ _ => id) (fun _ _ _ _ => id) (respectsMemoryOf_extendsSink i).refl
    (bodyOf_keeps_memory (respectsMemoryOf_extendsSink i)) h

theorem exec_takesAnswers (hc : i ≠ .bclose) (hr : i ≠ .reset) (h : exec i s = .next t) : TakesAnswers s t :=
  have hR := respectsMemoryOf_takesAnswers hc hr
  exec_keeps (fun _ _ _ _ hs => ⟨hs.nextSources, hs.source⟩) (fun _ _ _ _ hs => ⟨hs.nextSources, hs.source⟩)
    hR.refl (bodyOf_keeps_memory hR) h

end Stream

/-- Settles O33. -/
theorem streamIsSequential : Obligations.StreamIsSequential := by
  intro i s t h
  refine ⟨exec_extendsSink h, ?_⟩
  by_cases hc : i = .bclose
  · exact .inl hc
  by_cases hr : i = .reset
  · exact .inr (.inl hr)
  obtain ⟨hnext, hsource⟩ := exec_takesAnswers hc hr h
  exact .inr (.inr ⟨hnext, hsource⟩)

end Sys2Proof.Machine
end

section
/-! PROOFS. DECF on a predicted frame (46_container.md R236, 45_motion.md R208): it completes, or the first vector that
leaves the frame stops it. -/

namespace Sys2Proof.Machine

/-- A predicted frame whose coding raises raises the same, with FRAME_IDX as it was (60_exceptions.md R267). -/
theorem codeFrame_predicted_error {s t : State} {c : Cause} {intra predicted : Action Unit}
    (hi : intraNext s.regs = false) (h : predicted s = .error c t) :
    codeFrame intra predicted s = .error c t := by
  unfold codeFrame typedFrame
  rw [bind_getRegs_apply, frameIsIntra_eq, hi]
  exact bind_of_error (bind_of_error h)

/-- The block of a sample is named by the quotients of its coordinates (45_motion.md R200). -/
theorem block_of_inBlock {g : Regs} {b : Nat × Nat} {r c ch : Nat} (h : InBlock g b r c ch) :
    b = (r / g.blockSize.toNat, c / g.blockSize.toNat) := by
  obtain ⟨hr, hr', hc, hc', -⟩ := h
  have hrow : r / g.blockSize.toNat = b.1 := Nat.div_eq_of_lt_le hr (by rwa [Nat.succ_mul])
  have hcol : c / g.blockSize.toNat = b.2 := Nat.div_eq_of_lt_le hc (by rwa [Nat.succ_mul])
  rw [hrow, hcol]

/-- A sample is in none of the blocks of a list when its block is not listed or it has no such channel. -/
theorem not_inBlock_of_not_mem {g : Regs} {bs : List (Nat × Nat)} {r c ch : Nat}
    (h : (r / g.blockSize.toNat, c / g.blockSize.toNat) ∉ bs ∨ channels g ≤ ch) :
    ∀ b ∈ bs, ¬ InBlock g b r c ch := by
  intro b hb hin
  rcases h with hnot | hch
  · exact hnot (block_of_inBlock hin ▸ hb)
  · obtain ⟨-, -, -, -, hlt⟩ := hin
    exact absurd hlt (Nat.not_lt.mpr hch)

/-- Reading bits changes the source alone in the environment. -/
theorem taken_env {s t : State} {bs : List Bool} (h : Taken s t bs) : t.env = { s.env with source := t.env.source } := by
  have henv := congrArg State.env (taken_state h)
  exact henv

/-- The state after a predicted frame was decoded: FRAME_IDX is advanced and the response delivered. -/
def predictedDone (s t : State) : State :=
  State.respond { t with regs := { t.regs with frameIdx := s.regs.frameIdx + 1#32 } } 0#8 1#32

section PredictedDone
variable (s t : State)

@[simp] theorem predictedDone_par : (predictedDone s t).par = t.par := rfl
@[simp] theorem predictedDone_regs :
    (predictedDone s t).regs = { t.regs with frameIdx := s.regs.frameIdx + 1#32 } := rfl
@[simp] theorem predictedDone_ref : (predictedDone s t).ref = t.ref := rfl
@[simp] theorem predictedDone_env : (predictedDone s t).env = t.env := rfl
@[simp] theorem predictedDone_inputs : (predictedDone s t).inputs = t.inputs := rfl
@[simp] theorem predictedDone_responses :
    (predictedDone s t).responses = t.responses ++ [responseWord 0#8 1#32] := rfl
@[simp] theorem predictedDone_sample (b : Buffer) (r c ch : Nat) :
    (predictedDone s t).sample b r c ch = t.sample b r c ch := by
  cases b <;> rfl
@[simp] theorem predictedDone_unreadBits : unreadBits (predictedDone s t) = unreadBits t := rfl
@[simp] theorem predictedDone_bufferHolds (n : Nat) :
    bufferHolds (predictedDone s t).regs n = bufferHolds t.regs n := rfl

end PredictedDone

/-- Decoding that took bits and changed CUR inside the blocks alone leaves the frame of a predicted frame. -/
theorem frameFrame_predictedDone {s t : State} {bs : List Bool} (hi : intraNext s.regs = false) (hT : Taken s t bs)
    (hout : ∀ r c ch, c < 2 ^ 32 → ch < 2 ^ 8 → ¬ inBlocks s.regs r c ch → t.sample .cur r c ch = s.sample .cur r c ch) :
    FrameFrame s (predictedDone s t) := by
  have hcoded : ∀ r c ch, inBlocks s.regs r c ch → codedSample s.regs r c ch := fun r c ch h => by
    unfold codedSample; rwa [hi]
  refine ⟨?_, ?_, ?_, ?_, ?_, fun r c ch hc hch hn => ?_, fun _ h => ?_, fun _ => ?_⟩
  · rw [predictedDone_regs, taken_regs hT, hi, Bool.and_false]; rfl
  · rw [predictedDone_par, taken_state hT]
  · rw [predictedDone_inputs, taken_state hT]
  · rw [predictedDone_env, taken_env hT]
  · rw [predictedDone_env, taken_env hT]
  · rw [predictedDone_sample]
    exact hout r c ch hc hch fun hin => hn (hcoded r c ch hin)
  · exact nomatch hi.symm.trans h
  · rw [predictedDone_ref, taken_ref hT]

section Decf
variable {s : State} (he : s.regs.err = false) (hm : s.regs.mode = .read) (hs : s.regs.sess = .headerDone)
  (hlt : s.regs.frameIdx.toNat < s.regs.frameCount.toNat) (hi : intraNext s.regs = false)
include he hm hs hlt hi

theorem exec_decf_predicted {t : State} (h : decodePred s = .ok () t) : exec .decf s = .next (predictedDone s t) :=
  exec_ok (i := .decf) he rfl ((decfBody_eq hm hs hlt).trans (codeFrame_predicted hi h))

theorem exec_decf_predicted_raise {t : State} {c : Cause} (h : decodePred s = .error c t) :
    exec .decf s = .next (takeFault 0x53#8 c t) :=
  exec_raise (i := .decf) he rfl ((decfBody_eq hm hs hlt).trans (codeFrame_predicted_error hi h))

end Decf

/-- Settles O56: the two ends of `DecodePred`, on good vectors and on a first bad one, inside the stages of DECF. -/
theorem decfPredictedDecodes : Obligations.DecfPredictedDecodes := by
  intro s vec res rest he hm hs hlt hc hb hi
  constructor
  · intro hfine hun
    obtain ⟨t, hdec, hT, hout, hblocks⟩ := decodePred_spec hc hb vec res hfine hun
    refine ⟨predictedDone s t, exec_decf_predicted he hm hs hlt hi hdec, ?_, ?_, ?_, ?_, ?_,
      frameFrame_predictedDone hi hT hout, ?_⟩
    · rw [predictedDone_responses, taken_state hT]
    · rw [predictedDone_unreadBits, taken_unread hT hun]
    · rw [predictedDone_bufferHolds, taken_holds hT]
    · rw [predictedDone_env, taken_env hT]
    · rw [predictedDone_env, taken_env hT]
    · intro b hmem i j ch l y hrow hcol hch hl hy
      rw [predictedDone_sample]
      exact hblocks b hmem i j ch l y hrow hcol hch hl hy
  · intro good more b horder hfine hbad hdx hdy hun
    obtain ⟨t, hdec, hT, hout, hblocks⟩ := decodePred_outside hc hb vec res horder hfine hbad hdx hdy hun
    exact ⟨t, exec_decf_predicted_raise he hm hs hlt hi hdec, taken_unread hT hun, taken_state hT, hblocks,
      fun r c ch h1 h2 hn => hout r c ch h1 h2 (not_inBlock_of_not_mem hn)⟩

end Sys2Proof.Machine
end

section
/-! PROOFS. The command word (30_encoding.md R90 to R99): a command's row of the opcode table, from its opcode and its
operand bits; `decode` said once, as "the opcode selects the row and the word must match it"; and the faults of illegal
words and operands (60_exceptions.md R263). -/

namespace Sys2Proof

/-! ### Words and their fields -/

section WordFields
variable (w v : CmdWord)

@[simp] theorem opField_and : opField (w &&& v) = opField w &&& opField v := BitVec.extractLsb'_and
@[simp] theorem aField_and : aField (w &&& v) = aField w &&& aField v := BitVec.extractLsb'_and
@[simp] theorem bField_and : bField (w &&& v) = bField w &&& bField v := BitVec.extractLsb'_and
@[simp] theorem zField_and : zField (w &&& v) = zField w &&& zField v := BitVec.extractLsb'_and
@[simp] theorem immField_and : immField (w &&& v) = immField w &&& immField v := BitVec.extractLsb'_and

@[simp] theorem opField_not : opField (~~~w) = ~~~opField w := by
  apply BitVec.eq_of_getLsbD_eq
  intro i hi
  simp [opField, hi, show 56 + i < 64 by omega]

@[simp] theorem aField_not : aField (~~~w) = ~~~aField w := BitVec.extractLsb'_not_of_lt (by decide)
@[simp] theorem bField_not : bField (~~~w) = ~~~bField w := BitVec.extractLsb'_not_of_lt (by decide)
@[simp] theorem zField_not : zField (~~~w) = ~~~zField w := BitVec.extractLsb'_not_of_lt (by decide)
@[simp] theorem immField_not : immField (~~~w) = ~~~immField w := BitVec.extractLsb'_not_of_lt (by decide)

end WordFields

/-- A word with Z zero is known by its other fields (30_encoding.md R90). -/
theorem eq_mkWord_iff {w : CmdWord} {op a b : BitVec 8} {imm : Word} :
    w = mkWord op a b imm ↔
      opField w = op ∧ aField w = a ∧ bField w = b ∧ zField w = 0#8 ∧ immField w = imm := by
  constructor
  · rintro rfl
    exact ⟨opField_mkWord .., aField_mkWord .., bField_mkWord .., zField_mkWord .., immField_mkWord ..⟩
  · rintro ⟨rfl, rfl, rfl, hz, rfl⟩
    exact (mkWord_fields hz).symm

@[simp] theorem and_ones_byte (a : BitVec 8) : a &&& 255#8 = a := BitVec.and_allOnes

@[simp] theorem and_ones_word (v : Word) : v &&& 4294967295#32 = v := BitVec.and_allOnes

/-- The bits of a byte above the lowest, by mask and by field. -/
theorem and_254_eq_zero_iff (a : BitVec 8) : a &&& 254#8 = 0#8 ↔ a.extractLsb' 1 7 = 0#7 := by
  revert a; decide

/-! ### The row of a command -/

/-- The bits of A that a command's row leaves to an operand (30_encoding.md R91, R95). -/
def aBits : Instr → BitVec 8
  | .csrr _ | .csrw _ _ | .pxwr _ _ _ _ | .pxrd _ _ _ _ | .putbits _ _ | .getbits _ | .qlevel _ _ | .qvalue _ _
  | .quant _ _ | .ipred _ _ _ => 0xFF#8
  | .putbit _ => 1#8
  | _ => 0#8

/-- The bits of B that a command's row leaves to an operand (30_encoding.md R91, R95). -/
def bBits : Instr → BitVec 8
  | .pxwr _ _ _ _ => 0xFF#8
  | .pxrd _ _ _ _ => 1#8
  | _ => 0#8

/-- The bits of IMM that a command's row leaves to an operand (30_encoding.md R91, R95). -/
def immBits : Instr → Word
  | .csrw _ _ | .pxwr _ _ _ _ | .pxrd _ _ _ _ | .putbits _ _ | .genc _ | .rpush _ | .qlevel _ _ | .qvalue _ _
  | .quant _ _ | .ipred _ _ _ | .matchBlock _ _ => 0xFFFFFFFF#32
  | _ => 0#32

/-- The mask and the match of a command's row: every bit but the operands' is fixed (30_encoding.md R99). -/
def rowOfCommand (i : Instr) : CmdWord × CmdWord :=
  (~~~(mkWord 0#8 (aBits i) (bBits i) (immBits i)), mkWord (opcodeOf i) 0#8 0#8 0#32)

/-- The word matches the command's row (30_encoding.md R99). -/
abbrev MatchesRow (w : CmdWord) (i : Instr) : Prop :=
  w &&& (rowOfCommand i).1 = (rowOfCommand i).2

/-- A word matches a command's row when it has the command's opcode and zeros outside the operands. -/
theorem matchesRow_iff {w : CmdWord} {i : Instr} :
    MatchesRow w i ↔ opField w = opcodeOf i ∧ aField w &&& ~~~aBits i = 0#8 ∧ bField w &&& ~~~bBits i = 0#8 ∧
      zField w = 0#8 ∧ immField w &&& ~~~immBits i = 0#32 := by
  unfold MatchesRow rowOfCommand
  rw [eq_mkWord_iff]
  simp

/-! ### The operands of a command -/

/-- The command of the row of `i` whose operands are read from the fields `a`, `b` and `imm` (30_encoding.md R94). -/
def withFields (a b : BitVec 8) (imm : Word) : Instr → Instr
  | .csrr _ => .csrr a
  | .csrw _ _ => .csrw a imm
  | .pxwr _ _ _ _ => .pxwr a b (rowOf imm) (colOf imm)
  | .pxrd _ _ _ _ => .pxrd a (b.extractLsb' 0 1) (rowOf imm) (colOf imm)
  | .putbit _ => .putbit (a.extractLsb' 0 1)
  | .putbits _ _ => .putbits a imm
  | .getbits _ => .getbits a
  | .genc _ => .genc imm
  | .rpush _ => .rpush imm
  | .qlevel _ _ => .qlevel a imm
  | .qvalue _ _ => .qvalue a imm
  | .quant _ _ => .quant a imm
  | .ipred _ _ _ => .ipred a (rowOf imm) (colOf imm)
  | .matchBlock _ _ => .matchBlock (rowOf imm) (colOf imm)
  | i => i

section Operands
variable {i : Instr}

/-- A command's own operands are read back from its fields. -/
theorem withFields_operands : withFields (aOperand i) (bOperand i) (immOperand i) i = i := by
  cases i <;> simp [withFields, aOperand, bOperand, immOperand, -BitVec.truncate_eq_setWidth, bit_of_zeroExtend]

theorem opcodeOf_withFields (a b : BitVec 8) (imm : Word) : opcodeOf (withFields a b imm i) = opcodeOf i := by
  cases i <;> rfl

theorem aOperand_withFields (b : BitVec 8) (imm : Word) {a : BitVec 8} (h : a &&& ~~~aBits i = 0#8) :
    aOperand (withFields a b imm i) = a := by
  cases i <;>
    simp_all [withFields, aOperand, aBits, and_254_eq_zero_iff, -BitVec.truncate_eq_setWidth, zeroExtend_of_bit]

theorem bOperand_withFields (a : BitVec 8) (imm : Word) {b : BitVec 8} (h : b &&& ~~~bBits i = 0#8) :
    bOperand (withFields a b imm i) = b := by
  cases i <;>
    simp_all [withFields, bOperand, bBits, and_254_eq_zero_iff, -BitVec.truncate_eq_setWidth, zeroExtend_of_bit]

theorem immOperand_withFields (a b : BitVec 8) {imm : Word} (h : imm &&& ~~~immBits i = 0#32) :
    immOperand (withFields a b imm i) = imm := by
  cases i <;> simp_all [withFields, immOperand, immBits, rowOf_append_colOf]

/-! The operands of a command lie in the bits its row leaves to them. -/

theorem aOperand_fit : aOperand i &&& ~~~aBits i = 0#8 := by
  cases i <;> simp [aOperand, aBits, and_254_eq_zero_iff, -BitVec.truncate_eq_setWidth, bit_of_zeroExtend]

theorem bOperand_fit : bOperand i &&& ~~~bBits i = 0#8 := by
  cases i <;> simp [bOperand, bBits, and_254_eq_zero_iff, -BitVec.truncate_eq_setWidth, bit_of_zeroExtend]

theorem immOperand_fit : immOperand i &&& ~~~immBits i = 0#32 := by
  cases i <;> simp [immOperand, immBits]

end Operands

/-! ### The opcode table -/

/-- One command of every row, in the order of the table (30_encoding.md R95). -/
def rowCommands : List Instr :=
  [.nop, .reset, .csrr 0, .csrw 0 0, .pxwr 0 0 0 0, .pxrd 0 0 0 0, .cpref, .bopenw, .bopenr, .bclose, .putbit 0,
    .putbits 0 0, .getbit, .getbits 0, .genc 0, .gdec, .rpush 0, .rflush, .rpop, .qlevel 0 0, .qvalue 0 0, .quant 0 0,
    .ipred 0 0 0, .matchBlock 0 0, .wrhdr, .rdhdr, .encf, .decf]

/-- The table of R99 is that of the commands' rows. -/
theorem commandRows_eq : Machine.commandRows = rowCommands.map rowOfCommand := by
  decide

/-- The command of a row with its operands zero stands for the row. -/
theorem withFields_zero_mem (i : Instr) : withFields 0 0 0 i ∈ rowCommands := by
  cases i <;> simp [rowCommands, withFields, rowOf, colOf]

theorem rowOfCommand_mem (i : Instr) : rowOfCommand i ∈ Machine.commandRows := by
  have hrow : rowOfCommand (withFields 0 0 0 i) = rowOfCommand i := by cases i <;> rfl
  rw [commandRows_eq, ← hrow]
  exact List.mem_map_of_mem (withFields_zero_mem i)

theorem exists_rowOfCommand {r : CmdWord × CmdWord} (h : r ∈ Machine.commandRows) : ∃ i, rowOfCommand i = r := by
  rw [commandRows_eq, List.mem_map] at h
  obtain ⟨i, -, hi⟩ := h
  exact ⟨i, hi⟩

/-- No two rows of the table have one opcode. -/
theorem row_eq_of_opField_eq {r q : CmdWord × CmdWord} (hr : r ∈ Machine.commandRows)
    (hq : q ∈ Machine.commandRows) (h : opField r.2 = opField q.2) : r = q := by
  have hnodup : (Machine.commandRows.map fun r => opField r.2).Nodup := by decide
  exact List.inj_on_of_nodup_map hnodup hr hq h

/-- Every row fixes the whole opcode. -/
theorem opField_of_matches {w : CmdWord} {r : CmdWord × CmdWord} (hr : r ∈ Machine.commandRows)
    (h : w &&& r.1 = r.2) : opField w = opField r.2 := by
  obtain ⟨i, rfl⟩ := exists_rowOfCommand hr
  exact (matchesRow_iff.mp h).1.trans (opField_mkWord ..).symm

/-! ### Decoding -/

/-- A word with a command's opcode decodes by that command's row: the must-be-zero bits are those of the row's mask, and
the operands are the fields. -/
theorem decode_of_opcode {w : CmdWord} {i : Instr} (h : opField w = opcodeOf i) :
    decode w = guardUnused (decide (MatchesRow w i)) (withFields (aField w) (bField w) (immField w) i) := by
  cases i <;>
    simp [decode, h, opcodeOf, withFields, unusedZero, matchesRow_iff, aBits, bBits, immBits, and_254_eq_zero_iff,
      Bool.and_assoc, Bool.and_comm, Bool.and_left_comm]

/-- The opcodes that 30_encoding.md R96 reserves. -/
def ReservedOp (op : BitVec 8) : Prop :=
  (0x04 ≤ op.toNat ∧ op.toNat ≤ 0x07) ∨ (0x0B ≤ op.toNat ∧ op.toNat ≤ 0x0F) ∨
    (0x17 ≤ op.toNat ∧ op.toNat ≤ 0x1F) ∨ (0x22 ≤ op.toNat ∧ op.toNat ≤ 0x27) ∨
    (0x2B ≤ op.toNat ∧ op.toNat ≤ 0x2F) ∨ (0x33 ≤ op.toNat ∧ op.toNat ≤ 0x3F) ∨
    (0x41 ≤ op.toNat ∧ op.toNat ≤ 0x47) ∨ (0x49 ≤ op.toNat ∧ op.toNat ≤ 0x4F) ∨ 0x54 ≤ op.toNat

/-- An opcode is reserved or a command's. -/
theorem reservedOp_or_opcodeOf (op : BitVec 8) : ReservedOp op ∨ ∃ i, op = opcodeOf i := by
  have table : ∀ op : BitVec 8, ReservedOp op ∨ ∃ i ∈ rowCommands, op = opcodeOf i := by
    unfold ReservedOp
    decide
  exact (table op).imp_right fun ⟨i, _, hi⟩ => ⟨i, hi⟩

theorem decode_of_reservedOp {w : CmdWord} (h : ReservedOp (opField w)) : decode w = .error .reservedOpcode := by
  unfold ReservedOp at h
  unfold decode
  split
  case h_29 => rfl
  all_goals omega

/-- The two ways a word can decode: its opcode is reserved, or it is checked against the row of its opcode. -/
theorem decode_cases (w : CmdWord) :
    decode w = .error .reservedOpcode ∨
      ∃ i, opField w = opcodeOf i ∧
        decode w = guardUnused (decide (MatchesRow w i)) (withFields (aField w) (bField w) (immField w) i) :=
  (reservedOp_or_opcodeOf (opField w)).imp decode_of_reservedOp fun ⟨i, hi⟩ => ⟨i, hi, decode_of_opcode hi⟩

/-- A word that matches a command's row is that command with the operands of its fields. -/
theorem decode_of_matchesRow {w : CmdWord} {i : Instr} (h : MatchesRow w i) :
    decode w = .ok (withFields (aField w) (bField w) (immField w) i) := by
  rw [decode_of_opcode (matchesRow_iff.mp h).1, decide_eq_true h]
  rfl

/-- A word that decodes matches the row of the command it was read as. -/
theorem matchesRow_of_decode_ok {w : CmdWord} {j : Instr} (h : decode w = .ok j) :
    ∃ i, MatchesRow w i ∧ withFields (aField w) (bField w) (immField w) i = j := by
  rcases decode_cases w with he | ⟨i, -, hi⟩
  · exact nomatch he.symm.trans h
  · obtain ⟨hrow, hj⟩ := guardUnused_ok (hi.symm.trans h)
    exact ⟨i, of_decide_eq_true hrow, hj⟩

theorem matchesRow_encode (i : Instr) : MatchesRow (encode i) i := by
  obtain ⟨hop, ha, hb, hz, himm⟩ := Laws.Fields.of_encode i
  rw [matchesRow_iff, hop, ha, hb, hz, himm]
  exact ⟨rfl, aOperand_fit .., bOperand_fit .., rfl, immOperand_fit ..⟩

theorem encode_withFields {w : CmdWord} {i : Instr} (h : MatchesRow w i) :
    encode (withFields (aField w) (bField w) (immField w) i) = w := by
  obtain ⟨hop, ha, hb, hz, himm⟩ := matchesRow_iff.mp h
  exact encode_of_fields hz (hop.trans (opcodeOf_withFields ..).symm) (aOperand_withFields _ _ ha).symm
    (bOperand_withFields _ _ hb).symm (immOperand_withFields _ _ himm).symm

/-- Settles O1: a command's word matches its row, and its fields are the command's operands. -/
theorem decodeOfEncode : Obligations.DecodeOfEncode := by
  intro i
  obtain ⟨-, ha, hb, -, himm⟩ := Laws.Fields.of_encode i
  rw [decode_of_matchesRow (matchesRow_encode i), ha, hb, himm, withFields_operands]

/-- Settles O2: the row fixes every bit that is no operand. -/
theorem encodeOfDecode : Obligations.EncodeOfDecode := by
  intro w j h
  obtain ⟨i, hrow, rfl⟩ := matchesRow_of_decode_ok h
  exact encode_withFields hrow

/-- Settles O3: a word decodes by the row it matches, and the opcode tells the rows apart. -/
theorem decodeSelectsOneRow : Obligations.DecodeSelectsOneRow := by
  intro w
  refine ⟨⟨?_, ?_⟩, fun r hr q hq hwr hwq => ?_⟩
  · rintro ⟨j, hj⟩
    obtain ⟨i, hrow, -⟩ := matchesRow_of_decode_ok hj
    exact ⟨rowOfCommand i, rowOfCommand_mem i, hrow⟩
  · rintro ⟨r, hr, hw⟩
    obtain ⟨i, rfl⟩ := exists_rowOfCommand hr
    exact ⟨_, decode_of_matchesRow hw⟩
  · exact row_eq_of_opField_eq hr hq ((opField_of_matches hr hwr).symm.trans (opField_of_matches hq hwq))

/-- Settles O4: the eight words are those of their commands; of the two others one breaks CPREF's row and one has a
reserved opcode. -/
theorem sampleWordsDecode : Obligations.SampleWordsDecode := by
  have word {w : CmdWord} {i : Instr} (h : encode i = w) : decode w = .ok i := h ▸ decodeOfEncode i
  refine ⟨word ?_, word ?_, word ?_, word ?_, word ?_, word ?_, word ?_, word ?_, ?_, ?_⟩
  case refine_9 => rw [decode_of_opcode (i := .cpref) (by decide)]; decide
  case refine_10 => exact decode_of_reservedOp (.inl (by decide))
  all_goals decide

/-! ### Illegal words and operands (60_exceptions.md R263) -/

/-- Settles O5: a reserved opcode does not decode, and a step rejects the word. -/
theorem reservedOpcodesFault : Obligations.ReservedOpcodesFault := by
  intro s w rest hin hop
  exact (Machine.stepRunsDecodedCommand s w rest hin).2 _ (decode_of_reservedOp hop)

/-- Settles O6: of the three ways a command can end, the third is for well-formed commands only. -/
theorem illegalOperandsFault : Obligations.IllegalOperandsFault := by
  intro i s hill
  rcases Machine.exec_cases i s with ⟨herr, -, hrefused⟩ | ⟨herr, -, hillegal⟩ | ⟨-, hlegal, -⟩
  · rw [hrefused, herr]; rfl
  · rw [hillegal, herr]; rfl
  · exact nomatch hill.symm.trans hlegal

end Sys2Proof
end

section
/-! PROOFS. The commands that write or read bits, outside their precondition: in another MODE, and with the divisor unset
(40_bitio.md R127 to R131; 41_golomb.md R141 to R144; 42_runlength.md R161 to R163; 46_container.md R225 to R236). -/

namespace Sys2Proof.Machine

/-- Settles O30: MODE is the first thing that the body of such a command looks at. -/
theorem wrongModeFaults : Obligations.WrongModeFaults := fun _ _ _ he hwf hneed hne =>
  exec_raise he hwf (bodyOf_of_mode_ne hneed hne)

/-! ### The MODE of a body -/

section InMode
variable {m : Mode} {s : State}

/-- In the MODE it needs, a body is what follows its test of MODE. -/
theorem requireMode_bind_of_eq (hm : s.regs.mode = m) (x : Action Word) : (requireMode m >>= fun _ => x) s = x s :=
  bind_of_ok (requireMode_of_eq hm)

theorem gencBody_of_write (hm : s.regs.mode = .write) (n : Word) :
    gencBody n s = (golombEncode n.toInt >>= fun _ => pure 0#32) s :=
  requireMode_bind_of_eq hm _

theorem gdecBody_of_read (hm : s.regs.mode = .read) : gdecBody s = (golombDecode >>= fun n => pure (tc32 n)) s :=
  requireMode_bind_of_eq hm _

end InMode

/-! ### The divisor -/

section Unset
variable {s : State} (h0 : s.regs.m = 0#8)
include h0

theorem flushPair_unset : flushPair s = .error .invalidState s := by
  unfold flushPair
  rw [bind_getRegs_apply, bind_of_error (golombEncode_unset _ h0)]

/-- What RFLUSH and BCLOSE do with a pending run. -/
theorem flushPending_unset (hrun : s.regs.runCount ≠ 0#32) :
    onlyIf (decide (s.regs.runCount ≠ 0#32)) flushPair s = .error .invalidState s := by
  rw [decide_eq_true hrun, onlyIf_true, flushPair_unset h0]

theorem rpushBody_unset (hm : s.regs.mode = .write) (v : Word) : rpushBody v s = .error .invalidState s := by
  unfold rpushBody
  rw [requireMode_bind_of_eq hm, bind_getRegs_apply, bind_require_apply, if_neg (by simp [h0])]

theorem rflushBody_unset (hm : s.regs.mode = .write) (hrun : s.regs.runCount ≠ 0#32) :
    rflushBody s = .error .invalidState s := by
  unfold rflushBody
  rw [requireMode_bind_of_eq hm, bind_getRegs_apply, bind_of_error (flushPending_unset h0 hrun)]

theorem flushStream_unset (hrun : s.regs.runCount ≠ 0#32) : flushStream s = .error .invalidState s := by
  unfold flushStream
  rw [bind_getRegs_apply, bind_of_error (flushPending_unset h0 hrun)]

theorem rpopBody_unset (hm : s.regs.mode = .read) : rpopBody s = .error .invalidState s := by
  unfold rpopBody
  rw [requireMode_bind_of_eq hm, bind_getRegs_apply, bind_require_apply, if_neg (by simp [h0])]

end Unset

section Bclose
variable {s : State}

/-- In WRITE mode BCLOSE flushes the stream and closes it (40_bitio.md R127). -/
theorem bcloseBody_of_write (hm : s.regs.mode = .write) :
    bcloseBody s = (flushStream >>= fun _ => modifyRegs closedRegs >>= fun _ => pure 0#32) s := by
  unfold bcloseBody
  rw [bind_getRegs_apply, hm]; rfl

/-- In READ mode BCLOSE leaves the source behind and closes the stream (40_bitio.md R127). -/
theorem bcloseBody_of_read (hm : s.regs.mode = .read) :
    bcloseBody s = .ok 0#32 { s with regs := closedRegs s.regs, env := s.env.dropSource } := by
  unfold bcloseBody
  rw [bind_getRegs_apply, hm]; rfl

theorem bcloseBody_of_idle (hm : s.regs.mode = .idle) : bcloseBody s = .error .invalidState s := by
  unfold bcloseBody
  rw [bind_getRegs_apply, hm]; rfl

end Bclose

/-- Settles O38: each command tests the divisor before its first bit. -/
theorem unsetDivisorFaults : Obligations.UnsetDivisorFaults := by
  intro s he h0
  refine ⟨fun hm => ⟨fun n => ?genc, fun v => ?rpush, fun hrun => ?rflush, fun hrun => ?bclose⟩,
    fun hm => ⟨?gdec, ?rpop⟩⟩
  case genc =>
    exact exec_raise (i := .genc n) he rfl ((gencBody_of_write hm n).trans (bind_of_error (golombEncode_unset _ h0)))
  case rpush => exact exec_raise (i := .rpush v) he rfl (rpushBody_unset h0 hm v)
  case rflush => exact exec_raise (i := .rflush) he rfl (rflushBody_unset h0 hm hrun)
  case bclose =>
    exact exec_raise (i := .bclose) he rfl
      ((bcloseBody_of_write hm).trans (bind_of_error (flushStream_unset h0 hrun)))
  case gdec =>
    exact exec_raise (i := .gdec) he rfl ((gdecBody_of_read hm).trans (bind_of_error (golombDecode_unset h0)))
  case rpop => exact exec_raise (i := .rpop) he rfl (rpopBody_unset h0 hm)

end Sys2Proof.Machine
end

section
/-! PROOFS. Opening a stream, writing bits to it and closing it (40_bitio.md R125 to R129). -/

namespace Sys2Proof.Machine

/-! ### Opening (40_bitio.md R125, R126) -/

/-- The state once the environment has answered an `EnvOpen`. -/
def State.openAnswered (s : State) : State :=
  { s with env := { s.env with openAnswers := s.env.openAnswers.tail } }

section Open
variable {m : Mode} {s : State}

theorem envOpen_granted (h : s.env.openAnswers.head? ≠ some .ioerr) : envOpen s = .ok () s.openAnswered := by
  unfold envOpen State.openAnswered
  cases ha : s.env.openAnswers with
  | nil =>
    have hsame : s = { s with env := { s.env with openAnswers := [] } } := by rw [← ha]
    exact congrArg _ hsame
  | cons a rest =>
    cases a with
    | ok => rfl
    | ioerr => exact absurd (by rw [ha]; rfl) h

theorem envOpen_refused (h : s.env.openAnswers.head? = some .ioerr) : envOpen s = .error .ioError s.openAnswered := by
  obtain ⟨rest, ha⟩ := List.head?_eq_some_iff.mp h
  unfold envOpen State.openAnswered
  rw [ha]; rfl

theorem openStream_granted (hm : s.regs.mode = .idle) (h : s.env.openAnswers.head? ≠ some .ioerr) :
    openStream m s = .ok 0#32 { s.openAnswered with regs := openedRegs m s.regs } :=
  (requireMode_bind_of_eq hm _).trans (bind_of_ok (envOpen_granted h))

theorem openStream_refused (hm : s.regs.mode = .idle) (h : s.env.openAnswers.head? = some .ioerr) :
    openStream m s = .error .ioError s.openAnswered :=
  (requireMode_bind_of_eq hm _).trans (bind_of_error (envOpen_refused h))

theorem openStream_of_open (hm : s.regs.mode ≠ .idle) : openStream m s = .error .invalidState s :=
  bind_of_error (requireMode_of_ne hm)

end Open

/-- Settles O26: BOPENW and BOPENR are one procedure, which ends in three ways. (`openStream` names the procedure.) -/
theorem openStream_holds : Obligations.OpenStream := by
  intro s he
  refine ⟨fun hm hok => ⟨?_, ?_⟩, fun hm hrefused => ⟨?_, ?_⟩, fun hm => ⟨?_, ?_⟩⟩
  · exact exec_ok (i := .bopenw) he rfl (openStream_granted hm hok)
  · exact exec_ok (i := .bopenr) he rfl (openStream_granted hm hok)
  · exact exec_raise (i := .bopenw) he rfl (openStream_refused hm hrefused)
  · exact exec_raise (i := .bopenr) he rfl (openStream_refused hm hrefused)
  · exact exec_raise (i := .bopenw) he rfl (openStream_of_open hm)
  · exact exec_raise (i := .bopenr) he rfl (openStream_of_open hm)

/-! ### Writing (40_bitio.md R128, R129) -/

theorem legalCount_of_le {n : BitVec 8} (h : n.toNat ≤ 32) : legalCount n = true := decide_eq_true h

section Put
variable {s : State} (he : s.regs.err = false) (hm : s.regs.mode = .write) (hr : sinkReady s = true)
  (hb : bufferHolds s.regs 7 = true)
include he hm hr hb

theorem exec_putbit_appends (b : BitVec 1) :
    ∃ t, exec (.putbit b) s = .next (t.respond 0#8 0#32) ∧ AppendsBits s t [b.getLsbD 0] := by
  obtain ⟨t, hput, happ⟩ := putBit_appends hr hb (b.getLsbD 0)
  exact ⟨t, exec_ok (i := .putbit b) he rfl ((requireMode_bind_of_eq hm _).trans (bind_of_ok hput)), happ⟩

theorem exec_putbits_appends {n : BitVec 8} (hn : n.toNat ≤ 32) (v : Word) :
    ∃ t, exec (.putbits n v) s = .next (t.respond 0#8 0#32) ∧ AppendsBits s t (bitsOf v.toNat n.toNat) := by
  obtain ⟨t, hput, happ⟩ := putBits_appends v.toNat n.toNat hr hb
  exact ⟨t, exec_ok (i := .putbits n v) he (legalCount_of_le hn)
    ((requireMode_bind_of_eq hm _).trans (bind_of_ok hput)), happ⟩

end Put

/-- Settles O27. -/
theorem putBitsAppend : Obligations.PutBitsAppend := fun _ he hm hr hb =>
  ⟨exec_putbit_appends he hm hr hb, fun _ v hn => exec_putbits_appends he hm hr hb hn v⟩

/-! ### Closing (40_bitio.md R127, 20_memory.md R67) -/

/-- The state with no run pending. -/
def State.clearRun (s : State) : State := { s with regs := { s.regs with runCount := 0#32 } }

/-- The state after SINK took the bytes `out`. -/
def State.delivered (s : State) (out : List Byte) : State :=
  { s with env := { s.env with
      sinkOut := s.env.sinkOut ++ out
      sinkAnswers := s.env.sinkAnswers.drop out.length } }

/-- The state after SINK took the bytes `out` and the stream was closed. -/
def State.closedAfter (s : State) (out : List Byte) : State :=
  { s.delivered out with regs := closedRegs s.regs }

theorem delivered_nil (s : State) : s.delivered [] = s := by
  unfold State.delivered
  rw [List.append_nil]; rfl

section Close
variable {s : State} (hr : sinkReady s = true) (hb : bufferHolds s.regs 7 = true)
include hr hb

/-- The flush of the run, pending or not, appends its pair and leaves no run. -/
theorem flushPending_appends (hm : s.regs.runCount = 0#32 ∨ s.regs.m ≠ 0#8) :
    ∃ t, onlyIf (decide (s.regs.runCount ≠ 0#32)) flushPair s = .ok () t.clearRun ∧
      AppendsBits s t (pendingPair s.regs) := by
  unfold pendingPair
  by_cases hrun : s.regs.runCount = 0#32
  · have hclear : s.clearRun = s := by unfold State.clearRun; rw [← hrun]
    rw [decide_eq_false (not_not_intro hrun), onlyIf_false, if_pos hrun]
    exact ⟨s, congrArg _ hclear.symm, appendsBits_refl hb⟩
  · rw [decide_eq_true hrun, onlyIf_true, if_neg hrun]
    exact flushPair_appends (hm.resolve_left hrun) hr hb

/-- The flush of the bit buffer hands over one byte, the pending bits and zeros after them, or nothing. -/
theorem flushBuffer_pads : ∃ last pad,
    onlyIf (decide (s.regs.bitcnt ≠ 0#4)) (sinkPut s.regs.bitbuf) s = .ok () (s.delivered last) ∧
    pad < 8 ∧ bytesBits (s.env.sinkOut ++ last) = writtenBits s ++ List.replicate pad false := by
  by_cases h0 : s.regs.bitcnt = 0#4
  · refine ⟨[], 0, ?_, by decide, ?_⟩
    · rw [decide_eq_false (not_not_intro h0), onlyIf_false, delivered_nil]; rfl
    · simp [writtenBits, bufferedBits, h0]
  · have hpos : 0 < s.regs.bitcnt.toNat := Nat.pos_of_ne_zero fun h => h0 (BitVec.eq_of_toNat_eq h)
    refine ⟨[s.regs.bitbuf], 8 - s.regs.bitcnt.toNat, ?_, by omega, ?_⟩
    · rw [decide_eq_true h0, onlyIf_true]
      exact sinkPut_ready hr _
    · rw [bytesBits_append, bytesBits_cons, bytesBits_nil, List.append_nil,
        byteBits_padded (bufferHolds_mono (by decide) hb), writtenBits, List.append_assoc]

/-- What BCLOSE does with a WRITE stream before it closes it: SINK gets all bits, those of the run and up to 7 zeros. -/
theorem flushStream_flushes (hm : s.regs.runCount = 0#32 ∨ s.regs.m ≠ 0#8) :
    ∃ t out pad, flushStream s = .ok () t ∧ { t with regs := closedRegs t.regs } = s.closedAfter out ∧ pad < 8 ∧
      bytesBits (s.env.sinkOut ++ out) = writtenBits s ++ pendingPair s.regs ++ List.replicate pad false := by
  obtain ⟨t, hflush, happ⟩ := flushPending_appends hr hb hm
  have hready := appendsBits_sinkReady happ hr
  obtain ⟨hwritten, hbuffer, out, hout, ht⟩ := happ
  obtain ⟨last, pad, hlast, hpad, hbits⟩ := flushBuffer_pads (s := t.clearRun) hready hbuffer
  refine ⟨t.clearRun.delivered last, out ++ last, pad, ?_, ?_, hpad, ?_⟩
  · unfold flushStream
    rw [bind_getRegs_apply, bind_of_ok hflush, bind_getRegs_apply]
    exact hlast
  · rw [ht]
    simp only [State.closedAfter, State.delivered, State.clearRun, closedRegs, hout, List.append_assoc, List.drop_drop,
      List.length_append]
  · rw [← List.append_assoc, ← hout, ← hwritten]
    exact hbits

end Close

theorem exec_bclose_write {s : State} (he : s.regs.err = false) (hw : s.regs.mode = .write) (hr : sinkReady s = true)
    (hb : bufferHolds s.regs 7 = true) (hm : s.regs.runCount = 0#32 ∨ s.regs.m ≠ 0#8) :
    ∃ out pad, exec .bclose s = .next ((s.closedAfter out).respond 0#8 0#32) ∧ pad < 8 ∧
      bytesBits (s.env.sinkOut ++ out) = writtenBits s ++ pendingPair s.regs ++ List.replicate pad false := by
  obtain ⟨t, out, pad, hflush, hclosed, hpad, hbits⟩ := flushStream_flushes hr hb hm
  refine ⟨out, pad, exec_ok (i := .bclose) he rfl ?_, hpad, hbits⟩
  rw [← hclosed]
  exact (bcloseBody_of_write hw).trans (bind_of_ok hflush)

/-- With no bit pending and no run, the bytes that BCLOSE hands over would be padding alone, so there are none. -/
theorem closing_bytes_eq_nil {s : State} {out : List Byte} {pad : Nat} (hpad : pad < 8)
    (hbits : bytesBits (s.env.sinkOut ++ out) = writtenBits s ++ pendingPair s.regs ++ List.replicate pad false)
    (h0 : s.regs.bitcnt = 0#4) (hrun : s.regs.runCount = 0#32) : out = [] := by
  have hlen := congrArg List.length hbits
  simp only [bytesBits_append, writtenBits, bufferedBits, h0, pendingPair, hrun, if_true, List.length_append,
    bytesBits_length, List.length_replicate, BitVec.toNat_zero, List.take_zero, List.length_nil] at hlen
  exact List.length_eq_zero_iff.mp (by omega)

theorem dropSource_eq (e : Env) :
    e.dropSource = { e with source := e.nextSources.headD [], nextSources := e.nextSources.tail } := by
  unfold Env.dropSource
  cases e.nextSources <;> rfl

/-- Settles O31: one case for each MODE. -/
theorem bcloseClosesStream : Obligations.BcloseClosesStream := by
  intro s he
  refine ⟨fun hw hr hb hm => ?write, fun hm => ?read, fun hm => ?idle⟩
  case write =>
    obtain ⟨out, pad, hexec, hpad, hbits⟩ := exec_bclose_write he hw hr hb hm
    refine ⟨_, pad, hexec, hpad, hbits, fun h0 hrun => ?_, ?_⟩
    · rw [closing_bytes_eq_nil hpad hbits h0 hrun]
      exact List.append_nil _
    · rw [respond_env]
      simp only [State.closedAfter, State.delivered, List.length_append, Nat.add_sub_cancel_left]
      rfl
  case read =>
    rw [← dropSource_eq]
    exact exec_ok (i := .bclose) he rfl (bcloseBody_of_read hm)
  case idle => exact exec_raise (i := .bclose) he rfl (bcloseBody_of_idle hm)

end Sys2Proof.Machine
end

section
/-! PROOFS. Reading bits, and reading past the end of the source (40_bitio.md R123, R124, R130, R131; 60_exceptions.md R267,
R270). -/

namespace Sys2Proof.Machine

/-! ### Reading (40_bitio.md R130, R131) -/

section Get
variable {s : State} {bs rest : List Bool} (he : s.regs.err = false) (hm : s.regs.mode = .read)
  (hb : bufferHolds s.regs 8 = true) (hun : unreadBits s = bs ++ rest)
include he hm hb hun

theorem exec_getbit_consumes (hlen : bs.length = 1) :
    ∃ t, exec .getbit s = .next (t.respond 0#8 (BitVec.ofNat 32 (ofBits bs))) ∧ ConsumesBits s t bs := by
  obtain ⟨b, rfl⟩ := List.length_eq_one_iff.mp hlen
  obtain ⟨t, hget, hc⟩ := getBit_consumes hb hun
  have hnum : ofBits [b] = b.toNat := by simp [ofBits]
  rw [hnum]
  exact ⟨t, exec_ok (i := .getbit) he rfl ((requireMode_bind_of_eq hm _).trans (bind_of_ok hget)), hc⟩

theorem exec_getbits_consumes {n : BitVec 8} (hn : n.toNat ≤ 32) (hlen : bs.length = n.toNat) :
    ∃ t, exec (.getbits n) s = .next (t.respond 0#8 (BitVec.ofNat 32 (ofBits bs))) ∧ ConsumesBits s t bs := by
  obtain ⟨t, hget, hc⟩ := getBits_consumes hb hun
  rw [hlen] at hget
  exact ⟨t, exec_ok (i := .getbits n) he (legalCount_of_le hn)
    ((requireMode_bind_of_eq hm _).trans (bind_of_ok hget)), hc⟩

end Get

/-- Settles O28. -/
theorem getBitsConsume : Obligations.GetBitsConsume := fun _ _ _ he hm hb hun =>
  ⟨exec_getbit_consumes he hm hb hun, fun _ hn hlen => exec_getbits_consumes he hm hb hun hn hlen⟩

/-! ### The reads of a pair and of an intra frame (42_runlength.md R163, 46_container.md R236) -/

section Reads
variable {s : State}

theorem fits32_toInt (v : Word) : fits32 v.toInt = true := by
  have hlo := BitVec.le_toInt v
  have hhi := BitVec.toInt_lt (x := v)
  exact decide_eq_true ⟨by omega, by omega⟩

/-- Where the two codewords of a pair cannot be read, the pair cannot: its count is checked after both. -/
theorem readPair_of_error {u : State} {c : Cause} (h : (golombDecode >>= fun _ => golombDecode) s = .error c u) :
    readPair s = .error c u := by
  unfold readPair
  rcases bind_error_iff.mp h with hfirst | ⟨_, t, hfirst, hsecond⟩
  · exact bind_of_error hfirst
  · rw [bind_of_ok hfirst]
    exact bind_of_error hsecond

/-- Two codewords in a row are read back. -/
theorem golombDecode_twice {k x : Word} {rest : List Bool} (hb : bufferHolds s.regs 8 = true) (hm : s.regs.m ≠ 0#8)
    (hun : unreadBits s = codeword s.regs.m.toNat k.toInt ++ codeword s.regs.m.toNat x.toInt ++ rest) :
    ∃ n t, (golombDecode >>= fun _ => golombDecode) s = .ok n t ∧ unreadBits t = rest := by
  rw [List.append_assoc] at hun
  obtain ⟨t, hfirst, hc⟩ := golombDecode_consumes (fits32_toInt k) hm hb hun
  have hun' := consumesBits_rest hc hun
  rw [← consumesBits_m hc] at hm hun'
  obtain ⟨u, hsecond, hc'⟩ := golombDecode_consumes (fits32_toInt x) hm hc.2.1 hun'
  exact ⟨_, u, (bind_of_ok hfirst).trans hsecond, consumesBits_rest hc' hun'⟩

/-- An intra frame whose coding raises raises the same, with FRAME_IDX as it was (60_exceptions.md R267). -/
theorem codeFrame_intra_error {u : State} {c : Cause} {intra predicted : Action Unit} (hi : intraNext s.regs = true)
    (h : intra s = .error c u) : codeFrame intra predicted s = .error c u := by
  unfold codeFrame typedFrame
  rw [bind_getRegs_apply, frameIsIntra_eq, hi]
  exact bind_of_error (bind_of_error h)

end Reads

/-! ### Past the end: bits (40_bitio.md R123, R124) -/

theorem readsExactly_getBit : ReadsExactly getBit 1 := by
  intro s bs rest hb hlen hun
  obtain ⟨b, rfl⟩ := List.length_eq_one_iff.mp hlen
  exact ⟨b, getBit_consumes hb hun⟩

section PastEnd
variable {s : State} (hb : bufferHolds s.regs 8 = true)
include hb

theorem getBit_truncated (hun : unreadBits s = []) : getBit s = .error (stopCause s.env.source) (pastEnd s) :=
  readsExactly_truncated hb readsExactly_getBit (fun _ _ htail => truncates_getBit htail) (by rw [hun]; decide)

theorem getBits_truncated {n : Nat} (hlt : (unreadBits s).length < n) :
    getBits n s = .error (stopCause s.env.source) (pastEnd s) :=
  readsExactly_truncated hb (readsExactly_getBits n) (fun _ _ htail => truncates_getBits htail n) hlt

/-! ### Past the end: a pair (42_runlength.md R163) -/

theorem readPair_truncated {k x : Word} {missing : List Bool} (hm : s.regs.m ≠ 0#8) (hne : missing ≠ [])
    (hun : unreadBits s ++ missing = codeword s.regs.m.toNat k.toInt ++ codeword s.regs.m.toNat x.toInt) :
    readPair s = .error (stopCause s.env.source) (pastEnd s) := by
  obtain ⟨v, herror, hv⟩ := truncated (x := golombDecode >>= fun _ => golombDecode) true hb hun hne
    (fun _ _ htail => truncates_bind (truncates_golombDecode htail) fun _ => truncates_golombDecode htail)
    (fun u rest hu h => golombDecode_twice (hu ▸ hb) (hu ▸ hm) (hu ▸ h))
  rw [readPair_of_error herror, hv]; rfl

theorem rpopBody_truncated {k x : Word} {missing : List Bool} (hr : s.regs.mode = .read) (hm : s.regs.m ≠ 0#8)
    (hrun : s.regs.runCount = 0#32) (hne : missing ≠ [])
    (hun : unreadBits s ++ missing = codeword s.regs.m.toNat k.toInt ++ codeword s.regs.m.toNat x.toInt) :
    rpopBody s = .error (stopCause s.env.source) (pastEnd s) := by
  unfold rpopBody
  rw [requireMode_bind_of_eq hr, bind_getRegs_apply, bind_require_apply, if_pos (decide_eq_true hm), decide_eq_true hrun,
    onlyIf_true]
  exact bind_of_error (readPair_truncated hb hm hne hun)

/-! ### Past the end: a header (46_container.md R226) -/

theorem rdhdrBody_truncated (hr : s.regs.mode = .read) (hs : s.regs.sess = .uninit)
    (hlt : (unreadBits s).length < (headerBits s.regs).length) :
    rdhdrBody s = .error (stopCause s.env.source) (pastEnd s) := by
  have hheader : getHeader s.regs s = .error (stopCause s.env.source) (pastEnd s) :=
    readsExactly_truncated hb (readsExactly_getHeader s.regs) (fun _ _ htail => truncates_getHeader htail s.regs) hlt
  unfold rdhdrBody
  rw [requireMode_bind_of_eq hr, bind_requireSess_apply, if_pos hs, bind_getRegs_apply]
  exact bind_of_error hheader

/-! ### Past the end: a frame (46_container.md R236) -/

/-- A frame of which only a part can be read: CUR and the counter of free values are left open. -/
theorem decode_truncated {x : Action Unit} {need missing : List Bool} (hne : missing ≠ [])
    (hun : unreadBits s ++ missing = need)
    (hx : ∀ tail more, sourceBytes tail = [] → Truncates s false tail more x)
    (hrun : ∀ (u : State) (rest : List Bool), u.regs = s.regs → unreadBits u = need ++ rest →
      ∃ t, x u = .ok () t ∧ Taken u t need) :
    ∃ a n, x s = .error (stopCause s.env.source) { pastEnd s with cur := a, draws := n } := by
  obtain ⟨v, herror, hv⟩ := truncated false hb hun hne hx fun u rest hu h => by
    obtain ⟨t, hok, htaken⟩ := hrun u rest hu h
    exact ⟨(), t, hok, taken_unread htaken h⟩
  exact ⟨v.cur, v.draws, herror.trans (congrArg _ hv)⟩

theorem decodeIntra_truncated {ls : List Int} {missing : List Bool} (hc : CodingReady s.regs) (hne : missing ≠ [])
    (hlen : ls.length = s.regs.height.toNat * s.regs.width.toNat * channels s.regs) (hfit : ∀ l ∈ ls, fits32 l = true)
    (hun : unreadBits s ++ missing = codewords s.regs.m.toNat ls) :
    ∃ a n, decodeIntra s = .error (stopCause s.env.source) { pastEnd s with cur := a, draws := n } := by
  refine decode_truncated hb hne hun (fun _ _ htail => truncates_decodeIntra htail) fun u rest hu h => ?_
  rw [← hu] at hb hc hlen h ⊢
  obtain ⟨t, hok, htaken, -⟩ := decodeIntra_spec hc hb hlen hfit h
  exact ⟨t, hok, htaken⟩

theorem decodePred_truncated {vec : Nat → Nat → Int × Int} {res : Nat → Nat → List Int} {missing : List Bool}
    (hc : CodingReady s.regs) (hne : missing ≠ []) (hfine : ∀ b ∈ blockOrder s.regs, BlockFine s.regs vec res b)
    (hun : unreadBits s ++ missing = codewords s.regs.m.toNat (predictedNumbers s.regs vec res)) :
    ∃ a n, decodePred s = .error (stopCause s.env.source) { pastEnd s with cur := a, draws := n } := by
  refine decode_truncated hb hne hun (fun _ _ htail => truncates_decodePred htail) fun u rest hu h => ?_
  rw [← hu] at hb hc hfine h ⊢
  obtain ⟨t, hok, htaken, -⟩ := decodePred_spec hc hb vec res hfine h
  exact ⟨t, hok, htaken⟩

end PastEnd

/-- Settles O29: each command raises what its read raises on the source that stopped, in the state `pastEnd`. -/
theorem readPastEndFaults : Obligations.ReadPastEndFaults := by
  rintro s _ _ he hr hb rfl rfl
  refine ⟨fun hun => ?getbit, fun n hn hlt => ?getbits, fun hm q r sign missing hrem hne hun => ?gdec,
    fun hm hrun k x missing hne hun => ?rpop, fun hs hlt => ?rdhdr, fun hs hlt hc =>
      ⟨fun hi ls missing hne hlen hfit hun => ?intra, fun hi vec res missing hne hfine hun => ?predicted⟩⟩
  case getbit =>
    exact exec_raise (i := .getbit) he rfl ((requireMode_bind_of_eq hr _).trans (bind_of_error (getBit_truncated hb hun)))
  case getbits =>
    exact exec_raise (i := .getbits n) he (legalCount_of_le hn)
      ((requireMode_bind_of_eq hr _).trans (bind_of_error (getBits_truncated hb hlt)))
  case gdec =>
    exact exec_raise (i := .gdec) he rfl
      ((gdecBody_of_read hr).trans (bind_of_error (golombDecode_truncated hb hm hrem hne hun)))
  case rpop => exact exec_raise (i := .rpop) he rfl (rpopBody_truncated hb hr hm hrun hne hun)
  case rdhdr => exact exec_raise (i := .rdhdr) he rfl (rdhdrBody_truncated hb hr hs hlt)
  case intra =>
    obtain ⟨a, d, herror⟩ := decodeIntra_truncated hb hc hne hlen hfit hun
    exact ⟨a, d, exec_raise (i := .decf) he rfl
      ((decfBody_eq hr hs hlt).trans (codeFrame_intra_error hi herror))⟩
  case predicted =>
    obtain ⟨a, d, herror⟩ := decodePred_truncated hb hc hne hfine hun
    exact ⟨a, d, exec_decf_predicted_raise he hr hs hlt hi herror⟩

end Sys2Proof.Machine
end

section
/-! PROOFS. A byte that SINK refuses (40_bitio.md R121, 60_exceptions.md R260, R267). -/

namespace Sys2Proof.Machine

/-! ### PUTBIT -/

/-- The eighth bit stands in bit 0 of the buffer. -/
theorem setBitTo_zero (v : Byte) (b : BitVec 1) :
    setBitTo v 0 (b.getLsbD 0) = if b = 1#1 then v ||| 1#8 else v &&& 0xFE#8 := by
  rcases BitVec.eq_zero_or_eq_one b with rfl | rfl <;> rfl

theorem sinkPut_refused {s : State} {more : List IoAnswer} (h : s.env.sinkAnswers = .ioerr :: more) (v : Byte) :
    sinkPut v s = .error .ioError { s with env := { s.env with sinkAnswers := more } } := by
  unfold sinkPut
  rw [h]

/-- `PutBit` with the eighth bit on a SINK that refuses the byte: the buffer is full. -/
theorem putBit_refused {s : State} {more : List IoAnswer} (h7 : s.regs.bitcnt = 7#4)
    (h : s.env.sinkAnswers = .ioerr :: more) (b : Bool) :
    putBit b s = .error .ioError { s with
      regs := { s.regs with bitcnt := 8#4, bitbuf := setBitTo s.regs.bitbuf 0 b }
      env := { s.env with sinkAnswers := more } } := by
  unfold putBit
  rw [bind_getRegs_apply, bind_modifyRegs_apply, h7, decide_eq_true (by decide), onlyIf_true]
  exact bind_of_error (sinkPut_refused (by exact h) _)

/-! ### Every writing command -/

/-- A command that ends without a fault on record completed its body. -/
theorem body_ok_of_exec {i : Instr} {s t : State} (hexec : exec i s = .next t) (he : s.regs.err = false)
    (ht : t.regs.err = false) :
    i.wellFormed s.par = true ∧ ∃ v u, bodyOf i s = .ok v u ∧ t = u.respond 0#8 v := by
  rcases exec_cases i s with ⟨herr, -, -⟩ | ⟨-, -, hend⟩ | ⟨-, hwf, hend⟩
  · exact nomatch herr.symm.trans he
  · obtain rfl : takeFault _ _ s = t := by rw [hexec] at hend; injection hend with h; exact h.symm
    exact nomatch ht
  · obtain rfl : runBody _ _ s = t := by rw [hexec] at hend; injection hend with h; exact h.symm
    rcases runBody_cases (opcodeOf i) (bodyOf i) s with ⟨v, u, hok, hrun⟩ | ⟨c, u, -, hrun⟩
    · exact ⟨hwf, v, u, hok, hrun⟩
    · rw [hrun] at ht
      exact nomatch ht

/-- On a SINK that refuses the byte after `k`, a run that would hand over more than `k` bytes ends in IoError there. -/
theorem refuses_of_short {α : Type} {more : List IoAnswer} {x : Action α} {s u : State} {a : α} {out : List Byte} {k : Nat}
    (hx : ∀ total, Refuses more total x) (hrun : x { s with env := { s.env with sinkAnswers := [] } } = .ok a u)
    (hout : u.env.sinkOut = s.env.sinkOut ++ out) (hk : k < out.length)
    (hans : s.env.sinkAnswers = List.replicate k .ok ++ .ioerr :: more) :
    ∃ v, x s = .error .ioError v ∧ v.env.sinkOut = s.env.sinkOut ++ out.take k ∧ v.env.sinkAnswers = more := by
  obtain ⟨-, hcompare⟩ := hx (s.env.sinkOut.length + k)
  rcases hcompare s _ a u ⟨k, hans, rfl, rfl⟩ hrun with ⟨t, -, j, -, hlen, htu⟩ | ⟨v, herror, hprefix, hlen, hmore⟩
  · -- all bytes were handed over, which is more than SINK takes
    have hsame : u.env.sinkOut = t.env.sinkOut := by rw [htu]
    rw [← hsame, hout, List.length_append] at hlen
    omega
  · refine ⟨v, herror, ?_, hmore⟩
    rw [List.prefix_iff_eq_take.mp hprefix, hlen, hout, List.take_length_add_append]

/-- Settles O32: PUTBIT in full, the others by comparing the run with the one on a SINK that takes every byte. -/
theorem sinkFailureFaults : Obligations.SinkFailureFaults := by
  refine ⟨fun s b more he hm h7 hans => ?_, fun i s t out k more hi he hexec ht hout hk hans => ?_⟩
  · rw [← setBitTo_zero]
    exact exec_raise (i := .putbit b) he rfl
      ((requireMode_bind_of_eq hm _).trans (bind_of_error (putBit_refused h7 hans _)))
  · obtain ⟨hwf, v, u, hok, rfl⟩ := body_ok_of_exec hexec he ht
    obtain ⟨w, herror, hsink, hmore⟩ := refuses_of_short (fun _ => refuses_bodyOf hi) hok hout hk hans
    exact ⟨w, exec_raise he hwf herror, hsink, hmore⟩

end Sys2Proof.Machine
end

section
/-! PROOFS. What a session writes with PUTBITS another reads with GETBITS (40_bitio.md R132). -/

namespace Sys2Proof.Machine

/-! ### Sequences of commands -/

theorem execAll_cons {i : Instr} {is : List Instr} {s t : State} (h : exec i s = .next t) :
    execAll (i :: is) s = execAll is t := by
  rw [execAll, h]

theorem execAll_append {is js : List Instr} {s t : State} (h : execAll is s = .next t) :
    execAll (is ++ js) s = execAll js t := by
  induction is generalizing s with
  | nil => injection h with h; rw [h]; rfl
  | cons i is ih =>
    cases hi : exec i s with
    | next u =>
      rw [execAll_cons hi] at h
      rw [List.cons_append, execAll_cons hi, ih h]
    | fault r => rw [execAll, hi] at h; exact nomatch h
    | refused r => rw [execAll, hi] at h; exact nomatch h

/-- The bits of a list of fields, each a width and a value. -/
def fieldBits (fields : List (BitVec 8 × Word)) : List Bool :=
  fields.flatMap fun f => bitsOf f.2.toNat f.1.toNat

theorem fieldBits_cons (f : BitVec 8 × Word) (fields : List (BitVec 8 × Word)) :
    fieldBits (f :: fields) = bitsOf f.2.toNat f.1.toNat ++ fieldBits fields := rfl

/-- A fresh session has an empty bit buffer. -/
theorem bufferHolds_openedRegs (m : Mode) (g : Regs) (most : Nat) : bufferHolds (openedRegs m g) most = true :=
  bufferHolds_iff.mpr ⟨Nat.zero_le most, rfl⟩

/-! ### The writing session -/

/-- An open WRITE stream with no run pending, whose bits so far are `bs`, on a SINK that takes every byte. -/
structure Writing (s : State) (bs : List Bool) : Prop where
  err : s.regs.err = false
  mode : s.regs.mode = .write
  run : s.regs.runCount = 0#32
  ready : sinkReady s = true
  buffer : bufferHolds s.regs 7 = true
  bits : writtenBits s = bs

theorem Writing.of_appends {s t : State} {bs cs : List Bool} (h : Writing s bs) (happ : AppendsBits s t cs) (st : BitVec 8)
    (v : Word) : Writing (t.respond st v) (bs ++ cs) := by
  have hready := appendsBits_sinkReady happ h.ready
  obtain ⟨hwritten, hbuffer, out, -, ht⟩ := happ
  have hregs := congrArg State.regs ht
  exact {
    err := (congrArg Regs.err hregs).trans h.err
    mode := (congrArg Regs.mode hregs).trans h.mode
    run := (congrArg Regs.runCount hregs).trans h.run
    ready := hready
    buffer := hbuffer
    bits := hwritten.trans (congrArg (· ++ cs) h.bits) }

theorem exec_bopenw_writing {s : State} (he : s.regs.err = false) (hm : s.regs.mode = .idle)
    (hopen : s.env.openAnswers = []) (hr : sinkReady s = true) (hout : s.env.sinkOut = []) :
    ∃ t, exec .bopenw s = .next t ∧ Writing t [] := by
  have hgranted : s.env.openAnswers.head? ≠ some .ioerr := by rw [hopen]; exact nofun
  refine ⟨_, exec_ok (i := .bopenw) he rfl (openStream_granted hm hgranted), he, rfl, rfl, hr,
    bufferHolds_openedRegs .write s.regs 7, ?_⟩
  show bytesBits s.env.sinkOut ++ _ = _
  rw [hout]; rfl

theorem execAll_putbits {fields : List (BitVec 8 × Word)} {s : State} {bs : List Bool}
    (hfields : ∀ f ∈ fields, f.1.toNat ≤ 32) (h : Writing s bs) :
    ∃ t, execAll (fields.map fun f => .putbits f.1 f.2) s = .next t ∧ Writing t (bs ++ fieldBits fields) := by
  induction fields generalizing s bs with
  | nil => exact ⟨s, rfl, (List.append_nil bs).symm ▸ h⟩
  | cons f fields ih =>
    obtain ⟨hf, hfields⟩ := List.forall_mem_cons.mp hfields
    obtain ⟨t, hexec, happ⟩ := exec_putbits_appends h.err h.mode h.ready h.buffer hf f.2
    obtain ⟨u, hrest, hu⟩ := ih hfields (h.of_appends happ 0#8 0#32)
    rw [List.append_assoc, ← fieldBits_cons] at hu
    exact ⟨u, (execAll_cons hexec).trans hrest, hu⟩

theorem exec_bclose_writing {s : State} {bs : List Bool} (h : Writing s bs) :
    ∃ t pad, exec .bclose s = .next t ∧ pad < 8 ∧ bytesBits t.env.sinkOut = bs ++ List.replicate pad false := by
  obtain ⟨out, pad, hexec, hpad, hbits⟩ := exec_bclose_write h.err h.mode h.ready h.buffer (.inl h.run)
  rw [h.bits, pendingPair, if_pos h.run, List.append_nil] at hbits
  exact ⟨_, pad, hexec, hpad, hbits⟩

/-- The bytes of a whole writing session are the bits of its fields and 0 to 7 zero bits. -/
theorem execAll_writing_session {fields : List (BitVec 8 × Word)} {s : State} (hfields : ∀ f ∈ fields, f.1.toNat ≤ 32)
    (he : s.regs.err = false) (hm : s.regs.mode = .idle) (hopen : s.env.openAnswers = []) (hr : sinkReady s = true)
    (hout : s.env.sinkOut = []) :
    ∃ t pad, execAll (.bopenw :: fields.map (fun f => .putbits f.1 f.2) ++ [.bclose]) s = .next t ∧ pad < 8 ∧
      bytesBits t.env.sinkOut = fieldBits fields ++ List.replicate pad false := by
  obtain ⟨s₁, hopened, hwriting⟩ := exec_bopenw_writing he hm hopen hr hout
  obtain ⟨s₂, hput, hwritten⟩ := execAll_putbits hfields hwriting
  obtain ⟨t, pad, hclosed, hpad, hbits⟩ := exec_bclose_writing hwritten
  refine ⟨t, pad, ?_, hpad, hbits⟩
  calc execAll (.bopenw :: fields.map (fun f => .putbits f.1 f.2) ++ [.bclose]) s
      = execAll (fields.map (fun f => .putbits f.1 f.2) ++ [.bclose]) s₁ := execAll_cons hopened
    _ = execAll [.bclose] s₂ := execAll_append hput
    _ = .next t := execAll_cons hclosed

/-! ### The reading session -/

theorem sourceEnds_bytes (bs : List Byte) : sourceEnds (bs.map .byte) = true := by
  induction bs with
  | nil => rfl
  | cons b bs ih => exact ih

/-- An open READ stream on a source of bytes alone, whose bits to come are `bs`. -/
structure Reading (s : State) (bs : List Bool) : Prop where
  err : s.regs.err = false
  mode : s.regs.mode = .read
  buffer : bufferHolds s.regs 8 = true
  bits : unreadBits s = bs
  source : ∃ bytes : List Byte, s.env.source = bytes.map .byte

theorem exec_bopenr_reading {s : State} {bytes : List Byte} (he : s.regs.err = false) (hm : s.regs.mode = .idle)
    (hopen : s.env.openAnswers = []) (hsource : s.env.source = bytes.map .byte) :
    ∃ t, exec .bopenr s = .next t ∧ t.responses = s.responses ++ [0#64] ∧ Reading t (bytesBits bytes) := by
  have hgranted : s.env.openAnswers.head? ≠ some .ioerr := by rw [hopen]; exact nofun
  refine ⟨_, exec_ok (i := .bopenr) he rfl (openStream_granted hm hgranted), rfl, he, rfl,
    bufferHolds_openedRegs .read s.regs 8, ?_, bytes, hsource⟩
  show [] ++ bytesBits (sourceBytes s.env.source) = _
  rw [hsource, sourceBytes_map, List.nil_append]

/-- A GETBITS answers the field that comes next. -/
theorem exec_getbits_reading {s : State} {n : BitVec 8} {v : Word} {rest : List Bool} (hn : n.toNat ≤ 32)
    (h : Reading s (bitsOf v.toNat n.toNat ++ rest)) :
    ∃ t, exec (.getbits n) s = .next t ∧
      t.responses = s.responses ++ [responseWord 0#8 (BitVec.ofNat 32 (v.toNat % 2 ^ n.toNat))] ∧ Reading t rest := by
  obtain ⟨t, hexec, hc⟩ := exec_getbits_consumes h.err h.mode h.buffer h.bits hn (bitsOf_length _ _)
  rw [ofBits_bitsOf] at hexec
  have hrest := consumesBits_rest hc h.bits
  obtain ⟨bytes, hbytes⟩ := h.source
  obtain ⟨-, k, hk⟩ := exec_takesAnswers (i := .getbits n) nofun nofun hexec
  obtain ⟨-, hbuffer, ht⟩ := hc
  have hregs := congrArg State.regs ht
  have hresponses : t.responses = s.responses := by have := congrArg State.responses ht; exact this
  refine ⟨_, hexec, by rw [respond_responses, hresponses], {
    err := (congrArg Regs.err hregs).trans h.err
    mode := (congrArg Regs.mode hregs).trans h.mode
    buffer := hbuffer
    bits := hrest
    source := ⟨bytes.drop k, by rw [hk, hbytes, List.map_drop]⟩ }⟩

theorem execAll_getbits {fields : List (BitVec 8 × Word)} {s : State} {rest : List Bool}
    (hfields : ∀ f ∈ fields, f.1.toNat ≤ 32) (h : Reading s (fieldBits fields ++ rest)) :
    ∃ t, execAll (fields.map fun f => .getbits f.1) s = .next t ∧
      t.responses = s.responses ++ fields.map (fun f =>
        responseWord 0#8 (BitVec.ofNat 32 (f.2.toNat % 2 ^ f.1.toNat))) ∧ Reading t rest := by
  induction fields generalizing s with
  | nil => exact ⟨s, rfl, (List.append_nil _).symm, h⟩
  | cons f fields ih =>
    obtain ⟨hf, hfields⟩ := List.forall_mem_cons.mp hfields
    rw [fieldBits_cons, List.append_assoc] at h
    obtain ⟨t, hexec, hresponse, ht⟩ := exec_getbits_reading hf h
    obtain ⟨u, hrest, hresponses, hu⟩ := ih hfields ht
    refine ⟨u, (execAll_cons hexec).trans hrest, ?_, hu⟩
    rw [hresponses, hresponse, List.append_assoc]; rfl

/-- Settles O34: the bytes of the one session are the bits of the fields and padding; the other reads the fields off them
and leaves the padding. -/
theorem bitStreamRoundTrip : Obligations.BitStreamRoundTrip := by
  intro fields s hfields he hm hopen hr hout
  obtain ⟨t, pad, hwrite, hpad, hbits⟩ := execAll_writing_session hfields he hm hopen hr hout
  refine ⟨t, hwrite, fun u he hm hopen hsource => ?_⟩
  obtain ⟨u₁, hopened, hresponse, hreading⟩ := exec_bopenr_reading he hm hopen hsource
  rw [hbits] at hreading
  obtain ⟨v, hread, hresponses, hdone⟩ := execAll_getbits hfields hreading
  obtain ⟨bytes, hbytes⟩ := hdone.source
  refine ⟨v, pad, (execAll_cons hopened).trans hread, ?_, hpad, hdone.bits, by rw [hbytes, sourceEnds_bytes]⟩
  rw [hresponses, hresponse, List.append_assoc]; rfl

end Sys2Proof.Machine
end

section
/-! PROOFS. The Golomb coder commands: what GENC writes, what GDEC reads, and that the one reads the other back
(41_golomb.md R140 to R149). -/

namespace Sys2Proof.Machine

/-! ### Writing a codeword (41_golomb.md R141, R143) -/

theorem exec_genc_appends {s : State} (he : s.regs.err = false) (hw : s.regs.mode = .write) (hm : s.regs.m ≠ 0#8)
    (hr : sinkReady s = true) (hb : bufferHolds s.regs 7 = true) (n : Word) :
    ∃ t, exec (.genc n) s = .next (t.respond 0#8 0#32) ∧ AppendsBits s t (codeword s.regs.m.toNat n.toInt) := by
  obtain ⟨t, hencode, happ⟩ := golombEncode_appends n.toInt hm hr hb
  exact ⟨t, exec_ok (i := .genc n) he rfl ((gencBody_of_write hw n).trans (bind_of_ok hencode)), happ⟩

/-- Settles O35. -/
theorem gencWritesCodeword : Obligations.GencWritesCodeword := fun _ n he hw hm hr hb =>
  exec_genc_appends he hw hm hr hb n

/-! ### Reading a codeword (41_golomb.md R142, R144) -/

/-- Past its check of the divisor, `GolombDecode` reads the three parts of the codeword. -/
theorem golombDecode_of_set {s : State} (hm : s.regs.m ≠ 0#8) : golombDecode s = golombGet s.regs.m.toNat s := by
  unfold golombDecode
  rw [bind_getRegs_apply, bind_require_apply, if_pos (decide_eq_true hm)]

section Gdec
variable {s t : State} {n : Int} (he : s.regs.err = false) (hr : s.regs.mode = .read)
include he hr

/-- GDEC answers the number that `GolombDecode` gives. -/
theorem exec_gdec_ok (hdecode : golombDecode s = .ok n t) :
    exec .gdec s = .next (t.respond 0#8 (BitVec.ofInt 32 n)) :=
  exec_ok (i := .gdec) he rfl ((gdecBody_of_read hr).trans (bind_of_ok hdecode))

/-- GDEC raises what `GolombDecode` raises. -/
theorem exec_gdec_raise {c : Cause} (hdecode : golombDecode s = .error c t) :
    exec .gdec s = .next (takeFault 0x21#8 c t) :=
  exec_raise (i := .gdec) he rfl ((gdecBody_of_read hr).trans (bind_of_error hdecode))

end Gdec

/-- Settles O36: all parts of the codeword are read first, and then the range of its number decides. -/
theorem gdecReadsCodeword : Obligations.GdecReadsCodeword := by
  intro s q r sign rest he hr hm hb hrm hun
  obtain ⟨t, hc, hget⟩ := golombGet_consumes (Nat.one_le_of_lt hrm) hrm hb hun
  rw [← golombDecode_of_set hm] at hget
  refine ⟨t, hc, fun hfits => ?_, fun hbeyond => ?_⟩
  · rw [if_pos hfits] at hget
    exact exec_gdec_ok he hr hget
  · rw [if_neg (Bool.eq_false_iff.mp hbeyond)] at hget
    exact exec_gdec_raise he hr hget

/-! ### The round trip (41_golomb.md R149) -/

/-- GDEC on the codeword of a 32-bit number answers that number. -/
theorem exec_gdec_codeword {s : State} {n : Word} {rest : List Bool} (he : s.regs.err = false)
    (hr : s.regs.mode = .read) (hm : s.regs.m ≠ 0#8) (hb : bufferHolds s.regs 8 = true)
    (hun : unreadBits s = codeword s.regs.m.toNat n.toInt ++ rest) :
    ∃ t, exec .gdec s = .next (t.respond 0#8 n) ∧ ConsumesBits s t (codeword s.regs.m.toNat n.toInt) := by
  obtain ⟨t, hdecode, hc⟩ := golombDecode_consumes (fits32_toInt n) hm hb hun
  have hexec := exec_gdec_ok he hr hdecode
  rw [BitVec.ofInt_toInt] at hexec
  exact ⟨t, hexec, hc⟩

theorem consumesBits_responses {s t : State} {bs : List Bool} (h : ConsumesBits s t bs) :
    t.responses = s.responses := by
  obtain ⟨-, -, ht⟩ := h
  rw [ht]

/-- Settles O37: the bits are the codeword, whose parts GDEC reads back one by one. -/
theorem golombRoundTrip : Obligations.GolombRoundTrip := by
  intro s n he hw hm hr hb
  obtain ⟨t, hwrite, happ⟩ := exec_genc_appends he hw hm hr hb n
  obtain ⟨hwritten, -, -⟩ := happ
  refine ⟨_, codeword s.regs.m.toNat n.toInt, hwrite, hwritten, fun u rest he hread hmu hb hun => ?_⟩
  rw [← hmu] at hm hun
  obtain ⟨v, hdecode, hc⟩ := exec_gdec_codeword he hread hm hb hun
  have hrest := consumesBits_rest hc hun
  exact ⟨_, hdecode, by rw [respond_responses, consumesBits_responses hc], hrest⟩

end Sys2Proof.Machine
end

section
/-! PROOFS. The run-length commands: what RPUSH and RFLUSH write, what RPOP replays (42_runlength.md R160 to R163). -/

namespace Sys2Proof.Machine

/-- The state with a run of `count` times `value`, collected or to be replayed (42_runlength.md R160). -/
def State.withRun (s : State) (count value : Word) : State :=
  { s with regs := { s.regs with runCount := count, lastValue := value } }

/-! ### Collecting (42_runlength.md R161, R162) -/

theorem pushEndsRun_eq_true_iff {g : Regs} {v : Word} :
    pushEndsRun g v = true ↔ g.runCount ≠ 0#32 ∧ (v ≠ g.lastValue ∨ g.runCount.toNat = Config.runMax) := by
  simp [pushEndsRun]

theorem pushEndsRun_eq_false_iff {g : Regs} {v : Word} :
    pushEndsRun g v = false ↔ g.runCount = 0#32 ∨ (v = g.lastValue ∧ g.runCount.toNat ≠ Config.runMax) := by
  simp [pushEndsRun, or_iff_not_imp_left]

theorem pendingPair_of_ne {g : Regs} (h : g.runCount ≠ 0#32) :
    pendingPair g = codeword g.m.toNat (g.runCount.toNat : Int) ++ codeword g.m.toNat g.lastValue.toInt :=
  if_neg h

section Collect
variable {s : State} (he : s.regs.err = false) (hw : s.regs.mode = .write)
include he hw

/-- RPUSH counts its value into the run that its flush leaves. -/
theorem exec_rpush_of_flush {t : State} {v : Word} (hm : s.regs.m ≠ 0#8)
    (hflush : onlyIf (pushEndsRun s.regs v) flushPair s = .ok () t) :
    exec (.rpush v) s = .next ((t.withRun (t.regs.runCount + 1#32) v).respond 0#8 0#32) := by
  refine exec_ok (i := .rpush v) he rfl ?_
  show rpushBody v s = _
  unfold rpushBody
  rw [requireMode_bind_of_eq hw, bind_getRegs_apply, bind_require_apply, if_pos (decide_eq_true hm), bind_of_ok hflush]
  rfl

theorem exec_rpush_continues {v : Word} (hm : s.regs.m ≠ 0#8) (hcont : pushEndsRun s.regs v = false) :
    exec (.rpush v) s = .next ((s.withRun (s.regs.runCount + 1#32) v).respond 0#8 0#32) :=
  exec_rpush_of_flush he hw hm (by rw [hcont]; rfl)

theorem exec_rpush_ends {v : Word} (hm : s.regs.m ≠ 0#8) (hr : sinkReady s = true) (hb : bufferHolds s.regs 7 = true)
    (hends : pushEndsRun s.regs v = true) :
    ∃ t, AppendsBits s t (pendingPair s.regs) ∧
      exec (.rpush v) s = .next ((t.withRun 1#32 v).respond 0#8 0#32) := by
  obtain ⟨hrun, -⟩ := pushEndsRun_eq_true_iff.mp hends
  obtain ⟨t, hflush, happ⟩ := flushPair_appends hm hr hb
  rw [← pendingPair_of_ne hrun] at happ
  exact ⟨t, happ, exec_rpush_of_flush he hw hm (by rw [hends]; exact hflush)⟩

/-- RFLUSH leaves what its flush leaves. -/
theorem exec_rflush_of_flush {t : State}
    (hflush : onlyIf (decide (s.regs.runCount ≠ 0#32)) flushPair s = .ok () t) :
    exec .rflush s = .next (t.respond 0#8 0#32) := by
  refine exec_ok (i := .rflush) he rfl ?_
  show rflushBody s = _
  unfold rflushBody
  rw [requireMode_bind_of_eq hw, bind_getRegs_apply, bind_of_ok hflush]
  rfl

theorem exec_rflush_empty (hrun : s.regs.runCount = 0#32) : exec .rflush s = .next (s.respond 0#8 0#32) :=
  exec_rflush_of_flush he hw (by rw [decide_eq_false (not_not_intro hrun)]; rfl)

theorem exec_rflush_appends (hm : s.regs.runCount = 0#32 ∨ s.regs.m ≠ 0#8) (hr : sinkReady s = true)
    (hb : bufferHolds s.regs 7 = true) :
    ∃ t, AppendsBits s t (pendingPair s.regs) ∧ exec .rflush s = .next (t.clearRun.respond 0#8 0#32) := by
  obtain ⟨t, hflush, happ⟩ := flushPending_appends hr hb hm
  exact ⟨t, happ, exec_rflush_of_flush he hw hflush⟩

end Collect

/-- Settles O39: the two cases are the two values of the test for the end of the run. -/
theorem rpushCollectsRuns : Obligations.RpushCollectsRuns := by
  intro s v he hw hm
  refine ⟨fun hcont => ?_, fun hrun hends hr hb => ?_⟩
  · exact exec_rpush_continues he hw hm (pushEndsRun_eq_false_iff.mpr hcont)
  · rw [← pendingPair_of_ne hrun]
    exact exec_rpush_ends he hw hm hr hb (pushEndsRun_eq_true_iff.mpr ⟨hrun, hends⟩)

/-- Settles O40. -/
theorem rflushWritesRun : Obligations.RflushWritesRun := by
  intro s he hw
  refine ⟨exec_rflush_empty he hw, fun hrun hm hr hb => ?_⟩
  rw [← pendingPair_of_ne hrun]
  exact exec_rflush_appends he hw (.inr hm) hr hb

/-! ### Replaying (42_runlength.md R163) -/

/-- A pair is read whole, and then its count decides. -/
theorem readPair_consumes {s : State} {c x : Word} {rest : List Bool} (hm : s.regs.m ≠ 0#8)
    (hb : bufferHolds s.regs 8 = true)
    (hun : unreadBits s = codeword s.regs.m.toNat c.toInt ++ codeword s.regs.m.toNat x.toInt ++ rest) :
    ∃ t, ConsumesBits s t (codeword s.regs.m.toNat c.toInt ++ codeword s.regs.m.toNat x.toInt) ∧
      readPair s = if 0 < c.toInt then .ok () (t.withRun c x) else .error .invalidFormat t := by
  rw [List.append_assoc] at hun
  obtain ⟨t, hcount, hct⟩ := golombDecode_consumes (fits32_toInt c) hm hb hun
  have hun' := consumesBits_rest hct hun
  have hbt : bufferHolds t.regs 8 = true := hct.2.1
  have hmt := consumesBits_m hct
  rw [← hmt] at hm hun'
  obtain ⟨u, hvalue, hcu⟩ := golombDecode_consumes (fits32_toInt x) hm hbt hun'
  rw [hmt] at hcu
  refine ⟨u, consumesBits_trans hct hcu, ?_⟩
  unfold readPair
  rw [bind_of_ok hcount, bind_of_ok hvalue, bind_require_apply]
  simp only [decide_eq_true_eq, modifyRegs_apply, tc32, BitVec.ofInt_toInt]
  rfl

section Replay
variable {s : State} (he : s.regs.err = false) (hr : s.regs.mode = .read) (hm : s.regs.m ≠ 0#8)
include hr hm

/-- RPOP, past its preconditions: a fresh pair where no run is left, then one value of the run. -/
theorem rpopBody_of_read : rpopBody s = (onlyIf (decide (s.regs.runCount = 0#32)) readPair >>= fun _ =>
    modifyRegs (fun g => { g with runCount := g.runCount - 1#32 }) >>= fun _ =>
    getRegs >>= fun g => pure g.lastValue) s := by
  unfold rpopBody
  rw [requireMode_bind_of_eq hr, bind_getRegs_apply, bind_require_apply, if_pos (decide_eq_true hm)]

include he

/-- RPOP takes one value from the run that is left or read. -/
theorem exec_rpop_of_run {t : State} (hread : onlyIf (decide (s.regs.runCount = 0#32)) readPair s = .ok () t) :
    exec .rpop s = .next ((t.withRun (t.regs.runCount - 1#32) t.regs.lastValue).respond 0#8 t.regs.lastValue) :=
  exec_ok (i := .rpop) he rfl ((rpopBody_of_read hr hm).trans (bind_of_ok hread))

theorem exec_rpop_replays (hrun : s.regs.runCount ≠ 0#32) :
    exec .rpop s = .next ((s.withRun (s.regs.runCount - 1#32) s.regs.lastValue).respond 0#8 s.regs.lastValue) :=
  exec_rpop_of_run he hr hm (by rw [decide_eq_false hrun]; rfl)

theorem exec_rpop_pair {c x : Word} {rest : List Bool} (hrun : s.regs.runCount = 0#32)
    (hb : bufferHolds s.regs 8 = true)
    (hun : unreadBits s = codeword s.regs.m.toNat c.toInt ++ codeword s.regs.m.toNat x.toInt ++ rest) :
    ∃ t, ConsumesBits s t (codeword s.regs.m.toNat c.toInt ++ codeword s.regs.m.toNat x.toInt) ∧
      (1 ≤ c.toInt → exec .rpop s = .next ((t.withRun (c - 1#32) x).respond 0#8 x)) ∧
      (c.toInt ≤ 0 → exec .rpop s = .next (takeFault 0x2A#8 .invalidFormat t)) := by
  obtain ⟨t, hc, hpair⟩ := readPair_consumes hm hb hun
  have hread : onlyIf (decide (s.regs.runCount = 0#32)) readPair s = readPair s := by rw [decide_eq_true hrun]; rfl
  rw [← hread] at hpair
  refine ⟨t, hc, fun hpos => ?_, fun hneg => ?_⟩
  · rw [if_pos (Int.one_pos.trans_le hpos)] at hpair
    exact exec_rpop_of_run he hr hm hpair
  · rw [if_neg (Int.not_lt.mpr hneg)] at hpair
    exact exec_raise (i := .rpop) he rfl ((rpopBody_of_read hr hm).trans (bind_of_error hpair))

end Replay

/-- Settles O41. -/
theorem rpopReplaysRuns : Obligations.RpopReplaysRuns := fun _ he hr hm =>
  ⟨exec_rpop_replays he hr hm, fun _ _ _ hrun hb hun => exec_rpop_pair he hr hm hrun hb hun⟩

end Sys2Proof.Machine
end

section
/-! PROOFS. What is pushed, with RFLUSH anywhere between, is what RPOP gives back (42_runlength.md R164). -/

namespace Sys2Proof.Machine

/-! ### Runs in the stream (42_runlength.md R160) -/

/-- A run as a pair of the stream holds it: its count is a positive 32-bit number. -/
structure Run where
  count : Word
  value : Word
  pos : 1 ≤ count.toInt

/-- The values that a run stands for. -/
def Run.values (r : Run) : List Word := List.replicate r.count.toNat r.value

/-- The pair of a run, count first. -/
def Run.bits (m : Nat) (r : Run) : List Bool := codeword m r.count.toInt ++ codeword m r.value.toInt

/-- The values that a list of runs stands for. -/
def runsValues (rs : List Run) : List Word := rs.flatMap Run.values

/-- The pairs of a list of runs. -/
def runsBits (m : Nat) (rs : List Run) : List Bool := rs.flatMap (Run.bits m)

theorem runsBits_cons (m : Nat) (r : Run) (rs : List Run) : runsBits m (r :: rs) = r.bits m ++ runsBits m rs := rfl

theorem runsValues_append (rs ps : List Run) : runsValues (rs ++ ps) = runsValues rs ++ runsValues ps :=
  List.flatMap_append

theorem runsBits_append (m : Nat) (rs ps : List Run) : runsBits m (rs ++ ps) = runsBits m rs ++ runsBits m ps :=
  List.flatMap_append

theorem Run.count_ne_zero (r : Run) : r.count ≠ 0#32 := fun h => by
  have hpos := r.pos
  rw [h] at hpos
  exact absurd hpos (by decide)

/-- The values of the run that the registers hold (42_runlength.md R160). -/
def heldValues (g : Regs) : List Word := List.replicate g.runCount.toNat g.lastValue

theorem heldValues_of_zero {g : Regs} (h : g.runCount = 0#32) : heldValues g = [] := by
  rw [heldValues, h]; rfl

theorem heldValues_of_ne {g : Regs} (h : g.runCount ≠ 0#32) :
    heldValues g = g.lastValue :: List.replicate (g.runCount - 1#32).toNat g.lastValue := by
  have hcount : g.runCount.toNat = (g.runCount - 1#32).toNat + 1 := by bv_omega
  rw [heldValues, hcount, List.replicate_succ]

/-- The pair that a flush writes stands for the run in the registers, as long as its count is within RUN_MAX. -/
theorem exists_runs_of_pendingPair {g : Regs} (hmax : g.runCount.toNat ≤ Config.runMax) :
    ∃ rs, pendingPair g = runsBits g.m.toNat rs ∧ heldValues g = runsValues rs := by
  by_cases hrun : g.runCount = 0#32
  · exact ⟨[], if_pos hrun, heldValues_of_zero hrun⟩
  · simp only [Config.runMax] at hmax
    have hint : g.runCount.toInt = g.runCount.toNat := BitVec.toInt_eq_toNat_of_lt (by omega)
    have hpos : 1 ≤ g.runCount.toInt := by rw [hint]; bv_omega
    refine ⟨[⟨g.runCount, g.lastValue, hpos⟩], ?_, (List.append_nil _).symm⟩
    rw [pendingPair_of_ne hrun, ← hint]
    exact (List.append_nil _).symm

/-! ### The writing side -/

/-- An open WRITE stream under the divisor `m` on a SINK that takes every byte: after `start` it holds pairs that,
together with the run in the registers, stand for the values `vs`. -/
structure Collecting (m : BitVec 8) (start : List Bool) (vs : List Word) (s : State) : Prop where
  err : s.regs.err = false
  mode : s.regs.mode = .write
  divisor : s.regs.m = m
  ready : sinkReady s = true
  buffer : bufferHolds s.regs 7 = true
  countMax : s.regs.runCount.toNat ≤ Config.runMax
  runs : ∃ rs, writtenBits s = start ++ runsBits m.toNat rs ∧ vs = runsValues rs ++ heldValues s.regs

section Collecting
variable {m : BitVec 8} {start : List Bool} {vs : List Word} {s t : State}

theorem Collecting.respond (h : Collecting m start vs s) (st : BitVec 8) (v : Word) :
    Collecting m start vs (s.respond st v) :=
  ⟨h.err, h.mode, h.divisor, h.ready, h.buffer, h.countMax, h.runs⟩

/-- A flush moves the run from the registers to the stream. -/
theorem Collecting.flushed (h : Collecting m start vs s) (happ : AppendsBits s t (pendingPair s.regs)) (value : Word) :
    Collecting m start vs (t.withRun 0#32 value) := by
  obtain ⟨rs, hwritten, hvalues⟩ := h.runs
  obtain ⟨ps, hpair, hheld⟩ := exists_runs_of_pendingPair h.countMax
  have hready := appendsBits_sinkReady happ h.ready
  obtain ⟨happended, hbuffer, out, -, ht⟩ := happ
  have hregs := congrArg State.regs ht
  refine {
    err := (congrArg Regs.err hregs).trans h.err
    mode := (congrArg Regs.mode hregs).trans h.mode
    divisor := (congrArg Regs.m hregs).trans h.divisor
    ready := hready
    buffer := hbuffer
    countMax := Nat.zero_le _
    runs := ⟨rs ++ ps, ?_, ?_⟩ }
  · calc writtenBits t
        = start ++ runsBits m.toNat rs ++ runsBits m.toNat ps := by rw [happended, hwritten, hpair, h.divisor]
      _ = start ++ runsBits m.toNat (rs ++ ps) := by rw [runsBits_append, List.append_assoc]
  · rw [heldValues_of_zero rfl, List.append_nil, runsValues_append, hvalues, hheld]

/-- A value that continues the run joins it. -/
theorem Collecting.pushed {v : Word} (h : Collecting m start vs s) (hcont : pushEndsRun s.regs v = false) :
    Collecting m start (vs ++ [v]) (s.withRun (s.regs.runCount + 1#32) v) := by
  obtain ⟨rs, hwritten, hvalues⟩ := h.runs
  have hcases := pushEndsRun_eq_false_iff.mp hcont
  have hmax := h.countMax
  have hroom : s.regs.runCount.toNat < Config.runMax := by
    rcases hcases with h0 | ⟨-, hne⟩
    · rw [h0]; decide
    · omega
  simp only [Config.runMax] at hroom
  have hcount : (s.regs.runCount + 1#32).toNat = s.regs.runCount.toNat + 1 := by bv_omega
  have hsame : List.replicate s.regs.runCount.toNat v = heldValues s.regs := by
    rcases hcases with h0 | ⟨rfl, -⟩
    · rw [heldValues_of_zero h0, h0]; rfl
    · rfl
  have hheld : heldValues (s.withRun (s.regs.runCount + 1#32) v).regs = heldValues s.regs ++ [v] := by
    show List.replicate (s.regs.runCount + 1#32).toNat v = _
    rw [hcount, List.replicate_succ', hsame]
  exact {
    err := h.err
    mode := h.mode
    divisor := h.divisor
    ready := h.ready
    buffer := h.buffer
    countMax := hcount.trans_le hroom
    runs := ⟨rs, hwritten, by rw [hvalues, hheld, List.append_assoc]⟩ }

theorem Collecting.exec_rpush (h : Collecting m start vs s) (hm : m ≠ 0#8) (v : Word) :
    ∃ t, exec (.rpush v) s = .next t ∧ Collecting m start (vs ++ [v]) t := by
  obtain rfl := h.divisor
  cases hends : pushEndsRun s.regs v with
  | false => exact ⟨_, exec_rpush_continues h.err h.mode hm hends, (h.pushed hends).respond _ _⟩
  | true =>
    obtain ⟨t, happ, hexec⟩ := exec_rpush_ends h.err h.mode hm h.ready h.buffer hends
    have hpushed := (h.flushed happ v).pushed (v := v) (pushEndsRun_eq_false_iff.mpr (.inl rfl))
    exact ⟨_, hexec, hpushed.respond _ _⟩

theorem Collecting.exec_rflush (h : Collecting m start vs s) (hm : m ≠ 0#8) :
    ∃ t, exec .rflush s = .next t ∧ Collecting m start vs t ∧ t.regs.runCount = 0#32 := by
  obtain rfl := h.divisor
  obtain ⟨t, happ, hexec⟩ := exec_rflush_appends h.err h.mode (.inr hm) h.ready h.buffer
  exact ⟨_, hexec, (h.flushed happ t.regs.lastValue).respond _ _, rfl⟩

/-- The command of a push, where `none` stands for an RFLUSH. -/
def pushCommand : Option Word → Instr
  | some v => .rpush v
  | none => .rflush

theorem Collecting.execAll_pushes (hm : m ≠ 0#8) {pushes : List (Option Word)} (h : Collecting m start vs s) :
    ∃ t, execAll (pushes.map pushCommand) s = .next t ∧ Collecting m start (vs ++ pushes.filterMap id) t := by
  induction pushes generalizing s vs with
  | nil => exact ⟨s, rfl, (List.append_nil vs).symm ▸ h⟩
  | cons p pushes ih =>
    cases p with
    | none =>
      obtain ⟨t, hexec, ht, -⟩ := h.exec_rflush hm
      obtain ⟨u, hrest, hu⟩ := ih ht
      exact ⟨u, (execAll_cons hexec).trans hrest, hu⟩
    | some v =>
      obtain ⟨t, hexec, ht⟩ := h.exec_rpush hm v
      obtain ⟨u, hrest, hu⟩ := ih ht
      rw [List.append_assoc] at hu
      exact ⟨u, (execAll_cons hexec).trans hrest, hu⟩

/-- A whole sequence of pushes, flushed at its end, is in the stream as runs of the values pushed. -/
theorem execAll_pushes_flushed (hm : m ≠ 0#8) (pushes : List (Option Word)) (h : Collecting m start [] s) :
    ∃ t rs, execAll (pushes.map pushCommand ++ [.rflush]) s = .next t ∧
      writtenBits t = start ++ runsBits m.toNat rs ∧ runsValues rs = pushes.filterMap id := by
  obtain ⟨t, hpushed, ht⟩ := h.execAll_pushes hm (pushes := pushes)
  obtain ⟨u, hflushed, hu, hrun⟩ := ht.exec_rflush hm
  obtain ⟨rs, hwritten, hvalues⟩ := hu.runs
  rw [heldValues_of_zero hrun, List.append_nil] at hvalues
  exact ⟨u, rs, (execAll_append hpushed).trans (execAll_cons hflushed), hwritten, hvalues.symm⟩

end Collecting

/-! ### The reading side -/

/-- An open READ stream under the divisor `m`: the run in the registers and the pairs that come next stand for the
values `vs`, and the bits `rest` follow them. -/
structure Replaying (m : BitVec 8) (vs : List Word) (rest : List Bool) (s : State) : Prop where
  err : s.regs.err = false
  mode : s.regs.mode = .read
  divisor : s.regs.m = m
  buffer : bufferHolds s.regs 8 = true
  runs : ∃ rs, unreadBits s = runsBits m.toNat rs ++ rest ∧ vs = heldValues s.regs ++ runsValues rs

section Replaying
variable {m : BitVec 8} {vs : List Word} {rest : List Bool} {s t : State}

theorem Replaying.respond (h : Replaying m vs rest s) (st : BitVec 8) (v : Word) :
    Replaying m vs rest (s.respond st v) :=
  ⟨h.err, h.mode, h.divisor, h.buffer, h.runs⟩

/-- With no value left, every pair was read. -/
theorem Replaying.done (h : Replaying m [] rest s) : unreadBits s = rest ∧ s.regs.runCount = 0#32 := by
  obtain ⟨rs, hunread, hvalues⟩ := h.runs
  obtain ⟨hheld, hruns⟩ := List.append_eq_nil_iff.mp hvalues.symm
  have hrun : s.regs.runCount = 0#32 := by
    by_contra hne
    rw [heldValues_of_ne hne] at hheld
    exact nomatch hheld
  cases rs with
  | nil => exact ⟨hunread, hrun⟩
  | cons r rs =>
    obtain ⟨hr, -⟩ := List.append_eq_nil_iff.mp hruns
    exact absurd (BitVec.eq_of_toNat_eq ((List.replicate_eq_nil_iff _).mp hr)) r.count_ne_zero

/-- With no run left but a value to come, the next pair holds it. -/
theorem Replaying.next_pair {v : Word} (h : Replaying m (v :: vs) rest s) (hrun : s.regs.runCount = 0#32) :
    ∃ (r : Run) (rs : List Run), unreadBits s = r.bits m.toNat ++ (runsBits m.toNat rs ++ rest) ∧
      v :: vs = r.values ++ runsValues rs := by
  obtain ⟨rs, hunread, hvalues⟩ := h.runs
  rw [heldValues_of_zero hrun] at hvalues
  cases rs with
  | nil => exact nomatch hvalues
  | cons r rs =>
    rw [runsBits_cons, List.append_assoc] at hunread
    exact ⟨r, rs, hunread, hvalues⟩

/-- Reading a pair moves its run from the stream to the registers. -/
theorem Replaying.loaded {r : Run} {rs : List Run} (h : Replaying m vs rest s) (hc : ConsumesBits s t (r.bits m.toNat))
    (hunread : unreadBits s = r.bits m.toNat ++ (runsBits m.toNat rs ++ rest)) :
    Replaying m (r.values ++ runsValues rs) rest (t.withRun r.count r.value) := by
  have hrest := consumesBits_rest hc hunread
  obtain ⟨-, hbuffer, ht⟩ := hc
  have hregs := congrArg State.regs ht
  exact {
    err := (congrArg Regs.err hregs).trans h.err
    mode := (congrArg Regs.mode hregs).trans h.mode
    divisor := (congrArg Regs.m hregs).trans h.divisor
    buffer := hbuffer
    runs := ⟨rs, hrest, rfl⟩ }

/-- A value of the run in the registers is the next one, and leaves it. -/
theorem Replaying.popped {v : Word} (h : Replaying m (v :: vs) rest s) (hrun : s.regs.runCount ≠ 0#32) :
    s.regs.lastValue = v ∧ Replaying m vs rest (s.withRun (s.regs.runCount - 1#32) s.regs.lastValue) := by
  obtain ⟨rs, hunread, hvalues⟩ := h.runs
  rw [heldValues_of_ne hrun, List.cons_append] at hvalues
  obtain ⟨hv, hvs⟩ := List.cons.inj hvalues
  exact ⟨hv.symm, h.err, h.mode, h.divisor, h.buffer, rs, hunread, hvs⟩

theorem Replaying.exec_rpop (hm : m ≠ 0#8) {v : Word} (h : Replaying m (v :: vs) rest s) :
    ∃ t, exec .rpop s = .next t ∧ t.responses = s.responses ++ [responseWord 0#8 v] ∧ Replaying m vs rest t := by
  obtain rfl := h.divisor
  by_cases hrun : s.regs.runCount = 0#32
  · obtain ⟨r, rs, hunread, hvalues⟩ := h.next_pair hrun
    obtain ⟨t, hc, hexec, -⟩ := exec_rpop_pair (c := r.count) (x := r.value) h.err h.mode hm hrun h.buffer hunread
    have hloaded := h.loaded hc hunread
    rw [← hvalues] at hloaded
    obtain ⟨hv, ht⟩ := hloaded.popped r.count_ne_zero
    have hresponses : t.responses = s.responses := consumesBits_responses hc
    refine ⟨_, hexec r.pos, ?_, ht.respond _ _⟩
    rw [← hv, ← hresponses]; rfl
  · obtain ⟨hv, ht⟩ := h.popped hrun
    exact ⟨_, exec_rpop_replays h.err h.mode hm hrun, by rw [hv]; rfl, ht.respond _ _⟩

theorem Replaying.execAll_rpops (hm : m ≠ 0#8) (h : Replaying m vs rest s) :
    ∃ t, execAll (List.replicate vs.length .rpop) s = .next t ∧
      t.responses = s.responses ++ vs.map (responseWord 0#8) ∧ Replaying m [] rest t := by
  induction vs generalizing s with
  | nil => exact ⟨s, rfl, (List.append_nil _).symm, h⟩
  | cons v vs ih =>
    obtain ⟨t, hexec, hresponse, ht⟩ := h.exec_rpop hm
    obtain ⟨u, hrest, hresponses, hu⟩ := ih ht
    refine ⟨u, (execAll_cons hexec).trans hrest, ?_, hu⟩
    rw [hresponses, hresponse, List.append_assoc]; rfl

end Replaying

/-- Settles O42: the pushes leave runs of their values in the stream, and the pops take these runs value by value. -/
theorem runLengthRoundTrip : Obligations.RunLengthRoundTrip := by
  intro pushes s he hw hm hrun hr hb
  have hstart : Collecting s.regs.m (writtenBits s) [] s := {
    err := he
    mode := hw
    divisor := rfl
    ready := hr
    buffer := hb
    countMax := by rw [hrun]; decide
    runs := ⟨[], (List.append_nil _).symm, (heldValues_of_zero hrun).symm⟩ }
  obtain ⟨t, rs, hwrite, hbits, hvalues⟩ := execAll_pushes_flushed hm pushes hstart
  refine ⟨t, runsBits s.regs.m.toNat rs, hwrite, hbits, fun u rest he hread hmu hrun hb hun => ?_⟩
  have hreplay : Replaying s.regs.m (pushes.filterMap id) rest u := {
    err := he
    mode := hread
    divisor := hmu
    buffer := hb
    runs := ⟨rs, hun, by rw [heldValues_of_zero hrun, hvalues]; rfl⟩ }
  obtain ⟨v, hread, hresponses, hdone⟩ := hreplay.execAll_rpops hm
  obtain ⟨hunread, hempty⟩ := hdone.done
  exact ⟨v, hread, hresponses, hunread, hempty⟩

end Sys2Proof.Machine
end

section
/-! PROOFS. What ENCF writes and stores in every variant (44_intra.md R188, 45_motion.md R203, R207; 43_quantizer.md R172,
R178, R179). -/

namespace Sys2Proof.Machine

/-! ### Views of the frame buffers -/

/-- The two views of a sample agree: both give 0 where nothing is written. -/
theorem sampleNat_eq_sampleByte (s : State) (b : Buffer) (r c ch : Nat) :
    sampleNat s b r c ch = (sampleByte s b r c ch).toNat := by
  unfold sampleNat sampleByte
  cases s.sample b r c ch <;> rfl

/-- The samples of CUR are those of its memory. -/
theorem sample_cur_congr {s t : State} (h : t.cur = s.cur) (r c ch : Nat) :
    t.sample .cur r c ch = s.sample .cur r c ch := by
  unfold State.sample State.buffer
  rw [h]

theorem sampleByte_cur_congr {s t : State} (h : t.cur = s.cur) : sampleByte t .cur = sampleByte s .cur := by
  funext r c ch
  unfold sampleByte
  rw [sample_cur_congr h]

/-! ### The command around the coding of its frame (46_container.md R233) -/

section Encf
variable {s t : State} (he : s.regs.err = false) (hm : s.regs.mode = .write) (hs : s.regs.sess = .headerDone)
  (hlt : s.regs.frameIdx.toNat < s.regs.frameCount.toNat)
include he hm hs hlt

/-- ENCF on an intra frame leaves the bits and the samples of CUR that `EncodeIntra` left. -/
theorem exec_encf_intra {bs : List Bool} (hi : intraNext s.regs = true) (h : encodeIntra s = .ok () t)
    (hB : Behind s t bs) : ∃ u, exec .encf s = .next u ∧ writtenBits u = writtenBits s ++ bs ∧ u.cur = t.cur := by
  obtain ⟨v, hcode, hv, -, -⟩ := codeFrame_intra (predicted := encodePred) hi h (behind_regs hB)
  refine ⟨v.respond 0#8 0#32, exec_ok (i := .encf) he rfl ((encfBody_eq hm hs hlt).trans hcode), ?_, ?_⟩
  · rw [← behind_written hB, hv]; rfl
  · rw [respond_cur, hv]

/-- ENCF on a predicted frame leaves the bits and the samples of CUR that `EncodePred` left. -/
theorem exec_encf_predicted {bs : List Bool} (hi : intraNext s.regs = false) (h : encodePred s = .ok () t)
    (hB : Behind s t bs) : ∃ u, exec .encf s = .next u ∧ writtenBits u = writtenBits s ++ bs ∧ u.cur = t.cur := by
  refine ⟨_, exec_ok (i := .encf) he rfl ((encfBody_eq hm hs hlt).trans (codeFrame_predicted hi h)), ?_, rfl⟩
  rw [← behind_written hB]; rfl

end Encf

/-! ### One block (45_motion.md R207) -/

/-- In a lossless variant the residuals of a coded block are the differences of CUR and the displaced block of REF, as both
were before the frame. -/
theorem BlockCoded.residuals_lossless {s x : State} {br bc : Nat} {d : CodedBlock} (h : BlockCoded s x br bc d)
    (hcur : WindowWritten s .cur) (href : WindowWritten s .ref) (hL : lossy s.regs = false) :
    d.residuals = blockResiduals s (br * s.regs.blockSize.toNat) (bc * s.regs.blockSize.toNat)
      (d.vector s.regs.blockSize.toNat br bc) := by
  obtain ⟨-, hlen, -, hwritten⟩ := h
  obtain ⟨-, hsamples⟩ := hwritten hcur href
  refine raster_map_ext hlen fun i j ch l hi hj hch hl => ?_
  obtain ⟨-, hnumber⟩ := hsamples i j ch l hi hj hch hl
  unfold CodedBlock.vector
  rw [hnumber, transmitted_lossless hL, displaced_of, displaced_of, sampleNat_eq_sampleByte, sampleNat_eq_sampleByte]

/-! ### The statement -/

/-- Settles O54: what `EncodeIntra` and `EncodePred` do in a session, inside the stages of ENCF. -/
theorem encfPayload : Obligations.EncfPayload := by
  intro s he hm hs hlt hc hr hb hcur
  constructor
  · intro hi
    obtain ⟨t, ls, hcode, hB, hlen, -, -, -, hsamples, hdifferences⟩ := encodeIntra_spec hc hr hb
    obtain ⟨u, hexec, hbits, hucur⟩ := exec_encf_intra he hm hs hlt hi hcode hB
    refine ⟨u, ls, hexec, hbits, hlen, fun r c ch l hin hl => ?_, hdifferences hcur⟩
    obtain ⟨hstored, hnumber⟩ := hsamples hcur r c ch l hin hl
    rw [sampleByte_cur_congr hucur, sample_cur_congr hucur, sampleNat_eq_sampleByte]
    exact ⟨hnumber, hstored⟩
  · intro hi href
    obtain ⟨t, F, hcode, hB, -, -, hblocks⟩ := encodePred_spec hc hr hb
    obtain ⟨u, hexec, hbits, hucur⟩ := exec_encf_predicted he hm hs hlt hi hcode hB
    refine ⟨u, fun br bc => ((F br bc).row, (F br bc).col), _, _, hexec, hbits, fun b hmem => ?_⟩
    obtain ⟨-, hlen, -, hwritten⟩ := hblocks b hmem
    obtain ⟨hbest, hsamples⟩ := hwritten hcur href
    refine ⟨hbest, rfl, rfl, hlen, fun i j ch l hi hj hch hl => ?_, (hblocks b hmem).residuals_lossless hcur href⟩
    obtain ⟨hstored, hnumber⟩ := hsamples i j ch l hi hj hch hl
    rw [sample_cur_congr hucur, sampleNat_eq_sampleByte, sampleNat_eq_sampleByte]
    exact ⟨hnumber, hstored⟩

end Sys2Proof.Machine
end

section
/-! PROOFS. The quantizer commands: what QLEVEL, QVALUE and QUANT answer at every bit depth, and that QUANT is idempotent
(43_quantizer.md R170 to R177). -/

namespace Sys2Proof.Machine

/-! ### The quantizer's functions by bit depth (43_quantizer.md R170 to R173) -/

/-- The bit depth of the channel operand. -/
theorem numBits_channel (g : Regs) (ch : BitVec 8) :
    numBits g ch.toNat = (if ch = 0#8 then g.qbitsY else if ch = 1#8 then g.qbitsU else g.qbitsV).toNat := by
  have h0 : ch.toNat = 0 ↔ ch = 0#8 := BitVec.toNat_inj (y := 0#8)
  have h1 : ch.toNat = 1 ↔ ch = 1#8 := BitVec.toNat_inj (y := 1#8)
  unfold numBits
  simp only [h0, h1]
  split
  · rfl
  · split <;> rfl

theorem quantStep_eq_zero {nb : Nat} (h : 9 ≤ nb) : quantStep nb = 0 := by
  have hpow : 2 ^ 9 ≤ 2 ^ nb := Nat.pow_le_pow_right (by decide) h
  exact Nat.div_eq_of_lt (by unfold Config.amplitude; omega)

theorem levelOf_none {nb : Nat} (h : 9 ≤ nb) (v : Int) : levelOf nb v = none := by
  unfold levelOf
  rw [if_neg (by omega), if_pos (quantStep_eq_zero h)]

theorem valueOf_none {nb : Nat} (h : 9 ≤ nb) (l : Int) : valueOf nb l = none := by
  unfold valueOf
  rw [if_neg (by omega), if_pos (quantStep_eq_zero h)]

/-- At bit depths with a step the level of R172 rounds the magnitude and keeps the sign. -/
theorem levelOf_rounds {nb : Nat} (h1 : 1 ≤ nb) (h8 : nb ≤ 8) (v : Int) : levelOf nb v =
    some (v.sign * ((v.natAbs + 256 / (2 ^ nb - 1) / 2) / (256 / (2 ^ nb - 1)) : Nat)) := by
  obtain ⟨l, hlevel, -, hl⟩ := levelOf_spec h8 v
  rw [hlevel, hl, if_pos (by omega)]

/-- No level is larger in magnitude than its value (43_quantizer.md R174). -/
theorem rounded_le {nb : Nat} (h1 : 1 ≤ nb) (h8 : nb ≤ 8) (v : Int) :
    (v.natAbs + 256 / (2 ^ nb - 1) / 2) / (256 / (2 ^ nb - 1)) ≤ v.natAbs := by
  rcases eq_or_ne v 0 with rfl | hv
  · have hstep : 1 ≤ 256 / (2 ^ nb - 1) := quantStep_pos nb (by omega) h8
    rw [Int.natAbs_zero, Nat.zero_add]
    exact (Nat.div_eq_of_lt (by omega)).le
  · obtain ⟨l, -, hle, hl⟩ := levelOf_spec h8 v
    rw [if_pos (by omega)] at hl
    rwa [hl, Int.natAbs_mul, Int.natAbs_sign_of_ne_zero hv, Nat.one_mul, Int.natAbs_natCast] at hle

/-- At bit depths with a step the value of R173 is the multiple of it. -/
theorem valueOf_multiplies {nb : Nat} (h1 : 1 ≤ nb) (h8 : nb ≤ 8) (l : Int) :
    valueOf nb l = some (l * ((256 / (2 ^ nb - 1) : Nat) : Int)) := by
  rw [valueOf_spec h8, if_pos (by omega)]

/-! ### The procedures (43_quantizer.md R171 to R173) -/

section Procedures
variable {s : State} {c : Nat} {y l x : Int}

theorem qLevel_of_some (h : levelOf (numBits s.regs c) y = some l) : qLevel c y s = .ok l s := by
  unfold qLevel
  rw [bind_getRegs_apply, h]; rfl

theorem qLevel_of_none (h : levelOf (numBits s.regs c) y = none) :
    qLevel c y s = .error .invalidState s := by
  unfold qLevel
  rw [bind_getRegs_apply, h]; rfl

theorem qValue_of_some (h : valueOf (numBits s.regs c) y = some x) : qValue c y s = .ok x s := by
  unfold qValue
  rw [bind_getRegs_apply, h]; rfl

theorem qValue_of_none (h : valueOf (numBits s.regs c) y = none) :
    qValue c y s = .error .invalidState s := by
  unfold qValue
  rw [bind_getRegs_apply, h]; rfl

end Procedures

/-! ### The commands (43_quantizer.md R174 to R176) -/

section Commands
variable {s : State} {ch : BitVec 8} {v : Word} {l x : Int} (he : s.regs.err = false) (hch : ch.toNat ≤ 2)
include he hch

theorem exec_qlevel_ok (hl : levelOf (numBits s.regs ch.toNat) v.toInt = some l) :
    exec (.qlevel ch v) s = .next (s.respond 0#8 (BitVec.ofInt 32 l)) :=
  exec_ok (i := .qlevel ch v) he (decide_eq_true hch) (bind_of_ok (qLevel_of_some hl))

theorem exec_qlevel_unset (hl : levelOf (numBits s.regs ch.toNat) v.toInt = none) :
    exec (.qlevel ch v) s = .next (takeFault 0x30#8 .invalidState s) :=
  exec_raise (i := .qlevel ch v) he (decide_eq_true hch) (bind_of_error (qLevel_of_none hl))

theorem exec_qvalue_ok (hx : valueOf (numBits s.regs ch.toNat) v.toInt = some x) (hfits : fits32 x = true) :
    exec (.qvalue ch v) s = .next (s.respond 0#8 (BitVec.ofInt 32 x)) :=
  exec_ok (i := .qvalue ch v) he (decide_eq_true hch) ((bind_of_ok (qValue_of_some hx)).trans
    ((bind_require_apply ..).trans (if_pos hfits)))

theorem exec_qvalue_overflow (hx : valueOf (numBits s.regs ch.toNat) v.toInt = some x) (hbeyond : fits32 x = false) :
    exec (.qvalue ch v) s = .next (takeFault 0x31#8 .overflow s) :=
  exec_raise (i := .qvalue ch v) he (decide_eq_true hch) ((bind_of_ok (qValue_of_some hx)).trans
    ((bind_require_apply ..).trans (if_neg (Bool.eq_false_iff.mp hbeyond))))

theorem exec_qvalue_unset (hx : valueOf (numBits s.regs ch.toNat) v.toInt = none) :
    exec (.qvalue ch v) s = .next (takeFault 0x31#8 .invalidState s) :=
  exec_raise (i := .qvalue ch v) he (decide_eq_true hch) (bind_of_error (qValue_of_none hx))

theorem exec_quant_ok (hl : levelOf (numBits s.regs ch.toNat) v.toInt = some l)
    (hx : valueOf (numBits s.regs ch.toNat) l = some x) (hfits : fits32 x = true) :
    exec (.quant ch v) s = .next (s.respond 0#8 (BitVec.ofInt 32 x)) :=
  exec_ok (i := .quant ch v) he (decide_eq_true hch) ((bind_of_ok (qLevel_of_some hl)).trans
    ((bind_of_ok (qValue_of_some hx)).trans ((bind_require_apply ..).trans (if_pos hfits))))

theorem exec_quant_overflow (hl : levelOf (numBits s.regs ch.toNat) v.toInt = some l)
    (hx : valueOf (numBits s.regs ch.toNat) l = some x) (hbeyond : fits32 x = false) :
    exec (.quant ch v) s = .next (takeFault 0x32#8 .overflow s) :=
  exec_raise (i := .quant ch v) he (decide_eq_true hch) ((bind_of_ok (qLevel_of_some hl)).trans
    ((bind_of_ok (qValue_of_some hx)).trans
      ((bind_require_apply ..).trans (if_neg (Bool.eq_false_iff.mp hbeyond)))))

theorem exec_quant_unset (hl : levelOf (numBits s.regs ch.toNat) v.toInt = none) :
    exec (.quant ch v) s = .next (takeFault 0x32#8 .invalidState s) :=
  exec_raise (i := .quant ch v) he (decide_eq_true hch) (bind_of_error (qLevel_of_none hl))

end Commands

/-- Settles O43: the functions at the bit depths of each clause, inside the stages of the three commands. -/
theorem quantizerResults : Obligations.QuantizerResults := by
  intro s ch v nb step l he hch hnb hstep hl
  rw [← numBits_channel] at hnb
  subst hstep hl
  refine ⟨fun h0 => ?_, fun h1 h8 => ?_, fun h9 => ?_⟩
  · have hlevel : levelOf (numBits s.regs ch.toNat) v.toInt = some v.toInt := by rw [← hnb, h0]; rfl
    have hvalue : valueOf (numBits s.regs ch.toNat) v.toInt = some v.toInt := by rw [← hnb, h0]; rfl
    have hqlevel := exec_qlevel_ok he hch hlevel
    have hqvalue := exec_qvalue_ok he hch hvalue (fits32_toInt v)
    have hquant := exec_quant_ok he hch hlevel hvalue (fits32_toInt v)
    rw [BitVec.ofInt_toInt] at hqlevel hqvalue hquant
    exact ⟨hqlevel, hqvalue, hquant⟩
  · have hlevel := levelOf_rounds h1 h8 v.toInt
    have hvalue := valueOf_multiplies h1 h8
    rw [hnb] at hlevel hvalue ⊢
    exact ⟨hnb ▸ rounded_le h1 h8 v.toInt, exec_qlevel_ok he hch hlevel, exec_qvalue_ok he hch (hvalue _),
      exec_qvalue_overflow he hch (hvalue _), exec_quant_ok he hch hlevel (hvalue _),
      exec_quant_overflow he hch hlevel (hvalue _)⟩
  · rw [hnb] at h9
    exact ⟨exec_qlevel_unset he hch (levelOf_none h9 _), exec_qvalue_unset he hch (valueOf_none h9 _),
      exec_quant_unset he hch (levelOf_none h9 _)⟩

/-! ### Idempotence (43_quantizer.md R177) -/

/-- A value that 32 bits hold is read back from its pattern. -/
theorem toInt_ofInt_of_fits32 {x : Int} (h : fits32 x = true) : (BitVec.ofInt 32 x).toInt = x := by
  obtain ⟨hlo, hhi⟩ := of_decide_eq_true h
  exact BitVec.toInt_ofInt_eq_self (by decide) (by omega) (by omega)

/-- Equal states after two responses had equal results. -/
theorem result_of_respond_eq {s t : State} {st st' : BitVec 8} {v w : Word} (h : s.respond st v = t.respond st' w) :
    v = w := by
  have hlast := congrArg (fun x : State => x.responses.getLast?) h
  simp only [respond_responses, List.getLast?_concat, Option.some.injEq] at hlast
  have hresult := congrArg (BitVec.extractLsb' 0 32) hlast
  rwa [responseWord_result, responseWord_result] at hresult

/-- QUANT that completes answers the value of the operand's level, which 32 bits hold. -/
theorem quantBody_ok {s t : State} {ch : BitVec 8} {v w : Word} (h : quantBody ch v s = .ok w t) :
    ∃ l x, levelOf (numBits s.regs ch.toNat) v.toInt = some l ∧ valueOf (numBits s.regs ch.toNat) l = some x ∧
      fits32 x = true ∧ w = BitVec.ofInt 32 x := by
  unfold quantBody at h
  cases hlevel : levelOf (numBits s.regs ch.toNat) v.toInt with
  | none => exact nomatch (bind_of_error (qLevel_of_none hlevel)).symm.trans h
  | some l =>
    rw [bind_of_ok (qLevel_of_some hlevel)] at h
    cases hvalue : valueOf (numBits s.regs ch.toNat) l with
    | none => exact nomatch (bind_of_error (qValue_of_none hvalue)).symm.trans h
    | some x =>
      rw [bind_of_ok (qValue_of_some hvalue), bind_require_apply] at h
      split at h
      · next hfits =>
        injection h with hw
        exact ⟨l, x, rfl, hvalue, hfits, hw.symm⟩
      · exact nomatch h

/-- Settles O44: the answer is the value of a level, and the level of that value is the same level. -/
theorem quantIsIdempotent : Obligations.QuantIsIdempotent := by
  intro s ch v w he hexec
  obtain ⟨hwf, r, u, hbody, hend⟩ := body_ok_of_exec hexec he he
  obtain ⟨l, x, hlevel, hvalue, hfits, hr⟩ := quantBody_ok hbody
  have hw : w = BitVec.ofInt 32 x := (result_of_respond_eq hend).trans hr
  have hagain : levelOf (numBits s.regs ch.toNat) w.toInt = some l := by
    rw [hw, toInt_ofInt_of_fits32 hfits]
    exact levelOf_valueOf hlevel hvalue
  rw [exec_quant_ok he (of_decide_eq_true hwf) hagain hvalue hfits, hw]

end Sys2Proof.Machine
end


section
/-! PROOFS. IPRED (44_intra.md R185 to R187): the prediction of the frame in CUR, on written neighbours and on any. -/

namespace Sys2Proof.Machine

/-! ### The median edge detector (44_intra.md R185) -/

/-- On numbers from 0 up the detector never leaves them, so it is that of the natural numbers. -/
theorem med_natCast (a b c : Nat) :
    med a b c = ((if max a b ≤ c then min a b else if c ≤ min a b then max a b else a + b - c : Nat) : Int) := by
  unfold med
  split_ifs <;> omega

theorem med_left {a : Int} (h : 0 ≤ a) : med a 0 0 = a := by
  unfold med
  split_ifs <;> omega

theorem med_top {b : Int} (h : 0 ≤ b) : med 0 b 0 = b := by
  unfold med
  split_ifs <;> omega

/-- The prediction of the frame in CUR on its samples as numbers. -/
theorem framePrediction_sampleByte (s : State) (r c ch : Nat) :
    framePrediction (sampleByte s .cur) r c ch =
      med ((if 0 < c then sampleNat s .cur r (c - 1) ch else 0 : Nat) : Int)
        ((if 0 < r then sampleNat s .cur (r - 1) c ch else 0 : Nat) : Int)
        ((if 0 < r ∧ 0 < c then sampleNat s .cur (r - 1) (c - 1) ch else 0 : Nat) : Int) := by
  unfold framePrediction
  simp only [sampleNat_eq_sampleByte, Nat.cast_ite, Nat.cast_zero]

section Boundary
variable (f : Nat → Nat → Nat → Byte) {r c : Nat} (ch : Nat)

theorem framePrediction_origin : framePrediction f 0 0 ch = 0 := med_left le_rfl

theorem framePrediction_firstRow (h : 0 < c) : framePrediction f 0 c ch = ((f 0 (c - 1) ch).toNat : Int) := by
  unfold framePrediction
  rw [if_pos h, if_neg (Nat.lt_irrefl 0), if_neg (fun hboth => Nat.lt_irrefl 0 hboth.1)]
  exact med_left (Int.natCast_nonneg _)

theorem framePrediction_firstColumn (h : 0 < r) : framePrediction f r 0 ch = ((f (r - 1) 0 ch).toNat : Int) := by
  unfold framePrediction
  rw [if_neg (Nat.lt_irrefl 0), if_pos h, if_neg (fun hboth => Nat.lt_irrefl 0 hboth.2)]
  exact med_top (Int.natCast_nonneg _)

end Boundary

theorem sampleByte_of {s : State} {b : Buffer} {r c ch : Nat} {v : Byte} (h : s.sample b r c ch = some v) :
    sampleByte s b r c ch = v := by
  simp [sampleByte, h]

/-- A result from 0 to 255 keeps its range as a word. -/
theorem toNat_tc32_le {p : Int} (h0 : 0 ≤ p) (h1 : p ≤ 255) : (tc32 p).toNat ≤ 255 := by
  lift p to Nat using h0
  unfold tc32
  rw [BitVec.ofInt_natCast, BitVec.toNat_ofNat]
  omega

/-! ### The command (44_intra.md R186) -/

section Ipred
variable {s : State} {ch : BitVec 8} {row col : BitVec 16} (he : s.regs.err = false) (hch : ch.toNat ≤ 2)
  (hwin : inWindow s.regs row.toNat col.toNat ch.toNat = true)
include he hch hwin

/-- Inside the window IPRED answers what the prediction gives, in the state it leaves. -/
theorem exec_ipred_inside {t : State} {p : Int} (hp : predict row.toNat col.toNat ch.toNat s = .ok p t) :
    exec (.ipred ch row col) s = .next (t.respond 0#8 (tc32 p)) := by
  have hbody : ipredBody ch row col s = .ok (tc32 p) t := by
    unfold ipredBody
    rw [bind_getRegs_apply, bind_require_apply, if_pos hwin, bind_of_ok hp]; rfl
  exact exec_ok (i := .ipred ch row col) he (decide_eq_true hch) hbody

/-- On written neighbours IPRED answers the prediction of the frame in CUR and changes nothing. -/
theorem exec_ipred_written
    (hleft : 0 < col.toNat → (s.sample .cur row.toNat (col.toNat - 1) ch.toNat).isSome = true)
    (htop : 0 < row.toNat → (s.sample .cur (row.toNat - 1) col.toNat ch.toNat).isSome = true)
    (hcorner : 0 < row.toNat → 0 < col.toNat →
      (s.sample .cur (row.toNat - 1) (col.toNat - 1) ch.toNat).isSome = true) :
    exec (.ipred ch row col) s = .next (s.respond 0#8
      (tc32 (framePrediction (sampleByte s .cur) row.toNat col.toNat ch.toNat))) := by
  obtain ⟨p, n, hp, -, -, hknown⟩ := predict_spec row.toNat col.toNat ch.toNat s
  obtain ⟨rfl, rfl⟩ := hknown hleft htop hcorner
  exact exec_ipred_inside he hch hwin hp

end Ipred

/-- Settles O45: the prediction completes on any neighbours, and on written ones it is the frame's. -/
theorem ipredPredicts : Obligations.IpredPredicts := by
  intro s ch row col a b cc he hch hwin
  constructor
  · obtain ⟨p, n, hp, h0, h1, -⟩ := predict_spec row.toNat col.toNat ch.toNat s
    exact ⟨_, _, exec_ipred_inside he hch hwin hp, toNat_tc32_le h0 h1, rfl⟩
  · rintro rfl rfl rfl hleft htop hcorner
    rw [exec_ipred_written he hch hwin hleft htop hcorner, framePrediction_sampleByte, med_natCast]
    unfold tc32
    rw [BitVec.ofInt_natCast]

/-- Settles O46: on the boundary the prediction reads one neighbour or none. -/
theorem ipredBoundary : Obligations.IpredBoundary := by
  intro s ch row col he hch hwin
  refine ⟨?origin, ?firstRow, ?firstColumn⟩
  case origin =>
    rintro rfl rfl
    rw [exec_ipred_written he hch hwin nofun nofun nofun]
    have hvalue : framePrediction (sampleByte s .cur) (0#16).toNat (0#16).toNat ch.toNat = 0 :=
      framePrediction_origin _ _
    rw [hvalue]; rfl
  case firstRow =>
    rintro v rfl hcol hv
    have hpos : 0 < col.toNat := by bv_omega
    rw [exec_ipred_written he hch hwin (fun _ => Option.isSome_of_eq_some hv) nofun nofun]
    have hvalue : framePrediction (sampleByte s .cur) (0#16).toNat col.toNat ch.toNat = (v.toNat : Int) := by
      rw [← sampleByte_of hv]
      exact framePrediction_firstRow _ _ hpos
    rw [hvalue, tc32, BitVec.ofInt_natCast]
  case firstColumn =>
    rintro v hrow rfl hv
    have hpos : 0 < row.toNat := by bv_omega
    rw [exec_ipred_written he hch hwin nofun (fun _ => Option.isSome_of_eq_some hv) nofun]
    have hvalue : framePrediction (sampleByte s .cur) row.toNat (0#16).toNat ch.toNat = (v.toNat : Int) := by
      rw [← sampleByte_of hv]
      exact framePrediction_firstColumn _ _ hpos
    rw [hvalue, tc32, BitVec.ofInt_natCast]

end Sys2Proof.Machine
end

section
/-! PROOFS. DECF on an intra frame (46_container.md R236, 44_intra.md R189): it completes for any numbers. What follows the
samples of an intra frame, the copy to REF and the advance of FRAME_IDX, is said once for ENCF and DECF (R233, R235). -/

namespace Sys2Proof.Machine

/-! ### The coded samples by frame type (46_container.md R232) -/

theorem codedSample_intra {g : Regs} (hi : intraNext g = true) {r c ch : Nat} :
    codedSample g r c ch ↔ inWindow g r c ch = true := by
  simp [codedSample, hi]

theorem codedSample_predicted {g : Regs} (hi : intraNext g = false) {r c ch : Nat} :
    codedSample g r c ch ↔ inBlocks g r c ch := by
  simp [codedSample, hi]

/-! ### The end of an intra frame (46_container.md R233, R235) -/

/-- The state `u` is `t`, in which the samples of an intra frame stand, after the end of the command that started in `s`:
in a hybrid variant the window of CUR is copied to REF. -/
structure IntraDone (s t u : State) : Prop where
  state : u = { t with
    regs := { t.regs with
      frameIdx := s.regs.frameIdx + 1#32
      refValid := if hybrid s.regs then true else t.regs.refValid
      refIdx := if hybrid s.regs then s.regs.frameIdx else t.regs.refIdx }
    ref := u.ref
    draws := u.draws
    responses := t.responses ++ [0#64] }
  keeps : hybrid s.regs = false → u.ref = t.ref
  copies : hybrid s.regs = true → ∀ r c ch, inWindow s.regs r c ch = true →
    ∀ v, t.sample .cur r c ch = some v → u.sample .ref r c ch = some v
  outside : hybrid s.regs = true → ∀ r c ch, c < 2 ^ 32 → ch < 2 ^ 8 → inWindow s.regs r c ch = false →
    u.sample .ref r c ch = t.sample .ref r c ch

section IntraDone
variable {s t u : State} (h : IntraDone s t u)
include h

theorem IntraDone.par : u.par = t.par := by rw [h.state]
theorem IntraDone.cur : u.cur = t.cur := by rw [h.state]
theorem IntraDone.env : u.env = t.env := by rw [h.state]
theorem IntraDone.inputs : u.inputs = t.inputs := by rw [h.state]
theorem IntraDone.responses : u.responses = t.responses ++ [0#64] := by rw [h.state]
theorem IntraDone.regs : u.regs = { t.regs with
    frameIdx := s.regs.frameIdx + 1#32
    refValid := if hybrid s.regs then true else t.regs.refValid
    refIdx := if hybrid s.regs then s.regs.frameIdx else t.regs.refIdx } := congrArg State.regs h.state

theorem IntraDone.sample_cur (r c ch : Nat) : u.sample .cur r c ch = t.sample .cur r c ch :=
  sample_cur_congr h.cur r c ch

theorem IntraDone.unreadBits : unreadBits u = unreadBits t := by rw [h.state]; rfl
theorem IntraDone.writtenBits : writtenBits u = writtenBits t := by rw [h.state]; rfl
theorem IntraDone.bufferHolds (n : Nat) : bufferHolds u.regs n = bufferHolds t.regs n := by rw [h.state]; rfl

end IntraDone

/-- A frame command on an intra frame completes once its samples are coded. -/
theorem exec_intraDone {i : Instr} {s t : State} {intra predicted : Action Unit} (he : s.regs.err = false)
    (hwf : i.wellFormed s.par = true) (hbody : bodyOf i s = codeFrame intra predicted s)
    (hi : intraNext s.regs = true) (h : intra s = .ok () t)
    (hregs : t.regs = { s.regs with bitcnt := t.regs.bitcnt, bitbuf := t.regs.bitbuf }) :
    ∃ u, exec i s = .next u ∧ IntraDone s t u := by
  obtain ⟨v, hcode, hv, hkeeps, hhybrid⟩ := codeFrame_intra (predicted := predicted) hi h hregs
  refine ⟨v.respond 0#8 0#32, exec_ok he hwf (hbody.trans hcode), ?_, hkeeps, fun hy r c ch hin w hw => ?_,
    fun hy => (hhybrid hy).2⟩
  · have hresponses : v.responses = t.responses := by rw [hv]
    rw [State.respond, hresponses]
    exact congrArg (fun x : State => { x with responses := t.responses ++ [0#64] }) hv
  · obtain ⟨y, hy', heq⟩ := (hhybrid hy).1 r c ch hin
    rw [respond_sample, hy', heq w hw]

/-- Decoding that took bits and changed CUR inside the window alone leaves the frame of an intra frame. -/
theorem frameFrame_intraDone {s t u : State} {bs : List Bool} (hi : intraNext s.regs = true) (hT : Taken s t bs)
    (hu : IntraDone s t u)
    (hout : ∀ r c ch, c < 2 ^ 32 → ch < 2 ^ 8 → inWindow s.regs r c ch = false →
      t.sample .cur r c ch = s.sample .cur r c ch) : FrameFrame s u := by
  have href : t.ref = s.ref := taken_ref hT
  refine ⟨?_, ?_, ?_, ?_, ?_, fun r c ch hc hch hn => ?_, fun hy _ => ⟨fun r c ch hin v hv => ?_,
    fun r c ch hc hch hin => ?_⟩, fun hor => ?_⟩
  · rw [hu.regs, taken_regs hT, hi, Bool.and_true]
  · rw [hu.par, taken_state hT]
  · rw [hu.inputs, taken_state hT]
  · rw [hu.env, taken_env hT]
  · rw [hu.env, taken_env hT]
  · rw [codedSample_intra hi, Bool.not_eq_true] at hn
    rw [hu.sample_cur, hout r c ch hc hch hn]
  · rw [hu.sample_cur] at hv
    exact hu.copies hy r c ch hin v hv
  · rw [hu.outside hy r c ch hc hch hin]
    exact congrArg (fun m : Memory => m.read (sampleKey r c ch)) href
  · rcases hor with hy | hp
    · rw [hu.keeps hy, href]
    · exact nomatch hi.symm.trans hp

/-- Settles O55: `DecodeIntra` on the numbers in the stream, inside the stages of DECF. -/
theorem decfIntraDecodes : Obligations.DecfIntraDecodes := by
  intro s ls rest he hm hs hlt hc hb hi hlen hfit hun
  obtain ⟨t, hdec, hT, hout, hsamples⟩ := decodeIntra_spec hc hb hlen hfit hun
  obtain ⟨u, hexec, hu⟩ := exec_intraDone (i := .decf) he rfl (decfBody_eq hm hs hlt) hi hdec (taken_regs hT)
  refine ⟨u, hexec, ?_, ?_, ?_, ?_, ?_, frameFrame_intraDone hi hT hu hout, fun r c ch l hin hl => ?_⟩
  · rw [hu.responses, taken_state hT]
  · rw [hu.unreadBits, taken_unread hT hun]
  · rw [hu.bufferHolds, taken_holds hT]
  · rw [hu.env, taken_env hT]
  · rw [hu.env, taken_env hT]
  · rw [hu.sample_cur, sampleByte_cur_congr hu.cur]
    exact hsamples r c ch l hin hl

end Sys2Proof.Machine
end

section
/-! PROOFS. DECF reading what ENCF wrote (46_container.md R238, R239; 44_intra.md R190, 45_motion.md R210): both sides
compute each sample from the same numbers and the same predictions. -/

namespace Sys2Proof.Machine

/-! ### Equal session parameters (10_state.md R43) -/

/-- The session parameters of `g` with the other registers of `h`. -/
def Regs.withControl (g h : Regs) : Regs :=
  { h with
    variant := g.variant, hdrcfg := g.hdrcfg, colorSpace := g.colorSpace, chroma := g.chroma, width := g.width
    height := g.height, m := g.m, frameCount := g.frameCount, blockSize := g.blockSize, intraPeriod := g.intraPeriod
    searchRadius := g.searchRadius, qbitsY := g.qbitsY, qbitsU := g.qbitsU, qbitsV := g.qbitsV }

/-- A register of up to 32 bits is known by the word it reads as. -/
theorem zeroExtend_inj {n : Nat} (hn : n ≤ 32) {x y : BitVec n} : x.zeroExtend 32 = y.zeroExtend 32 ↔ x = y :=
  ⟨fun h => BitVec.eq_of_toNat_eq (by
    simpa only [BitVec.zeroExtend_eq_setWidth, BitVec.toNat_setWidth_of_le hn] using congrArg BitVec.toNat h), congrArg _⟩

/-- Registers whose session parameters read the same hold the same session parameters. -/
theorem regs_of_sessionParameters {g h : Regs} (hp : sessionParameters h = sessionParameters g) :
    h = g.withControl h := by
  simp only [sessionParameters, csrValue, List.cons.injEq, and_true, zeroExtend_inj (n := 2) (by decide),
    zeroExtend_inj (n := 3) (by decide), zeroExtend_inj (n := 8) (by decide)] at hp
  obtain ⟨hvariant, hhdrcfg, hcolor, hchroma, hwidth, hheight, hm, hcount, hblock, hperiod, hradius, hy, hu, hv⟩ := hp
  unfold Regs.withControl
  rw [← hvariant, ← hhdrcfg, ← hcolor, ← hchroma, ← hwidth, ← hheight, ← hm, ← hcount, ← hblock, ← hperiod, ← hradius,
    ← hy, ← hu, ← hv]

/-- The state `u` is that of a decoder before the frame that `s` codes next. -/
structure Mirrors (s u : State) : Prop where
  err : u.regs.err = false
  mode : u.regs.mode = .read
  sess : u.regs.sess = .headerDone
  frameIdx : u.regs.frameIdx = s.regs.frameIdx
  parameters : sessionParameters u.regs = sessionParameters s.regs
  buffer : bufferHolds u.regs 8 = true

section Mirrors
variable {s u : State} (h : Mirrors s u)
include h

theorem Mirrors.regs : u.regs = s.regs.withControl u.regs := regs_of_sessionParameters h.parameters

theorem Mirrors.codingReady (hc : CodingReady s.regs) : CodingReady u.regs := by
  rw [h.regs]; exact hc

theorem Mirrors.hybrid : hybrid u.regs = hybrid s.regs := by rw [h.regs]; rfl
theorem Mirrors.m : u.regs.m = s.regs.m := by rw [h.regs]; rfl
theorem Mirrors.height : u.regs.height = s.regs.height := by rw [h.regs]; rfl
theorem Mirrors.width : u.regs.width = s.regs.width := by rw [h.regs]; rfl
theorem Mirrors.blockSize : u.regs.blockSize = s.regs.blockSize := by rw [h.regs]; rfl
theorem Mirrors.frameCount : u.regs.frameCount = s.regs.frameCount := by rw [h.regs]; rfl
theorem Mirrors.channels : channels u.regs = channels s.regs := by rw [h.regs]; rfl
theorem Mirrors.inWindow : inWindow u.regs = inWindow s.regs := by rw [h.regs]; rfl
theorem Mirrors.reconstruct : reconstruct u.regs = reconstruct s.regs := by rw [h.regs]; rfl
theorem Mirrors.blockOrder : blockOrder u.regs = blockOrder s.regs := by rw [h.regs]; rfl
theorem Mirrors.predictedNumbers : predictedNumbers u.regs = predictedNumbers s.regs := by rw [h.regs]; rfl
theorem Mirrors.blockFine : BlockFine u.regs = BlockFine s.regs := by rw [h.regs]; rfl

theorem Mirrors.intraNext : intraNext u.regs = intraNext s.regs := by
  have hperiod : u.regs.intraPeriod = s.regs.intraPeriod := by rw [h.regs]; rfl
  unfold Machine.intraNext
  rw [h.hybrid, h.frameIdx, hperiod]

theorem Mirrors.frameLeft (hlt : s.regs.frameIdx.toNat < s.regs.frameCount.toNat) :
    u.regs.frameIdx.toNat < u.regs.frameCount.toNat := by
  rwa [h.frameIdx, h.frameCount]

end Mirrors

/-- What a decoder holds after it read the bits `bs` of a frame that left the encoder in `x`; `s` and `u` are the encoder
and the decoder before the frame. -/
def DecodesTo (s x u : State) (bs rest : List Bool) : Prop :=
  unreadBits u = bs ++ rest →
  (intraNext s.regs = false → ∀ r c ch, inWindow s.regs r c ch = true →
    u.sample .ref r c ch = s.sample .ref r c ch) →
  ∃ v, exec .decf u = .next v ∧ unreadBits v = rest ∧
    v.responses = u.responses ++ [responseWord 0#8 (if intraNext s.regs then 0#32 else 1#32)] ∧
    (∀ r c ch, codedSample s.regs r c ch → v.sample .cur r c ch = x.sample .cur r c ch) ∧
    (∀ r c ch, hybrid s.regs = true → inWindow s.regs r c ch = true → v.sample .ref r c ch = x.sample .ref r c ch)

/-- The numbers that an encoder sends for samples of 8 bits fit a register. -/
theorem fits32_of_natAbs_le {x : Int} (h : x.natAbs ≤ 255) : fits32 x = true :=
  decide_eq_true (by omega)

/-! ### Intra frames (44_intra.md R190) -/

/-- The numbers of an intra frame decode to the samples that the encoder reconstructs. -/
theorem decodesTo_intra {s t x u : State} {ls : List Int} {rest : List Bool} (hu : Mirrors s u)
    (hlt : s.regs.frameIdx.toNat < s.regs.frameCount.toNat) (hc : CodingReady s.regs) (hi : intraNext s.regs = true)
    (hlen : ls.length = s.regs.height.toNat * s.regs.width.toNat * channels s.regs) (hsmall : ∀ l ∈ ls, l.natAbs ≤ 255)
    (hcoded : ∀ r c ch l, inWindow s.regs r c ch = true →
      ls[rasterIndex s.regs.width.toNat (channels s.regs) r c ch]? = some l →
      t.sample .cur r c ch = some (reconstruct s.regs ch (framePrediction (sampleByte t .cur) r c ch) l))
    (hx : IntraDone s t x) : DecodesTo s x u (codewords s.regs.m.toNat ls) rest := by
  intro hun _
  obtain ⟨v, hexec, hresponses, hrest, -, -, -, hframe, hdecoded⟩ := decfIntraDecodes u ls rest hu.err hu.mode hu.sess
    (hu.frameLeft hlt) (hu.codingReady hc) hu.buffer (hu.intraNext.trans hi)
    (by rw [hu.height, hu.width, hu.channels]; exact hlen) (fun l hl => fits32_of_natAbs_le (hsmall l hl))
    (by rw [hu.m]; exact hun)
  rw [hu.inWindow, hu.width, hu.channels, hu.reconstruct] at hdecoded
  have hcur : ∀ r c ch, inWindow s.regs r c ch = true → v.sample .cur r c ch = t.sample .cur r c ch :=
    intra_unique hlen hcoded hdecoded
  refine ⟨v, hexec, hrest, ?_, fun r c ch hin => ?_, fun r c ch hy hin => ?_⟩
  · rw [hresponses, hi]; rfl
  · rw [hcur r c ch ((codedSample_intra hi).mp hin), hx.sample_cur]
  · obtain ⟨-, -, -, -, -, -, hcopies, -⟩ := hframe
    rw [hu.hybrid, hu.intraNext, hu.inWindow] at hcopies
    obtain ⟨hcopied, -⟩ := hcopies hy hi
    obtain ⟨h1, h2, h3⟩ := inWindow_iff.mp hin
    have hlt' := hlen ▸ rasterIndex_lt h1 h2 h3
    have ht := hcoded r c ch _ hin (List.getElem?_eq_getElem hlt')
    rw [hx.copies hy r c ch hin _ ht, hcopied r c ch hin _ ((hcur r c ch hin).trans ht)]

/-! ### Predicted frames (45_motion.md R210) -/

/-- Each sample of the partition lies in one of its blocks (45_motion.md R200). -/
theorem exists_block_of_inBlocks {g : Regs} {r c ch : Nat} (h : inBlocks g r c ch) :
    ∃ b ∈ blockOrder g, ∃ i j, i < g.blockSize.toNat ∧ j < g.blockSize.toNat ∧
      r = b.1 * g.blockSize.toNat + i ∧ c = b.2 * g.blockSize.toNat + j := by
  obtain ⟨hr, hcol, -⟩ := h
  have hB : 0 < g.blockSize.toNat := Nat.pos_of_mul_pos_left (Nat.zero_lt_of_lt hr)
  exact ⟨(r / g.blockSize.toNat, c / g.blockSize.toNat),
    mem_blockOrder.mpr ⟨(Nat.div_lt_iff_lt_mul hB).mpr hr, (Nat.div_lt_iff_lt_mul hB).mpr hcol⟩,
    r % g.blockSize.toNat, c % g.blockSize.toNat, Nat.mod_lt _ hB, Nat.mod_lt _ hB,
    (Nat.div_add_mod' _ _).symm, (Nat.div_add_mod' _ _).symm⟩

/-- The vector of a coded block leads back to its position. -/
theorem CodedBlock.displaced_vector (d : CodedBlock) (B br bc : Nat) :
    displaced (br * B) (d.vector B br bc).2 = d.row ∧ displaced (bc * B) (d.vector B br bc).1 = d.col :=
  ⟨displaced_of _ _, displaced_of _ _⟩

/-- The vectors that an encoder sends for the blocks `F` of size `B`. -/
def sentVectors (B : Nat) (F : Nat → Nat → CodedBlock) (br bc : Nat) : Int × Int := (F br bc).vector B br bc

/-- The residuals that an encoder sends for the blocks `F`. -/
def sentResiduals (F : Nat → Nat → CodedBlock) (br bc : Nat) : List Int := (F br bc).residuals

section Blocks
variable {s t : State} {F : Nat → Nat → CodedBlock} {b : Nat × Nat} (h : BlockCoded s t b.1 b.2 (F b.1 b.2))
include h

/-- A decoder accepts what an encoder sends for a block. -/
theorem BlockCoded.blockFine : BlockFine s.regs (sentVectors s.regs.blockSize.toNat F) (sentResiduals F) b := by
  obtain ⟨hwin, hlen, hsmall, -⟩ := h
  obtain ⟨hrow, hcol⟩ := inSearchWindow_inside hwin
  have hradius := s.regs.searchRadius.isLt
  unfold inSearchWindow at hwin
  unfold BlockFine ReferenceInside sentVectors sentResiduals CodedBlock.vector
  dsimp only
  exact ⟨by omega, fits32_of_natAbs_le (by omega), fits32_of_natAbs_le (by omega), hlen,
    fun l hl => fits32_of_natAbs_le (hsmall l hl)⟩

/-- A decoder with the encoder's reference decodes the samples that the encoder reconstructs. -/
theorem BlockCoded.decoded_sample {u v : State} (hu : Mirrors s u) (hcur : WindowWritten s .cur)
    (href : WindowWritten s .ref)
    (hsame : ∀ r c ch, inWindow s.regs r c ch = true → u.sample .ref r c ch = s.sample .ref r c ch)
    (hv : BlockDecoded u v b (sentVectors s.regs.blockSize.toNat F b.1 b.2) (sentResiduals F b.1 b.2))
    {i j ch : Nat} (hi : i < s.regs.blockSize.toNat) (hj : j < s.regs.blockSize.toNat) (hch : ch < channels s.regs) :
    v.sample .cur (b.1 * s.regs.blockSize.toNat + i) (b.2 * s.regs.blockSize.toNat + j) ch =
      t.sample .cur (b.1 * s.regs.blockSize.toNat + i) (b.2 * s.regs.blockSize.toNat + j) ch := by
  obtain ⟨hwin, hlen, -, hwritten⟩ := h
  obtain ⟨hrow, hcol⟩ := inSearchWindow_inside hwin
  obtain ⟨hrowOf, hcolOf⟩ := (F b.1 b.2).displaced_vector s.regs.blockSize.toNat b.1 b.2
  have hlt := hlen ▸ rasterIndex_lt hi hj hch
  have hl := List.getElem?_eq_getElem hlt
  have hin : inWindow s.regs ((F b.1 b.2).row + i) ((F b.1 b.2).col + j) ch = true :=
    inWindow_iff.mpr ⟨by omega, by omega, hch⟩
  obtain ⟨y, hy⟩ := href _ _ ch hin
  obtain ⟨-, hsamples⟩ := hwritten hcur href
  obtain ⟨hstored, -⟩ := hsamples i j ch _ hi hj hch hl
  unfold BlockDecoded sentVectors sentResiduals at hv
  rw [hu.blockSize, hu.channels, hu.reconstruct, hrowOf, hcolOf] at hv
  rw [hv i j ch _ y hi hj hch hl ((hsame _ _ ch hin).trans hy), hstored, sampleByte_of hy]

end Blocks

/-- The vectors and the residuals of a predicted frame decode to the samples that the encoder reconstructs. -/
theorem decodesTo_predicted {s t x u : State} {F : Nat → Nat → CodedBlock} {rest : List Bool} (hu : Mirrors s u)
    (hlt : s.regs.frameIdx.toNat < s.regs.frameCount.toNat) (hc : CodingReady s.regs) (hi : intraNext s.regs = false)
    (hcur : WindowWritten s .cur) (href : WindowWritten s .ref)
    (hcoded : ∀ b ∈ blockOrder s.regs, BlockCoded s t b.1 b.2 (F b.1 b.2)) (hxcur : x.cur = t.cur) (hxref : x.ref = s.ref) :
    DecodesTo s x u (codewords s.regs.m.toNat
      (predictedNumbers s.regs (sentVectors s.regs.blockSize.toNat F) (sentResiduals F))) rest := by
  intro hun hsame
  obtain ⟨v, hexec, hresponses, hrest, -, -, -, hframe, hdecoded⟩ := (decfPredictedDecodes u
    (sentVectors s.regs.blockSize.toNat F) (sentResiduals F) rest hu.err hu.mode hu.sess (hu.frameLeft hlt)
    (hu.codingReady hc) hu.buffer (hu.intraNext.trans hi)).1
    (by rw [hu.blockOrder, hu.blockFine]; exact fun b hb => (hcoded b hb).blockFine)
    (by rw [hu.m, hu.predictedNumbers]; exact hun)
  rw [hu.blockOrder] at hdecoded
  refine ⟨v, hexec, hrest, ?_, fun r c ch hin => ?_, fun r c ch _ hin => ?_⟩
  · rw [hresponses, hi]; rfl
  · rw [codedSample_predicted hi] at hin
    obtain ⟨b, hb, i, j, hrow, hcol, rfl, rfl⟩ := exists_block_of_inBlocks hin
    obtain ⟨-, -, hch⟩ := hin
    rw [(hcoded b hb).decoded_sample hu hcur href (hsame hi) (hdecoded b hb) hrow hcol hch, sample_cur_congr hxcur]
  · obtain ⟨-, -, -, -, -, -, -, hkept⟩ := hframe
    have hvref : v.ref = u.ref := hkept (.inr (hu.intraNext.trans hi))
    have hv : v.sample .ref r c ch = u.sample .ref r c ch := congrArg (fun m : Memory => m.read (sampleKey r c ch)) hvref
    have hx : x.sample .ref r c ch = s.sample .ref r c ch := congrArg (fun m : Memory => m.read (sampleKey r c ch)) hxref
    rw [hv, hsame hi r c ch hin, hx]

/-! ### The statement -/

/-- Settles O57: the encoder sends numbers that every decoder of its session decodes to the encoder's samples. -/
theorem frameRoundTrip : Obligations.FrameRoundTrip := by
  intro s he hm hs hlt hc hr hb hcur href
  suffices h : ∃ x bs, exec .encf s = .next x ∧ writtenBits x = writtenBits s ++ bs ∧
      (lossy s.regs = false → x.cur = s.cur) ∧ ∀ u rest, Mirrors s u → DecodesTo s x u bs rest by
    obtain ⟨x, bs, hexec, hbits, hlossless, hdecodes⟩ := h
    exact ⟨x, bs, hexec, hbits, hlossless, fun u rest he' hm' hs' hidx hparams hbuf =>
      hdecodes u rest ⟨he', hm', hs', hidx, hparams, hbuf⟩⟩
  cases hi : intraNext s.regs with
  | true =>
    obtain ⟨t, ls, hcode, hB, hlen, hsmall, hlossless, -, hsamples, -⟩ := encodeIntra_spec hc hr hb
    obtain ⟨x, hexec, hx⟩ := exec_intraDone (i := .encf) he rfl (encfBody_eq hm hs hlt) hi hcode (behind_regs hB)
    refine ⟨x, _, hexec, hx.writtenBits.trans (behind_written hB), fun hL => hx.cur.trans (hlossless hL),
      fun u rest hu => decodesTo_intra hu hlt hc hi hlen hsmall (fun r c ch l hin hl => ?_) hx⟩
    exact (hsamples hcur r c ch l hin hl).1
  | false =>
    obtain ⟨t, F, hcode, hB, hlossless, -, hcoded⟩ := encodePred_spec hc hr hb
    have hexec : exec .encf s = .next (predictedDone s t) :=
      exec_ok (i := .encf) he rfl ((encfBody_eq hm hs hlt).trans (codeFrame_predicted hi hcode))
    have hbits : writtenBits (predictedDone s t) = writtenBits t := rfl
    have hkept : (predictedDone s t).ref = s.ref := (predictedDone_ref s t).trans (behind_ref hB)
    exact ⟨_, _, hexec, hbits.trans (behind_written hB), hlossless, fun u rest hu =>
      decodesTo_predicted hu hlt hc hi hcur (href hi) hcoded rfl hkept⟩

end Sys2Proof.Machine
end

section
/-! PROOFS. MATCH (45_motion.md R204 to R206): its preconditions in their order, and its answer past them, on any frames
and on written ones. -/

namespace Sys2Proof.Machine

/-! ### The body (45_motion.md R204) -/

/-- The first two preconditions of MATCH: there is a reference frame, and the block size is set. -/
def MatchReady (g : Regs) : Prop :=
  g.refValid = true ∧ g.blockSize ≠ 0#8

/-- The third precondition of MATCH: the block at (`row`, `col`) lies inside the frame. -/
abbrev MatchInside (g : Regs) (row col : BitVec 16) : Prop :=
  row.toNat + g.blockSize.toNat ≤ g.height.toNat ∧ col.toNat + g.blockSize.toNat ≤ g.width.toNat

section MatchCommand
variable {s : State} {row col : BitVec 16}

theorem matchBlockBody_unready (h : ¬ MatchReady s.regs) : matchBlockBody row col s = .error .invalidState s := by
  unfold matchBlockBody
  rw [bind_getRegs_apply, bind_require_apply]
  split
  case isTrue href => rw [bind_require_apply, if_neg (fun hblock => h ⟨href, of_decide_eq_true hblock⟩)]
  case isFalse => rfl

/-- Past its first two preconditions MATCH tests the block's place and searches. -/
theorem matchBlockBody_ready (h : MatchReady s.regs) :
    matchBlockBody row col s =
      if MatchInside s.regs row col then
        (matchSearch s.regs row.toNat col.toNat >>= fun v => pure (tc16 v.2 ++ tc16 v.1)) s
      else .error .outOfBounds s := by
  obtain ⟨href, hblock⟩ := h
  unfold matchBlockBody
  rw [bind_getRegs_apply, bind_require_apply, if_pos href, bind_require_apply, if_pos (decide_eq_true hblock),
    bind_require_apply]
  simp only [decide_eq_true_eq]

/-! ### The command (45_motion.md R204) -/

theorem exec_matchBlock_unready (he : s.regs.err = false) (h : ¬ MatchReady s.regs) :
    exec (.matchBlock row col) s = .next (takeFault 0x48#8 .invalidState s) :=
  exec_raise (i := .matchBlock row col) he rfl (matchBlockBody_unready h)

theorem exec_matchBlock_outside (he : s.regs.err = false) (h : MatchReady s.regs)
    (hout : ¬ MatchInside s.regs row col) :
    exec (.matchBlock row col) s = .next (takeFault 0x48#8 .outOfBounds s) :=
  exec_raise (i := .matchBlock row col) he rfl ((matchBlockBody_ready h).trans (if_neg hout))

/-- Past its preconditions MATCH answers the displacement of a candidate of the window and changes at most the counter
of free values; on written frames the candidate is the first best, and the counter stays. -/
theorem exec_matchBlock_inside (he : s.regs.err = false) (h : MatchReady s.regs) (hin : MatchInside s.regs row col) :
    ∃ r1 c1 m : Nat,
      exec (.matchBlock row col) s = .next (State.respond { s with draws := m } 0#8
        (BitVec.ofInt 16 ((r1 : Int) - row.toNat) ++ BitVec.ofInt 16 ((c1 : Int) - col.toNat))) ∧
      inSearchWindow s.regs row.toNat col.toNat r1 c1 ∧
      (WindowWritten s .cur → WindowWritten s .ref → FirstBest s row.toNat col.toNat r1 c1 ∧ m = s.draws) := by
  obtain ⟨r1, c1, m, hsearch, hwindow, hwritten⟩ := matchSearch_spec s.draws hin.1 hin.2
  have hbody : matchBlockBody row col s =
      .ok (tc16 ((r1 : Int) - row.toNat) ++ tc16 ((c1 : Int) - col.toNat)) { s with draws := m } := by
    rw [matchBlockBody_ready h, if_pos hin, bind_of_ok hsearch]
    rfl
  exact ⟨r1, c1, m, exec_ok (i := .matchBlock row col) he rfl hbody, hwindow, hwritten⟩

end MatchCommand

/-! ### Radius 0 (45_motion.md R205) -/

/-- A window of radius 0 holds the co-located position only. -/
theorem inSearchWindow_radius_zero {g : Regs} {r0 c0 r1 c1 : Nat} (hR : g.searchRadius = 0#8)
    (h : inSearchWindow g r0 c0 r1 c1) : r1 = r0 ∧ c1 = c0 := by
  have hzero : g.searchRadius.toNat = 0 := congrArg BitVec.toNat hR
  unfold inSearchWindow at h
  omega

/-! ### The statements -/

/-- Settles O47: the candidate that MATCH answers is the first best, and no free value is drawn. -/
theorem matchFindsFirstBest : Obligations.MatchFindsFirstBest := by
  intro s row col he href hblock hrow hcol hcur hrefWritten
  obtain ⟨r1, c1, m, hexec, -, hwritten⟩ := exec_matchBlock_inside he ⟨href, hblock⟩ ⟨hrow, hcol⟩
  obtain ⟨hbest, rfl⟩ := hwritten hcur hrefWritten
  exact ⟨r1, c1, hbest, hexec⟩

/-- Settles O48: each precondition in its order, then the search, whose only candidate at radius 0 is the co-located
block. -/
theorem matchPreconditions : Obligations.MatchPreconditions := by
  intro s row col he
  refine ⟨fun hunready => ?unready, fun href hblock hout => ?outside, fun href hblock hrow hcol => ?inside⟩
  case unready =>
    refine exec_matchBlock_unready he (fun ⟨href, hblock⟩ => ?_)
    exact hunready.elim (fun hnone => Bool.false_ne_true (hnone.symm.trans href)) hblock
  case outside =>
    refine exec_matchBlock_outside he ⟨href, hblock⟩ (fun ⟨hrow, hcol⟩ => ?_)
    exact hout.elim (Nat.not_lt.mpr hrow) (Nat.not_lt.mpr hcol)
  case inside =>
    obtain ⟨r1, c1, m, hexec, hwindow, -⟩ := exec_matchBlock_inside he ⟨href, hblock⟩ ⟨hrow, hcol⟩
    refine ⟨_, _, hexec, rfl, fun hR => ?_⟩
    obtain ⟨rfl, rfl⟩ := inSearchWindow_radius_zero hR hwindow
    rw [Int.sub_self, Int.sub_self]
    rfl

end Sys2Proof.Machine
end

section
/-! PROOFS. CPREF (47_system.md R256): the copy of CUR to REF outside a session, and the refusal inside one. -/

namespace Sys2Proof.Machine

section Cpref
variable {s : State}

theorem cprefBody_of_session (hs : s.regs.sess = .headerDone) : cprefBody s = .error .invalidState s := by
  unfold cprefBody
  rw [bind_getRegs_apply, bind_require_apply, if_neg (by simp [hs])]

theorem cprefBody_of_no_session (hs : s.regs.sess ≠ .headerDone) :
    cprefBody s = (copyCurToRef 0#32 >>= fun _ => pure 0#32) s := by
  unfold cprefBody
  rw [bind_getRegs_apply, bind_require_apply, if_pos (decide_eq_true hs)]

end Cpref

/-- Settles O24: CPREF is `CopyCurToRef(0)`, whose effect `copyCurToRef_spec` says, behind its test of SESS. -/
theorem cprefCopiesWindow : Obligations.CprefCopiesWindow := by
  intro s he
  refine ⟨fun hs => ?outside, fun hs => exec_raise (i := .cpref) he rfl (cprefBody_of_session hs)⟩
  case outside =>
    obtain ⟨t, hcopy, ht, hwindow, hrest⟩ := copyCurToRef_spec 0#32 s
    have hexec : exec .cpref s = .next (t.respond 0#8 0#32) :=
      exec_ok (i := .cpref) he rfl ((cprefBody_of_no_session hs).trans (bind_of_ok hcopy))
    refine ⟨_, hexec, fun r c ch v hin hv => ?copied, fun r c ch hc hch hin => ?kept, ?frame⟩
    case copied =>
      obtain ⟨w, hw, heq⟩ := hwindow r c ch hin
      rw [respond_sample, hw, heq v hv]
    case kept => rw [respond_sample, hrest r c ch hc hch hin]
    case frame =>
      rw [respond_ref, respond_draws]
      exact congrArg (fun x : State => x.respond 0#8 0#32) ht

end Sys2Proof.Machine
end

section
/-! PROOFS. Headers (46_container.md R221 to R226): how long a header is, what WRHDR writes and what RDHDR loads. -/

namespace Sys2Proof.Machine

/-! ### The length of a header (46_container.md R222) -/

/-- A header has its fixed fields, its fields of either width, and three bytes for each of the two features. -/
theorem headerBits_length (g : Regs) :
    (headerBits g).length =
      14 + 2 * dimWidth g + countWidth g + (if hybrid g then 24 else 0) + (if lossy g then 24 else 0) := by
  unfold headerBits
  cases hybrid g <;> cases lossy g <;> simp [bitsOf_length] <;> omega

/-- Settles O50: the table lists the formula of `headerBits_length` at each VARIANT and HDRCFG. -/
theorem headerLength : Obligations.HeaderLength := by
  intro g n hmem
  rw [headerBits_length]
  unfold dimWidth countWidth dim32 fc32 hybrid lossy
  simp only [List.mem_cons, List.not_mem_nil, or_false, Prod.mk.injEq] at hmem
  rcases hmem with h | h | h | h | h | h | h | h | h | h | h | h | h | h | h | h <;>
    (obtain ⟨hcfg, hvar, rfl⟩ := h; rw [hcfg, hvar]; rfl)

/-! ### Checking a header (46_container.md R224) -/

section CheckHeader
variable {w : Bool} {h : Header} {s : State}

theorem checkHeader_of_none (hv : validateHeader s.par s.regs w h = none) : checkHeader w h s = .ok () s := by
  unfold checkHeader
  rw [hv]

theorem checkHeader_of_some {c : Cause} (hv : validateHeader s.par s.regs w h = some c) :
    checkHeader w h s = .error c s := by
  unfold checkHeader
  rw [hv]

end CheckHeader

/-- The header that the registers describe is fine exactly when they are acceptable. -/
theorem headerFine_headerOfRegs {p : Config.Params} {g : Regs} :
    headerFine p g (headerOfRegs g) ↔ HeaderAccepted p g := by
  rw [← readHeader_self]
  exact headerFine_iff rfl

/-! ### WRHDR (46_container.md R225) -/

section Wrhdr
variable {s : State} (he : s.regs.err = false) (hm : s.regs.mode = .write) (hs : s.regs.sess = .uninit)
include hm hs

/-- Past its tests of MODE and SESS, WRHDR checks the header before its first bit. -/
theorem wrhdrBody_of_uninit :
    wrhdrBody s = (checkHeader true (headerOfRegs s.regs) >>= fun _ => putHeader s.regs >>= fun _ =>
      modifyRegs headerDoneRegs >>= fun _ => pure 0#32) s := by
  unfold wrhdrBody
  rw [requireMode_bind_of_eq hm, bind_requireSess_apply, if_pos hs, bind_getRegs_apply]

include he

theorem exec_wrhdr_rejected {c : Cause} (hv : validateHeader s.par s.regs true (headerOfRegs s.regs) = some c) :
    exec .wrhdr s = .next (takeFault 0x50#8 c s) :=
  exec_raise (i := .wrhdr) he rfl ((wrhdrBody_of_uninit hm hs).trans (bind_of_error (checkHeader_of_some hv)))

theorem exec_wrhdr_accepted (hv : validateHeader s.par s.regs true (headerOfRegs s.regs) = none)
    (hr : sinkReady s = true) (hb : bufferHolds s.regs 7 = true) :
    ∃ t, AppendsBits s t (headerBits s.regs) ∧
      exec .wrhdr s = .next (State.respond { t with regs := headerDoneRegs t.regs } 0#8 0#32) := by
  obtain ⟨t, hput, happ⟩ := putHeader_appends s.regs s hr hb
  refine ⟨t, happ, exec_ok (i := .wrhdr) he rfl ((wrhdrBody_of_uninit hm hs).trans ?_)⟩
  rw [bind_of_ok (checkHeader_of_none hv), bind_of_ok hput]
  rfl

end Wrhdr

/-- Settles O49: `validateHeader_write` says which of the three ends the checks of WRHDR come to. -/
theorem wrhdrWritesHeader : Obligations.WrhdrWritesHeader := by
  intro s he hm hs
  obtain ⟨hunset, hfine, hbad⟩ := validateHeader_write s.par s.regs (headerOfRegs s.regs)
  refine ⟨fun hacc hfit hr hb => ?accepted, fun h0 => ?unset, fun h0 hn => ?rejected⟩
  case accepted =>
    obtain ⟨hdim, hcount⟩ := hfit
    exact exec_wrhdr_accepted he hm hs (hfine (headerFine_headerOfRegs.mpr hacc) hdim hcount) hr hb
  case unset => exact exec_wrhdr_rejected he hm hs (hunset (congrArg BitVec.toNat h0))
  case rejected =>
    have hset : (headerOfRegs s.regs).m ≠ 0 := fun hzero => h0 (BitVec.eq_of_toNat_eq hzero)
    exact exec_wrhdr_rejected he hm hs (hbad hset fun ⟨hf, hdim, hcount⟩ =>
      hn ⟨headerFine_headerOfRegs.mp hf, hdim, hcount⟩)

/-! ### RDHDR (46_container.md R226) -/

/-- Reading bits changes the bit buffer alone in the registers. -/
theorem consumesBits_regs {s t : State} {bs : List Bool} (h : ConsumesBits s t bs) :
    t.regs = { s.regs with bitcnt := t.regs.bitcnt, bitbuf := t.regs.bitbuf } := by
  obtain ⟨-, -, ht⟩ := h
  exact congrArg State.regs ht

theorem consumesBits_par {s t : State} {bs : List Bool} (h : ConsumesBits s t bs) : t.par = s.par := by
  obtain ⟨-, -, ht⟩ := h
  rw [ht]

/-- Loading the header that is read gives each register its field, or leaves it where the variant has none. -/
theorem loadHeader_readHeader (old g x : Regs) :
    loadHeader (readHeader old g) x = { x with
      colorSpace := g.colorSpace
      chroma := g.chroma
      width := g.width
      height := g.height
      m := g.m
      frameCount := g.frameCount
      blockSize := if hybrid old then g.blockSize else old.blockSize
      intraPeriod := if hybrid old then g.intraPeriod else old.intraPeriod
      searchRadius := if hybrid old then g.searchRadius else old.searchRadius
      qbitsY := if lossy old then g.qbitsY else old.qbitsY
      qbitsU := if lossy old then g.qbitsU else old.qbitsU
      qbitsV := if lossy old then g.qbitsV else old.qbitsV } := by
  unfold loadHeader readHeader
  cases hybrid old <;> cases lossy old <;> simp

/-- Past its tests of MODE and SESS, RDHDR reads the whole header before it checks it. -/
theorem rdhdrBody_of_read {s t : State} {h : Header} (hm : s.regs.mode = .read) (hs : s.regs.sess = .uninit)
    (hget : getHeader s.regs s = .ok h t) :
    rdhdrBody s = (checkHeader false h >>= fun _ => modifyRegs (loadHeader h) >>= fun _ =>
      modifyRegs headerDoneRegs >>= fun _ => pure 0#32) t := by
  unfold rdhdrBody
  rw [requireMode_bind_of_eq hm, bind_requireSess_apply, if_pos hs, bind_getRegs_apply, bind_of_ok hget]

/-- The check of RDHDR passes the header of `g`, once its bits were read, exactly when `g` is acceptable. -/
theorem checkHeader_readHeader {s t : State} {g : Regs} {bs : List Bool} (hc : ConsumesBits s t bs)
    (hv : g.variant = s.regs.variant) :
    (HeaderAccepted s.par g → checkHeader false (readHeader s.regs g) t = .ok () t) ∧
    (¬ HeaderAccepted s.par g → checkHeader false (readHeader s.regs g) t = .error .invalidFormat t) := by
  have hsame : validateHeader t.par t.regs false (readHeader s.regs g) =
      validateHeader s.par s.regs false (readHeader s.regs g) := by
    rw [consumesBits_par hc, consumesBits_regs hc]
    rfl
  obtain ⟨hpasses, hfails⟩ := validateHeader_read s.par s.regs (readHeader s.regs g)
  rw [headerFine_iff hv] at hpasses hfails
  exact ⟨fun hacc => checkHeader_of_none (hsame.trans (hpasses hacc)),
    fun hn => checkHeader_of_some (hsame.trans (hfails hn))⟩

/-- Settles O51: `getHeader_consumes` reads the header of `g`, and its check decides whether it is loaded. -/
theorem rdhdrLoadsHeader : Obligations.RdhdrLoadsHeader := by
  intro s g rest he hm hs hb hv hh hfit hun
  obtain ⟨t, hget, hc⟩ := getHeader_consumes hv hh hfit hb hun
  obtain ⟨hpasses, hfails⟩ := checkHeader_readHeader hc hv
  have hbody := rdhdrBody_of_read hm hs hget
  refine ⟨t, hc, fun hacc => ?accepted, fun hn => ?rejected⟩
  case accepted =>
    have hhybrid : hybrid s.regs = hybrid g := by unfold hybrid; rw [hv]
    have hlossy : lossy s.regs = lossy g := by unfold lossy; rw [hv]
    have hload : rdhdrBody s = .ok 0#32 { t with regs := headerDoneRegs (loadHeader (readHeader s.regs g) t.regs) } :=
      hbody.trans (bind_of_ok (hpasses hacc))
    rw [loadHeader_readHeader, hhybrid, hlossy] at hload
    exact exec_ok (i := .rdhdr) he rfl hload
  case rejected => exact exec_raise (i := .rdhdr) he rfl (hbody.trans (bind_of_error (hfails hn)))

end Sys2Proof.Machine
end

section
/-! PROOFS. The session state machine (46_container.md R230, R231): where each body goes on, and the MODE and SESS in
which it ends. -/

namespace Sys2Proof.Machine

/-! ### Changes that leave MODE and SESS alone -/

/-- `t` has MODE, SESS and ERR of `s`. -/
structure SameSession (s t : State) : Prop where
  mode : t.regs.mode = s.regs.mode
  sess : t.regs.sess = s.regs.sess
  err : t.regs.err = s.regs.err

theorem sameSession_of_regs {s t : State} (h : t.regs = s.regs) : SameSession s t := by
  constructor <;> rw [h]

theorem SameSession.pair {s t : State} (h : SameSession s t) :
    (t.regs.mode, t.regs.sess) = (s.regs.mode, s.regs.sess) := by
  rw [h.mode, h.sess]

theorem respects_sameSession : Respects SameSession where
  refl _ := ⟨rfl, rfl, rfl⟩
  trans _ _ _ h g := ⟨g.mode.trans h.mode, g.sess.trans h.sess, g.err.trans h.err⟩
  bits _ _ _ := ⟨rfl, rfl, rfl⟩
  sink _ _ _ := ⟨rfl, rfl, rfl⟩
  source _ _ := ⟨rfl, rfl, rfl⟩
  draw _ _ := ⟨rfl, rfl, rfl⟩

/-- The commands that move MODE or SESS where they complete, 46_container.md R230. -/
def movesSession : Instr → Bool
  | .reset | .bopenw | .bopenr | .bclose | .wrhdr | .rdhdr => true
  | _ => false

/-- The body of any other command leaves MODE and SESS alone, however it ends. -/
theorem bodyOf_keeps_session {i : Instr} (h : movesSession i = false) : Keeps SameSession (bodyOf i) := by
  have hb := respects_sameSession
  have hset : ∀ s b r c ch v, SameSession s (State.setSample s b r c ch v) :=
    fun s b r c ch v => sameSession_of_regs (setSample_regs s b r c ch v)
  have hrun : ∀ (s : State) n x, SameSession s { s with regs := { s.regs with runCount := n, lastValue := x } } :=
    fun _ _ _ => ⟨rfl, rfl, rfl⟩
  have hreference : ∀ (s : State) i, SameSession s { s with regs := { s.regs with refValid := true, refIdx := i } } :=
    fun _ _ => ⟨rfl, rfl, rfl⟩
  have hframe : ∀ (s : State) i, SameSession s { s with regs := { s.regs with frameIdx := i } } :=
    fun _ _ => ⟨rfl, rfl, rfl⟩
  cases i with
  | nop => exact keeps_nopBody hb
  | csrr a => exact keeps_csrrBody hb a
  | csrw a v => exact keeps_csrwBody hb a v fun _ _ _ _ => ⟨csrSet_mode .., csrSet_sess .., csrSet_err ..⟩
  | pxwr ch v row col => exact keeps_pxwrBody hb ch v row col fun s => hset s .cur
  | pxrd ch buf row col => exact keeps_pxrdBody hb ch buf row col
  | cpref => exact keeps_cprefBody hb (fun s => hset s .ref) hreference
  | putbit b => exact keeps_putbitBody hb b
  | putbits n v => exact keeps_putbitsBody hb n v
  | getbit => exact keeps_getbitBody hb
  | getbits n => exact keeps_getbitsBody hb n
  | genc n => exact keeps_gencBody hb n
  | gdec => exact keeps_gdecBody hb
  | rpush v => exact keeps_rpushBody hb v hrun
  | rflush => exact keeps_rflushBody hb hrun
  | rpop => exact keeps_rpopBody hb hrun
  | qlevel ch v => exact keeps_qlevelBody hb ch v
  | qvalue ch l => exact keeps_qvalueBody hb ch l
  | quant ch v => exact keeps_quantBody hb ch v
  | ipred ch row col => exact keeps_ipredBody hb ch row col
  | matchBlock row col => exact keeps_matchBlockBody hb row col
  | encf => exact keeps_encfBody hb (fun s => hset s .cur) (fun s => hset s .ref) hreference hframe
  | decf => exact keeps_decfBody hb (fun s => hset s .cur) (fun s => hset s .ref) hreference hframe
  | reset | bopenw | bopenr | bclose | wrhdr | rdhdr => exact nomatch h

/-! ### Where a body ends -/

/-- The end of a body that started in `s`: it completes with MODE and SESS of `after`, or raises and moves neither. -/
def SessionEnd (s : State) (after : Mode × Sess) : EStateM.Result Cause State Word → Prop
  | .ok _ t => (s.regs.err = false → t.regs.err = false) ∧ (t.regs.mode, t.regs.sess) = after
  | .error _ t => SameSession s t

section SessionEnd
variable {s : State} {after : Mode × Sess}

theorem sessionEnd_of_sameSession {r : EStateM.Result Cause State Word} (h : SameSession s (endState r)) :
    SessionEnd s (s.regs.mode, s.regs.sess) r := by
  cases r with
  | ok v t => exact ⟨h.err.trans, h.pair⟩
  | error c t => exact h

theorem sessionEnd_of_regs {v : Word} {t : State} {g : Regs} (hr : t.regs = g) (herr : g.err = s.regs.err)
    (hpair : (g.mode, g.sess) = after) : SessionEnd s after (.ok v t) := by
  subst hr
  exact ⟨herr.trans, hpair⟩

/-- A part of a body that moves neither MODE nor SESS may come before the rest. -/
theorem sessionEnd_bind {α : Type} {x : Action α} {f : α → Action Word} (hx : Keeps SameSession x)
    (h : ∀ a t, SameSession s t → SessionEnd t after (f a t)) : SessionEnd s after ((x >>= f) s) := by
  cases e : x s with
  | error c t =>
    rw [bind_of_error e]
    exact keeps_error hx e
  | ok a t =>
    have ht : SameSession s t := keeps_ok hx e
    have hend := h a t ht
    rw [bind_of_ok e]
    cases e' : f a t with
    | ok v u =>
      rw [e'] at hend
      exact ⟨fun he => hend.1 (ht.err.trans he), hend.2⟩
    | error c u =>
      rw [e'] at hend
      exact respects_sameSession.trans _ _ _ ht hend

theorem openStream_sessionEnd (m : Mode) : SessionEnd s (m, .uninit) (openStream m s) := by
  rcases openStream_end m s with ⟨c, t, e, -, hr⟩ | ⟨t, e, -, hr⟩ <;> rw [e]
  · exact sameSession_of_regs hr
  · exact sessionEnd_of_regs hr rfl rfl

theorem bcloseBody_sessionEnd : SessionEnd s (.idle, .closed) (bcloseBody s) := by
  have hflush : Keeps SameSession flushStream := keeps_flushStream respects_sameSession fun _ => ⟨rfl, rfl, rfl⟩
  rcases bcloseBody_end s with e | ⟨-, ⟨c, t, -, hf, e⟩ | ⟨t, e, -, hr⟩⟩ <;> rw [e]
  · exact respects_sameSession.refl s
  · exact keeps_error hflush hf
  · exact sessionEnd_of_regs hr rfl rfl

/-- Behind its tests of MODE and SESS a body need only end in the right way where they pass. -/
theorem sessionEnd_required {m : Mode} {x : Sess} {f : Action Word}
    (h : s.regs.mode = m → SessionEnd s after (f s)) :
    SessionEnd s after ((requireMode m >>= fun _ => requireSess x >>= fun _ => f) s) := by
  rw [bind_requireMode_apply]
  split
  next hm =>
    rw [bind_requireSess_apply]
    split
    next => exact h hm
    next => exact respects_sameSession.refl s
  next => exact respects_sameSession.refl s

/-- A header comes into force at the end of WRHDR and RDHDR. -/
theorem headerDone_sessionEnd {m : Mode} (hm : s.regs.mode = m) :
    SessionEnd s (m, .headerDone) ((modifyRegs headerDoneRegs >>= fun _ => pure 0#32) s) :=
  ⟨id, congrArg (·, Sess.headerDone) hm⟩

theorem wrhdrBody_sessionEnd : SessionEnd s (.write, .headerDone) (wrhdrBody s) := by
  have hb := respects_sameSession
  refine sessionEnd_required fun hm => ?_
  rw [bind_getRegs_apply]
  exact sessionEnd_bind (keeps_checkHeader hb.refl _ _) fun _ t ht =>
    sessionEnd_bind (respects_putHeader hb _) fun _ u hu =>
      headerDone_sessionEnd (hu.mode.trans (ht.mode.trans hm))

theorem rdhdrBody_sessionEnd : SessionEnd s (.read, .headerDone) (rdhdrBody s) := by
  have hb := respects_sameSession
  refine sessionEnd_required fun hm => ?_
  rw [bind_getRegs_apply]
  exact sessionEnd_bind (respects_getHeader hb _) fun h t ht =>
    sessionEnd_bind (keeps_checkHeader hb.refl _ _) fun _ u hu =>
      sessionEnd_bind (x := modifyRegs (loadHeader h)) (fun _ => ⟨rfl, rfl, rfl⟩) fun _ v hv =>
        headerDone_sessionEnd (hv.mode.trans (hu.mode.trans (ht.mode.trans hm)))

/-- Every body ends as the table says. -/
theorem bodyOf_sessionEnd (i : Instr) : SessionEnd s (sessionAfter s.regs i) (bodyOf i s) := by
  cases i with
  | reset => exact ⟨fun _ => rfl, rfl⟩
  | bopenw => exact openStream_sessionEnd .write
  | bopenr => exact openStream_sessionEnd .read
  | bclose => exact bcloseBody_sessionEnd
  | wrhdr => exact wrhdrBody_sessionEnd
  | rdhdr => exact rdhdrBody_sessionEnd
  | _ => exact sessionEnd_of_sameSession (bodyOf_keeps_session rfl s)

end SessionEnd

/-! ### Where a body goes on -/

section Refused
variable {s : State}

theorem required_refuses {m : Mode} {x : Sess} {f : Action Word} (h : ¬ (s.regs.mode = m ∧ s.regs.sess = x)) :
    (requireMode m >>= fun _ => requireSess x >>= fun _ => f) s = .error .invalidState s := by
  by_cases hm : s.regs.mode = m
  · exact (requireMode_bind_of_eq hm _).trans (bind_of_error (requireSess_of_ne fun hs => h ⟨hm, hs⟩))
  · exact bind_of_error (requireMode_of_ne hm)

theorem frame_refuses {m : Mode} {f : Action Word}
    (h : ¬ (s.regs.mode = m ∧ s.regs.sess = .headerDone ∧ s.regs.frameIdx.toNat < s.regs.frameCount.toNat)) :
    (requireMode m >>= fun _ => requireFrame >>= fun _ => f) s = .error .invalidState s := by
  by_cases hm : s.regs.mode = m
  · rcases requireFrame_cases s with ⟨hs, hlt, -⟩ | e
    · exact absurd ⟨hm, hs, hlt⟩ h
    · exact (requireMode_bind_of_eq hm _).trans (bind_of_error e)
  · exact bind_of_error (requireMode_of_ne hm)

/-- A session command in a state that the table does not name raises InvalidState at once, and has no operand that
could be illegal. -/
theorem bodyOf_of_not_sessionAllows {i : Instr} (h : ¬ SessionAllows s.regs i) :
    i.wellFormed s.par = true ∧ bodyOf i s = .error .invalidState s := by
  cases i with
  | bopenw | bopenr => exact ⟨rfl, openStream_of_open h⟩
  | bclose => exact ⟨rfl, bcloseBody_of_idle (not_not.mp h)⟩
  | wrhdr | rdhdr => exact ⟨rfl, required_refuses h⟩
  | encf | decf => exact ⟨rfl, frame_refuses h⟩
  | _ => exact absurd trivial h

end Refused

/-! ### The statement -/

/-- Settles O52: `bodyOf_of_not_sessionAllows` for the states that the table does not name, `bodyOf_sessionEnd` for where
the command leads; the stages around the body move neither MODE nor SESS. -/
theorem sessionStateMachine : Obligations.SessionStateMachine := by
  intro i s t he hexec
  refine ⟨fun hn => ?refused, ?moves⟩
  case refused =>
    obtain ⟨hwf, hbody⟩ := bodyOf_of_not_sessionAllows hn
    exact Host.Outcome.next.inj (hexec.symm.trans (exec_raise he hwf hbody))
  case moves =>
    have hend := bodyOf_sessionEnd (s := s) i
    rcases exec_cases i s with ⟨herr, -⟩ | ⟨-, -, hillegal⟩ | ⟨-, -, hrun⟩
    · exact nomatch he.symm.trans herr
    · obtain rfl := Host.Outcome.next.inj (hexec.symm.trans hillegal)
      exact ⟨nofun, fun _ => rfl⟩
    · obtain rfl := Host.Outcome.next.inj (hexec.symm.trans hrun)
      rcases runBody_cases (opcodeOf i) (bodyOf i) s with ⟨v, u, hok, hu⟩ | ⟨c, u, hraise, hu⟩
      · rw [hok] at hend
        obtain ⟨herr, hpair⟩ := hend
        rw [hu]
        exact ⟨fun _ => hpair, fun h => nomatch (herr he).symm.trans h⟩
      · rw [hraise] at hend
        rw [hu]
        exact ⟨nofun, fun _ => hend.pair⟩

end Sys2Proof.Machine
end

section
/-! PROOFS. ENCF completes in a ready session, on written frames and on others (46_container.md R222, R232, R233, R235):
what it leaves alone, for either frame type. -/

namespace Sys2Proof.Machine

/-! ### What the coding of a frame leaves alone -/

/-- Writing bits changes SINK alone in the environment. -/
theorem behind_env {s t : State} {bs : List Bool} (h : Behind s t bs) :
    t.env = { s.env with
      sinkOut := t.env.sinkOut
      sinkAnswers := s.env.sinkAnswers.drop (t.env.sinkOut.length - s.env.sinkOut.length) } := by
  have henv := congrArg State.env (behind_state h)
  exact henv

section FrameOfCoding
variable {s t : State} {bs : List Bool} (hB : Behind s t bs)
  (hout : ∀ r c ch, c < 2 ^ 32 → ch < 2 ^ 8 → ¬ codedSample s.regs r c ch →
    t.sample .cur r c ch = s.sample .cur r c ch)
include hB hout

/-- Coding that wrote bits and changed CUR inside the coded samples alone leaves the frame of an intra frame. -/
theorem frameFrame_intra_of_behind {u : State} (hi : intraNext s.regs = true) (hu : IntraDone s t u) :
    FrameFrame s u := by
  have href : t.ref = s.ref := behind_ref hB
  refine ⟨?regs, ?par, ?inputs, ?opens, ?sources, ?cur, fun hy _ => ⟨?copied, ?outside⟩, ?ref⟩
  case regs => rw [hu.regs, behind_regs hB, hi, Bool.and_true]
  case par => rw [hu.par, behind_state hB]
  case inputs => rw [hu.inputs, behind_state hB]
  case opens => rw [hu.env, behind_env hB]
  case sources => rw [hu.env, behind_env hB]
  case cur => exact fun r c ch hc hch hn => (hu.sample_cur r c ch).trans (hout r c ch hc hch hn)
  case copied => exact fun r c ch hin v hv => hu.copies hy r c ch hin v ((hu.sample_cur r c ch).symm.trans hv)
  case outside =>
    exact fun r c ch hc hch hin => (hu.outside hy r c ch hc hch hin).trans
      (congrArg (fun m : Memory => m.read (sampleKey r c ch)) href)
  case ref =>
    rintro (hy | hp)
    · exact (hu.keeps hy).trans href
    · exact nomatch hi.symm.trans hp

/-- The same for a predicted frame, which leaves REF alone. -/
theorem frameFrame_predicted_of_behind (hi : intraNext s.regs = false) : FrameFrame s (predictedDone s t) := by
  refine ⟨?regs, ?par, ?inputs, ?opens, ?sources, ?cur,
    fun _ h => absurd (hi.symm.trans h) Bool.false_ne_true, fun _ => ?ref⟩
  case regs => rw [predictedDone_regs, behind_regs hB, hi, Bool.and_false]; rfl
  case par => rw [predictedDone_par, behind_state hB]
  case inputs => rw [predictedDone_inputs, behind_state hB]
  case opens => rw [predictedDone_env, behind_env hB]
  case sources => rw [predictedDone_env, behind_env hB]
  case cur => exact fun r c ch hc hch hn => (predictedDone_sample s t ..).trans (hout r c ch hc hch hn)
  case ref => rw [predictedDone_ref, behind_ref hB]

end FrameOfCoding

/-! ### The statement -/

/-- What ENCF promises of the state `u` in which it completes: its answer, the bits `bs` that it wrote, its frame. -/
structure Encoded (s u : State) (bs : List Bool) : Prop where
  responses : u.responses = s.responses ++ [responseWord 0#8 (if intraNext s.regs then 0#32 else 1#32)]
  written : writtenBits u = writtenBits s ++ bs
  buffer : bufferHolds u.regs 7 = true
  source : u.env.source = s.env.source
  answers : u.env.sinkAnswers = s.env.sinkAnswers.drop (u.env.sinkOut.length - s.env.sinkOut.length)
  frame : FrameFrame s u
  lossless : lossy s.regs = false → u.cur = s.cur

section Encf
variable {s : State} (he : s.regs.err = false) (hm : s.regs.mode = .write) (hs : s.regs.sess = .headerDone)
  (hlt : s.regs.frameIdx.toNat < s.regs.frameCount.toNat) (hc : CodingReady s.regs) (hr : sinkReady s = true)
  (hb : bufferHolds s.regs 7 = true)
include he hm hs hlt hc hr hb

theorem exec_encf_intra_encoded (hi : intraNext s.regs = true) : ∃ u bs, exec .encf s = .next u ∧ Encoded s u bs := by
  obtain ⟨t, ls, hcode, hB, -, -, hlossless, hout, -⟩ := encodeIntra_spec hc hr hb
  obtain ⟨u, hexec, hu⟩ := exec_intraDone (i := .encf) he rfl (encfBody_eq hm hs hlt) hi hcode (behind_regs hB)
  have hcoded : ∀ r c ch, c < 2 ^ 32 → ch < 2 ^ 8 → ¬ codedSample s.regs r c ch →
      t.sample .cur r c ch = s.sample .cur r c ch := fun r c ch h1 h2 hn =>
    hout r c ch h1 h2 (Bool.eq_false_iff.mpr fun hin => hn ((codedSample_intra hi).mpr hin))
  exact ⟨u, _, hexec,
    { responses := by rw [hu.responses, behind_state hB, hi]; rfl
      written := hu.writtenBits.trans (behind_written hB)
      buffer := (hu.bufferHolds 7).trans (behind_holds hB)
      source := by rw [hu.env, behind_env hB]
      answers := by rw [hu.env]; exact congrArg Env.sinkAnswers (behind_env hB)
      frame := frameFrame_intra_of_behind hB hcoded hi hu
      lossless := fun hL => hu.cur.trans (hlossless hL) }⟩

theorem exec_encf_predicted_encoded (hi : intraNext s.regs = false) :
    ∃ u bs, exec .encf s = .next u ∧ Encoded s u bs := by
  obtain ⟨t, F, hcode, hB, hlossless, hout, -⟩ := encodePred_spec hc hr hb
  have hexec : exec .encf s = .next (predictedDone s t) :=
    exec_ok (i := .encf) he rfl ((encfBody_eq hm hs hlt).trans (codeFrame_predicted hi hcode))
  have hbits : writtenBits (predictedDone s t) = writtenBits t := rfl
  have hcoded : ∀ r c ch, c < 2 ^ 32 → ch < 2 ^ 8 → ¬ codedSample s.regs r c ch →
      t.sample .cur r c ch = s.sample .cur r c ch := fun r c ch h1 h2 hn =>
    hout r c ch h1 h2 fun hin => hn ((codedSample_predicted hi).mpr hin)
  exact ⟨_, _, hexec,
    { responses := by rw [predictedDone_responses, behind_state hB, hi]; rfl
      written := hbits.trans (behind_written hB)
      buffer := (predictedDone_bufferHolds s t 7).trans (behind_holds hB)
      source := by rw [predictedDone_env, behind_env hB]
      answers := congrArg Env.sinkAnswers (behind_env hB)
      frame := frameFrame_predicted_of_behind hB hcoded hi
      lossless := hlossless }⟩

end Encf

/-- Settles O53: `EncodeIntra` and `EncodePred` complete in every ready session, so ENCF does, by the frame type. -/
theorem encfCompletes : Obligations.EncfCompletes := by
  intro s he hm hs hlt hc hr hb
  suffices h : ∃ u bs, exec .encf s = .next u ∧ Encoded s u bs by
    obtain ⟨u, bs, hexec, h⟩ := h
    exact ⟨u, bs, hexec, h.responses, h.written, h.buffer, h.source, h.answers, h.frame, h.lossless⟩
  cases hi : intraNext s.regs with
  | true => exact exec_encf_intra_encoded he hm hs hlt hc hr hb hi
  | false => exact exec_encf_predicted_encoded he hm hs hlt hc hr hb hi

end Sys2Proof.Machine
end

section
/-! PROOFS. Which faults each procedure and each command can raise (60_exceptions.md R261), and the ends of a command that
starts with no fault recorded (R263). -/

namespace Sys2Proof.Machine

/-! ### The causes an action raises -/

/-- Whatever the action raises is one of the causes `C`. -/
structure RaisesIn {α : Type} (C : List Cause) (x : Action α) : Prop where
  mem : ∀ {s c t}, x s = .error c t → c ∈ C

section RaisesIn
variable {α β : Type} {C : List Cause}

/-- An action that always completes raises nothing. -/
theorem raisesIn_of_ok {x : Action α} (h : ∀ s, ∃ a t, x s = .ok a t) : RaisesIn C x where
  mem {s _ _} e := by
    obtain ⟨a, u, hok⟩ := h s
    exact nomatch hok.symm.trans e

/-- A sequence raises what one of its parts does. -/
theorem RaisesIn.bind {x : Action α} {f : α → Action β} (hx : RaisesIn C x) (hf : ∀ a, RaisesIn C (f a)) :
    RaisesIn C (x >>= f) where
  mem e := by
    rcases bind_error_iff.mp e with hraise | ⟨a, t, -, hraise⟩
    · exact hx.mem hraise
    · exact (hf a).mem hraise

theorem raisesIn_pure (a : α) : RaisesIn C (pure a : Action α) := raisesIn_of_ok fun s => ⟨a, s, rfl⟩

theorem raisesIn_getRegs : RaisesIn C getRegs := raisesIn_of_ok fun s => ⟨s.regs, s, rfl⟩

theorem raisesIn_modifyRegs (f : Regs → Regs) : RaisesIn C (modifyRegs f) := raisesIn_of_ok fun _ => ⟨(), _, rfl⟩

theorem raisesIn_writeSample (b : Buffer) (r c ch : Nat) (v : Byte) : RaisesIn C (writeSample b r c ch v) :=
  raisesIn_of_ok fun _ => ⟨(), _, rfl⟩

theorem raisesIn_readSample (b : Buffer) (r c ch : Nat) : RaisesIn C (readSample b r c ch) :=
  raisesIn_of_ok fun s => have ⟨v, _, e, _⟩ := readSample_cases b r c ch s; ⟨v, _, e⟩

theorem raisesIn_raise {c : Cause} (h : c ∈ C) : RaisesIn C (raise c : Action α) where
  mem e := by
    cases e
    exact h

theorem raisesIn_require {c : Cause} (h : c ∈ C) (b : Bool) : RaisesIn C (require b c) := by
  cases b with
  | true => exact raisesIn_pure ()
  | false => exact raisesIn_raise h

theorem raisesIn_requireMode (h : .invalidState ∈ C) (m : Mode) : RaisesIn C (requireMode m) where
  mem e := by
    unfold requireMode at e
    split at e <;> cases e
    exact h

theorem raisesIn_requireSess (h : .invalidState ∈ C) (x : Sess) : RaisesIn C (requireSess x) where
  mem e := by
    unfold requireSess at e
    split at e <;> cases e
    exact h

theorem raisesIn_onlyIf (b : Bool) {x : Action Unit} (h : RaisesIn C x) : RaisesIn C (onlyIf b x) := by
  cases b with
  | true => exact h
  | false => exact raisesIn_pure ()

theorem raisesIn_foldFrom {f : Nat → α → Action α} (hf : ∀ i a, RaisesIn C (f i a)) :
    ∀ (n i : Nat) (a : α), RaisesIn C (foldFrom n i f a)
  | 0, _, a => raisesIn_pure a
  | n + 1, i, a => (hf i a).bind fun b => raisesIn_foldFrom hf n (i + 1) b

theorem raisesIn_forFrom {f : Nat → Action Unit} (hf : ∀ i, RaisesIn C (f i)) (n i : Nat) : RaisesIn C (forFrom n i f) :=
  raisesIn_foldFrom (fun i _ => hf i) n i ()

end RaisesIn

/-! ### Procedures that raise nothing -/

section Silent
variable {C : List Cause}

theorem raisesIn_neighbour (inside : Bool) (r c ch : Nat) : RaisesIn C (neighbour inside r c ch) := by
  cases inside with
  | true => exact (raisesIn_readSample ..).bind fun _ => raisesIn_pure _
  | false => exact raisesIn_pure 0

theorem raisesIn_predict (r c ch : Nat) : RaisesIn C (predict r c ch) :=
  (raisesIn_neighbour ..).bind fun _ => (raisesIn_neighbour ..).bind fun _ => (raisesIn_neighbour ..).bind fun _ =>
    raisesIn_pure _

theorem raisesIn_blockCost (g : Regs) (r0 c0 r1 c1 : Nat) : RaisesIn C (blockCost g r0 c0 r1 c1) :=
  raisesIn_foldFrom (fun _ _ => raisesIn_foldFrom (fun _ _ => raisesIn_foldFrom (fun _ _ =>
    (raisesIn_readSample ..).bind fun _ => (raisesIn_readSample ..).bind fun _ => raisesIn_pure _) ..) ..) ..

theorem raisesIn_scanWindow (g : Regs) (r0 c0 : Nat) : RaisesIn C (scanWindow g r0 c0) :=
  raisesIn_foldFrom (fun _ _ => raisesIn_foldFrom (fun _ _ =>
    (raisesIn_blockCost ..).bind fun _ => raisesIn_pure _) ..) ..

theorem raisesIn_matchSearch (g : Regs) (r0 c0 : Nat) : RaisesIn C (matchSearch g r0 c0) := by
  refine (raisesIn_blockCost ..).bind fun k0 => ?_
  split
  · exact raisesIn_pure _
  · exact (raisesIn_scanWindow ..).bind fun _ => raisesIn_pure _

theorem raisesIn_copyCurToRef (i : Word) : RaisesIn C (copyCurToRef i) :=
  raisesIn_getRegs.bind fun _ =>
    (raisesIn_forFrom (fun _ => raisesIn_forFrom (fun _ => raisesIn_forFrom (fun _ =>
      (raisesIn_readSample ..).bind fun _ => raisesIn_writeSample ..) ..) ..) ..).bind fun _ => raisesIn_modifyRegs _

end Silent

/-! ### Opening and writing a stream: IoError, and InvalidState where a divisor or a step is needed -/

section Writing
variable {C : List Cause} (hio : .ioError ∈ C)

section Bits
include hio

theorem raisesIn_envOpen : RaisesIn C envOpen where
  mem e := by
    unfold envOpen at e
    split at e <;> cases e
    exact hio

theorem raisesIn_sinkPut (b : Byte) : RaisesIn C (sinkPut b) where
  mem e := by
    unfold sinkPut at e
    split at e <;> cases e
    exact hio

theorem raisesIn_putBit (b : Bool) : RaisesIn C (putBit b) :=
  raisesIn_getRegs.bind fun _ => (raisesIn_modifyRegs _).bind fun _ =>
    raisesIn_onlyIf _ ((raisesIn_sinkPut hio _).bind fun _ => raisesIn_modifyRegs _)

theorem raisesIn_putBits (v : Nat) : ∀ n, RaisesIn C (putBits v n)
  | 0 => raisesIn_pure ()
  | n + 1 => (raisesIn_putBit hio _).bind fun _ => raisesIn_putBits v n

theorem raisesIn_putOnes : ∀ q, RaisesIn C (putOnes q)
  | 0 => raisesIn_pure ()
  | q + 1 => (raisesIn_putBit hio _).bind fun _ => raisesIn_putOnes q

theorem raisesIn_golombPut (m : Nat) (n : Int) : RaisesIn C (golombPut m n) := by
  refine (raisesIn_putOnes hio _).bind fun _ => (raisesIn_putBit hio _).bind fun _ => ?_
  split <;> exact (raisesIn_putBits hio _ _).bind fun _ => raisesIn_putBit hio _

theorem raisesIn_putHeader (g : Regs) : RaisesIn C (putHeader g) := by
  have hput : ∀ v n, RaisesIn C (putBits v n) := raisesIn_putBits hio
  have three : ∀ b x y z, RaisesIn C (onlyIf b do putBits x 8; putBits y 8; putBits z 8) := fun b _ _ _ =>
    raisesIn_onlyIf b ((hput _ _).bind fun _ => (hput _ _).bind fun _ => hput _ _)
  exact (hput _ _).bind fun _ => (hput _ _).bind fun _ => (hput _ _).bind fun _ => (hput _ _).bind fun _ =>
    (hput _ _).bind fun _ => (hput _ _).bind fun _ => (three ..).bind fun _ => three ..

end Bits

variable (hst : .invalidState ∈ C)
include hst

theorem raisesIn_orInvalidState (x : Option Int) : RaisesIn C (orInvalidState x) := by
  cases x with
  | some v => exact raisesIn_pure v
  | none => exact raisesIn_raise hst

theorem raisesIn_qLevel (ch : Nat) (v : Int) : RaisesIn C (qLevel ch v) :=
  raisesIn_getRegs.bind fun _ => raisesIn_orInvalidState hst _

theorem raisesIn_qValue (ch : Nat) (l : Int) : RaisesIn C (qValue ch l) :=
  raisesIn_getRegs.bind fun _ => raisesIn_orInvalidState hst _

theorem raisesIn_requireFrame : RaisesIn C requireFrame :=
  (raisesIn_requireSess hst _).bind fun _ => raisesIn_getRegs.bind fun _ => raisesIn_require hst _

theorem raisesIn_storeResidual (l : Bool) (r c ch : Nat) (p x : Int) : RaisesIn C (storeResidual l r c ch p x) := by
  cases l with
  | true => exact (raisesIn_qValue hst _ _).bind fun _ => raisesIn_writeSample ..
  | false => exact raisesIn_writeSample ..

include hio

theorem raisesIn_openStream (m : Mode) : RaisesIn C (openStream m) :=
  (raisesIn_requireMode hst _).bind fun _ => (raisesIn_envOpen hio).bind fun _ => (raisesIn_modifyRegs _).bind fun _ =>
    raisesIn_pure _

theorem raisesIn_golombEncode (n : Int) : RaisesIn C (golombEncode n) :=
  raisesIn_getRegs.bind fun _ => (raisesIn_require hst _).bind fun _ => raisesIn_golombPut hio _ n

theorem raisesIn_flushPair : RaisesIn C flushPair :=
  raisesIn_getRegs.bind fun _ => (raisesIn_golombEncode hio hst _).bind fun _ =>
    (raisesIn_golombEncode hio hst _).bind fun _ => raisesIn_modifyRegs _

theorem raisesIn_flushStream : RaisesIn C flushStream :=
  raisesIn_getRegs.bind fun _ => (raisesIn_onlyIf _ (raisesIn_flushPair hio hst)).bind fun _ =>
    raisesIn_getRegs.bind fun _ => raisesIn_onlyIf _ (raisesIn_sinkPut hio _)

theorem raisesIn_bcloseBody : RaisesIn C bcloseBody :=
  raisesIn_getRegs.bind fun _ => (raisesIn_require hst _).bind fun _ =>
    (raisesIn_onlyIf _ (raisesIn_flushStream hio hst)).bind fun _ =>
      (raisesIn_onlyIf _ (raisesIn_of_ok fun s => ⟨(), _, abandonSource_apply s⟩)).bind fun _ =>
        (raisesIn_modifyRegs _).bind fun _ => raisesIn_pure _

theorem raisesIn_encodeResidual (l : Bool) (r c ch : Nat) (p : Int) : RaisesIn C (encodeResidual l r c ch p) := by
  refine (raisesIn_readSample ..).bind fun _ => ?_
  cases l with
  | true =>
    exact (raisesIn_qLevel hst _ _).bind fun _ => (raisesIn_golombEncode hio hst _).bind fun _ =>
      (raisesIn_qValue hst _ _).bind fun _ => raisesIn_writeSample ..
  | false => exact raisesIn_golombEncode hio hst _

theorem raisesIn_encodeIntra : RaisesIn C encodeIntra :=
  raisesIn_getRegs.bind fun _ => raisesIn_forFrom (fun _ => raisesIn_forFrom (fun _ => raisesIn_forFrom (fun _ =>
    (raisesIn_predict ..).bind fun _ => raisesIn_encodeResidual hio hst ..) ..) ..) ..

theorem raisesIn_encodeBlock (g : Regs) (r0 c0 : Nat) : RaisesIn C (encodeBlock g r0 c0) :=
  (raisesIn_matchSearch ..).bind fun _ => (raisesIn_golombEncode hio hst _).bind fun _ =>
    (raisesIn_golombEncode hio hst _).bind fun _ =>
      raisesIn_forFrom (fun _ => raisesIn_forFrom (fun _ => raisesIn_forFrom (fun _ =>
        (raisesIn_readSample ..).bind fun _ => raisesIn_encodeResidual hio hst ..) ..) ..) ..

theorem raisesIn_encodePred : RaisesIn C encodePred :=
  raisesIn_getRegs.bind fun _ => raisesIn_forFrom (fun _ => raisesIn_forFrom (fun _ =>
    raisesIn_encodeBlock hio hst ..) ..) ..

end Writing

/-! ### Reading a stream: also EndOfStream, Overflow for a number and OutOfBounds for a vector -/

section Reading
variable {C : List Cause} (hio : .ioError ∈ C) (heos : .endOfStream ∈ C)
include hio heos

theorem raisesIn_sourceGet : RaisesIn C sourceGet where
  mem e := by
    unfold sourceGet at e
    split at e <;> cases e
    · exact heos
    · exact heos
    · exact hio

theorem raisesIn_getBit : RaisesIn C getBit :=
  raisesIn_getRegs.bind fun _ =>
    (raisesIn_onlyIf _ ((raisesIn_sourceGet hio heos).bind fun _ => raisesIn_modifyRegs _)).bind fun _ =>
      raisesIn_of_ok fun _ => ⟨_, _, rfl⟩

theorem raisesIn_getBitsOnto : ∀ n v, RaisesIn C (getBitsOnto n v)
  | 0, v => raisesIn_pure v
  | n + 1, _ => (raisesIn_getBit hio heos).bind fun _ => raisesIn_getBitsOnto n _

theorem raisesIn_getBits (n : Nat) : RaisesIn C (getBits n) := raisesIn_getBitsOnto hio heos n 0

theorem raisesIn_getField (present : Bool) (x n : Nat) : RaisesIn C (getField present x n) := by
  cases present with
  | true => exact raisesIn_getBits hio heos n
  | false => exact raisesIn_pure x

theorem raisesIn_getHeader (g : Regs) : RaisesIn C (getHeader g) := by
  have hget : ∀ n, RaisesIn C (getBits n) := raisesIn_getBits hio heos
  have hfield : ∀ b x n, RaisesIn C (getField b x n) := raisesIn_getField hio heos
  exact (hget _).bind fun _ => (hget _).bind fun _ => (hget _).bind fun _ => (hget _).bind fun _ =>
    (hget _).bind fun _ => (hget _).bind fun _ => (hfield ..).bind fun _ => (hfield ..).bind fun _ =>
      (hfield ..).bind fun _ => (hfield ..).bind fun _ => (hfield ..).bind fun _ => (hfield ..).bind fun _ =>
        raisesIn_pure _

theorem raisesIn_countOnes : ∀ fuel, RaisesIn C (countOnes fuel)
  | 0 => raisesIn_raise heos
  | fuel + 1 => by
    refine (raisesIn_getBit hio heos).bind fun b => ?_
    cases b with
    | true => exact (raisesIn_countOnes fuel).bind fun _ => raisesIn_pure _
    | false => exact raisesIn_pure 0

theorem raisesIn_getUnary : RaisesIn C getUnary :=
  ⟨fun e => (raisesIn_countOnes hio heos _).mem e⟩

theorem raisesIn_getRemainder (m : Nat) : RaisesIn C (getRemainder m) := by
  refine (raisesIn_getBits hio heos _).bind fun v => ?_
  split
  · exact raisesIn_pure v
  · exact (raisesIn_getBit hio heos).bind fun _ => raisesIn_pure _

variable (hst : .invalidState ∈ C) (hov : .overflow ∈ C)
include hst hov

theorem raisesIn_golombDecode : RaisesIn C golombDecode :=
  raisesIn_getRegs.bind fun _ => (raisesIn_require hst _).bind fun _ => (raisesIn_getUnary hio heos).bind fun _ =>
    (raisesIn_getRemainder hio heos _).bind fun _ => (raisesIn_getBit hio heos).bind fun _ =>
      (raisesIn_require hov _).bind fun _ => raisesIn_pure _

theorem raisesIn_readPair (hfmt : .invalidFormat ∈ C) : RaisesIn C readPair :=
  have hdecode : RaisesIn C golombDecode := raisesIn_golombDecode hio heos hst hov
  hdecode.bind fun _ => hdecode.bind fun _ => (raisesIn_require hfmt _).bind fun _ => raisesIn_modifyRegs _

theorem raisesIn_decodeIntra : RaisesIn C decodeIntra :=
  raisesIn_getRegs.bind fun _ => raisesIn_forFrom (fun _ => raisesIn_forFrom (fun _ => raisesIn_forFrom (fun _ =>
    (raisesIn_predict ..).bind fun _ => (raisesIn_golombDecode hio heos hst hov).bind fun _ =>
      raisesIn_storeResidual hst ..) ..) ..) ..

variable (hout : .outOfBounds ∈ C)
include hout

theorem raisesIn_decodeBlock (g : Regs) (r0 c0 : Nat) : RaisesIn C (decodeBlock g r0 c0) :=
  have hdecode : RaisesIn C golombDecode := raisesIn_golombDecode hio heos hst hov
  hdecode.bind fun _ => hdecode.bind fun _ => (raisesIn_require hout _).bind fun _ =>
    raisesIn_forFrom (fun _ => raisesIn_forFrom (fun _ => raisesIn_forFrom (fun _ =>
      hdecode.bind fun _ => (raisesIn_readSample ..).bind fun _ => raisesIn_storeResidual hst ..) ..) ..) ..

theorem raisesIn_decodePred : RaisesIn C decodePred :=
  raisesIn_getRegs.bind fun _ => raisesIn_forFrom (fun _ => raisesIn_forFrom (fun _ =>
    raisesIn_decodeBlock hio heos hst hov hout ..) ..) ..

end Reading

/-! ### Headers and frames (46_container.md R224, R233, R236) -/

section Container
variable {C : List Cause}

theorem raisesIn_checkHeader {w : Bool} (hfmt : .invalidFormat ∈ C) (hst : w = true → .invalidState ∈ C) (h : Header) :
    RaisesIn C (checkHeader w h) where
  mem {s _ _} e := by
    unfold checkHeader at e
    rcases validateHeader_cases s.par s.regs w h with ⟨hv, -⟩ | ⟨k, hk, hfails, hv⟩ <;> rw [hv] at e <;> cases e
    rcases headerChecks_cause hk hfails with hc | ⟨rfl, hm⟩
    · exact hc ▸ hfmt
    · have hunset : k.2 = .invalidState := Option.some.inj (hv.symm.trans ((validateHeader_write ..).1 hm))
      exact hunset ▸ hst rfl

/-- Around the coding of its frame a frame command raises nothing. -/
theorem raisesIn_codeFrame {intra predicted : Action Unit} (hi : RaisesIn C intra) (hp : RaisesIn C predicted) :
    RaisesIn C (codeFrame intra predicted) := by
  have htyped : ∀ g, RaisesIn C (typedFrame g intra predicted) := by
    intro g
    unfold typedFrame
    split
    · exact hi.bind fun _ => (raisesIn_onlyIf _ (raisesIn_copyCurToRef _)).bind fun _ => raisesIn_pure _
    · exact hp.bind fun _ => raisesIn_pure _
  exact raisesIn_getRegs.bind fun g => (htyped g).bind fun _ => (raisesIn_modifyRegs _).bind fun _ => raisesIn_pure _

end Container

/-! ### Every command, by its row of the table -/

theorem raisesIn_pxwrBody (ch v : BitVec 8) (row col : BitVec 16) : RaisesIn [.outOfBounds] (pxwrBody ch v row col) :=
  raisesIn_getRegs.bind fun _ => (raisesIn_require (by decide) _).bind fun _ => (raisesIn_writeSample ..).bind fun _ =>
    raisesIn_pure _

theorem raisesIn_pxrdBody (ch : BitVec 8) (buf : BitVec 1) (row col : BitVec 16) :
    RaisesIn [.invalidState, .outOfBounds] (pxrdBody ch buf row col) :=
  raisesIn_getRegs.bind fun _ => (raisesIn_require (by decide) _).bind fun _ =>
    (raisesIn_require (by decide) _).bind fun _ => (raisesIn_readSample ..).bind fun _ => raisesIn_pure _

theorem raisesIn_cprefBody : RaisesIn [.invalidState] cprefBody :=
  raisesIn_getRegs.bind fun _ => (raisesIn_require (by decide) _).bind fun _ =>
    (raisesIn_copyCurToRef _).bind fun _ => raisesIn_pure _

theorem raisesIn_putbitBody (b : BitVec 1) : RaisesIn [.invalidState, .ioError] (putbitBody b) :=
  (raisesIn_requireMode (by decide) _).bind fun _ => (raisesIn_putBit (by decide) _).bind fun _ => raisesIn_pure _

theorem raisesIn_putbitsBody (n : BitVec 8) (v : Word) : RaisesIn [.invalidState, .ioError] (putbitsBody n v) :=
  (raisesIn_requireMode (by decide) _).bind fun _ => (raisesIn_putBits (by decide) _ _).bind fun _ => raisesIn_pure _

theorem raisesIn_getbitBody : RaisesIn [.invalidState, .ioError, .endOfStream] getbitBody :=
  (raisesIn_requireMode (by decide) _).bind fun _ => (raisesIn_getBit (by decide) (by decide)).bind fun _ =>
    raisesIn_pure _

theorem raisesIn_getbitsBody (n : BitVec 8) : RaisesIn [.invalidState, .ioError, .endOfStream] (getbitsBody n) :=
  (raisesIn_requireMode (by decide) _).bind fun _ => (raisesIn_getBits (by decide) (by decide) _).bind fun _ =>
    raisesIn_pure _

theorem raisesIn_gencBody (n : Word) : RaisesIn [.invalidState, .ioError] (gencBody n) :=
  (raisesIn_requireMode (by decide) _).bind fun _ => (raisesIn_golombEncode (by decide) (by decide) _).bind fun _ =>
    raisesIn_pure _

theorem raisesIn_gdecBody : RaisesIn [.invalidState, .ioError, .endOfStream, .overflow] gdecBody :=
  (raisesIn_requireMode (by decide) _).bind fun _ =>
    (raisesIn_golombDecode (by decide) (by decide) (by decide) (by decide)).bind fun _ => raisesIn_pure _

theorem raisesIn_rpushBody (v : Word) : RaisesIn [.invalidState, .ioError] (rpushBody v) :=
  (raisesIn_requireMode (by decide) _).bind fun _ => raisesIn_getRegs.bind fun _ =>
    (raisesIn_require (by decide) _).bind fun _ =>
      (raisesIn_onlyIf _ (raisesIn_flushPair (by decide) (by decide))).bind fun _ =>
        (raisesIn_modifyRegs _).bind fun _ => raisesIn_pure _

theorem raisesIn_rflushBody : RaisesIn [.invalidState, .ioError] rflushBody :=
  (raisesIn_requireMode (by decide) _).bind fun _ => raisesIn_getRegs.bind fun _ =>
    (raisesIn_onlyIf _ (raisesIn_flushPair (by decide) (by decide))).bind fun _ => raisesIn_pure _

theorem raisesIn_rpopBody : RaisesIn [.invalidState, .invalidFormat, .ioError, .endOfStream, .overflow] rpopBody :=
  (raisesIn_requireMode (by decide) _).bind fun _ => raisesIn_getRegs.bind fun _ =>
    (raisesIn_require (by decide) _).bind fun _ =>
      (raisesIn_onlyIf _ (raisesIn_readPair (by decide) (by decide) (by decide) (by decide) (by decide))).bind fun _ =>
        (raisesIn_modifyRegs _).bind fun _ => raisesIn_getRegs.bind fun _ => raisesIn_pure _

theorem raisesIn_qlevelBody (ch : BitVec 8) (v : Word) : RaisesIn [.invalidState] (qlevelBody ch v) :=
  (raisesIn_qLevel (by decide) _ _).bind fun _ => raisesIn_pure _

theorem raisesIn_qvalueBody (ch : BitVec 8) (l : Word) : RaisesIn [.invalidState, .overflow] (qvalueBody ch l) :=
  (raisesIn_qValue (by decide) _ _).bind fun _ => (raisesIn_require (by decide) _).bind fun _ => raisesIn_pure _

theorem raisesIn_quantBody (ch : BitVec 8) (v : Word) : RaisesIn [.invalidState, .overflow] (quantBody ch v) :=
  (raisesIn_qLevel (by decide) _ _).bind fun _ => (raisesIn_qValue (by decide) _ _).bind fun _ =>
    (raisesIn_require (by decide) _).bind fun _ => raisesIn_pure _

theorem raisesIn_ipredBody (ch : BitVec 8) (row col : BitVec 16) : RaisesIn [.outOfBounds] (ipredBody ch row col) :=
  raisesIn_getRegs.bind fun _ => (raisesIn_require (by decide) _).bind fun _ => (raisesIn_predict ..).bind fun _ =>
    raisesIn_pure _

theorem raisesIn_matchBlockBody (row col : BitVec 16) :
    RaisesIn [.invalidState, .outOfBounds] (matchBlockBody row col) :=
  raisesIn_getRegs.bind fun _ => (raisesIn_require (by decide) _).bind fun _ =>
    (raisesIn_require (by decide) _).bind fun _ => (raisesIn_require (by decide) _).bind fun _ =>
      (raisesIn_matchSearch ..).bind fun _ => raisesIn_pure _

theorem raisesIn_wrhdrBody : RaisesIn [.invalidState, .invalidFormat, .ioError] wrhdrBody :=
  (raisesIn_requireMode (by decide) _).bind fun _ => (raisesIn_requireSess (by decide) _).bind fun _ =>
    raisesIn_getRegs.bind fun _ => (raisesIn_checkHeader (by decide) (fun _ => by decide) _).bind fun _ =>
      (raisesIn_putHeader (by decide) _).bind fun _ => (raisesIn_modifyRegs _).bind fun _ => raisesIn_pure _

theorem raisesIn_rdhdrBody : RaisesIn [.invalidState, .invalidFormat, .ioError, .endOfStream] rdhdrBody :=
  (raisesIn_requireMode (by decide) _).bind fun _ => (raisesIn_requireSess (by decide) _).bind fun _ =>
    raisesIn_getRegs.bind fun _ => (raisesIn_getHeader (by decide) (by decide) _).bind fun _ =>
      (raisesIn_checkHeader (by decide) (fun _ => by decide) _).bind fun _ => (raisesIn_modifyRegs _).bind fun _ =>
        (raisesIn_modifyRegs _).bind fun _ => raisesIn_pure _

theorem raisesIn_encfBody : RaisesIn [.invalidState, .ioError] encfBody :=
  (raisesIn_requireMode (by decide) _).bind fun _ => (raisesIn_requireFrame (by decide)).bind fun _ =>
    raisesIn_codeFrame (raisesIn_encodeIntra (by decide) (by decide)) (raisesIn_encodePred (by decide) (by decide))

theorem raisesIn_decfBody : RaisesIn [.invalidState, .outOfBounds, .ioError, .endOfStream, .overflow] decfBody :=
  (raisesIn_requireMode (by decide) _).bind fun _ => (raisesIn_requireFrame (by decide)).bind fun _ =>
    raisesIn_codeFrame (raisesIn_decodeIntra (by decide) (by decide) (by decide) (by decide))
      (raisesIn_decodePred (by decide) (by decide) (by decide) (by decide) (by decide))

/-- The commands whose body raises IllegalCommand at an address that is not listed; no well-formed one names such an
address. -/
def namesCsr : Instr → Bool
  | .csrr _ | .csrw _ _ => true
  | _ => false

/-- The body of any other command raises only faults of its row. -/
theorem bodyOf_raisesIn {i : Instr} (h : namesCsr i = false) : RaisesIn (faultsOf i) (bodyOf i) := by
  cases i with
  | csrr | csrw => exact nomatch h
  | nop => exact raisesIn_pure _
  | reset => exact raisesIn_of_ok fun _ => ⟨_, _, rfl⟩
  | pxwr ch v row col => exact raisesIn_pxwrBody ch v row col
  | pxrd ch buf row col => exact raisesIn_pxrdBody ch buf row col
  | cpref => exact raisesIn_cprefBody
  | bopenw | bopenr => exact raisesIn_openStream (by decide) (by decide) _
  | bclose => exact raisesIn_bcloseBody (by decide) (by decide)
  | putbit b => exact raisesIn_putbitBody b
  | putbits n v => exact raisesIn_putbitsBody n v
  | getbit => exact raisesIn_getbitBody
  | getbits n => exact raisesIn_getbitsBody n
  | genc n => exact raisesIn_gencBody n
  | gdec => exact raisesIn_gdecBody
  | rpush v => exact raisesIn_rpushBody v
  | rflush => exact raisesIn_rflushBody
  | rpop => exact raisesIn_rpopBody
  | qlevel ch v => exact raisesIn_qlevelBody ch v
  | qvalue ch l => exact raisesIn_qvalueBody ch l
  | quant ch v => exact raisesIn_quantBody ch v
  | ipred ch row col => exact raisesIn_ipredBody ch row col
  | matchBlock row col => exact raisesIn_matchBlockBody row col
  | wrhdr => exact raisesIn_wrhdrBody
  | rdhdr => exact raisesIn_rdhdrBody
  | encf => exact raisesIn_encfBody
  | decf => exact raisesIn_decfBody

/-- The body of every well-formed command does: an address that is legal is listed. -/
theorem bodyOf_raises {i : Instr} {s t : State} {c : Cause} (hwf : i.wellFormed s.par = true)
    (h : bodyOf i s = .error c t) : c ∈ faultsOf i := by
  cases i with
  | csrr a =>
    obtain ⟨csr, hcsr⟩ := Option.isSome_iff_exists.mp (show (csrAt a).isSome = true from hwf)
    exact nomatch (csrrBody_listed hcsr s).symm.trans h
  | csrw a v =>
    cases hcsr : csrAt a with
    | none => simp [Instr.wellFormed, legalCsrWrite, hcsr] at hwf
    | some csr =>
      have hend := (csrwBody_listed hcsr v s).symm.trans h
      split at hend <;> cases hend
      exact List.mem_singleton_self _
  | _ => exact (bodyOf_raisesIn rfl).mem h

/-! ### The ends of a command with no fault recorded (60_exceptions.md R263) -/

/-- How the command `i` can end from a state `s` with ERR = 0. -/
inductive ExecEnd (i : Instr) (s : State) : State → Prop
  | illegal : i.wellFormed s.par = false → ExecEnd i s (takeFault (opcodeOf i) .illegalCommand s)
  | completes (v : Word) (u : State) : i.wellFormed s.par = true → bodyOf i s = .ok v u → u.regs.err = false →
      ExecEnd i s (u.respond 0#8 v)
  | raises (c : Cause) (u : State) : i.wellFormed s.par = true → bodyOf i s = .error c u →
      ExecEnd i s (takeFault (opcodeOf i) c u)

theorem exec_end {i : Instr} {s t : State} (he : s.regs.err = false) (h : exec i s = .next t) : ExecEnd i s t := by
  rcases exec_cases i s with ⟨herr, -⟩ | ⟨-, hwf, hillegal⟩ | ⟨-, hwf, hrun⟩
  · exact nomatch he.symm.trans herr
  · obtain rfl := Host.Outcome.next.inj (h.symm.trans hillegal)
    exact .illegal hwf
  · obtain rfl := Host.Outcome.next.inj (h.symm.trans hrun)
    rcases runBody_cases (opcodeOf i) (bodyOf i) s with ⟨v, u, hok, hu⟩ | ⟨c, u, hraise, hu⟩ <;> rw [hu]
    · have hend := bodyOf_sessionEnd (s := s) i
      rw [hok] at hend
      exact .completes v u hwf hok (hend.1 he)
    · exact .raises c u hwf hraise

/-- Settles O12: the three ends of `exec_end`, and `bodyOf_raises` for the causes of the third. -/
theorem commandsRaiseOnlyTheirFaults : Obligations.CommandsRaiseOnlyTheirFaults := by
  intro i s t he hexec
  cases exec_end he hexec with
  | illegal hill => exact ⟨fun _ => ⟨rfl, rfl⟩, fun _ => .inl ⟨hill, rfl⟩⟩
  | completes v u hwf _ herr =>
    exact ⟨fun hill => (nomatch hwf.symm.trans hill), fun ht => nomatch herr.symm.trans ht⟩
  | raises c u hwf hbody =>
    exact ⟨fun hill => (nomatch hwf.symm.trans hill), fun _ => .inr ⟨hwf, c, bodyOf_raises hwf hbody, rfl⟩⟩

end Sys2Proof.Machine
end

section
/-! PROOFS. Entering, staying in and leaving the fault state (60_exceptions.md R260, R265 to R269), RESET (47_system.md
R251), `hard_reset` and the wait for an input (70_reset_and_hazards.md R290, R291). -/

namespace Sys2Proof.Machine

/-! ### Entering the fault state (60_exceptions.md R260, R265) -/

/-- The response of a fault is its code and zeros. -/
theorem responseWord_zero_result (st : BitVec 8) : responseWord st 0#32 = st ++ 0#56 := by
  revert st; decide

/-- The response of a command that completes is its result under status 0. -/
theorem responseWord_ok (v : Word) : responseWord 0#8 v = 0#32 ++ v := rfl

theorem bodyOf_responses {i : Instr} {s u : State} (h : endState (bodyOf i s) = u) : u.responses = s.responses :=
  h ▸ (bodyOf_keeps respectsAll_sameHostSide i s).responses

/-- What `takeFault` records and answers. -/
theorem takeFault_records (op : BitVec 8) (c : Cause) (s : State) :
    1 ≤ (takeFault op c s).regs.cause.toNat ∧ (takeFault op c s).regs.cause.toNat ≤ 7 ∧
      (takeFault op c s).regs.finfo = op ∧
      (takeFault op c s).responses = s.responses ++ [(takeFault op c s).regs.cause ++ 0#56] :=
  ⟨one_le_causeCode c, causeCode_le c, rfl, by rw [takeFault_responses, responseWord_zero_result]; rfl⟩

/-- Settles O11: of the ends of `exec_end` two take a fault and one answers the result of the body. -/
theorem faultEntryRecordsCause : Obligations.FaultEntryRecordsCause := by
  intro i s t he hexec
  cases exec_end he hexec with
  | illegal => exact ⟨fun _ => takeFault_records _ _ s, nofun⟩
  | completes v u _ hok herr =>
    refine ⟨fun ht => (nomatch herr.symm.trans ht), fun _ => ⟨v, ?_⟩⟩
    rw [respond_responses, responseWord_ok, bodyOf_responses (i := i) (by rw [hok]; rfl)]
  | raises c u _ hraise =>
    have hu : u.responses = s.responses := bodyOf_responses (i := i) (by rw [hraise]; rfl)
    exact ⟨fun _ => hu ▸ takeFault_records _ c u, nofun⟩

/-! ### In the fault state (60_exceptions.md R263, R266, R268) -/

/-- The words that are executed while a fault is recorded. -/
theorem runsAlways_iff (i : Instr) : runsAlways i = true ↔ i = .nop ∨ i = .reset ∨ ∃ a, i = .csrr a := by
  cases i <;> simp [runsAlways]

section Faulted
variable {s : State}

/-- Any other word is refused. -/
theorem runWord_refused {w : CmdWord} (he : s.regs.err = true)
    (h : ¬ ∃ i, decode w = .ok i ∧ i.wellFormed s.par = true ∧ runsAlways i = true) :
    runWord w s = .next (refuseFaulted s) := by
  cases hd : decode w with
  | error e => rw [runWord_of_decode_error hd, rejectWord, he, if_pos rfl]
  | ok i =>
    rw [runWord_of_decode_ok hd]
    rcases exec_cases i s with ⟨-, -, hrefused⟩ | ⟨herr, -⟩ | ⟨hruns, hwf, -⟩
    · exact hrefused
    · exact nomatch he.symm.trans herr
    · have halways : runsAlways i = true := hruns.resolve_left (by rw [he]; decide)
      exact absurd ⟨i, hd, hwf, halways⟩ h

/-- In the fault state a command word is answered and nothing else, or it is RESET. -/
theorem runWord_of_fault {w : CmdWord} (he : s.regs.err = true) :
    (∃ st v, runWord w s = .next (s.respond st v)) ∨ decode w = .ok .reset := by
  by_cases h : ∃ i, decode w = .ok i ∧ i.wellFormed s.par = true ∧ runsAlways i = true
  · obtain ⟨i, hd, hwf, hruns⟩ := h
    rw [runWord_of_decode_ok hd]
    rcases (runsAlways_iff i).mp hruns with rfl | rfl | ⟨a, rfl⟩
    · exact .inl ⟨_, _, exec_nop s⟩
    · exact .inr hd
    · obtain ⟨c, hc⟩ := Option.isSome_iff_exists.mp (show (csrAt a).isSome = true from hwf)
      exact .inl ⟨_, _, exec_csrr hc s⟩
  · exact .inl ⟨_, _, runWord_refused he h⟩

end Faulted

/-- Settles O10. -/
theorem refusedWhileFaulted : Obligations.RefusedWhileFaulted := by
  intro s w rest hin he hill
  rw [step_command hin, runWord_refused (s := { s with inputs := rest }) he]
  · rfl
  · rintro ⟨i, hd, hwf, hruns⟩
    exact hill ⟨i, hd, hwf, (runsAlways_iff i).mp hruns⟩

/-- Settles O13: by the input that the step accepts; a command word that is not RESET is only answered. -/
theorem onlyResetLeavesFaultState : Obligations.OnlyResetLeavesFaultState := by
  intro s t he hstep
  cases hin : s.inputs with
  | nil =>
    obtain rfl := Host.Outcome.next.inj (hstep.symm.trans (step_waits hin))
    exact .inl ⟨rfl, rfl, rfl, rfl, rfl⟩
  | cons x rest =>
    cases x with
    | hardReset =>
      obtain rfl := Host.Outcome.next.inj (hstep.symm.trans (step_hardReset hin))
      exact .inr ⟨⟨rest, .inl rfl⟩, rfl⟩
    | hardResetDuring w n =>
      obtain ⟨u, -, rfl⟩ := step_hardResetDuring hin hstep
      exact .inr ⟨⟨rest, .inr (.inl ⟨w, n, rfl⟩)⟩, rfl⟩
    | command w =>
      rw [step_command hin] at hstep
      rcases runWord_of_fault (s := { s with inputs := rest }) (w := w) he with ⟨st, v, hrun⟩ | hd
      · obtain rfl := Host.Outcome.next.inj (hstep.symm.trans hrun)
        exact .inl ⟨rfl, rfl, rfl, rfl, rfl⟩
      · rw [runWord_of_decode_ok hd, exec_reset] at hstep
        obtain rfl := Host.Outcome.next.inj hstep
        exact .inr ⟨⟨rest, .inr (.inr ⟨w, rfl, hd⟩)⟩, rfl⟩

/-! ### RESET (47_system.md R251) -/

/-- Settles O15: RESET answers `resetBlock`, and a source that it drops gives way to the next one. -/
theorem resetCompletes : Obligations.ResetCompletes := by
  intro s
  rw [exec_reset, ← dropSource_eq]
  rfl

/-! ### `hard_reset` (70_reset_and_hazards.md R290, R291) -/

@[simp] theorem resetBlock_sinkAnswers (s : State) : (resetBlock s).env.sinkAnswers = s.env.sinkAnswers := by
  unfold resetBlock; dsimp; split <;> simp

@[simp] theorem resetBlock_openAnswers (s : State) : (resetBlock s).env.openAnswers = s.env.openAnswers := by
  unfold resetBlock; dsimp; split <;> simp

theorem resetBlock_env_of_not_read {s : State} (h : s.regs.mode ≠ .read) : (resetBlock s).env = s.env := if_neg h

/-- SINK after a `hard_reset` within a command that was to hand over `out`: the bytes of the first `n` requests. -/
theorem cutShort_sinkOut {s u : State} {out : List Byte} (h : u.env.sinkOut = s.env.sinkOut ++ out) (n : Nat) :
    (cutShort n s u).env.sinkOut = s.env.sinkOut ++ out.take n := by
  unfold cutShort
  rw [resetBlock_sinkOut, h, List.drop_left]

/-- Every command word is run to a next state, and takes no byte back from SINK. -/
theorem runWord_extendsSink (w : CmdWord) (s : State) : ∃ u, runWord w s = .next u ∧ ExtendsSink s u := by
  cases hd : decode w with
  | ok i =>
    obtain ⟨u, -, -, hexec, -⟩ := exec_answers i s
    exact ⟨u, (runWord_of_decode_ok hd s).trans hexec, exec_extendsSink hexec⟩
  | error e =>
    refine ⟨_, runWord_of_decode_error hd s, extendsSink_of_eq ?_⟩
    unfold rejectWord
    split <;> rfl

/-- A step on `hard_reset` within a command cuts short what the command would have done. -/
theorem step_cutShort {s u : State} {w : CmdWord} {n : Nat} {rest : List HostInput}
    (h : s.inputs = .hardResetDuring w n :: rest) (hrun : runWord w { s with inputs := rest } = .next u) :
    step s = .next (cutShort n { s with inputs := rest } u) := by
  simp [step, nextInput, h, hrun]

/-- Settles O8: with `hard_reset` the block is `resetBlock` of the state as it is, or of the command's state cut short. -/
theorem hardResetAndWaiting : Obligations.HardResetAndWaiting := by
  intro s
  refine ⟨step_waits, fun rest hin => ?between, fun w n rest hin => ?within⟩
  case between =>
    exact ⟨_, step_hardReset hin, rfl, rfl, rfl, rfl, rfl, resetBlock_sinkOut _, resetBlock_sinkAnswers _,
      resetBlock_openAnswers _, resetBlock_env_of_not_read⟩
  case within =>
    obtain ⟨u, hrun, out, hout⟩ := runWord_extendsSink w { s with inputs := rest }
    exact ⟨_, u, out, step_cutShort hin hrun, (step_command rfl).trans hrun, rfl, rfl, rfl, rfl, rfl, hout,
      cutShort_sinkOut hout n⟩

end Sys2Proof.Machine
end
